-- ==== Sys2Proof/Word.lean ====
section
/-! DEFINITION. Words of the machine: the widths the spec computes in. -/
namespace Sys2Proof

abbrev W8 := BitVec 8
abbrev W16 := BitVec 16
abbrev W32 := BitVec 32
abbrev W64 := BitVec 64
/-- A lane mask: bit L is lane L (R2). -/
abbrev Mask := BitVec 96

end Sys2Proof
end

