-- ==== Sys2Proof/Machine/Types.lean ====
section
/-! DEFINITION. The operand types of the instruction set and of the hardware's own events. -/
namespace Sys2Proof

/-- The fields of a 96-bit lane word other than OP (R244). -/
structure LaneWord where
  la : BitVec 4
  k : Bool
  h : Bool
  a : Bool
  t : Bool
  vd : BitVec 8
  va : BitVec 8
  vb : BitVec 8
  vc : BitVec 8
  fmt : BitVec 4
  fn : BitVec 6
  md : BitVec 6
  imm : BitVec 32
  deriving DecidableEq, Repr, Inhabited

/-- Where a fibre sits: core, sub-core, spool slot and position in the spool (R179, R401). -/
structure FKey where
  core : Nat
  sub : Nat
  slot : Nat
  pos : Nat
  deriving DecidableEq, Repr, Inhabited

/-- A gang: its domain and its GID (R180). -/
structure GKey where
  dom : Nat
  gid : Nat
  deriving DecidableEq, Repr, Inhabited

/-- An endpoint of registration messages (R105, R109): the party of a core, the home slice of a core, the
pool controllers, a link agent of another fabric member, or an inbound PCI Express route. -/
inductive Node where
  | core (c : Nat)
  | home (c : Nat)
  | pool
  | agent (pkg agent : Nat)
  | route (port rid : Nat)
  deriving DecidableEq, Repr, Inhabited

/-- The fifteen messages of R109, in table order. -/
inductive MsgKind where
  | reg | grant | revoke | rvack | ld | ldata | fwd | fdata | wb | wback | recall | xreg | push | hwr | hwack
  deriving DecidableEq, Repr, Inhabited

/-- A registration message (R109). `line` is PA ÷ 128; `mask` selects words, `bmask` bytes; `data` holds the
32 words of the line, where the message carries data. `tag` names the request the message belongs to. -/
structure Msg where
  kind : MsgKind
  src : Node
  dst : Node
  line : Nat
  mask : W32
  bmask : BitVec 128
  data : List W32
  /-- RVACK: SR bits of the words; GRANT and FDATA: the words whose SR bits made the verdict. -/
  sr : W32
  /-- poison of the carried words (R430) -/
  poison : W32
  /-- REVOKE: the new owner; FWD: the reader; XREG: the consumer -/
  party : Node
  region : Nat
  dom : Nat
  strong : Bool
  /-- race action of REVOKE and FWD, race verdict of GRANT and FDATA (R125): 0 none, 1 log, 2 trap -/
  act : Nat
  tag : Nat
  /-- WB: the answer to a RECALL; HWACK: the write was refused (R477) -/
  flag : Bool
  deriving DecidableEq, Repr, Inhabited

/-- A fabric request header (R471), decoded: word 0 and word 1 as they stand. -/
structure FabHdr where
  w0 : BitVec 64
  w1 : BitVec 64
  deriving DecidableEq, Repr, Inhabited

/-- What the start-up finds in boot flash, fuses and straps (R480, R481). -/
structure BootInput where
  /-- SHA-512 digests of the firmware stages, in load order -/
  stages : List (BitVec 512)
  /-- every stage and the configuration block verify -/
  stagesOk : Bool
  configOk : Bool
  /-- SHA-512 digest of the configuration block -/
  configDigest : BitVec 512
  pkg : BitVec 12
  /-- die mask of each configured domain, with the address of its launch record -/
  domains : List (Nat × BitVec 8 × BitVec 64)
  /-- domain bound to port 0, 1 -/
  ports : List (Nat × Nat)
  /-- DOORd initial values: domain, door, value -/
  doors : List (Nat × Nat × BitVec 64)
  powerLimit : Nat
  /-- good granules found by the self-test of a core (R63); a core not listed has all good -/
  selfTest : List (Nat × BitVec 128)
  deriving DecidableEq, Repr, Inhabited

end Sys2Proof
end

