-- ==== Sys2Proof/Syntax.lean ====
section
/-! DEFINITION. The instruction set: one constructor for each row of the opcode table (scalar words, lane words,
 valet words, and the events the hardware itself performs). -/
namespace Sys2Proof

/-- One constructor per row of the opcode table, in the table's own order. A lane word carries every field but OP.
An event carries what arrives: a message, a core and bank, a register write. -/
inductive Instr where
  | add (d : BitVec 8) (a : BitVec 8) (b : BitVec 8)
  | sub (d : BitVec 8) (a : BitVec 8) (b : BitVec 8)
  | and (d : BitVec 8) (a : BitVec 8) (b : BitVec 8)
  | or (d : BitVec 8) (a : BitVec 8) (b : BitVec 8)
  | xor (d : BitVec 8) (a : BitVec 8) (b : BitVec 8)
  | andn (d : BitVec 8) (a : BitVec 8) (b : BitVec 8)
  | shl (d : BitVec 8) (a : BitVec 8) (b : BitVec 8)
  | shr (d : BitVec 8) (a : BitVec 8) (b : BitVec 8)
  | sar (d : BitVec 8) (a : BitVec 8) (b : BitVec 8)
  | min (d : BitVec 8) (a : BitVec 8) (b : BitVec 8)
  | max (d : BitVec 8) (a : BitVec 8) (b : BitVec 8)
  | minn (d : BitVec 8) (a : BitVec 8) (b : BitVec 8)
  | maxn (d : BitVec 8) (a : BitVec 8) (b : BitVec 8)
  | slt (d : BitVec 8) (a : BitVec 8) (b : BitVec 8)
  | sltn (d : BitVec 8) (a : BitVec 8) (b : BitVec 8)
  | seq (d : BitVec 8) (a : BitVec 8) (b : BitVec 8)
  | mul (d : BitVec 8) (a : BitVec 8) (b : BitVec 8)
  | mulh (d : BitVec 8) (a : BitVec 8) (b : BitVec 8)
  | mulhn (d : BitVec 8) (a : BitVec 8) (b : BitVec 8)
  | div (d : BitVec 8) (a : BitVec 8) (b : BitVec 8)
  | divn (d : BitVec 8) (a : BitVec 8) (b : BitVec 8)
  | rem (d : BitVec 8) (a : BitVec 8) (b : BitVec 8)
  | remn (d : BitVec 8) (a : BitVec 8) (b : BitVec 8)
  | popc (d : BitVec 8) (a : BitVec 8)
  | clz (d : BitVec 8) (a : BitVec 8)
  | ctz (d : BitVec 8) (a : BitVec 8)
  | sext (d : BitVec 8) (a : BitVec 8) (w : BitVec 2)
  | zext (d : BitVec 8) (a : BitVec 8) (w : BitVec 2)
  | addi (d : BitVec 8) (a : BitVec 8) (i : BitVec 10)
  | andi (d : BitVec 8) (a : BitVec 8) (i : BitVec 10)
  | ori (d : BitVec 8) (a : BitVec 8) (i : BitVec 10)
  | xori (d : BitVec 8) (a : BitVec 8) (i : BitVec 10)
  | shli (d : BitVec 8) (a : BitVec 8) (n : BitVec 6)
  | shri (d : BitVec 8) (a : BitVec 8) (n : BitVec 6)
  | sari (d : BitVec 8) (a : BitVec 8) (n : BitVec 6)
  | slti (d : BitVec 8) (a : BitVec 8) (i : BitVec 9)
  | sltni (d : BitVec 8) (a : BitVec 8) (i : BitVec 9)
  | li (d : BitVec 8) (i : BitVec 18)
  | ldlit (d : BitVec 8) (n : BitVec 18)
  | br (a : BitVec 8) (c : BitVec 4) (o : BitVec 14)
  | jmp (o : BitVec 26)
  | call (o : BitVec 26)
  | jr (a : BitVec 8)
  | callr (a : BitVec 8)
  | ret
  | lrun (o : BitVec 22)
  | lrunr (a : BitVec 8)
  | swait (n : BitVec 8) (c : BitVec 4)
  | yield
  | twait (a : BitVec 8)
  | bar
  | fbar
  | cbar (c : BitVec 3)
  | gbar
  | cjoin (c : BitVec 3)
  | cleave (c : BitVec 3)
  | sget (d : BitVec 8) (n : BitVec 8)
  | sset (n : BitVec 8) (a : BitVec 8)
  | xacq
  | xrel
  | sld8 (d : BitVec 8) (a : BitVec 8) (p : Bool) (o : BitVec 9)
  | sld16 (d : BitVec 8) (a : BitVec 8) (p : Bool) (o : BitVec 9)
  | sld32 (d : BitVec 8) (a : BitVec 8) (p : Bool) (o : BitVec 9)
  | sld64 (d : BitVec 8) (a : BitVec 8) (p : Bool) (o : BitVec 9)
  | sst8 (d : BitVec 8) (a : BitVec 8) (p : Bool) (o : BitVec 9)
  | sst16 (d : BitVec 8) (a : BitVec 8) (p : Bool) (o : BitVec 9)
  | sst32 (d : BitVec 8) (a : BitVec 8) (p : Bool) (o : BitVec 9)
  | sst64 (d : BitVec 8) (a : BitVec 8) (p : Bool) (o : BitVec 9)
  | acq (s : BitVec 2) (a : BitVec 8)
  | rel (s : BitVec 2)
  | fence (s : BitVec 2) (a : BitVec 8)
  | rinse (a : BitVec 8)
  | sldStrong (s : BitVec 2) (o : Bool) (d : BitVec 8) (a : BitVec 8) (w : BitVec 2)
  | sstStrong (s : BitVec 2) (o : Bool) (d : BitVec 8) (a : BitVec 8) (w : BitVec 2)
  | satom (o : BitVec 2) (s : BitVec 2) (z : Bool) (d : BitVec 8) (a : BitVec 8) (x : BitVec 4)
  | scas (o : BitVec 2) (s : BitVec 2) (z : Bool) (d : BitVec 8) (a : BitVec 8)
  | chsend (c : BitVec 6) (a : BitVec 8) (p : Bool)
  | chrecv (c : BitVec 6) (d : BitVec 8) (a : BitVec 8) (p : Bool)
  | chpoll (c : BitVec 6) (d : BitVec 8)
  | satCopy (a : BitVec 8)
  | satBatch (a : BitVec 8) (n : BitVec 4)
  | satCancel (a : BitVec 8)
  | bwait (d : BitVec 8) (a : BitVec 8)
  | rowact (a : BitVec 8)
  | rowcon (a : BitVec 8) (b : Bool)
  | rowpre (a : BitVec 8)
  | rowwait (a : BitVec 8) (k : BitVec 2)
  | rowstat (d : BitVec 8) (a : BitVec 8) (k : BitVec 2)
  | hemset (h : BitVec 5) (a : BitVec 8) (t : BitVec 2)
  | hemget (d : BitVec 8) (h : BitVec 5)
  | trap (c : BitVec 8)
  | tret
  | brk (c : BitVec 8)
  | hidget (d : BitVec 8) (n : BitVec 4)
  | hidput (a : BitVec 8) (n : BitVec 4)
  | exit
  | vadd (w : LaneWord)
  | vsub (w : LaneWord)
  | vmul (w : LaneWord)
  | vmulh (w : LaneWord)
  | vmad (w : LaneWord)
  | vdiv (w : LaneWord)
  | vrem (w : LaneWord)
  | vand (w : LaneWord)
  | vor (w : LaneWord)
  | vxor (w : LaneWord)
  | vandn (w : LaneWord)
  | vshl (w : LaneWord)
  | vshr (w : LaneWord)
  | vsar (w : LaneWord)
  | vmin (w : LaneWord)
  | vmax (w : LaneWord)
  | vabs (w : LaneWord)
  | vneg (w : LaneWord)
  | vbit (w : LaneWord)
  | vsel (w : LaneWord)
  | vmov (w : LaneWord)
  | vcmp (w : LaneWord)
  | vidx (w : LaneWord)
  | vshfl (w : LaneWord)
  | vpush (w : LaneWord)
  | vswap (w : LaneWord)
  | vbcast (w : LaneWord)
  | vred (w : LaneWord)
  | vscan (w : LaneWord)
  | vballot (w : LaneWord)
  | vfirst (w : LaneWord)
  | vtos (w : LaneWord)
  | vtag (w : LaneWord)
  | vtagSet (w : LaneWord)
  | fadd (w : LaneWord)
  | fsub (w : LaneWord)
  | fmul (w : LaneWord)
  | ffma (w : LaneWord)
  | fmin (w : LaneWord)
  | fmax (w : LaneWord)
  | fsgn (w : LaneWord)
  | fsgnn (w : LaneWord)
  | fsgnx (w : LaneWord)
  | fdiv (w : LaneWord)
  | fsqrt (w : LaneWord)
  | frcp (w : LaneWord)
  | frsq (w : LaneWord)
  | fcmp (w : LaneWord)
  | fclass (w : LaneWord)
  | frnd (w : LaneWord)
  | fexp2 (w : LaneWord)
  | flog2 (w : LaneWord)
  | fsin (w : LaneWord)
  | fcos (w : LaneWord)
  | frred (w : LaneWord)
  | ftanh (w : LaneWord)
  | fscale (w : LaneWord)
  | fdot2 (w : LaneWord)
  | jseed (w : LaneWord)
  | jconst (w : LaneWord)
  | jget (w : LaneWord)
  | jput (w : LaneWord)
  | jderiv (w : LaneWord)
  | jtrunc (w : LaneWord)
  | fcvt (w : LaneWord)
  | l6pack (w : LaneWord)
  | l6unpack (w : LaneWord)
  | l6plane (w : LaneWord)
  | l6planeCode (w : LaneWord)
  | vld (w : LaneWord)
  | vst (w : LaneWord)
  | vlds (w : LaneWord)
  | vsts (w : LaneWord)
  | vatom (w : LaneWord)
  | vatoms (w : LaneWord)
  | vcas (w : LaneWord)
  | vldb (w : LaneWord)
  | vstb (w : LaneWord)
  | vpf (w : LaneWord)
  | mma (w : LaneWord)
  | mmag (w : LaneWord)
  | mzero (w : LaneWord)
  | mldacc (w : LaneWord)
  | mdrain (w : LaneWord)
  | mofence (w : LaneWord)
  | msave (w : LaneWord)
  | mresume (w : LaneWord)
  | mmodeSet (w : LaneWord)
  | mmodeRead (w : LaneWord)
  | hxAcq (s : BitVec 2) (a : BitVec 5)
  | hxRel (s : BitVec 2)
  | hxFence (s : BitVec 2) (a : BitVec 5)
  | hxRinse (a : BitVec 5)
  | hxTick (d : BitVec 5)
  | hxHsend (b : BitVec 5) (a : BitVec 5) (d : BitVec 5)
  | hxHrecv (b : BitVec 5) (a : BitVec 5) (d : BitVec 5)
  | hxPark (a : BitVec 5) (d : BitVec 5)
  | hxUnpark (a : BitVec 5) (d : BitVec 5)
  | hxFget (a : BitVec 5) (d : BitVec 5)
  | hxFput (b : BitVec 5) (a : BitVec 5) (d : BitVec 5)
  | hxFpop (a : BitVec 5) (d : BitVec 5)
  | hxRgrant (a : BitVec 5) (d : BitVec 5)
  | hxRrevoke (a : BitVec 5) (d : BitVec 5)
  | hxFstat (a : BitVec 5) (d : BitVec 5)
  | hxFenter (a : BitVec 5) (d : BitVec 5)
  | hxGkill (a : BitVec 5) (d : BitVec 5)
  | hxGrelaunch (a : BitVec 5) (d : BitVec 5)
  | valetLoad (f : BitVec 3) (a : BitVec 5) (d : BitVec 5) (i : BitVec 12)
  | valetStore (f : BitVec 3) (a : BitVec 5) (b : BitVec 5) (i : BitVec 12)
  | valetLr (z : Bool) (q : Bool) (l : Bool) (a : BitVec 5) (d : BitVec 5)
  | valetSc (z : Bool) (q : Bool) (l : Bool) (b : BitVec 5) (a : BitVec 5) (d : BitVec 5)
  | valetAmo (f : BitVec 5) (z : Bool) (q : Bool) (l : Bool) (b : BitVec 5) (a : BitVec 5) (d : BitVec 5)
  | valetFence (m : BitVec 4) (p : BitVec 4) (q : BitVec 4)
  | valetFenceI
  | msgReg (m : Msg)
  | msgGrant (m : Msg)
  | msgRevoke (m : Msg)
  | msgRvack (m : Msg)
  | msgLd (m : Msg)
  | msgLdata (m : Msg)
  | msgFwd (m : Msg)
  | msgFdata (m : Msg)
  | msgWb (m : Msg)
  | msgWback (m : Msg)
  | msgRecall (m : Msg)
  | msgXreg (m : Msg)
  | msgPush (m : Msg)
  | msgHwr (m : Msg)
  | msgHwack (m : Msg)
  | sliceFill (line : Nat)
  | pageWalk (c : Nat) (slot : Nat)
  | rowPerformance (c : Nat)
  | twaitSlot (c : Nat) (u : Nat)
  | refreshSlotStart (c : Nat) (b : Nat)
  | refreshSlotEnd (c : Nat) (b : Nat)
  | controllerPrecharge (c : Nat) (b : Nat)
  | bankIdle (c : Nat) (b : Nat)
  | boltScrub (c : Nat) (q : Nat)
  | placementBoundExpiry (d : Nat)
  | bastingPad (c : Nat)
  | pcSample (c : Nat)
  | tracePeriodicSync (c : Nat)
  | checkpoint (d : Nat)
  | refreshBorrowStart (c : Nat) (b : Nat)
  | grantEndPrecharge (c : Nat) (b : Nat)
  | grantLive (c : Nat) (g : Nat)
  | pressOpStart (c : Nat) (p : Nat)
  | pressOpComplete (c : Nat) (p : Nat)
  | satchelStart (n : Nat)
  | satchelLineCopy (n : Nat)
  | hamperEnqueue (n : Nat)
  | hamperDequeue (n : Nat)
  | remoteLoadTimeout (k : FKey)
  | evictionChoice (d : Nat)
  | gangSaveComplete (g : GKey)
  | placement (d : Nat)
  | hotFlag (c : Nat)
  | hotResidencyExpiry (g : GKey)
  | hotFlagClear (c : Nat)
  | tinvPage (d : Nat) (v : BitVec 64)
  | tinvLargePage (d : Nat) (v : BitVec 64)
  | tinvDomain (d : Nat) (v : BitVec 64)
  | tinvComplete (d : Nat)
  | granuleRetire (c : Nat) (hi : Bool) (v : BitVec 64)
  | bankMark (c : Nat) (q : Nat) (v : BitVec 64)
  | coreRetire (c : Nat) (v : BitVec 64)
  | forwardEntryEnable (d : Nat) (n : Nat) (v : BitVec 64)
  | forwardEntryFree (d : Nat) (n : Nat) (v : BitVec 64)
  | traceEnable (c : Nat) (v : BitVec 64)
  | bastingReadAdvance (c : Nat) (v : BitVec 64)
  | bastingLineDrain (c : Nat)
  | traceResync (c : Nat)
  | recordingEnable (d : Nat) (v : BitVec 64)
  | replayStart (d : Nat) (v : BitVec 64)
  | registerWrite (pa : Nat) (n : Nat) (v : BitVec 64)
  | attestationRequest (nonce : BitVec 512)
  | attestationReport
  | doorEnqueue (d : Nat) (n : Nat) (item : BitVec 512)
  | doorDequeue (d : Nat) (n : Nat)
  | fabricRd (k : Nat) (h : FabHdr)
  | fabricWr (k : Nat) (h : FabHdr) (v : BitVec 1024)
  | fabricRdCompletion (k : Nat) (h : FabHdr) (v : BitVec 1024)
  | fabricWrCompletion (k : Nat) (h : FabHdr)
  | fabricMsg (k : Nat) (h : FabHdr) (m : Msg)
  | linkDown (k : Nat)
  | linkUp (k : Nat)
  | agentRetire (p : Nat) (a : Nat)
  | pciePostedWrite (port : Nat) (rid : Nat) (va : BitVec 64) (data : List (BitVec 8)) (ro : Bool)
  | pcieMemoryRead (port : Nat) (rid : Nat) (va : BitVec 64) (n : Nat)
  | clockStep (c : Nat) (mhz : Nat)
  | clockGate (c : Nat)
  | moduleReset (b : BootInput)
  | domainStart (d : Nat)
  | longResultWriteback (k : FKey)
  | scalarDivideComplete (k : FKey)
  | scratchAccessPerformed (n : Nat)
  | ioApertureCompletion (n : Nat) (v : BitVec 64)
  | l2TlbHit (c : Nat) (slot : Nat)
  | rowwaitComplete (k : FKey)
  | clockUngate (c : Nat)
  | fabricReservedFlit (k : Nat) (h : FabHdr)
  deriving DecidableEq, Repr

end Sys2Proof
end

