-- ==== Sys2Proof/WellFormed.lean ====
section
/-! DEFINITION. Which terms are instructions: the field assignments of R238 to R242 that a constructor's types
do not enforce. A term that fails is a word that traps ILLEGAL (R243 step 2). -/
namespace Sys2Proof

/-- A scalar register field names s0 to s191 (R237, R238). -/
def isSreg (r : BitVec 8) : Bool := r.toNat < 192

/-- Special register numbers of R241. -/
def isSpecial (n : BitVec 8) : Bool :=
  let k := n.toNat
  k ≤ 6 || (8 ≤ k && k ≤ 12) || (16 ≤ k && k ≤ 20) || k == 24 || k == 25

/-- Special registers that sset may name: RW and H of R241. -/
def isWritableSpecial (n : BitVec 8) : Bool :=
  let k := n.toNat
  (8 ≤ k && k ≤ 12) || (16 ≤ k && k ≤ 20)

/-- AMO functions of the RISC-V A extension other than LR and SC. -/
def isAmo (f : BitVec 5) : Bool := [0, 1, 4, 8, 12, 16, 20, 24, 28].contains f.toNat

/-- The field checks of a term. Lane words are checked when they issue, because a word with no active lane is
not (R247); their terms only keep the rows of one OP apart by FN. -/
def Instr.wf : Instr → Bool
  | .add d a b => isSreg d && isSreg a && isSreg b
  | .sub d a b => isSreg d && isSreg a && isSreg b
  | .and d a b => isSreg d && isSreg a && isSreg b
  | .or d a b => isSreg d && isSreg a && isSreg b
  | .xor d a b => isSreg d && isSreg a && isSreg b
  | .andn d a b => isSreg d && isSreg a && isSreg b
  | .shl d a b => isSreg d && isSreg a && isSreg b
  | .shr d a b => isSreg d && isSreg a && isSreg b
  | .sar d a b => isSreg d && isSreg a && isSreg b
  | .min d a b => isSreg d && isSreg a && isSreg b
  | .max d a b => isSreg d && isSreg a && isSreg b
  | .minn d a b => isSreg d && isSreg a && isSreg b
  | .maxn d a b => isSreg d && isSreg a && isSreg b
  | .slt d a b => isSreg d && isSreg a && isSreg b
  | .sltn d a b => isSreg d && isSreg a && isSreg b
  | .seq d a b => isSreg d && isSreg a && isSreg b
  | .mul d a b => isSreg d && isSreg a && isSreg b
  | .mulh d a b => isSreg d && isSreg a && isSreg b
  | .mulhn d a b => isSreg d && isSreg a && isSreg b
  | .div d a b => isSreg d && isSreg a && isSreg b
  | .divn d a b => isSreg d && isSreg a && isSreg b
  | .rem d a b => isSreg d && isSreg a && isSreg b
  | .remn d a b => isSreg d && isSreg a && isSreg b
  | .popc d a => isSreg d && isSreg a
  | .clz d a => isSreg d && isSreg a
  | .ctz d a => isSreg d && isSreg a
  | .sext d a w => isSreg d && isSreg a && w.toNat ≤ 2
  | .zext d a w => isSreg d && isSreg a && w.toNat ≤ 2
  | .addi d a _ => isSreg d && isSreg a
  | .andi d a _ => isSreg d && isSreg a
  | .ori d a _ => isSreg d && isSreg a
  | .xori d a _ => isSreg d && isSreg a
  | .shli d a _ => isSreg d && isSreg a
  | .shri d a _ => isSreg d && isSreg a
  | .sari d a _ => isSreg d && isSreg a
  | .slti d a _ => isSreg d && isSreg a
  | .sltni d a _ => isSreg d && isSreg a
  | .li d _ => isSreg d
  | .ldlit d _ => isSreg d
  | .br a c _ => c.toNat ≤ 8 && (c.toNat < 6 || a == 0) && isSreg a
  | .jmp _ => true
  | .call _ => true
  | .jr a => isSreg a
  | .callr a => isSreg a
  | .ret => true
  | .lrun _ => true
  | .lrunr a => isSreg a
  | .swait _ c => c.toNat ≤ 5
  | .yield => true
  | .twait a => isSreg a
  | .bar => true
  | .fbar => true
  | .cbar _ => true
  | .gbar => true
  | .cjoin _ => true
  | .cleave _ => true
  | .sget d n => isSreg d && isSpecial n
  | .sset n a => isWritableSpecial n && isSreg a
  | .xacq => true
  | .xrel => true
  | .sld8 d a _ _ => isSreg d && isSreg a
  | .sld16 d a _ _ => isSreg d && isSreg a
  | .sld32 d a _ _ => isSreg d && isSreg a
  | .sld64 d a _ _ => isSreg d && isSreg a
  | .sst8 d a _ _ => isSreg d && isSreg a
  | .sst16 d a _ _ => isSreg d && isSreg a
  | .sst32 d a _ _ => isSreg d && isSreg a
  | .sst64 d a _ _ => isSreg d && isSreg a
  | .acq _ a => isSreg a
  | .rel _ => true
  | .fence _ a => isSreg a
  | .rinse a => isSreg a
  | .sldStrong _ _ d a _ => isSreg d && isSreg a
  | .sstStrong _ _ d a _ => isSreg d && isSreg a
  | .satom _ _ _ d a x => isSreg d && isSreg a && x.toNat ≤ 8
  | .scas _ _ _ d a => isSreg d && isSreg a && d.toNat % 2 == 0
  | .chsend _ a _ => isSreg a
  | .chrecv _ d a _ => isSreg d && isSreg a
  | .chpoll _ d => isSreg d
  | .satCopy a => isSreg a
  | .satBatch a _ => isSreg a
  | .satCancel a => isSreg a
  | .bwait d a => isSreg d && isSreg a
  | .rowact a => isSreg a
  | .rowcon a _ => isSreg a
  | .rowpre a => isSreg a
  | .rowwait a k => isSreg a && k.toNat ≤ 2
  | .rowstat d a _ => isSreg d && isSreg a
  | .hemset _ a t => isSreg a && t.toNat ≤ 2
  | .hemget d _ => isSreg d
  | .trap _ => true
  | .tret => true
  | .brk _ => true
  | .hidget d _ => isSreg d
  | .hidput a _ => isSreg a
  | .exit => true
  | .vadd _ => true
  | .vsub _ => true
  | .vmul _ => true
  | .vmulh _ => true
  | .vmad _ => true
  | .vdiv _ => true
  | .vrem _ => true
  | .vand _ => true
  | .vor _ => true
  | .vxor _ => true
  | .vandn _ => true
  | .vshl _ => true
  | .vshr _ => true
  | .vsar _ => true
  | .vmin _ => true
  | .vmax _ => true
  | .vabs _ => true
  | .vneg _ => true
  | .vbit _ => true
  | .vsel _ => true
  | .vmov _ => true
  | .vcmp _ => true
  | .vidx _ => true
  | .vshfl _ => true
  | .vpush _ => true
  | .vswap _ => true
  | .vbcast _ => true
  | .vred _ => true
  | .vscan _ => true
  | .vballot _ => true
  | .vfirst _ => true
  | .vtos _ => true
  | .vtag w => w.fn != 1
  | .vtagSet w => w.fn == 1
  | .fadd _ => true
  | .fsub _ => true
  | .fmul _ => true
  | .ffma _ => true
  | .fmin _ => true
  | .fmax _ => true
  | .fsgn w => w.fn != 1 && w.fn != 2
  | .fsgnn w => w.fn == 1
  | .fsgnx w => w.fn == 2
  | .fdiv _ => true
  | .fsqrt _ => true
  | .frcp _ => true
  | .frsq _ => true
  | .fcmp _ => true
  | .fclass _ => true
  | .frnd _ => true
  | .fexp2 _ => true
  | .flog2 _ => true
  | .fsin _ => true
  | .fcos _ => true
  | .frred _ => true
  | .ftanh _ => true
  | .fscale _ => true
  | .fdot2 _ => true
  | .jseed _ => true
  | .jconst _ => true
  | .jget _ => true
  | .jput _ => true
  | .jderiv _ => true
  | .jtrunc _ => true
  | .fcvt _ => true
  | .l6pack _ => true
  | .l6unpack _ => true
  | .l6plane w => w.fn != 1
  | .l6planeCode w => w.fn == 1
  | .vld _ => true
  | .vst _ => true
  | .vlds _ => true
  | .vsts _ => true
  | .vatom _ => true
  | .vatoms _ => true
  | .vcas _ => true
  | .vldb _ => true
  | .vstb _ => true
  | .vpf _ => true
  | .mma _ => true
  | .mmag _ => true
  | .mzero _ => true
  | .mldacc _ => true
  | .mdrain _ => true
  | .mofence _ => true
  | .msave _ => true
  | .mresume _ => true
  | .mmodeSet w => w.fn != 1
  | .mmodeRead w => w.fn == 1
  | .hxAcq _ _ => true
  | .hxRel _ => true
  | .hxFence _ _ => true
  | .hxRinse _ => true
  | .hxTick _ => true
  | .hxHsend _ _ _ => true
  | .hxHrecv _ _ _ => true
  | .hxPark _ _ => true
  | .hxUnpark _ _ => true
  | .hxFget _ _ => true
  | .hxFput _ _ _ => true
  | .hxFpop _ _ => true
  | .hxRgrant _ _ => true
  | .hxRrevoke _ _ => true
  | .hxFstat _ _ => true
  | .hxFenter _ _ => true
  | .hxGkill _ _ => true
  | .hxGrelaunch _ _ => true
  | .valetLoad f _ _ _ => f.toNat ≤ 6
  | .valetStore f _ _ _ => f.toNat ≤ 3
  | .valetLr _ _ _ _ _ => true
  | .valetSc _ _ _ _ _ _ => true
  | .valetAmo f _ _ _ _ _ _ => isAmo f
  | .valetFence _ _ _ => true
  | .valetFenceI => true
  | .msgReg _ => true
  | .msgGrant _ => true
  | .msgRevoke _ => true
  | .msgRvack _ => true
  | .msgLd _ => true
  | .msgLdata _ => true
  | .msgFwd _ => true
  | .msgFdata _ => true
  | .msgWb _ => true
  | .msgWback _ => true
  | .msgRecall _ => true
  | .msgXreg _ => true
  | .msgPush _ => true
  | .msgHwr _ => true
  | .msgHwack _ => true
  | .sliceFill _ => true
  | .pageWalk _ _ => true
  | .rowPerformance _ => true
  | .twaitSlot _ _ => true
  | .refreshSlotStart _ _ => true
  | .refreshSlotEnd _ _ => true
  | .controllerPrecharge _ _ => true
  | .bankIdle _ _ => true
  | .boltScrub _ _ => true
  | .grantLive _ _ => true
  | .pressOpStart _ _ => true
  | .pressOpComplete _ _ => true
  | .satchelStart _ => true
  | .satchelLineCopy _ => true
  | .hamperEnqueue _ => true
  | .hamperDequeue _ => true
  | .remoteLoadTimeout _ => true
  | .evictionChoice _ => true
  | .gangSaveComplete _ => true
  | .placement _ => true
  | .placementBoundExpiry _ => true
  | .hotFlag _ => true
  | .hotResidencyExpiry _ => true
  | .hotFlagClear _ => true
  | .tinvPage _ _ => true
  | .tinvLargePage _ _ => true
  | .tinvDomain _ _ => true
  | .tinvComplete _ => true
  | .granuleRetire _ _ _ => true
  | .bankMark _ _ _ => true
  | .coreRetire _ _ => true
  | .forwardEntryEnable _ _ _ => true
  | .forwardEntryFree _ _ _ => true
  | .traceEnable _ _ => true
  | .bastingReadAdvance _ _ => true
  | .bastingLineDrain _ => true
  | .bastingPad _ => true
  | .pcSample _ => true
  | .tracePeriodicSync _ => true
  | .traceResync _ => true
  | .recordingEnable _ _ => true
  | .checkpoint _ => true
  | .replayStart _ _ => true
  | .registerWrite _ _ _ => true
  | .attestationRequest _ => true
  | .attestationReport => true
  | .doorEnqueue _ _ _ => true
  | .doorDequeue _ _ => true
  | .fabricRd _ _ => true
  | .fabricWr _ _ _ => true
  | .fabricRdCompletion _ _ _ => true
  | .fabricWrCompletion _ _ => true
  | .fabricMsg _ _ _ => true
  | .linkDown _ => true
  | .linkUp _ => true
  | .agentRetire _ _ => true
  | .pciePostedWrite _ _ _ _ _ => true
  | .pcieMemoryRead _ _ _ _ => true
  | .clockStep _ _ => true
  | .clockGate _ => true
  | .moduleReset _ => true
  | .domainStart _ => true
  | .longResultWriteback _ => true
  | .scalarDivideComplete _ => true
  | .scratchAccessPerformed _ => true
  | .ioApertureCompletion _ _ => true
  | .l2TlbHit _ _ => true
  | .refreshBorrowStart _ _ => true
  | .grantEndPrecharge _ _ => true
  | .rowwaitComplete _ => true
  | .clockUngate _ => true
  | .fabricReservedFlit _ _ => true

end Sys2Proof
end

