-- ==== Sys2Proof/Decode.lean ====
section
/-! DEFINITION. Reading words: a scalar word (R237 to R243), a lane word (R244, R246), a valet word (R398 to
R401 and the RISC-V words of R154 and R436). Every function is total; a word that is no instruction is rejected
with the cause its fate names. After the decoders stand the encoders, written from the same tables. -/
namespace Sys2Proof

/-- What a decoder answers: an instruction, or the fate of a word that is none (R243, R247). -/
inductive Decoded where
  | ok (i : Instr)
  /-- ILLEGAL -/
  | illegal
  /-- RESERVED_MAJOR -/
  | reservedMajor
  /-- PRIVILEGED: vendor diagnostic majors -/
  | privileged
  deriving DecidableEq, Repr

/-- The rows of one scalar major, with their fixed fields (R238, R239, R96, R393). -/
def scalarRow (w : BitVec 32) : Option Instr :=
  match (w.extractLsb' 26 6).toNat with
  | 1 =>
    if w.extractLsb' 0 2 = 0 then some (.add (w.extractLsb' 18 8) (w.extractLsb' 10 8) (w.extractLsb' 2 8))
    else if w.extractLsb' 0 2 = 1 then some (.sub (w.extractLsb' 18 8) (w.extractLsb' 10 8) (w.extractLsb' 2 8))
    else if w.extractLsb' 0 2 = 2 then some (.and (w.extractLsb' 18 8) (w.extractLsb' 10 8) (w.extractLsb' 2 8))
    else if w.extractLsb' 0 2 = 3 then some (.or (w.extractLsb' 18 8) (w.extractLsb' 10 8) (w.extractLsb' 2 8))
    else none
  | 2 =>
    if w.extractLsb' 0 2 = 0 then some (.xor (w.extractLsb' 18 8) (w.extractLsb' 10 8) (w.extractLsb' 2 8))
    else if w.extractLsb' 0 2 = 1 then some (.andn (w.extractLsb' 18 8) (w.extractLsb' 10 8) (w.extractLsb' 2 8))
    else if w.extractLsb' 0 2 = 2 then some (.shl (w.extractLsb' 18 8) (w.extractLsb' 10 8) (w.extractLsb' 2 8))
    else if w.extractLsb' 0 2 = 3 then some (.shr (w.extractLsb' 18 8) (w.extractLsb' 10 8) (w.extractLsb' 2 8))
    else none
  | 3 =>
    if w.extractLsb' 0 2 = 0 then some (.sar (w.extractLsb' 18 8) (w.extractLsb' 10 8) (w.extractLsb' 2 8))
    else if w.extractLsb' 0 2 = 1 then some (.min (w.extractLsb' 18 8) (w.extractLsb' 10 8) (w.extractLsb' 2 8))
    else if w.extractLsb' 0 2 = 2 then some (.max (w.extractLsb' 18 8) (w.extractLsb' 10 8) (w.extractLsb' 2 8))
    else if w.extractLsb' 0 2 = 3 then some (.minn (w.extractLsb' 18 8) (w.extractLsb' 10 8) (w.extractLsb' 2 8))
    else none
  | 4 =>
    if w.extractLsb' 0 2 = 0 then some (.maxn (w.extractLsb' 18 8) (w.extractLsb' 10 8) (w.extractLsb' 2 8))
    else if w.extractLsb' 0 2 = 1 then some (.slt (w.extractLsb' 18 8) (w.extractLsb' 10 8) (w.extractLsb' 2 8))
    else if w.extractLsb' 0 2 = 2 then some (.sltn (w.extractLsb' 18 8) (w.extractLsb' 10 8) (w.extractLsb' 2 8))
    else if w.extractLsb' 0 2 = 3 then some (.seq (w.extractLsb' 18 8) (w.extractLsb' 10 8) (w.extractLsb' 2 8))
    else none
  | 5 =>
    if w.extractLsb' 0 2 = 0 then some (.mul (w.extractLsb' 18 8) (w.extractLsb' 10 8) (w.extractLsb' 2 8))
    else if w.extractLsb' 0 2 = 1 then some (.mulh (w.extractLsb' 18 8) (w.extractLsb' 10 8) (w.extractLsb' 2 8))
    else if w.extractLsb' 0 2 = 2 then some (.mulhn (w.extractLsb' 18 8) (w.extractLsb' 10 8) (w.extractLsb' 2 8))
    else none
  | 6 =>
    if w.extractLsb' 0 2 = 0 then some (.div (w.extractLsb' 18 8) (w.extractLsb' 10 8) (w.extractLsb' 2 8))
    else if w.extractLsb' 0 2 = 1 then some (.divn (w.extractLsb' 18 8) (w.extractLsb' 10 8) (w.extractLsb' 2 8))
    else if w.extractLsb' 0 2 = 2 then some (.rem (w.extractLsb' 18 8) (w.extractLsb' 10 8) (w.extractLsb' 2 8))
    else if w.extractLsb' 0 2 = 3 then some (.remn (w.extractLsb' 18 8) (w.extractLsb' 10 8) (w.extractLsb' 2 8))
    else none
  | 7 =>
    if w.extractLsb' 0 4 = 0 ∧ w.extractLsb' 20 6 = 0 then some (.popc (w.extractLsb' 12 8) (w.extractLsb' 4 8))
    else if w.extractLsb' 0 4 = 0 ∧ w.extractLsb' 20 6 = 1 then some (.clz (w.extractLsb' 12 8) (w.extractLsb' 4 8))
    else if w.extractLsb' 0 4 = 0 ∧ w.extractLsb' 20 6 = 2 then some (.ctz (w.extractLsb' 12 8) (w.extractLsb' 4 8))
    else if w.extractLsb' 2 2 = 0 ∧ w.extractLsb' 20 6 = 3 then some (.sext (w.extractLsb' 12 8) (w.extractLsb' 4 8) (w.extractLsb' 0 2))
    else if w.extractLsb' 2 2 = 0 ∧ w.extractLsb' 20 6 = 4 then some (.zext (w.extractLsb' 12 8) (w.extractLsb' 4 8) (w.extractLsb' 0 2))
    else none
  | 8 =>
    some (.addi (w.extractLsb' 18 8) (w.extractLsb' 10 8) (w.extractLsb' 0 10))
  | 9 =>
    some (.andi (w.extractLsb' 18 8) (w.extractLsb' 10 8) (w.extractLsb' 0 10))
  | 10 =>
    some (.ori (w.extractLsb' 18 8) (w.extractLsb' 10 8) (w.extractLsb' 0 10))
  | 11 =>
    some (.xori (w.extractLsb' 18 8) (w.extractLsb' 10 8) (w.extractLsb' 0 10))
  | 12 =>
    if w.extractLsb' 6 4 = 0 then some (.shli (w.extractLsb' 18 8) (w.extractLsb' 10 8) (w.extractLsb' 0 6))
    else if w.extractLsb' 6 4 = 4 then some (.shri (w.extractLsb' 18 8) (w.extractLsb' 10 8) (w.extractLsb' 0 6))
    else if w.extractLsb' 6 4 = 8 then some (.sari (w.extractLsb' 18 8) (w.extractLsb' 10 8) (w.extractLsb' 0 6))
    else none
  | 13 =>
    if w.extractLsb' 9 1 = 0 then some (.slti (w.extractLsb' 18 8) (w.extractLsb' 10 8) (w.extractLsb' 0 9))
    else if w.extractLsb' 9 1 = 1 then some (.sltni (w.extractLsb' 18 8) (w.extractLsb' 10 8) (w.extractLsb' 0 9))
    else none
  | 14 =>
    some (.li (w.extractLsb' 18 8) (w.extractLsb' 0 18))
  | 15 =>
    some (.ldlit (w.extractLsb' 18 8) (w.extractLsb' 0 18))
  | 16 =>
    some (.br (w.extractLsb' 18 8) (w.extractLsb' 14 4) (w.extractLsb' 0 14))
  | 17 =>
    some (.jmp (w.extractLsb' 0 26))
  | 18 =>
    some (.call (w.extractLsb' 0 26))
  | 19 =>
    if w.extractLsb' 0 10 = 0 ∧ w.extractLsb' 18 8 = 0 then some (.jr (w.extractLsb' 10 8))
    else if w.extractLsb' 0 10 = 1 ∧ w.extractLsb' 18 8 = 0 then some (.callr (w.extractLsb' 10 8))
    else if w.extractLsb' 0 26 = 2 then some (.ret)
    else none
  | 20 =>
    if w.extractLsb' 22 4 = 0 then some (.lrun (w.extractLsb' 0 22))
    else none
  | 21 =>
    if w.extractLsb' 0 4 = 0 ∧ w.extractLsb' 12 14 = 0 then some (.lrunr (w.extractLsb' 4 8))
    else none
  | 22 =>
    if w.extractLsb' 4 8 = 0 ∧ w.extractLsb' 20 6 = 0 then some (.swait (w.extractLsb' 12 8) (w.extractLsb' 0 4))
    else if w.extractLsb' 0 26 = 1048576 then some (.yield)
    else if w.extractLsb' 0 4 = 0 ∧ w.extractLsb' 12 14 = 512 then some (.twait (w.extractLsb' 4 8))
    else none
  | 23 =>
    if w.extractLsb' 0 26 = 0 then some (.bar)
    else if w.extractLsb' 0 26 = 1048576 then some (.fbar)
    else if w.extractLsb' 3 23 = 262144 then some (.cbar (w.extractLsb' 0 3))
    else if w.extractLsb' 0 26 = 3145728 then some (.gbar)
    else if w.extractLsb' 3 23 = 524288 then some (.cjoin (w.extractLsb' 0 3))
    else if w.extractLsb' 3 23 = 655360 then some (.cleave (w.extractLsb' 0 3))
    else none
  | 24 =>
    if w.extractLsb' 0 4 = 0 ∧ w.extractLsb' 20 6 = 0 then some (.sget (w.extractLsb' 12 8) (w.extractLsb' 4 8))
    else if w.extractLsb' 0 4 = 0 ∧ w.extractLsb' 20 6 = 1 then some (.sset (w.extractLsb' 12 8) (w.extractLsb' 4 8))
    else if w.extractLsb' 0 26 = 2097152 then some (.xacq)
    else if w.extractLsb' 0 26 = 3145728 then some (.xrel)
    else none
  | 25 =>
    some (.sld8 (w.extractLsb' 18 8) (w.extractLsb' 10 8) (w.getLsbD 9) (w.extractLsb' 0 9))
  | 26 =>
    some (.sld16 (w.extractLsb' 18 8) (w.extractLsb' 10 8) (w.getLsbD 9) (w.extractLsb' 0 9))
  | 27 =>
    some (.sld32 (w.extractLsb' 18 8) (w.extractLsb' 10 8) (w.getLsbD 9) (w.extractLsb' 0 9))
  | 28 =>
    some (.sld64 (w.extractLsb' 18 8) (w.extractLsb' 10 8) (w.getLsbD 9) (w.extractLsb' 0 9))
  | 29 =>
    some (.sst8 (w.extractLsb' 18 8) (w.extractLsb' 10 8) (w.getLsbD 9) (w.extractLsb' 0 9))
  | 30 =>
    some (.sst16 (w.extractLsb' 18 8) (w.extractLsb' 10 8) (w.getLsbD 9) (w.extractLsb' 0 9))
  | 31 =>
    some (.sst32 (w.extractLsb' 18 8) (w.extractLsb' 10 8) (w.getLsbD 9) (w.extractLsb' 0 9))
  | 32 =>
    some (.sst64 (w.extractLsb' 18 8) (w.extractLsb' 10 8) (w.getLsbD 9) (w.extractLsb' 0 9))
  | 33 =>
    if w.extractLsb' 0 4 = 0 ∧ w.extractLsb' 12 10 = 0 ∧ w.extractLsb' 24 2 = 0 then some (.acq (w.extractLsb' 22 2) (w.extractLsb' 4 8))
    else if w.extractLsb' 0 22 = 1048576 ∧ w.extractLsb' 24 2 = 0 then some (.rel (w.extractLsb' 22 2))
    else if w.extractLsb' 0 4 = 0 ∧ w.extractLsb' 12 10 = 512 ∧ w.extractLsb' 24 2 = 0 then some (.fence (w.extractLsb' 22 2) (w.extractLsb' 4 8))
    else if w.extractLsb' 0 4 = 0 ∧ w.extractLsb' 12 14 = 768 then some (.rinse (w.extractLsb' 4 8))
    else if w.extractLsb' 2 2 = 0 ∧ w.extractLsb' 21 1 = 0 ∧ w.extractLsb' 24 2 = 1 then some (.sldStrong (w.extractLsb' 22 2) (w.getLsbD 20) (w.extractLsb' 12 8) (w.extractLsb' 4 8) (w.extractLsb' 0 2))
    else if w.extractLsb' 2 2 = 0 ∧ w.extractLsb' 21 1 = 0 ∧ w.extractLsb' 24 2 = 2 then some (.sstStrong (w.extractLsb' 22 2) (w.getLsbD 20) (w.extractLsb' 12 8) (w.extractLsb' 4 8) (w.extractLsb' 0 2))
    else none
  | 34 =>
    if w.extractLsb' 25 1 = 0 then some (.satom (w.extractLsb' 23 2) (w.extractLsb' 21 2) (w.getLsbD 20) (w.extractLsb' 12 8) (w.extractLsb' 4 8) (w.extractLsb' 0 4))
    else if w.extractLsb' 0 4 = 0 ∧ w.extractLsb' 25 1 = 1 then some (.scas (w.extractLsb' 23 2) (w.extractLsb' 21 2) (w.getLsbD 20) (w.extractLsb' 12 8) (w.extractLsb' 4 8))
    else none
  | 35 =>
    if w.extractLsb' 1 1 = 0 ∧ w.extractLsb' 10 8 = 0 ∧ w.extractLsb' 24 2 = 0 then some (.chsend (w.extractLsb' 18 6) (w.extractLsb' 2 8) (w.getLsbD 0))
    else if w.extractLsb' 1 1 = 0 ∧ w.extractLsb' 24 2 = 1 then some (.chrecv (w.extractLsb' 18 6) (w.extractLsb' 10 8) (w.extractLsb' 2 8) (w.getLsbD 0))
    else if w.extractLsb' 0 10 = 0 ∧ w.extractLsb' 24 2 = 2 then some (.chpoll (w.extractLsb' 18 6) (w.extractLsb' 10 8))
    else none
  | 36 =>
    if w.extractLsb' 0 4 = 0 ∧ w.extractLsb' 12 14 = 0 then some (.satCopy (w.extractLsb' 4 8))
    else if w.extractLsb' 12 14 = 256 then some (.satBatch (w.extractLsb' 4 8) (w.extractLsb' 0 4))
    else if w.extractLsb' 0 4 = 0 ∧ w.extractLsb' 12 14 = 512 then some (.satCancel (w.extractLsb' 4 8))
    else if w.extractLsb' 0 4 = 0 ∧ w.extractLsb' 20 6 = 3 then some (.bwait (w.extractLsb' 12 8) (w.extractLsb' 4 8))
    else none
  | 37 =>
    if w.extractLsb' 0 4 = 0 ∧ w.extractLsb' 12 14 = 0 then some (.rowact (w.extractLsb' 4 8))
    else if w.extractLsb' 1 3 = 0 ∧ w.extractLsb' 12 14 = 256 then some (.rowcon (w.extractLsb' 4 8) (w.getLsbD 0))
    else if w.extractLsb' 0 4 = 0 ∧ w.extractLsb' 12 14 = 512 then some (.rowpre (w.extractLsb' 4 8))
    else if w.extractLsb' 2 2 = 0 ∧ w.extractLsb' 12 14 = 768 then some (.rowwait (w.extractLsb' 4 8) (w.extractLsb' 0 2))
    else if w.extractLsb' 2 2 = 0 ∧ w.extractLsb' 20 6 = 4 then some (.rowstat (w.extractLsb' 12 8) (w.extractLsb' 4 8) (w.extractLsb' 0 2))
    else none
  | 38 =>
    if w.extractLsb' 2 2 = 0 ∧ w.extractLsb' 17 9 = 0 then some (.hemset (w.extractLsb' 12 5) (w.extractLsb' 4 8) (w.extractLsb' 0 2))
    else if w.extractLsb' 0 4 = 0 ∧ w.extractLsb' 9 3 = 0 ∧ w.extractLsb' 20 6 = 1 then some (.hemget (w.extractLsb' 12 8) (w.extractLsb' 4 5))
    else none
  | 39 =>
    if w.extractLsb' 0 4 = 0 ∧ w.extractLsb' 12 14 = 0 then some (.trap (w.extractLsb' 4 8))
    else if w.extractLsb' 0 26 = 1048576 then some (.tret)
    else if w.extractLsb' 0 4 = 0 ∧ w.extractLsb' 12 14 = 512 then some (.brk (w.extractLsb' 4 8))
    else if w.extractLsb' 4 8 = 0 ∧ w.extractLsb' 20 6 = 3 then some (.hidget (w.extractLsb' 12 8) (w.extractLsb' 0 4))
    else if w.extractLsb' 12 14 = 1024 then some (.hidput (w.extractLsb' 4 8) (w.extractLsb' 0 4))
    else if w.extractLsb' 0 26 = 5242880 then some (.exit)
    else none
  | _ => none

/-- A scalar word, with the checks of R243 steps 1 and 2. -/
def decodeScalar (w : BitVec 32) : Decoded :=
  let m := (w.extractLsb' 26 6).toNat
  if 0x28 ≤ m ∧ m ≤ 0x3B then .reservedMajor
  else if 0x3C ≤ m ∧ m ≤ 0x3E then .privileged
  else match scalarRow w with
    | some i => if i.wf then .ok i else .illegal
    | none => .illegal

/-- The fields of a lane word other than OP (R244). -/
def laneFields (w : BitVec 96) : LaneWord where
  la := w.extractLsb' 84 4
  k := w.getLsbD 83
  h := w.getLsbD 82
  a := w.getLsbD 81
  t := w.getLsbD 80
  vd := w.extractLsb' 72 8
  va := w.extractLsb' 64 8
  vb := w.extractLsb' 56 8
  vc := w.extractLsb' 48 8
  fmt := w.extractLsb' 44 4
  fn := w.extractLsb' 38 6
  md := w.extractLsb' 32 6
  imm := w.extractLsb' 0 32

/-- The lane majors of R246; one OP that the table lists as several rows is told apart by FN. -/
def laneRow (op : Nat) (l : LaneWord) : Option Instr :=
  match op with
  | 1 => some (.vadd l)
  | 2 => some (.vsub l)
  | 3 => some (.vmul l)
  | 4 => some (.vmulh l)
  | 5 => some (.vmad l)
  | 6 => some (.vdiv l)
  | 7 => some (.vrem l)
  | 8 => some (.vand l)
  | 9 => some (.vor l)
  | 10 => some (.vxor l)
  | 11 => some (.vandn l)
  | 12 => some (.vshl l)
  | 13 => some (.vshr l)
  | 14 => some (.vsar l)
  | 15 => some (.vmin l)
  | 16 => some (.vmax l)
  | 17 => some (.vabs l)
  | 18 => some (.vneg l)
  | 19 => some (.vbit l)
  | 20 => some (.vsel l)
  | 21 => some (.vmov l)
  | 22 => some (.vcmp l)
  | 23 => some (.vidx l)
  | 32 => some (.vshfl l)
  | 33 => some (.vpush l)
  | 34 => some (.vswap l)
  | 35 => some (.vbcast l)
  | 36 => some (.vred l)
  | 37 => some (.vscan l)
  | 38 => some (.vballot l)
  | 39 => some (.vfirst l)
  | 40 => some (.vtos l)
  | 41 => if l.fn = 1 then some (.vtagSet l) else some (.vtag l)
  | 48 => some (.fadd l)
  | 49 => some (.fsub l)
  | 50 => some (.fmul l)
  | 51 => some (.ffma l)
  | 52 => some (.fmin l)
  | 53 => some (.fmax l)
  | 54 => if l.fn = 2 then some (.fsgnx l) else if l.fn = 1 then some (.fsgnn l) else some (.fsgn l)
  | 55 => some (.fdiv l)
  | 56 => some (.fsqrt l)
  | 57 => some (.frcp l)
  | 58 => some (.frsq l)
  | 59 => some (.fcmp l)
  | 60 => some (.fclass l)
  | 61 => some (.frnd l)
  | 62 => some (.fexp2 l)
  | 63 => some (.flog2 l)
  | 64 => some (.fsin l)
  | 65 => some (.fcos l)
  | 66 => some (.frred l)
  | 67 => some (.ftanh l)
  | 68 => some (.fscale l)
  | 69 => some (.fdot2 l)
  | 96 => some (.jseed l)
  | 97 => some (.jconst l)
  | 98 => some (.jget l)
  | 99 => some (.jput l)
  | 100 => some (.jderiv l)
  | 101 => some (.jtrunc l)
  | 104 => some (.fcvt l)
  | 105 => some (.l6pack l)
  | 106 => some (.l6unpack l)
  | 107 => if l.fn = 1 then some (.l6planeCode l) else some (.l6plane l)
  | 112 => some (.vld l)
  | 113 => some (.vst l)
  | 114 => some (.vlds l)
  | 115 => some (.vsts l)
  | 116 => some (.vatom l)
  | 117 => some (.vatoms l)
  | 118 => some (.vcas l)
  | 119 => some (.vldb l)
  | 120 => some (.vstb l)
  | 121 => some (.vpf l)
  | 144 => some (.mma l)
  | 145 => some (.mmag l)
  | 146 => some (.mzero l)
  | 147 => some (.mldacc l)
  | 148 => some (.mdrain l)
  | 149 => some (.mofence l)
  | 150 => some (.msave l)
  | 151 => some (.mresume l)
  | 152 => if l.fn = 1 then some (.mmodeRead l) else some (.mmodeSet l)
  | _ => none

/-- A lane word (R246, R247 steps 2 and 4). An undefined OP answers `illegal`, which is its fate only with an
active lane. -/
def decodeLane (w : BitVec 96) : Decoded :=
  let op := (w.extractLsb' 88 8).toNat
  if 0xA0 ≤ op ∧ op ≤ 0xEF then .reservedMajor
  else match laneRow op (laneFields w) with
    | some i => .ok i
    | none => .illegal

/-- The custom-0 and custom-1 words (R398 to R401). -/
def valetCustom (w : BitVec 32) : Option Instr :=
  if w.extractLsb' 0 15 = 11 ∧ w.extractLsb' 20 5 = 0 ∧ w.extractLsb' 27 5 = 0 then some (.hxAcq (w.extractLsb' 25 2) (w.extractLsb' 15 5)) else
  if w.extractLsb' 0 25 = 4107 ∧ w.extractLsb' 27 5 = 0 then some (.hxRel (w.extractLsb' 25 2)) else
  if w.extractLsb' 0 15 = 8203 ∧ w.extractLsb' 20 5 = 0 ∧ w.extractLsb' 27 5 = 0 then some (.hxFence (w.extractLsb' 25 2) (w.extractLsb' 15 5)) else
  if w.extractLsb' 0 15 = 12299 ∧ w.extractLsb' 20 12 = 0 then some (.hxRinse (w.extractLsb' 15 5)) else
  if w.extractLsb' 0 7 = 11 ∧ w.extractLsb' 12 20 = 4 then some (.hxTick (w.extractLsb' 7 5)) else
  if w.extractLsb' 0 7 = 11 ∧ w.extractLsb' 12 3 = 5 ∧ w.extractLsb' 25 7 = 0 then some (.hxHsend (w.extractLsb' 20 5) (w.extractLsb' 15 5) (w.extractLsb' 7 5)) else
  if w.extractLsb' 0 7 = 11 ∧ w.extractLsb' 12 3 = 6 ∧ w.extractLsb' 25 7 = 0 then some (.hxHrecv (w.extractLsb' 20 5) (w.extractLsb' 15 5) (w.extractLsb' 7 5)) else
  if w.extractLsb' 0 7 = 43 ∧ w.extractLsb' 12 3 = 0 ∧ w.extractLsb' 20 12 = 0 then some (.hxPark (w.extractLsb' 15 5) (w.extractLsb' 7 5)) else
  if w.extractLsb' 0 7 = 43 ∧ w.extractLsb' 12 3 = 1 ∧ w.extractLsb' 20 12 = 0 then some (.hxUnpark (w.extractLsb' 15 5) (w.extractLsb' 7 5)) else
  if w.extractLsb' 0 7 = 43 ∧ w.extractLsb' 12 3 = 2 ∧ w.extractLsb' 20 12 = 0 then some (.hxFget (w.extractLsb' 15 5) (w.extractLsb' 7 5)) else
  if w.extractLsb' 0 7 = 43 ∧ w.extractLsb' 12 3 = 3 ∧ w.extractLsb' 25 7 = 0 then some (.hxFput (w.extractLsb' 20 5) (w.extractLsb' 15 5) (w.extractLsb' 7 5)) else
  if w.extractLsb' 0 7 = 43 ∧ w.extractLsb' 12 3 = 4 ∧ w.extractLsb' 20 12 = 0 then some (.hxFpop (w.extractLsb' 15 5) (w.extractLsb' 7 5)) else
  if w.extractLsb' 0 7 = 43 ∧ w.extractLsb' 12 3 = 5 ∧ w.extractLsb' 20 12 = 0 then some (.hxRgrant (w.extractLsb' 15 5) (w.extractLsb' 7 5)) else
  if w.extractLsb' 0 7 = 43 ∧ w.extractLsb' 12 3 = 6 ∧ w.extractLsb' 20 12 = 0 then some (.hxRrevoke (w.extractLsb' 15 5) (w.extractLsb' 7 5)) else
  if w.extractLsb' 0 7 = 43 ∧ w.extractLsb' 12 3 = 7 ∧ w.extractLsb' 20 12 = 0 then some (.hxFstat (w.extractLsb' 15 5) (w.extractLsb' 7 5)) else
  if w.extractLsb' 0 7 = 43 ∧ w.extractLsb' 12 3 = 7 ∧ w.extractLsb' 20 12 = 32 then some (.hxFenter (w.extractLsb' 15 5) (w.extractLsb' 7 5)) else
  if w.extractLsb' 0 7 = 43 ∧ w.extractLsb' 12 3 = 7 ∧ w.extractLsb' 20 12 = 64 then some (.hxGkill (w.extractLsb' 15 5) (w.extractLsb' 7 5)) else
  if w.extractLsb' 0 7 = 43 ∧ w.extractLsb' 12 3 = 7 ∧ w.extractLsb' 20 12 = 96 then some (.hxGrelaunch (w.extractLsb' 15 5) (w.extractLsb' 7 5)) else
  none

/-- The RISC-V words whose meaning this spec gives: loads, stores, the A extension, FENCE and FENCE.I (R154,
R436); then the custom words. Other words of a hart are RISC-V's own (log 3). -/
def decodeValet (w : BitVec 32) : Option Instr :=
  let rd := w.extractLsb' 7 5
  let f3 := w.extractLsb' 12 3
  let rs1 := w.extractLsb' 15 5
  let rs2 := w.extractLsb' 20 5
  let f5 := w.extractLsb' 27 5
  let size := f3 = 2 ∨ f3 = 3
  let i : Option Instr :=
    if w.extractLsb' 0 7 = 0x03 then some (.valetLoad f3 rs1 rd (w.extractLsb' 20 12))
    else if w.extractLsb' 0 7 = 0x23 then some (.valetStore f3 rs1 rs2 (w.extractLsb' 25 7 ++ w.extractLsb' 7 5))
    else if w.extractLsb' 0 7 = 0x2F ∧ size then
      let z := f3 == 3
      if f5 = 2 then (if rs2 = 0 then some (.valetLr z (w.getLsbD 26) (w.getLsbD 25) rs1 rd) else none)
      else if f5 = 3 then some (.valetSc z (w.getLsbD 26) (w.getLsbD 25) rs2 rs1 rd)
      else some (.valetAmo f5 z (w.getLsbD 26) (w.getLsbD 25) rs2 rs1 rd)
    else if w.extractLsb' 0 7 = 0x0F ∧ f3 = 0 then
      some (.valetFence (w.extractLsb' 28 4) (w.extractLsb' 24 4) (w.extractLsb' 20 4))
    else if w.extractLsb' 0 7 = 0x0F ∧ f3 = 1 then some .valetFenceI
    else valetCustom w
  match i with
  | some i => if i.wf then some i else none
  | none => none

/-- The instruction read from the bits of an opcode-table row: 96 bits are a lane word; 32 bits are a custom
word of a valet hart when they match one, and otherwise a scalar word. -/
def decodeTableWord (nbits w : Nat) : Option Instr :=
  if nbits = 96 then
    match decodeLane (BitVec.ofNat 96 w) with
    | .ok i => some i
    | _ => none
  else
    match valetCustom (BitVec.ofNat 32 w) with
    | some i => if i.wf then some i else none
    | none =>
      match decodeScalar (BitVec.ofNat 32 w) with
      | .ok i => some i
      | _ => none

/-! ### Encoders -/

/-- One bit of a word. -/
abbrev bit1 (b : Bool) : BitVec 1 := BitVec.ofBool b

/-- The lane word of an OP and its fields (R244). -/
def encLane (op : BitVec 8) (l : LaneWord) : BitVec 96 :=
  op ++ l.la ++ bit1 l.k ++ bit1 l.h ++ bit1 l.a ++ bit1 l.t ++ l.vd ++ l.va ++ l.vb ++ l.vc ++ l.fmt ++ l.fn
    ++ l.md ++ l.imm

/-- Which words an instruction has. Events have none. -/
inductive Code where
  | scalar (w : BitVec 32)
  | lane (w : BitVec 96)
  | valet (w : BitVec 32)
  | none
  deriving DecidableEq, Repr

/-- The words of a well-formed instruction (R237 to R239, R244, R246, R398 to R401). -/
def encode : Instr → Code
  | .add d a b => .scalar (0x1#6 ++ d ++ a ++ b ++ 0x0#2)
  | .sub d a b => .scalar (0x1#6 ++ d ++ a ++ b ++ 0x1#2)
  | .and d a b => .scalar (0x1#6 ++ d ++ a ++ b ++ 0x2#2)
  | .or d a b => .scalar (0x1#6 ++ d ++ a ++ b ++ 0x3#2)
  | .xor d a b => .scalar (0x2#6 ++ d ++ a ++ b ++ 0x0#2)
  | .andn d a b => .scalar (0x2#6 ++ d ++ a ++ b ++ 0x1#2)
  | .shl d a b => .scalar (0x2#6 ++ d ++ a ++ b ++ 0x2#2)
  | .shr d a b => .scalar (0x2#6 ++ d ++ a ++ b ++ 0x3#2)
  | .sar d a b => .scalar (0x3#6 ++ d ++ a ++ b ++ 0x0#2)
  | .min d a b => .scalar (0x3#6 ++ d ++ a ++ b ++ 0x1#2)
  | .max d a b => .scalar (0x3#6 ++ d ++ a ++ b ++ 0x2#2)
  | .minn d a b => .scalar (0x3#6 ++ d ++ a ++ b ++ 0x3#2)
  | .maxn d a b => .scalar (0x4#6 ++ d ++ a ++ b ++ 0x0#2)
  | .slt d a b => .scalar (0x4#6 ++ d ++ a ++ b ++ 0x1#2)
  | .sltn d a b => .scalar (0x4#6 ++ d ++ a ++ b ++ 0x2#2)
  | .seq d a b => .scalar (0x4#6 ++ d ++ a ++ b ++ 0x3#2)
  | .mul d a b => .scalar (0x5#6 ++ d ++ a ++ b ++ 0x0#2)
  | .mulh d a b => .scalar (0x5#6 ++ d ++ a ++ b ++ 0x1#2)
  | .mulhn d a b => .scalar (0x5#6 ++ d ++ a ++ b ++ 0x2#2)
  | .div d a b => .scalar (0x6#6 ++ d ++ a ++ b ++ 0x0#2)
  | .divn d a b => .scalar (0x6#6 ++ d ++ a ++ b ++ 0x1#2)
  | .rem d a b => .scalar (0x6#6 ++ d ++ a ++ b ++ 0x2#2)
  | .remn d a b => .scalar (0x6#6 ++ d ++ a ++ b ++ 0x3#2)
  | .popc d a => .scalar (0x1C0#12 ++ d ++ a ++ 0x0#4)
  | .clz d a => .scalar (0x1C1#12 ++ d ++ a ++ 0x0#4)
  | .ctz d a => .scalar (0x1C2#12 ++ d ++ a ++ 0x0#4)
  | .sext d a w => .scalar (0x1C3#12 ++ d ++ a ++ 0x0#2 ++ w)
  | .zext d a w => .scalar (0x1C4#12 ++ d ++ a ++ 0x0#2 ++ w)
  | .addi d a i => .scalar (0x8#6 ++ d ++ a ++ i)
  | .andi d a i => .scalar (0x9#6 ++ d ++ a ++ i)
  | .ori d a i => .scalar (0xA#6 ++ d ++ a ++ i)
  | .xori d a i => .scalar (0xB#6 ++ d ++ a ++ i)
  | .shli d a n => .scalar (0xC#6 ++ d ++ a ++ 0x0#4 ++ n)
  | .shri d a n => .scalar (0xC#6 ++ d ++ a ++ 0x4#4 ++ n)
  | .sari d a n => .scalar (0xC#6 ++ d ++ a ++ 0x8#4 ++ n)
  | .slti d a i => .scalar (0xD#6 ++ d ++ a ++ 0x0#1 ++ i)
  | .sltni d a i => .scalar (0xD#6 ++ d ++ a ++ 0x1#1 ++ i)
  | .li d i => .scalar (0xE#6 ++ d ++ i)
  | .ldlit d n => .scalar (0xF#6 ++ d ++ n)
  | .br a c o => .scalar (0x10#6 ++ a ++ c ++ o)
  | .jmp o => .scalar (0x11#6 ++ o)
  | .call o => .scalar (0x12#6 ++ o)
  | .jr a => .scalar (0x1300#14 ++ a ++ 0x0#10)
  | .callr a => .scalar (0x1300#14 ++ a ++ 0x1#10)
  | .ret => .scalar (0x4C000002#32)
  | .lrun o => .scalar (0x140#10 ++ o)
  | .lrunr a => .scalar (0x54000#20 ++ a ++ 0x0#4)
  | .swait n c => .scalar (0x580#12 ++ n ++ 0x0#8 ++ c)
  | .yield => .scalar (0x58100000#32)
  | .twait a => .scalar (0x58200#20 ++ a ++ 0x0#4)
  | .bar => .scalar (0x5C000000#32)
  | .fbar => .scalar (0x5C100000#32)
  | .cbar c => .scalar (0xB840000#29 ++ c)
  | .gbar => .scalar (0x5C300000#32)
  | .cjoin c => .scalar (0xB880000#29 ++ c)
  | .cleave c => .scalar (0xB8A0000#29 ++ c)
  | .sget d n => .scalar (0x600#12 ++ d ++ n ++ 0x0#4)
  | .sset n a => .scalar (0x601#12 ++ n ++ a ++ 0x0#4)
  | .xacq => .scalar (0x60200000#32)
  | .xrel => .scalar (0x60300000#32)
  | .sld8 d a p o => .scalar (0x19#6 ++ d ++ a ++ bit1 p ++ o)
  | .sld16 d a p o => .scalar (0x1A#6 ++ d ++ a ++ bit1 p ++ o)
  | .sld32 d a p o => .scalar (0x1B#6 ++ d ++ a ++ bit1 p ++ o)
  | .sld64 d a p o => .scalar (0x1C#6 ++ d ++ a ++ bit1 p ++ o)
  | .sst8 d a p o => .scalar (0x1D#6 ++ d ++ a ++ bit1 p ++ o)
  | .sst16 d a p o => .scalar (0x1E#6 ++ d ++ a ++ bit1 p ++ o)
  | .sst32 d a p o => .scalar (0x1F#6 ++ d ++ a ++ bit1 p ++ o)
  | .sst64 d a p o => .scalar (0x20#6 ++ d ++ a ++ bit1 p ++ o)
  | .acq s a => .scalar (0x84#8 ++ s ++ 0x0#10 ++ a ++ 0x0#4)
  | .rel s => .scalar (0x84#8 ++ s ++ 0x100000#22)
  | .fence s a => .scalar (0x84#8 ++ s ++ 0x200#10 ++ a ++ 0x0#4)
  | .rinse a => .scalar (0x84300#20 ++ a ++ 0x0#4)
  | .sldStrong s o d a w => .scalar (0x85#8 ++ s ++ 0x0#1 ++ bit1 o ++ d ++ a ++ 0x0#2 ++ w)
  | .sstStrong s o d a w => .scalar (0x86#8 ++ s ++ 0x0#1 ++ bit1 o ++ d ++ a ++ 0x0#2 ++ w)
  | .satom o s z d a x => .scalar (0x44#7 ++ o ++ s ++ bit1 z ++ d ++ a ++ x)
  | .scas o s z d a => .scalar (0x45#7 ++ o ++ s ++ bit1 z ++ d ++ a ++ 0x0#4)
  | .chsend c a p => .scalar (0x8C#8 ++ c ++ 0x0#8 ++ a ++ 0x0#1 ++ bit1 p)
  | .chrecv c d a p => .scalar (0x8D#8 ++ c ++ d ++ a ++ 0x0#1 ++ bit1 p)
  | .chpoll c d => .scalar (0x8E#8 ++ c ++ d ++ 0x0#10)
  | .satCopy a => .scalar (0x90000#20 ++ a ++ 0x0#4)
  | .satBatch a n => .scalar (0x90100#20 ++ a ++ n)
  | .satCancel a => .scalar (0x90200#20 ++ a ++ 0x0#4)
  | .bwait d a => .scalar (0x903#12 ++ d ++ a ++ 0x0#4)
  | .rowact a => .scalar (0x94000#20 ++ a ++ 0x0#4)
  | .rowcon a b => .scalar (0x94100#20 ++ a ++ 0x0#3 ++ bit1 b)
  | .rowpre a => .scalar (0x94200#20 ++ a ++ 0x0#4)
  | .rowwait a k => .scalar (0x94300#20 ++ a ++ 0x0#2 ++ k)
  | .rowstat d a k => .scalar (0x944#12 ++ d ++ a ++ 0x0#2 ++ k)
  | .hemset h a t => .scalar (0x4C00#15 ++ h ++ a ++ 0x0#2 ++ t)
  | .hemget d h => .scalar (0x981#12 ++ d ++ 0x0#3 ++ h ++ 0x0#4)
  | .trap c => .scalar (0x9C000#20 ++ c ++ 0x0#4)
  | .tret => .scalar (0x9C100000#32)
  | .brk c => .scalar (0x9C200#20 ++ c ++ 0x0#4)
  | .hidget d n => .scalar (0x9C3#12 ++ d ++ 0x0#8 ++ n)
  | .hidput a n => .scalar (0x9C400#20 ++ a ++ n)
  | .exit => .scalar (0x9C500000#32)
  | .vadd w => .lane (encLane 0x1 w)
  | .vsub w => .lane (encLane 0x2 w)
  | .vmul w => .lane (encLane 0x3 w)
  | .vmulh w => .lane (encLane 0x4 w)
  | .vmad w => .lane (encLane 0x5 w)
  | .vdiv w => .lane (encLane 0x6 w)
  | .vrem w => .lane (encLane 0x7 w)
  | .vand w => .lane (encLane 0x8 w)
  | .vor w => .lane (encLane 0x9 w)
  | .vxor w => .lane (encLane 0xA w)
  | .vandn w => .lane (encLane 0xB w)
  | .vshl w => .lane (encLane 0xC w)
  | .vshr w => .lane (encLane 0xD w)
  | .vsar w => .lane (encLane 0xE w)
  | .vmin w => .lane (encLane 0xF w)
  | .vmax w => .lane (encLane 0x10 w)
  | .vabs w => .lane (encLane 0x11 w)
  | .vneg w => .lane (encLane 0x12 w)
  | .vbit w => .lane (encLane 0x13 w)
  | .vsel w => .lane (encLane 0x14 w)
  | .vmov w => .lane (encLane 0x15 w)
  | .vcmp w => .lane (encLane 0x16 w)
  | .vidx w => .lane (encLane 0x17 w)
  | .vshfl w => .lane (encLane 0x20 w)
  | .vpush w => .lane (encLane 0x21 w)
  | .vswap w => .lane (encLane 0x22 w)
  | .vbcast w => .lane (encLane 0x23 w)
  | .vred w => .lane (encLane 0x24 w)
  | .vscan w => .lane (encLane 0x25 w)
  | .vballot w => .lane (encLane 0x26 w)
  | .vfirst w => .lane (encLane 0x27 w)
  | .vtos w => .lane (encLane 0x28 w)
  | .vtag w => .lane (encLane 0x29 w)
  | .vtagSet w => .lane (encLane 0x29 w)
  | .fadd w => .lane (encLane 0x30 w)
  | .fsub w => .lane (encLane 0x31 w)
  | .fmul w => .lane (encLane 0x32 w)
  | .ffma w => .lane (encLane 0x33 w)
  | .fmin w => .lane (encLane 0x34 w)
  | .fmax w => .lane (encLane 0x35 w)
  | .fsgn w => .lane (encLane 0x36 w)
  | .fsgnn w => .lane (encLane 0x36 w)
  | .fsgnx w => .lane (encLane 0x36 w)
  | .fdiv w => .lane (encLane 0x37 w)
  | .fsqrt w => .lane (encLane 0x38 w)
  | .frcp w => .lane (encLane 0x39 w)
  | .frsq w => .lane (encLane 0x3A w)
  | .fcmp w => .lane (encLane 0x3B w)
  | .fclass w => .lane (encLane 0x3C w)
  | .frnd w => .lane (encLane 0x3D w)
  | .fexp2 w => .lane (encLane 0x3E w)
  | .flog2 w => .lane (encLane 0x3F w)
  | .fsin w => .lane (encLane 0x40 w)
  | .fcos w => .lane (encLane 0x41 w)
  | .frred w => .lane (encLane 0x42 w)
  | .ftanh w => .lane (encLane 0x43 w)
  | .fscale w => .lane (encLane 0x44 w)
  | .fdot2 w => .lane (encLane 0x45 w)
  | .jseed w => .lane (encLane 0x60 w)
  | .jconst w => .lane (encLane 0x61 w)
  | .jget w => .lane (encLane 0x62 w)
  | .jput w => .lane (encLane 0x63 w)
  | .jderiv w => .lane (encLane 0x64 w)
  | .jtrunc w => .lane (encLane 0x65 w)
  | .fcvt w => .lane (encLane 0x68 w)
  | .l6pack w => .lane (encLane 0x69 w)
  | .l6unpack w => .lane (encLane 0x6A w)
  | .l6plane w => .lane (encLane 0x6B w)
  | .l6planeCode w => .lane (encLane 0x6B w)
  | .vld w => .lane (encLane 0x70 w)
  | .vst w => .lane (encLane 0x71 w)
  | .vlds w => .lane (encLane 0x72 w)
  | .vsts w => .lane (encLane 0x73 w)
  | .vatom w => .lane (encLane 0x74 w)
  | .vatoms w => .lane (encLane 0x75 w)
  | .vcas w => .lane (encLane 0x76 w)
  | .vldb w => .lane (encLane 0x77 w)
  | .vstb w => .lane (encLane 0x78 w)
  | .vpf w => .lane (encLane 0x79 w)
  | .mma w => .lane (encLane 0x90 w)
  | .mmag w => .lane (encLane 0x91 w)
  | .mzero w => .lane (encLane 0x92 w)
  | .mldacc w => .lane (encLane 0x93 w)
  | .mdrain w => .lane (encLane 0x94 w)
  | .mofence w => .lane (encLane 0x95 w)
  | .msave w => .lane (encLane 0x96 w)
  | .mresume w => .lane (encLane 0x97 w)
  | .mmodeSet w => .lane (encLane 0x98 w)
  | .mmodeRead w => .lane (encLane 0x98 w)
  | .hxAcq s a => .valet (0x0#5 ++ s ++ 0x0#5 ++ a ++ 0xB#15)
  | .hxRel s => .valet (0x0#5 ++ s ++ 0x100B#25)
  | .hxFence s a => .valet (0x0#5 ++ s ++ 0x0#5 ++ a ++ 0x200B#15)
  | .hxRinse a => .valet (0x0#12 ++ a ++ 0x300B#15)
  | .hxTick d => .valet (0x4#20 ++ d ++ 0xB#7)
  | .hxHsend b a d => .valet (0x0#7 ++ b ++ a ++ 0x5#3 ++ d ++ 0xB#7)
  | .hxHrecv b a d => .valet (0x0#7 ++ b ++ a ++ 0x6#3 ++ d ++ 0xB#7)
  | .hxPark a d => .valet (0x0#12 ++ a ++ 0x0#3 ++ d ++ 0x2B#7)
  | .hxUnpark a d => .valet (0x0#12 ++ a ++ 0x1#3 ++ d ++ 0x2B#7)
  | .hxFget a d => .valet (0x0#12 ++ a ++ 0x2#3 ++ d ++ 0x2B#7)
  | .hxFput b a d => .valet (0x0#7 ++ b ++ a ++ 0x3#3 ++ d ++ 0x2B#7)
  | .hxFpop a d => .valet (0x0#12 ++ a ++ 0x4#3 ++ d ++ 0x2B#7)
  | .hxRgrant a d => .valet (0x0#12 ++ a ++ 0x5#3 ++ d ++ 0x2B#7)
  | .hxRrevoke a d => .valet (0x0#12 ++ a ++ 0x6#3 ++ d ++ 0x2B#7)
  | .hxFstat a d => .valet (0x0#12 ++ a ++ 0x7#3 ++ d ++ 0x2B#7)
  | .hxFenter a d => .valet (0x20#12 ++ a ++ 0x7#3 ++ d ++ 0x2B#7)
  | .hxGkill a d => .valet (0x40#12 ++ a ++ 0x7#3 ++ d ++ 0x2B#7)
  | .hxGrelaunch a d => .valet (0x60#12 ++ a ++ 0x7#3 ++ d ++ 0x2B#7)
  | .valetLoad f a d i => .valet (i ++ a ++ f ++ d ++ 0x03#7)
  | .valetStore f a b i => .valet (i.extractLsb' 5 7 ++ b ++ a ++ f ++ i.extractLsb' 0 5 ++ 0x23#7)
  | .valetLr z q l a d => .valet (2#5 ++ bit1 q ++ bit1 l ++ 0#5 ++ a ++ 1#2 ++ bit1 z ++ d ++ 0x2F#7)
  | .valetSc z q l b a d => .valet (3#5 ++ bit1 q ++ bit1 l ++ b ++ a ++ 1#2 ++ bit1 z ++ d ++ 0x2F#7)
  | .valetAmo f z q l b a d => .valet (f ++ bit1 q ++ bit1 l ++ b ++ a ++ 1#2 ++ bit1 z ++ d ++ 0x2F#7)
  | .valetFence m p q => .valet (m ++ p ++ q ++ 0#5 ++ 0#3 ++ 0#5 ++ 0x0F#7)
  | .valetFenceI => .valet (0#12 ++ 0#5 ++ 1#3 ++ 0#5 ++ 0x0F#7)
  | .msgReg _ => .none
  | .msgGrant _ => .none
  | .msgRevoke _ => .none
  | .msgRvack _ => .none
  | .msgLd _ => .none
  | .msgLdata _ => .none
  | .msgFwd _ => .none
  | .msgFdata _ => .none
  | .msgWb _ => .none
  | .msgWback _ => .none
  | .msgRecall _ => .none
  | .msgXreg _ => .none
  | .msgPush _ => .none
  | .msgHwr _ => .none
  | .msgHwack _ => .none
  | .sliceFill _ => .none
  | .pageWalk _ _ => .none
  | .rowPerformance _ => .none
  | .twaitSlot _ _ => .none
  | .refreshSlotStart _ _ => .none
  | .refreshSlotEnd _ _ => .none
  | .controllerPrecharge _ _ => .none
  | .bankIdle _ _ => .none
  | .boltScrub _ _ => .none
  | .grantLive _ _ => .none
  | .pressOpStart _ _ => .none
  | .pressOpComplete _ _ => .none
  | .satchelStart _ => .none
  | .satchelLineCopy _ => .none
  | .hamperEnqueue _ => .none
  | .hamperDequeue _ => .none
  | .remoteLoadTimeout _ => .none
  | .evictionChoice _ => .none
  | .gangSaveComplete _ => .none
  | .placement _ => .none
  | .placementBoundExpiry _ => .none
  | .hotFlag _ => .none
  | .hotResidencyExpiry _ => .none
  | .hotFlagClear _ => .none
  | .tinvPage _ _ => .none
  | .tinvLargePage _ _ => .none
  | .tinvDomain _ _ => .none
  | .tinvComplete _ => .none
  | .granuleRetire _ _ _ => .none
  | .bankMark _ _ _ => .none
  | .coreRetire _ _ => .none
  | .forwardEntryEnable _ _ _ => .none
  | .forwardEntryFree _ _ _ => .none
  | .traceEnable _ _ => .none
  | .bastingReadAdvance _ _ => .none
  | .bastingLineDrain _ => .none
  | .bastingPad _ => .none
  | .pcSample _ => .none
  | .tracePeriodicSync _ => .none
  | .traceResync _ => .none
  | .recordingEnable _ _ => .none
  | .checkpoint _ => .none
  | .replayStart _ _ => .none
  | .registerWrite _ _ _ => .none
  | .attestationRequest _ => .none
  | .attestationReport  => .none
  | .doorEnqueue _ _ _ => .none
  | .doorDequeue _ _ => .none
  | .fabricRd _ _ => .none
  | .fabricWr _ _ _ => .none
  | .fabricRdCompletion _ _ _ => .none
  | .fabricWrCompletion _ _ => .none
  | .fabricMsg _ _ _ => .none
  | .linkDown _ => .none
  | .linkUp _ => .none
  | .agentRetire _ _ => .none
  | .pciePostedWrite _ _ _ _ _ => .none
  | .pcieMemoryRead _ _ _ _ => .none
  | .clockStep _ _ => .none
  | .clockGate _ => .none
  | .moduleReset _ => .none
  | .domainStart _ => .none
  | .longResultWriteback _ => .none
  | .scalarDivideComplete _ => .none
  | .scratchAccessPerformed _ => .none
  | .ioApertureCompletion _ _ => .none
  | .l2TlbHit _ _ => .none
  | .refreshBorrowStart _ _ => .none
  | .grantEndPrecharge _ _ => .none
  | .rowwaitComplete _ => .none
  | .clockUngate _ => .none
  | .fabricReservedFlit _ _ => .none

end Sys2Proof
end

