-- ==== Sys2Proof/Machine/State.lean ====
section
/-! DEFINITION. The state of a module: every piece of state the spec names, as plain data. Tables keyed by a
number, a place or a name are lists of pairs; an entry that is not listed holds its reset value. -/
namespace Sys2Proof.Machine

/-- A thread of the memory model that issues words (R129). -/
inductive Thread where
  | fib (k : FKey)
  | hart (core h : Nat)
  deriving DecidableEq, Repr, Inhabited

/-- Whose word `exec` runs. -/
inductive Actor where
  | hw
  | scalar (k : FKey)
  | lane (k : FKey)
  | hart (core h : Nat)
  deriving DecidableEq, Repr, Inhabited

/-- Damage to stored symbols that hardware errors cause (R56, R103, R429, R430). -/
inductive Upset where
  /-- the symbol in a bank of a bolt access row of a quadrant changes by `err` -/
  | bolt (core quad row bank : Nat) (err : W8)
  /-- `n` symbols of a line of a stack row -/
  | row (core handle line n : Nat)
  /-- a 32-bit word of an L1 line: corrected or not -/
  | l1 (core wordAddr : Nat) (corrected : Bool)
  /-- a 32-bit word of a slice -/
  | slice (core wordAddr : Nat) (corrected : Bool)
  /-- parity of an instruction-cache line -/
  | icache (core line : Nat)
  /-- a doublestitch comparison of a press that will differ at this output (R379); row r + 96 is row r of the tangent tile; is it the
  first result that is wrong -/
  | press (core press row col : Nat) (first : Bool)
  deriving DecidableEq, Repr, Inhabited

/-- One turn of the machine: which agent moves next. -/
inductive Turn where
  | scalar (core sub : Nat)
  | lane (core sub : Nat)
  | hart (core h : Nat)
  /-- deliver the n-th message in flight -/
  | deliver (n : Nat)
  | ev (i : Instr)
  | upset (u : Upset)
  /-- TICK advances by one -/
  | tick
  deriving DecidableEq, Repr, Inhabited

/-! ### Memory, registration and the caches -/

/-- State of a word in an L1 (R107). -/
inductive WSt where
  | invalid | valid | registered
  deriving DecidableEq, Repr, Inhabited

/-- A word of an L1 line: state, value, since-release bit with the store that set it, poison, and the event that filled a Valid word
(R107, R150, R430). -/
structure L1Word where
  st : WSt := .invalid
  val : W32 := 0
  sr : Bool := false
  stamp : Nat := 0
  poison : Bool := false
  fill : Nat := 0
  deriving DecidableEq, Repr, Inhabited

/-- An L1 line with its recorded region (R29, R69). -/
structure L1Line where
  line : Nat
  region : Nat
  words : List L1Word
  deriving DecidableEq, Repr, Inhabited

/-- An instruction-cache line: a Valid copy of code (R72, R73). -/
structure ICLine where
  line : Nat
  region : Nat
  data : List W8
  pinned : Bool := false
  /-- in way 0 of its set, which is held for hart 0's handlers (R72, R434) -/
  way0 : Bool := false
  deriving DecidableEq, Repr, Inhabited

/-- Registered words that replacement gave up and whose WBACK has not come (R117, R121). -/
structure WbEntry where
  id : Nat
  line : Nat
  mask : W32
  data : List W32
  poison : W32
  deriving DecidableEq, Repr, Inhabited

/-- Address spaces of the model (R135). Scratch names the core that holds the bytes. -/
inductive Space where
  | near | pool | io
  | scratch (core : Nat)
  deriving DecidableEq, Repr, Inhabited

inductive AccKind where
  | load | store | atomic
  deriving DecidableEq, Repr, Inhabited

/-- One part of one lane's access: bytes `off` to `off + n − 1` of the lane's element, at physical byte
address `pa` (for scratch, an address in the core's bolt window). -/
structure Part where
  lane : Nat
  off : Nat
  n : Nat
  pa : Nat
  va : W64
  data : List W8 := []
  cmp : List W8 := []
  deriving DecidableEq, Repr, Inhabited

/-- One event of an access: the parts of one beat that fall in one line (R150), one access row of scratch,
or one aligned part of I/O. It stands in `loads` or `stores` until it is performed. -/
structure Acc where
  id : Nat
  inst : Nat
  thr : Thread
  kind : AccKind
  space : Space
  line : Nat
  parts : List Part
  strong : Bool := false
  /-- operation of an atomic: 0 add … 8 swap, 9 compare-and-swap (R239) -/
  op : Nat := 0
  region : Nat := 0
  dom : Nat := 0
  pc : W64 := 0
  /-- the request (LD, REG) is on its way -/
  sent : Bool := false
  /-- a rinse selected the line after the LD was sent: the fill is not installed (R113) -/
  noInstall : Bool := false
  /-- words that a store in the buffer covered when the LD was sent (R112, R113) -/
  held : W32 := 0
  /-- a word that the load reads from its own L1 was taken away after the LD was sent: the reply is discarded (R150) -/
  stale : Bool := false
  /-- prefetch: binds nothing (R356) -/
  prefetch : Bool := false
  /-- passed its translation check at this request number (R27, R86) -/
  since : Nat := 0
  tick : Nat := 0
  sysStrong : Bool := false
  deriving DecidableEq, Repr, Inhabited

/-- What an instruction does with the bytes its loads bound. -/
inductive Fin where
  | none
  /-- the bytes stay for the word that reads them (chsend) -/
  | hold
  | sreg (d : Nat)
  | xreg (d : Nat) (n : Nat) (signed : Bool)
  /-- a hart's floating register takes 4 or 8 bytes -/
  | freg (d : Nat) (n : Nat)
  | vreg (vd fmt n : Nat) (narrow : Nat)
  | planes (vd n : Nat)
  /-- the last store of an msave: its press operation has completed (R380) -/
  | press (op : Nat)
  deriving DecidableEq, Repr, Inhabited

/-- A race that an event of an instruction met: action, cause, lane, address of the word and region (R125). -/
structure Race where
  act : Nat
  cause : Nat
  lane : Nat
  va : W64
  region : Nat
  deriving DecidableEq, Repr, Inhabited

/-- An instruction with accesses outstanding. -/
structure PendInst where
  id : Nat
  thr : Thread
  pc : W64
  fin : Fin
  mask : Mask := 0
  /-- events not yet performed -/
  left : Nat
  got : List (Nat × Nat × W8) := []
  ld : Bool := false
  st : Bool := false
  /-- acquire part that follows the last event (R136) -/
  acq : Option W64 := Option.none
  /-- address of a poisoned word an event consumed (R430) -/
  poisoned : Option Nat := Option.none
  /-- the race its report names, of those its events have met (R125) -/
  race : Option Race := Option.none
  deriving DecidableEq, Repr, Inhabited

/-- A request the home is serving while it waits for answers (R111). -/
structure HomeAct where
  id : Nat
  msg : Msg
  /-- owners asked and the words each was asked for -/
  wait : List (Node × W32)
  sr : W32 := 0
  poison : W32 := 0
  verdict : Nat := 0
  deriving DecidableEq, Repr, Inhabited

/-! ### Translation -/

/-- A cached translation (R31): the 64 KiB page number of its first page, its size, and the leaf. -/
structure Tlb where
  vpn : Nat
  large : Bool
  leaf : W64
  deriving DecidableEq, Repr, Inhabited

/-- A miss at a core's L1 TLB, in issue order (R32): the page, whether a store asks, and the streams that have joined it. `fault` is
the outcome of a walk that failed: cause, level, entry address; it stands until each of them has taken it. -/
structure MissSlot where
  vpn : Nat
  wr : Bool := false
  fault : Option (Nat × Nat × Nat) := Option.none
  who : List Actor := []
  deriving DecidableEq, Repr, Inhabited

/-! ### Rows -/

inductive BankSt where
  | idle | opened | precharging | refresh
  deriving DecidableEq, Repr, Inhabited

/-- A bank (R91). -/
structure Bank where
  st : BankSt := .idle
  orow : Nat := 0
  ta : Option Nat := Option.none
  tc : Option Nat := Option.none
  tp : Option Nat := Option.none
  /-- the ordinary path has borrowed the rest of the slot (R87) -/
  borrowed : Bool := false
  deriving DecidableEq, Repr, Inhabited

/-- A row grant in a slot (R84, R86, R90). -/
structure RowGrant where
  live : Bool
  dom : Nat
  gid : Nat
  bid : Nat
  mask : BitVec 128
  lo : Nat
  hi : Nat
  share : Nat
  /-- performance ticks of its activates in the last 38 ticks -/
  acts : List Nat := []
  deriving DecidableEq, Repr, Inhabited

/-- A row instruction between its issue and its performance tick (R83). -/
structure RowOp where
  id : Nat
  k : FKey
  /-- 0 rowact, 1 rowcon, 2 rowpre, 3 rowstat -/
  kind : Nat
  h : W64
  /-- latch of a rowcon, selector of a rowstat -/
  latch : Nat
  /-- destination of a rowstat -/
  d : Nat := 0
  /-- PC of a rowstat and RETIRED before it, for its order-log record -/
  pc : W64 := 0
  count : Nat := 0
  t : Nat
  deriving DecidableEq, Repr, Inhabited

structure Latch where
  data : List W8 := []
  poison : Bool := false
  h : Nat := 0
  deriving DecidableEq, Repr, Inhabited

/-! ### Presses and satchels -/

/-- An accumulator tile (R365, R379, R380): its tag, its rows that are not all zero, its mismatch record and
its progress counters. -/
structure Tile where
  tag : Nat := 15
  rows : List (Nat × List W32) := []
  mis : Option (Nat × Nat) := Option.none
  depth : Nat := 0
  cols : Nat := 48
  rowsDone : Nat := 96
  deriving DecidableEq, Repr, Inhabited

/-- A hem register (R383). -/
structure Hem where
  lo : W32 := 0
  hi : W32 := 0
  act : Nat := 0
  deriving DecidableEq, Repr, Inhabited

/-- A press operation, queued or running (R163). `op` is the major; what the word reads at its issue is kept
with it. -/
structure PressOp where
  id : Nat
  k : FKey
  op : Nat
  w : LaneWord
  pc : W64
  mask : Mask
  base : W64 := 0
  jord : Nat := 0
  mode : Nat := 0
  hem : Hem := {}
  /-- ATAG of an msave's tile at its issue (R365) -/
  atag : Nat := 15
  /-- physical address, lane or region, and virtual address: of each access row of its scratch operands, or of each
  128-byte line of the image of an msave or mresume -/
  lines : List (Nat × Nat × W64) := []
  started : Bool := false
  done : Nat := 0
  /-- a forbidden access was made before a wait covered the operation (R101, R166) -/
  tainted : Bool := false
  /-- the operation waits for this rowcon, this instruction, before it starts (R101, R165) -/
  afterRow : List Nat := []
  /-- registers and scratch bytes as they stood at the start; with the values at completion they bound what the
  operation reads (R164) -/
  snapV : List (Nat × List W32) := []
  snapB : List W8 := []
  /-- latches as they stood before a rowcon that disturbs the operation (R101) -/
  latchWas : List (Nat × Latch) := []
  /-- elements of the tile whose image the program stored to (R381), and the loads of the image -/
  hit : List (Nat × Nat) := []
  inst : Nat := 0
  deriving DecidableEq, Repr, Inhabited

/-- What a press operation uses, kept until a wait on PR covers it (R166): the columns it writes of its tiles, or the
registers an mdrain writes; the registers, access rows, latches and image lines it reads. -/
structure PressUse where
  id : Nat
  tiles : List Nat := []
  mask : Mask
  c0 : Nat := 0
  n : Nat := 48
  src : List Nat := []
  dst : List Nat := []
  rows : List Nat := []
  latch : List Nat := []
  image : List Nat := []
  deriving DecidableEq, Repr, Inhabited

/-- A satchel descriptor in flight (R172, R386). -/
structure Copy where
  id : Nat
  k : FKey
  core : Nat
  src : W64
  dst : W64
  len : Nat
  cons : Option Nat
  sscr : Bool
  dscr : Bool
  cdw : Nat
  /-- physical pages of source and destination: page number of the virtual address, physical page, region -/
  spages : List (Nat × Nat × Nat) := []
  dpages : List (Nat × Nat × Nat) := []
  /-- loads of the fibre older than the descriptor and its stores older than it -/
  mark : Nat := 0
  started : Bool := false
  /-- bytes read, bytes sent, bytes arrived; and what has been read of a source word and not yet sent (R173) -/
  nread : Nat := 0
  nsent : Nat := 0
  arrived : Nat := 0
  carry : List W8 := []
  /-- messages sent and not yet answered, with the bytes each counts -/
  out : List (Nat × Nat) := []
  dead : Bool := false
  deriving DecidableEq, Repr, Inhabited

/-- A range scoreboard entry (R176): access rows of this core's scratchpad, of a destination or a source. -/
structure Board where
  copy : Nat
  dest : Bool
  lo : Nat
  hi : Nat
  deriving DecidableEq, Repr, Inhabited

/-! ### Fibres -/

/-- Fibre states (R203). -/
inductive FSt where
  | running | blocked | frozen | parked | saving | saved | restoring | exited | gone
  deriving DecidableEq, Repr, Inhabited

/-- A stitch (R277, R295, R296): the next word's lane PC, the copied mask, how many of its words have issued,
and the scalar values its words read. -/
structure Stitch where
  pc : W64
  mask : Mask
  n : Nat := 0
  snap : List W64
  /-- request number at its lrun (R101) -/
  born : Nat := 0
  deriving DecidableEq, Repr, Inhabited

/-- A deferred report (R160, R411). `ctr`: 1 LD, 2 ST, 3 PR, 0 a scalar load into `dst`. -/
structure Report where
  inst : Nat
  ctr : Nat
  dst : Nat := 0
  cause : Nat
  addr : W64
  lane : Nat
  aux : Nat
  info : W64
  /-- INFO is a lane PC -/
  srcl : Bool := false
  deriving DecidableEq, Repr, Inhabited

/-- A wait in which a fibre has arrived (R201, R205). -/
inductive Wait where
  | none
  | bar | fbar | gbar
  | cbar (c : Nat)
  | chan (c : Nat)
  | remote (va : W64)
  deriving DecidableEq, Repr, Inhabited

/-- A long lane result not yet written (R252): values of registers by lane, tags to set, and the lane words of
the fibre that may still issue before it. -/
structure LongRes where
  id : Nat
  pc : W64
  mask : Mask
  vals : List (Nat × List W32)
  tags : List (Nat × Nat)
  /-- lane words that may issue before it; `none`: no gate -/
  la : Option Nat
  /-- index of the issuing word among the fibre's lane words -/
  at_ : Nat
  /-- memory instruction whose completion writes it -/
  mem : Bool := false
  /-- registers it writes, and the lanes of those that a word wrote against its promise meanwhile (R253) -/
  regs : List Nat := []
  clash : List (Nat × Mask) := []
  flags : Nat := 0
  deriving DecidableEq, Repr, Inhabited

/-- A fibre. -/
structure Fib where
  dom : Nat
  gid : Nat
  bid : Nat
  fid : Nat
  spid : Nat
  st : FSt := .running
  regs : List W64
  pc : W64
  vregs : List (Nat × List W32) := []
  tags : List (Nat × Nat) := []
  jord : Nat := 0
  jflags : W64 := 0
  rmode : W64 := 0
  lcb : W64 := 0
  prio : Nat := 0
  tvec : W64 := 0
  epcs : W64 := 0
  epcl : W64 := 0
  cause : W64 := 0
  wake : W64 := 0
  retired : Nat := 0
  hslots : List W64
  hkind : Nat := 0
  held : List Stitch := []
  stitches : List Stitch := []
  /-- counters kept in issue order hold (request, fallen) pairs (R159) -/
  ldq : List (Nat × Bool) := []
  stc : Nat := 0
  prq : List (Nat × Bool) := []
  sac : Nat := 0
  rwq : List (Nat × Bool) := []
  mode : Nat := 0
  ext : Bool := false
  wait : Wait := .none
  /-- tick from which the fibre has been Blocked without a break -/
  since : Nat := 0
  /-- a multi-step word's progress, the request number it waits for, and a value it keeps -/
  phase : Nat := 0
  mark : Nat := 0
  keep : List W64 := []
  /-- the request number that a lane word's release waits for -/
  markL : Nat := 0
  /-- 0 none, 1 the scalar word, 2 the lane word: its checks have not completed (R409) -/
  susp : Nat := 0
  stall : Nat := 0
  stallL : Nat := 1
  /-- scalar division in progress: destination and value (R263) -/
  div : Option (Nat × W64) := Option.none
  longs : List LongRes := []
  /-- lane words issued, of which LA counts (R196, R252) -/
  nlane : Nat := 0
  reports : List Report := []
  /-- press operations that no wait on PR has covered (R166) -/
  unwaited : List PressUse := []
  /-- operand-ready fence pending: instructions the next press operation waits for (R165) -/
  fence : List Nat := []
  /-- t_i taken from a twait slot (R211) -/
  tslot : Option Nat := Option.none
  /-- the fibre's stop record waits for room in the queue (R404) -/
  recWait : Bool := false
  /-- mask that the fibre's latest lrun or lrunr copied (R458) -/
  traceMask : Option Mask := Option.none
  /-- mask of its latest FSYNC packet (R458) -/
  syncMask : Mask := 0
  /-- loads cancelled by eviction, issued again after restore (R208) -/
  redo : List Acc := []
  redoI : List PendInst := []
  redoL : List LongRes := []
  stamp : Nat := 0
  /-- the scalar word stalls at a consuming wait for loads (R205) -/
  waits : Bool := false
  /-- KIND of the trap handler that a save handler was entered from, 0 if none (R206, R390) -/
  hback : Nat := 0
  /-- its lane word found no ready spool-mate and waits as though H were clear (R196) -/
  stays : Bool := false
  /-- its last word was a yield, and no other fibre's word has issued at its port since (R280) -/
  yielded : Bool := false
  deriving DecidableEq, Repr, Inhabited

/-- What a spool's fibres share (R200, R365). -/
structure Spool where
  win : List (Nat × List W32) := []
  wtags : List (Nat × Nat) := []
  tiles : List (Nat × Tile) := []
  deriving DecidableEq, Repr, Inhabited

/-- What a block's fibres share (R202, R193, R192, R383). -/
structure Block where
  hems : List (Nat × Hem) := []
  crews : List (Nat × List Nat) := []
  /-- members that join from the next phase (R202) -/
  late : List (Nat × List Nat) := []
  mail : List (BitVec 512) := []
  mailOvf : Bool := false
  /-- in-service slots: fibre, channel, item -/
  insv : List (Nat × Nat × BitVec 512) := []
  deriving DecidableEq, Repr, Inhabited

/-- A sub-core's ports. -/
structure Sub where
  /-- fibre that holds the lane pipe -/
  holder : Option FKey := Option.none
  /-- rotation position after the last turn -/
  last : Nat := 0
  passed : List (FKey × Nat) := []
  /-- twait slot: tick, clk of the slot, fibres with their clk -/
  slotT : Nat := 0
  slotClk : Nat := 0
  slotF : List FKey := []
  /-- fibres waiting in xacq, oldest first (R199) -/
  xq : List FKey := []
  deriving DecidableEq, Repr, Inhabited

/-! ### Gangs, dies, domains -/

/-- Gang states (R210). -/
inductive GSt where
  | pending | placing | running | saving | saved | unplaced | killed | exited
  deriving DecidableEq, Repr, Inhabited

/-- A bound channel's frames, kept in the gang record (R358). -/
structure Chan where
  ch : Nat
  broken : Bool
  desc : Nat
  cap : Nat
  /-- physical page of each 64 KiB page of the ring, with the ring's virtual address -/
  ring : W64
  pages : List (Nat × Nat)
  pool : Bool
  deriving DecidableEq, Repr, Inhabited

/-- A saved fibre in the gang record (R417). -/
structure SavedFib where
  bid : Nat
  f : Fib
  deriving DecidableEq, Repr, Inhabited

/-- A gang and its record. -/
structure Gang where
  dom : Nat
  gid : Nat
  st : GSt := .pending
  cls : Nat := 4
  /-- cores by scratch slot -/
  cores : List Nat := []
  lastDie : Option Nat := Option.none
  chans : List Chan := []
  launches : Nat := 0
  commit : Nat := 0
  hkill : Bool := false
  saved : List SavedFib := []
  /-- blocks of a gang that is not resident: what a save kept, and the mailboxes of blocks that have not started (R193, R206) -/
  blocks : List (Nat × Block) := []
  /-- corner core that a thermal request moves it from (R209) -/
  thermalFrom : Option Nat := Option.none
  stoppedAt : Nat := 0
  /-- its valets have been told that its scratch images cannot be stored (R419) -/
  told : Bool := false
  deriving DecidableEq, Repr, Inhabited

/-- A die: its distributor's queue and its L2 TLB (R187, R31). -/
structure Die where
  /-- queued requests: class, domain, gang, arrival number -/
  queue : List (Nat × GKey × Nat) := []
  /-- placement in progress: request, cores reserved, tick of its start -/
  placing : Option (Nat × GKey × List Nat × Nat) := Option.none
  l2 : List Tlb := []
  walk : List (Nat × W64) := []
  /-- pages being walked, at most 32, and the core whose miss took the last walker (R32) -/
  walkers : List Nat := []
  lastWalk : Nat := 0
  deriving DecidableEq, Repr, Inhabited

/-- An order-log record (R464). -/
structure LogRec where
  kind : Nat
  core : Nat
  h : Nat
  count : Nat
  addr : W64
  val : W64
  deriving DecidableEq, Repr, Inhabited

/-- A recorded checkpoint: what a slot of the store holds (R462, R464). -/
structure CheckpointRec where
  seq : Nat
  mem : List Host.Cell
  gangs : List Gang
  fibs : List (FKey × Fib)
  spools : List (FKey × Spool)
  blocks : List ((Nat × Nat) × Block)
  cuts : List (Nat × W32)
  log : List LogRec := []
  bytes : Nat := 0
  owners : List (Nat × Node) := []
  deriving DecidableEq, Repr, Inhabited

/-- The retained launch record (R181). -/
structure Launch where
  cut : W32 := 0
  entry : W64 := 0
  lcbi : W64 := 0
  saveh : W64 := 0
  resth : W64 := 0
  savea : W64 := 0
  chtab : W64 := 0
  fibw : W32 := 0
  gangw : W32 := 0
  ngang : Nat := 0
  evt : Nat := 0
  khdr : W64 := 0
  /-- pin ranges of the kernel header: start, length (R434) -/
  pins : List (W64 × Nat) := []
  deriving DecidableEq, Repr, Inhabited

/-- A domain and its control block (R24). -/
structure Dom where
  dies : BitVec 8 := 0
  recAddr : W64 := 0
  ncores : Nat := 0
  rat : List (Nat × Nat) := []
  dptb : W64 := 0
  tinv : W64 := 0
  /-- accesses a running invalidation still waits for (R27) -/
  tinvMark : Nat := 0
  dstart : W64 := 0
  dunp : W64 := 0
  fws : List (Nat × W64) := []
  fwn : List (Nat × W64) := []
  fwl : List (Nat × W64) := []
  doors : List (Nat × W64) := []
  rpctl : W64 := 0x1_0032
  rpbase : W64 := 30
  rpstat : W64 := 0
  rpcmd : W64 := 0
  rptgt0 : W64 := 0
  rptgt1 : W64 := 0
  launch : Option Launch := Option.none
  checkpoints : List CheckpointRec := []
  lastCkpt : Nat := 0
  log : List LogRec := []
  /-- captured RETIRED of the stop fibre at the checkpoint (R466) -/
  tgtBase : Nat := 0
  /-- owners of words at this place of the recording, as the log tells them in a replay; the model's own (log 5) -/
  recOwners : List (Nat × Node) := []
  /-- a checkpoint is being taken: no fibre of the domain issues a further word (R462) -/
  quiesce : Bool := false
  deriving DecidableEq, Repr, Inhabited

/-! ### Cores and harts -/

/-- The basting unit (R453 to R459). -/
structure Bast where
  ctl : W64 := 0xA_0000
  base : W64 := 16
  wr : Nat := 0
  rd : Nat := 0
  buf : List W8 := []
  /-- packets of the open tick, with their handle -/
  open_ : List (Nat × List W8) := []
  /-- running time of the stream (R457) -/
  run : Nat := 0
  /-- bytes dropped since the last LOSS (R459) -/
  lost : Nat := 0
  /-- tick of the latest packet, and of the latest SYNC -/
  last : Nat := 0
  syncAt : Option Nat := Option.none
  /-- clk of the next sample, and each port's place in its rotation (R455) -/
  nextSample : Nat := 0
  samp : List (Nat × Nat) := []
  deriving DecidableEq, Repr, Inhabited

/-- A valet hart: an RV64GC hart (R397); `len` is the size in bytes of the word that it runs. -/
structure Hart where
  x : List W64
  f : List W64 := List.replicate 32 0
  pc : W64 := 0
  len : Nat := 4
  /-- privilege mode: 0 U, 1 S, 3 M -/
  mode : Nat := 3
  csr : List (Nat × W64) := []
  resv : Option (Nat × Nat) := Option.none
  /-- phase and request number of a word in progress, a value it keeps, its pending accesses -/
  phase : Nat := 0
  mark : Nat := 0
  keep : List W64 := []
  run : Bool := true
  deriving DecidableEq, Repr, Inhabited

/-- A core. -/
structure Core where
  -- caches
  l1 : List L1Line := []
  wb : List WbEntry := []
  loads : List Acc := []
  stores : List Acc := []
  insts : List PendInst := []
  icache : List ICLine := []
  tlb : List Tlb := []
  slots : List MissSlot := []
  slice : List Nat := []
  -- bolt
  bcut : W32 := 0
  good : BitVec 128 := BitVec.allOnes 128
  bfail : List (Nat × W64) := []
  becc : W64 := 0
  buce : W64 := 0
  bstat : W64 := 0
  /-- errors of the access rows of the bolt: quadrant, row, and each bank that holds a wrong symbol with its error (R53 to R56) -/
  boltErr : List (Nat × Nat × List (Nat × W8)) := []
  /-- granules that held registers or accumulators until their cut was released, and the bytes of each written since (R68) -/
  relics : List (Nat × Nat × List Nat) := []
  /-- scrubbers by quadrant: the next access row and the clk of the next scrub (R59) -/
  scrub : List (Nat × Nat × Nat) := []
  owner : Option GKey := Option.none
  reserved : Bool := false
  -- rows
  grants : List (Nat × RowGrant) := []
  banks : List (Nat × Bank) := []
  rowOps : List RowOp := []
  latches : List (Nat × Latch) := []
  rowErr : List (Nat × Nat × Nat) := []
  /-- activates of the ordinary path in the last 38 ticks (R94) -/
  ordActs : List Nat := []
  necc : W64 := 0
  nuce : W64 := 0
  dsmis : W64 := 0
  cecc : W64 := 0
  cret : W64 := 0
  -- engines
  press : List (Nat × List PressOp) := []
  /-- comparisons that will differ: press, row, column, and whether the first of the two results is the wrong one (R379) -/
  faulty : List (Nat × Nat × Nat × Bool) := []
  board : List Board := []
  xfree : List (Nat × Nat) := []
  subs : List (Nat × Sub) := []
  -- records for hart 0
  recs : List (BitVec 512) := []
  waiting : List (FKey × BitVec 512) := []
  recLoss : Bool := false
  bast : Bast := {}
  -- clock
  mhz : Nat := 2400
  /-- a clock step that waits for a twait slot to close (R211) -/
  stepTo : Option Nat := Option.none
  clkAcc : Nat := 0
  clk : Nat := 0
  gated : Bool := false
  inService : Bool := true
  hot : Bool := false
  hotAt : Nat := 0
  throttled : Bool := false
  deriving DecidableEq, Repr, Inhabited

/-- A hamper request held or in progress at its home (R359). -/
structure HampReq where
  id : Nat
  enq : Bool
  desc : Nat
  cap : Nat
  ring : W64
  pages : List (Nat × Nat)
  item : BitVec 512 := 0
  thr : Option Thread := Option.none
  /-- a request of a link agent or a device asked, through a door: its number (R479) -/
  door : Option Nat := Option.none
  /-- the home has begun: slot number -/
  busy : Option Nat := Option.none
  deriving DecidableEq, Repr, Inhabited

/-- A request from a fabric member or a device that waits for its answers (R472, R476). -/
structure ExtReq where
  id : Nat
  node : Node
  link : Nat
  hdr : FabHdr
  /-- lines: number, virtual address, bytes, data -/
  lines : List (Nat × W64 × BitVec 128 × List W32)
  wr : Bool
  ord : Nat
  /-- first byte and length -/
  pa : Nat := 0
  n : Nat := 0
  /-- its messages have been sent -/
  go : Bool := false
  /-- messages not yet answered -/
  out : List Nat := []
  refused : Bool := false
  poison : Bool := false
  dom : Nat := 0
  /-- status of its completion where nothing is there to serve a line -/
  status : Nat := 0
  /-- an agent's own registration message (R128, R155) -/
  msg : Option Msg := Option.none
  deriving DecidableEq, Repr, Inhabited

/-- What a link or port has carried out: link (32 and 33 are the ports), header, data, whether data are marked poisoned, and for KIND 4
the registration message with its fields (R109). -/
structure Sent where
  link : Nat
  hdr : FabHdr
  data : List W8
  poison : Bool := false
  msg : Option Msg := Option.none
  deriving DecidableEq, Repr, Inhabited

/-- A send-window tag that a request of the module holds: link, tag, the request's number and its line (R472). -/
structure LinkTag where
  link : Nat
  tag : Nat
  id : Nat
  line : Nat
  deriving DecidableEq, Repr, Inhabited

/-- The whole module. -/
structure State where
  tick : Nat
  mem : List Host.Cell
  poison : List Nat
  owners : List (Nat × Node)
  acts : List HomeAct
  homeQ : List Msg
  fills : List Nat
  net : List Msg
  cores : List (Nat × Core)
  fibs : List (FKey × Fib)
  spools : List (FKey × Spool)
  blocks : List ((Nat × Nat) × Block)
  harts : List ((Nat × Nat) × Hart)
  gangs : List Gang
  dies : List (Nat × Die)
  doms : List (Nat × Dom)
  copies : List Copy
  hamp : List HampReq
  -- module and host
  pkg : BitVec 12
  mr : List (BitVec 512)
  cfgOk : Bool
  cfgDigest : BitVec 512
  powerLimit : Nat
  linksUp : W32
  linkErr : Nat
  ports : List (Nat × Nat)
  ext : List ExtReq
  sent : List Sent
  attest : List (BitVec 512)
  report : List W8
  linkTags : List LinkTag
  -- the model's own
  cur : Actor
  agenda : List Turn
  freeCtr : Nat
  nextId : Nat
  deriving DecidableEq, Repr

/-- Why a step stops with a fault. -/
inductive Fault where
  /-- Raised by a message event whose message the protocol of R109 to R117 cannot produce in the state it
  finds (the tables say "cannot arise"). Safe: the machine stops where the spec gives no transition. -/
  | protocol
  deriving DecidableEq, Repr

/-- Why a word has no meaning here. -/
inductive Refusal where
  /-- Raised by the dispatcher for a row not yet modelled. Safe. -/
  | notModelled (mnemonic : String)
  /-- Raised when `exec` is asked to run a word for an actor that cannot execute it (a lane word for a scalar
  stream, a fibre's word with no such fibre): no such step exists in the machine. Safe. -/
  | noActor
  deriving DecidableEq, Repr

/-- The module right after reset: no domain, nothing cached, memory with nothing listed. -/
def State.reset : State where
  tick := 0
  mem := []
  poison := []
  owners := []
  acts := []
  homeQ := []
  fills := []
  net := []
  cores := []
  fibs := []
  spools := []
  blocks := []
  harts := []
  gangs := []
  dies := []
  doms := []
  copies := []
  hamp := []
  pkg := 0
  mr := List.replicate 8 0
  cfgOk := false
  cfgDigest := 0
  powerLimit := 0
  linksUp := BitVec.allOnes 32
  linkErr := 0
  ports := []
  ext := []
  sent := []
  attest := []
  report := []
  linkTags := []
  cur := .hw
  agenda := []
  freeCtr := 0
  nextId := 1

end Sys2Proof.Machine
end

