-- ==== Sys2Proof/Config.lean ====
section
/-! DEFINITION. What the spec leaves open: free values, each an opaque constant with no body, so that a claim
holds whatever it is (log 6 to log 9). -/
namespace Sys2Proof.Config

open Sys2Proof.Machine

/-- The agent that moves next when the agenda is empty (log 6). -/
opaque freeTurn : Nat → Turn

/-- A 32-bit value the spec leaves undefined or unspecified (R10, R101, R166, R253), by the free-value counter,
the register or row, and the lane or column (log 7). -/
opaque freeWord : Nat → Nat → Nat → W32

/-- A free choice between two allowed values (log 7). -/
opaque freeBool : Nat → Bool

/-- A free byte: what the spec does not give of an answer from outside (log 7), and of a granule that held registers (R68; log 53). -/
opaque freeByte : Nat → W8

/-- Where part `i` of a register of a fibre or spool, or of a tile, lies in its area of the bolt: an access row (R68; log 53). -/
opaque boltPlace : FKey → Nat → Nat → Nat

/-- The byte at an address of a granule that holds registers or accumulators, by all that it holds (R68; log 53). -/
opaque boltByte : List (FKey × Nat × List W32) → Nat → W8

/-- A byte of a granule that held registers until its cut was released, by the release and the address (R68; log 53). -/
opaque relicByte : Nat → Nat → W8

/-- SHA-512 of a byte string (R480, R482): the function is named, not described, by the spec (log 8). -/
opaque sha512 : List W8 → BitVec 512

/-- Ed25519 signature of a message with the module's device key (R482) (log 8). -/
opaque ed25519 : List W8 → BitVec 512

end Sys2Proof.Config
end

