-- ==== Sys2Proof/Machine/Ops.lean ====
section
/-! DEFINITION. Named operations over the state: tables, memory in its canonical form, accessors of cores,
fibres, spools, blocks and registers, stalls, the retirement of a word, and taking and leaving a stop. -/
namespace Sys2Proof.Machine

/-- What a meaning answers. -/
abbrev Out := Host.Outcome State Fault Refusal

/-! ### Tables -/

/-- The entry of a key in a table, or a default. -/
def tget {κ α : Type} [DecidableEq κ] (t : List (κ × α)) (k : κ) (d : α) : α :=
  match t with
  | [] => d
  | (k', v) :: r => if k' = k then v else tget r k d

/-- The entry of a key in a table, if listed. -/
def tfind {κ α : Type} [DecidableEq κ] (t : List (κ × α)) (k : κ) : Option α :=
  match t with
  | [] => none
  | (k', v) :: r => if k' = k then some v else tfind r k

/-- The table with the entry of a key replaced or added. -/
def tset {κ α : Type} [DecidableEq κ] (t : List (κ × α)) (k : κ) (v : α) : List (κ × α) :=
  match t with
  | [] => [(k, v)]
  | (k', v') :: r => if k' = k then (k, v) :: r else (k', v') :: tset r k v

/-- The table without a key. -/
def tdel {κ α : Type} [DecidableEq κ] (t : List (κ × α)) (k : κ) : List (κ × α) :=
  t.filter fun e => e.1 ≠ k

/-- Insert into a list ordered by `le`, after its equals. -/
def insertBy {α : Type} (le : α → α → Bool) (x : α) : List α → List α
  | [] => [x]
  | y :: r => if le y x then y :: insertBy le x r else x :: y :: r

/-- A list sorted by `le`, equals in their order. -/
def sortBy {α : Type} (le : α → α → Bool) (l : List α) : List α := l.foldl (fun r x => insertBy le x r) []

/-- The sum of a list of natural numbers. -/
def sumNat (l : List Nat) : Nat := l.foldl (· + ·) 0

/-! ### Memory: one list of address and byte pairs, addresses strictly rising, no entry zero (log 1) -/

/-- What an address that is not listed reads as: zero (R47 for granules, log 1 elsewhere). -/
def memDefault : W8 := 0

/-- The byte at an address. -/
def Memory.read (m : List Host.Cell) (a : Nat) : W8 :=
  match m with
  | [] => memDefault
  | (a', b) :: r => if a' = a then b else Memory.read r a

/-- The memory with one byte written, in canonical form. -/
def Memory.write (m : List Host.Cell) (a : Nat) (b : W8) : List Host.Cell :=
  match m with
  | [] => if b = memDefault then [] else [(a, b)]
  | (a', b') :: r =>
    if a < a' then (if b = memDefault then (a', b') :: r else (a, b) :: (a', b') :: r)
    else if a = a' then (if b = memDefault then r else (a, b) :: r)
    else (a', b') :: Memory.write r a b

/-- The canonical form: addresses strictly rising, no entry equal to what an unlisted address reads as. -/
def Memory.wf : List Host.Cell → Bool
  | [] => true
  | [(_, b)] => b ≠ memDefault
  | (a, b) :: (a', b') :: r => b ≠ memDefault && a < a' && Memory.wf ((a', b') :: r)

/-- Bytes written from an address up. -/
def Memory.writeBytes (m : List Host.Cell) (a : Nat) : List W8 → List Host.Cell
  | [] => m
  | b :: r => Memory.writeBytes (Memory.write m a b) (a + 1) r

/-- `n` bytes read from an address up. -/
def Memory.readBytes (m : List Host.Cell) (a : Nat) : Nat → List W8
  | 0 => []
  | n + 1 => Memory.read m a :: Memory.readBytes m (a + 1) n

/-- Little-endian value of bytes (R342). -/
def leNat : List W8 → Nat
  | [] => 0
  | b :: r => b.toNat + 256 * leNat r

/-- The `n` little-endian bytes of a value. -/
def leBytes (v : Nat) : Nat → List W8
  | 0 => []
  | n + 1 => BitVec.ofNat 8 v :: leBytes (v / 256) n

/-- The 32-bit words of a byte list. -/
def toWords : Nat → List W8 → List W32
  | 0, _ => []
  | n + 1, bs => BitVec.ofNat 32 (leNat (bs.take 4)) :: toWords n (bs.drop 4)

/-- A word of memory at a word address. -/
def memWord (m : List Host.Cell) (wa : Nat) : W32 := BitVec.ofNat 32 (leNat (Memory.readBytes m (4 * wa) 4))

/-! ### Parts of the state -/

/-- Core c (R2). -/
def State.core (s : State) (c : Nat) : Core := tget s.cores c {}
/-- The state with core c replaced. -/
def State.setCore (s : State) (c : Nat) (v : Core) : State := { s with cores := tset s.cores c v }
/-- The state with core c changed. -/
def State.onCore (s : State) (c : Nat) (f : Core → Core) : State := s.setCore c (f (s.core c))
def State.dom (s : State) (d : Nat) : Dom := tget s.doms d {}
def State.setDom (s : State) (d : Nat) (v : Dom) : State := { s with doms := tset s.doms d v }
def State.die (s : State) (d : Nat) : Die := tget s.dies d {}
def State.setDie (s : State) (d : Nat) (v : Die) : State := { s with dies := tset s.dies d v }
def State.fib? (s : State) (k : FKey) : Option Fib := tfind s.fibs k
def State.setFib (s : State) (k : FKey) (f : Fib) : State := { s with fibs := tset s.fibs k f }
/-- The state with a resident fibre changed; no fibre, no change. -/
def State.onFib (s : State) (k : FKey) (g : Fib → Fib) : State :=
  match s.fib? k with
  | some f => s.setFib k (g f)
  | none => s
/-- The key of a fibre's spool. -/
def spoolOf (k : FKey) : FKey := { k with pos := 0 }
def State.spool (s : State) (k : FKey) : Spool := tget s.spools (spoolOf k) {}
def State.setSpool (s : State) (k : FKey) (v : Spool) : State := { s with spools := tset s.spools (spoolOf k) v }
/-- The block (dom, bid). -/
def State.block (s : State) (d b : Nat) : Block := tget s.blocks (d, b) {}
def State.setBlock (s : State) (d b : Nat) (v : Block) : State := { s with blocks := tset s.blocks (d, b) v }
def Core.sub (c : Core) (k : Nat) : Sub := tget c.subs k {}
def Core.setSub (c : Core) (k : Nat) (v : Sub) : Core := { c with subs := tset c.subs k v }
def Hart.init : Hart := { x := List.replicate 32 0 }
/-- A floating register takes the low bits of a value: 32 bits are boxed in ones; mstatus.FS becomes dirty (RISC-V; log 3). -/
def Hart.setFreg (h : Hart) (d n v : Nat) : Hart :=
  { h with f := h.f.set d (if n = 4 then BitVec.ofNat 64 (v % 2 ^ 32 + 0xFFFF_FFFF * 2 ^ 32) else BitVec.ofNat 64 v)
           csr := tset h.csr 0x300 (tget h.csr 0x300 0 ||| 0x6000) }
def State.hart (s : State) (c h : Nat) : Hart := tget s.harts (c, h) Hart.init
def State.setHart (s : State) (c h : Nat) (v : Hart) : State := { s with harts := tset s.harts (c, h) v }
def State.gang? (s : State) (g : GKey) : Option Gang := s.gangs.find? fun x => x.dom = g.dom ∧ x.gid = g.gid
def State.setGang (s : State) (v : Gang) : State :=
  { s with gangs := s.gangs.map fun x => if x.dom = v.dom ∧ x.gid = v.gid then v else x }
def Gang.key (g : Gang) : GKey := ⟨g.dom, g.gid⟩
def Fib.gang (f : Fib) : GKey := ⟨f.dom, f.gid⟩
/-- A fresh request number. -/
def State.fresh (s : State) : Nat × State := (s.nextId, { s with nextId := s.nextId + 1 })
/-- A fresh index of free values. -/
def State.freeIdx (s : State) : Nat × State := (s.freeCtr, { s with freeCtr := s.freeCtr + 1 })
/-- The domain of a die, if any (R11). -/
def State.domOfDie (s : State) (d : Nat) : Option Nat :=
  (s.doms.find? fun e => e.2.dies.getLsbD d).map (·.1)
def State.domOfCore (s : State) (c : Nat) : Option Nat := s.domOfDie (c / 32)
/-- Cores of a domain, in ascending number. -/
def State.coresOfDom (s : State) (d : Nat) : List Nat :=
  (List.range 256).filter fun c => (s.dom d).dies.getLsbD (c / 32)
/-- Resident fibres of a core. -/
def State.fibsOfCore (s : State) (c : Nat) : List (FKey × Fib) := s.fibs.filter fun e => e.1.core = c
def State.fibsOfGang (s : State) (g : GKey) : List (FKey × Fib) := s.fibs.filter fun e => e.2.gang = g
def State.fibsOfBlock (s : State) (d b : Nat) : List (FKey × Fib) := s.fibs.filter fun e => e.2.dom = d ∧ e.2.bid = b
/-- The fibre handle of R401. -/
def handleOf (k : FKey) : Nat := k.sub % 16 * 16 + k.slot % 4 * 4 + k.pos % 4
/-- The fibre a handle names on a core. -/
def keyOfHandle (c h : Nat) : FKey := ⟨c, h / 16 % 16, h / 4 % 4, h % 4⟩
/-- The retained launch record of a domain. -/
def State.launch (s : State) (d : Nat) : Launch := (s.dom d).launch.getD {}

/-! ### Launch words (R182, R183, R42) -/
def Launch.fpb (l : Launch) : Nat := (l.fibw.extractLsb' 24 5).toNat + 1
def Launch.spf (l : Launch) : Nat := (l.fibw.extractLsb' 22 2).toNat + 1
def Launch.baseSize (l : Launch) : Nat := 32 * ((l.fibw.extractLsb' 20 2).toNat + 1)
def Launch.winSize (l : Launch) : Nat := match (l.fibw.extractLsb' 18 2).toNat with | 0 => 0 | 1 => 16 | 2 => 32 | _ => 64
def Launch.xp (l : Launch) : Nat := (l.fibw.extractLsb' 15 3).toNat
def Launch.acct (l : Launch) : Nat := (l.fibw.extractLsb' 10 5).toNat
def Launch.bpu (l : Launch) : Nat := (l.gangw.extractLsb' 18 6).toNat + 1
def Launch.quad (l : Launch) : Bool := l.gangw.getLsbD 17
def Launch.h (l : Launch) : Nat := (l.gangw.extractLsb' 15 2).toNat + 1
def Launch.w (l : Launch) : Nat := 2 ^ (l.gangw.extractLsb' 13 2).toNat
def Launch.regg (l : Launch) : Nat := (l.cut.extractLsb' 0 8).toNat
def Launch.scrg (l : Launch) : Nat := (l.cut.extractLsb' 8 8).toNat
def Launch.accg (l : Launch) : Nat := (l.cut.extractLsb' 16 8).toNat
/-- Blocks of a gang (R183). -/
def Launch.bpg (l : Launch) : Nat := if l.quad then l.bpu * (l.h * l.w / 4) else l.bpu * (l.h * l.w)
/-- Spools of a block (R184). -/
def Launch.spb (l : Launch) : Nat := (l.fpb + l.spf - 1) / l.spf

/-! ### Scalar registers (R262) -/

/-- Scalar register n: s0 reads 0. -/
def Fib.sreg (f : Fib) (n : Nat) : W64 := if n = 0 then 0 else f.regs.getD n 0
/-- The fibre with S[n] written: a write to s0 is discarded. -/
def Fib.setSreg (f : Fib) (n : Nat) (v : W64) : Fib := if n = 0 then f else { f with regs := f.regs.set n v }
/-- The active mask held in lm0 to lm2 (R262): 32 lanes in the low half of each. -/
def Fib.mask (f : Fib) : Mask := (f.sreg 3).setWidth 32 ++ (f.sreg 2).setWidth 32 ++ (f.sreg 1).setWidth 32
/-- The fibre with the mask written to lm0 to lm2. -/
def Fib.setMask (f : Fib) (m : Mask) : Fib :=
  ((f.setSreg 1 ((m.extractLsb' 0 32).setWidth 64)).setSreg 2 ((m.extractLsb' 32 32).setWidth 64)).setSreg 3
    ((m.extractLsb' 64 32).setWidth 64)
/-- Every lane active (R262). -/
def maskFull : Mask := BitVec.allOnes 96
/-- The registers of a fibre at its start (R262). -/
def regsInit : List W64 :=
  ((List.replicate 192 (0 : W64)).set 1 0xFFFF_FFFF).set 2 0xFFFF_FFFF |>.set 3 0xFFFF_FFFF

/-- LQ, the stitches enqueued whose lane words have not all issued (R159). -/
def Fib.lq (f : Fib) : Nat := f.stitches.length
def Fib.ld (f : Fib) : Nat := f.ldq.length
def Fib.pr (f : Fib) : Nat := f.prq.length
def Fib.rw (f : Fib) : Nat := f.rwq.length
/-- A wait counter by the code of R242. -/
def Fib.counter (f : Fib) (c : Nat) : Nat :=
  match c with
  | 0 => f.lq | 1 => f.ld | 2 => f.stc | 3 => f.pr | 4 => f.sac | _ => f.rw
/-- A counter kept in issue order falls for its oldest entries that have fallen (R159). -/
def popDone (q : List (Nat × Bool)) : List (Nat × Bool) := q.dropWhile (·.2)
/-- Mark request `i` fallen in a counter. -/
def markDone (q : List (Nat × Bool)) (i : Nat) : List (Nat × Bool) :=
  popDone (q.map fun e => if e.1 = i then (e.1, true) else e)

/-! ### Bytes of an item -/
def bytesOf512 (v : BitVec 512) : List W8 := leBytes v.toNat 64
def ofBytes512 (l : List W8) : BitVec 512 := BitVec.ofNat 512 (leNat l)

/-! ### Vector registers and tags (R198, R200) -/

/-- The 96 elements of a register that nothing has written. -/
def vzero : List W32 := List.replicate 96 0

/-- Register v of a fibre: v192 to v255 are the spool's window. -/
def State.vreg (s : State) (k : FKey) (v : Nat) : List W32 :=
  if v < 192 then match s.fib? k with
    | some f => tget f.vregs v vzero
    | none => vzero
  else tget (s.spool k).win v vzero

/-- The tag of register v: 15 is unset. -/
def State.vtag (s : State) (k : FKey) (v : Nat) : Nat :=
  if v < 192 then match s.fib? k with
    | some f => tget f.tags v 15
    | none => 15
  else tget (s.spool k).wtags v 15

/-- Register v written whole. -/
def State.setVreg (s : State) (k : FKey) (v : Nat) (x : List W32) : State :=
  if v < 192 then s.onFib k fun f => { f with vregs := tset f.vregs v x }
  else s.setSpool k { s.spool k with win := tset (s.spool k).win v x }

/-- The tag of register v written. -/
def State.setVtag (s : State) (k : FKey) (v t : Nat) : State :=
  if v < 192 then s.onFib k fun f => { f with tags := tset f.tags v t }
  else s.setSpool k { s.spool k with wtags := tset (s.spool k).wtags v t }

/-- Elements of the lanes of a mask from `new`, the others from `old`; `i` is the lane of the lists' heads. -/
def mergeLanes (m : Mask) (i : Nat) : List W32 → List W32 → List W32
  | n :: ns, o :: os => (if m.getLsbD i then n else o) :: mergeLanes m (i + 1) ns os
  | _, os => os

/-- The active lanes of register v written (R345: inactive lanes keep their values). -/
def State.writeLanes (s : State) (k : FKey) (m : Mask) (v : Nat) (x : List W32) : State :=
  s.setVreg k v (mergeLanes m 0 x (s.vreg k v))

/-! ### Words that do not complete, and words that do -/

/-- The word stays at the stream's head: the fibre shows a stall reason and nothing else changes (R455). -/
def stall (k : FKey) (r : Nat) (s : State) : Out := .next (s.onFib k fun f => { f with stall := r, waits := false })

/-- The same for a word that is a consuming wait, while it waits for loads (R161, R205). -/
def stallLoads (k : FKey) (s : State) : Out :=
  .next (s.onFib k fun f => { f with stall := 3, waits := true, susp := if f.susp = 1 then 0 else f.susp })

/-- The lane word stays at its stitch's head, with a stall reason. -/
def stallLane (k : FKey) (r : Nat) (s : State) : Out := .next (s.onFib k fun f => { f with stallL := r })

/-- A scalar word completes: the PC moves to `pc`, RETIRED counts it outside a handler (R293), and what a
word in progress kept is dropped. -/
def Fib.retireAt (f : Fib) (pc : W64) : Fib :=
  { f with pc := pc, retired := if f.hkind = 0 then f.retired + 1 else f.retired, phase := 0, mark := 0, keep := [],
           susp := if f.susp = 1 then 0 else f.susp, stall := 0, waits := false, tslot := none }

/-- A scalar word completes and the stream goes on at the next word. -/
def Fib.retire (f : Fib) : Fib := f.retireAt (f.pc + 4)

/-- A scalar word completes with no other effect. -/
def done (k : FKey) (s : State) : Out := .next (s.onFib k Fib.retire)

/-- A scalar word completes and writes S[d]. -/
def doneSreg (k : FKey) (d : Nat) (v : W64) (s : State) : Out :=
  .next (s.onFib k fun f => (f.setSreg d v).retire)

/-- The lane PC of the next unissued lane word, or 0 when none is enqueued (R292, R413). -/
def Fib.lanePc (f : Fib) : W64 := match f.stitches with | [] => 0 | t :: _ => t.pc

/-! ### Trace packets (R456 to R458) -/

/-- The fibre's sub-core is traced: TEN and its bit of SUBM (R453, R458). -/
def State.traces (s : State) (k : FKey) : Bool :=
  let c := (s.core k.core).bast.ctl
  c.getLsbD 1 && c.getLsbD (32 + k.sub)

/-- A packet of the fibre joins the packets of the open tick. -/
def trace (k : FKey) (p : List W8) (s : State) : State :=
  if s.traces k then
    s.onCore k.core fun c => { c with bast := { c.bast with open_ := c.bast.open_ ++ [(handleOf k, p)] } }
  else s

/-- A byte of a packet. -/
def b8 (n : Nat) : W8 := BitVec.ofNat 8 n

/-- The 12 bytes of a mask: bits [31:0] of lm0, lm1, lm2 (R456). -/
def maskBytes (m : Mask) : List W8 := leBytes m.toNat 12

/-- FSYNC (R456): reason, scalar PC, lane PC, mask, RETIRED; the mask becomes that of the fibre's latest FSYNC. -/
def traceFsync (k : FKey) (reason : Nat) (s : State) : State :=
  match s.fib? k with
  | none => s
  | some f =>
    if s.traces k then
      (trace k ([b8 0x71, b8 (handleOf k), b8 reason] ++ leBytes f.pc.toNat 8 ++ leBytes f.lanePc.toNat 8
        ++ maskBytes f.mask ++ leBytes f.retired 8) s).onFib k fun f => { f with syncMask := f.mask }
    else s

/-! ### Order logs (R464) -/

/-- log₂ of a checkpoint slot's size: SLOG runs from 30 to 40, and its five bits hold it modulo 32. DEDUCED (log 31). -/
def slotLog (dm : Dom) : Nat :=
  let v := (dm.rpbase.extractLsb' 0 5).toNat
  if v < 9 then 32 + v else v

/-- A slot would overflow: recording ends, with OVF set and STATE 0 (R462). -/
def recordOverflow (dm : Dom) : Dom :=
  { dm with rpstat := (dm.rpstat &&& ~~~(15 : W64)) ||| 0x8000_0000, rpctl := dm.rpctl &&& ~~~(0x8000_0000 : W64) }

/-- A slot has room for the pages of its checkpoint and for one log record more. -/
def logFits (dm : Dom) : Bool :=
  match dm.checkpoints.getLast? with
  | some r => r.bytes + 32 * (dm.log.length + 1) ≤ 2 ^ slotLog dm
  | none => true

/-- Append an order-log record of a recording domain: KIND, core, handle, COUNT, ADDR, VALUE. -/
def logOrder (d kind core h count : Nat) (addr val : W64) (s : State) : State :=
  let dm := s.dom d
  if dm.rpctl.getLsbD 31 then
    s.setDom d (if logFits dm then { dm with log := dm.log ++ [⟨kind, core, h, count, addr, val⟩] } else recordOverflow dm)
  else s

/-- The domain is replaying (R466). -/
def State.replaying (s : State) (d : Nat) : Bool := (s.dom d).rpstat.extractLsb' 0 4 == 2

/-- The records of a domain's log that pass a test, in order. -/
def State.logged (s : State) (d : Nat) (p : LogRec → Bool) : Option LogRec := (s.dom d).log.find? p

/-- A record of the log has been used in replay. -/
def useLog (d : Nat) (r : LogRec) (s : State) : State :=
  let dm := s.dom d
  s.setDom d { dm with log := dm.log.erase r }

/-- Replay ends (R467, R468): STATE takes a code, and every fibre of the domain that runs is stopped. -/
def endReplay (d code : Nat) (s : State) : State :=
  let dm := s.dom d
  let s := s.setDom d { dm with rpstat := (dm.rpstat &&& ~~~(15 : W64)) ||| BitVec.ofNat 64 code }
  { s with fibs := s.fibs.map fun (e : FKey × Fib) =>
      if e.2.dom = d && (match e.2.st with | .running | .blocked | .saving | .restoring => true | _ => false) then
        (e.1, { e.2 with st := .parked, stall := 22, stallL := 22 })
      else e }

/-! ### Stop records and stops (R407 to R413, R392) -/

/-- IDENT of a record (R413). -/
def ident (k : FKey) (f : Fib) : Nat :=
  (k.core % 256) * 2 ^ 56 + (f.fid % 32) * 2 ^ 51 + (f.dom % 8) * 2 ^ 48 + (f.bid % 2 ^ 25) * 2 ^ 16 + f.gid % 65536

/-- A 64-byte record (R413). -/
def mkRecord (rkind handle aux : Nat) (srcl : Bool) (cause : Nat) (epcs epcl addr info : W64) (tick idn retired : Nat) :
    BitVec 512 :=
  let hdr := rkind % 256 + (aux % 256) * 2 ^ 8 + (handle % 256) * 2 ^ 16 + (if srcl then 2 ^ 30 else 0)
  BitVec.ofNat 512 (hdr + (cause % 2 ^ 32) * 2 ^ 32 + epcs.toNat * 2 ^ 64 + epcl.toNat * 2 ^ 128 + addr.toNat * 2 ^ 192
    + info.toNat * 2 ^ 256 + (tick % 2 ^ 64) * 2 ^ 320 + (idn % 2 ^ 64) * 2 ^ 384 + (retired % 2 ^ 64) * 2 ^ 448)

/-- Queue a fibre's stop record: when the queue is full it waits (R404). -/
def pushStop (k : FKey) (r : BitVec 512) (s : State) : State :=
  if (s.core k.core).recs.length < 64 then s.onCore k.core fun c => { c with recs := c.recs ++ [r] }
  else (s.onCore k.core fun c => { c with waiting := c.waiting ++ [(k, r)] }).onFib k fun f => { f with recWait := true }

/-- Queue a record that is dropped when the queue is full, with LOSS on the next record popped (R404, R438). -/
def pushRec (core : Nat) (r : BitVec 512) (s : State) : State :=
  if (s.core core).recs.length < 64 then s.onCore core fun c => { c with recs := c.recs ++ [r] }
  else s.onCore core fun c => { c with recLoss := true }

/-- Cause codes of R407. -/
inductive Cause where
  | illegal | reservedMajor | format | regRange | stitchLong | jetOrder | align | page | protection | pagetable
  | raceWw | raceRw | rowEarly | rowOpen | rowBudget | rowRefresh | rowGrant | rowPinnedWrite | hemBound
  | tileMismatch | trapCall | brk | tretIllegal | statusReserved | channel | privileged | fp | scratchRange
  | pressState | uncorrectable
  deriving DecidableEq, Repr

/-- The code of a cause. -/
def Cause.code : Cause → Nat
  | .illegal => 1 | .reservedMajor => 2 | .format => 3 | .regRange => 4 | .stitchLong => 5 | .jetOrder => 6
  | .align => 7 | .page => 8 | .protection => 9 | .pagetable => 10 | .raceWw => 11 | .raceRw => 12
  | .rowEarly => 13 | .rowOpen => 14 | .rowBudget => 15 | .rowRefresh => 16 | .rowGrant => 17
  | .rowPinnedWrite => 18 | .hemBound => 19 | .tileMismatch => 20 | .trapCall => 21 | .brk => 22
  | .tretIllegal => 23 | .statusReserved => 24 | .channel => 25 | .privileged => 26 | .fp => 27
  | .scratchRange => 28 | .pressState => 29 | .uncorrectable => 30

/-- What a stop records besides its cause: CAUSE's other fields and the record's fields (R292, R413). -/
structure StopInfo where
  lane : Nat := 0xFF
  arg : Nat := 0
  flags : Nat := 0
  coef : Nat := 0
  addr : W64 := 0
  info : W64 := 0
  aux : Nat := 0
  rkind : Nat := 1
  /-- INFO holds a lane PC -/
  srcl : Bool := false
  deriving DecidableEq, Repr

/-- CAUSE as written at a stop (R292). -/
def causeWord (c : Nat) (i : StopInfo) : Nat :=
  c % 256 + (i.lane % 256) * 2 ^ 8 + (i.coef % 8) * 2 ^ 16 + (i.flags % 32) * 2 ^ 19 + (i.arg % 256) * 2 ^ 24

/-- A fibre's turn of the lane pipe, if it holds it, ends (R195). -/
def Sub.endTurn (b : Sub) (k : FKey) : Sub :=
  if b.holder = some k then { b with holder := none, last := 4 * k.slot + k.pos, passed := b.passed.filter (·.1 ≠ k) } else b

/-- The scalar word in progress is left: its request at a hamper is withdrawn, bytes it was gathering are dropped (R362), and it waits
for no extension block (R199). -/
def withdraw (k : FKey) (s : State) : State :=
  let s := s.onCore k.core fun c => c.setSub k.sub { c.sub k.sub with xq := (c.sub k.sub).xq.filter (· ≠ k) }
  let s := { s with hamp := s.hamp.filter fun q => q.thr ≠ some (Thread.fib k) }
  match s.fib? k with
  | some f =>
    if f.phase = 2 && f.wait = .none then s.onCore k.core fun c => { c with
      insts := c.insts.filter fun i => !(i.id = f.mark && i.fin = .hold)
      loads := c.loads.filter fun a => a.inst ≠ f.mark }
    else s
  | none => s

/-- The wait that stands once the word in progress is left: an arrival at a barrier falls with its word (R408), but the wait that
a save or restore handler keeps is not the word's own (R206, R208). -/
def Fib.waitLeft (f : Fib) : Wait := if f.hkind = 2 || f.hkind = 3 then f.wait else .none

/-- TAKING A STOP, the one shared operation (R408, R392, R413): outside a handler CAUSE, EPCS and EPCL are
written; the fibre freezes at the word, its turn of the lane pipe ends, and one record goes to hart 0. `epcs` is the
scalar PC the stop names and the stream resumes at. -/
def takeStop (k : FKey) (cause : Nat) (i : StopInfo) (epcs : W64) (s : State) : State :=
  match s.fib? k with
  | none => s
  | some f =>
    let f1 := if f.hkind = 0 then
        { f with cause := BitVec.ofNat 64 (causeWord cause i), epcs := epcs, epcl := f.lanePc }
      else f
    let f2 := { f1 with st := .frozen, pc := epcs, phase := 0, mark := 0, keep := [], susp := 0, stall := 14, stallL := 14,
                        tslot := none, markL := 0, wait := f.waitLeft, waits := false, stays := false }
    let s := (withdraw k s).setFib k f2
    let s := s.onCore k.core fun c => c.setSub k.sub ((c.sub k.sub).endTurn k)
    let s := trace k [b8 0x60, b8 (handleOf k), b8 cause, b8 i.lane] s
    let s := logOrder f.dom 8 k.core (handleOf k) f.retired (BitVec.ofNat 64 cause) i.addr s
    -- in replay, a stop that was not recorded is marked so (R467)
    let old := if s.replaying f.dom then s.logged f.dom fun r => r.kind = 8 && r.core = k.core && r.h = handleOf k
        && r.count = f.retired && r.addr.toNat = cause else none
    let rk := if s.replaying f.dom && old.isNone && i.rkind = 1 then 5 else i.rkind
    let s := match old with | some r => useLog f.dom r s | none => s
    pushStop k (mkRecord rk (handleOf k) i.aux i.srcl (causeWord cause i) epcs f.lanePc i.addr i.info s.tick
      (ident k f) f.retired) s

/-- A scalar word stops exactly: EPCS names the word (R408). -/
def trapScalar (k : FKey) (c : Cause) (i : StopInfo) (s : State) : Out :=
  match s.fib? k with
  | some f => .next (takeStop k c.code i f.pc s)
  | none => .refused .noActor

/-- A lane word stops exactly: EPCL names the word, EPCS the scalar word at which the stream stood (R292). -/
def trapLane (k : FKey) (c : Cause) (i : StopInfo) (s : State) : Out :=
  match s.fib? k with
  | some f => .next (takeStop k c.code i f.pc s)
  | none => .refused .noActor

/-- ENTERING A HANDLER (R390): slots 0 to 3, the full mask, the held queue, and the stream at `pc`. -/
def enterHandler (kind : Nat) (pc : W64) (f : Fib) : Fib :=
  let h := (((f.hslots.set 0 (f.sreg 1)).set 1 (f.sreg 2)).set 2 (f.sreg 3)).set 3 (BitVec.ofNat 64 kind)
  let f1 := { f with hslots := h, hkind := kind, held := f.stitches, stitches := [], pc := pc, phase := 0, mark := 0,
                     keep := [], susp := 0, stall := 0, tslot := none }
  f1.setMask maskFull

/-- RETURNING FROM A TRAP HANDLER (R396, KIND 1): the mask from H0 to H2, the stream at EPCS, the held queue with
its first stitch at EPCL. -/
def leaveHandler (f : Fib) : Fib :=
  let held := match f.held with
    | [] => []
    | t :: r => { t with pc := f.epcl } :: r
  let f1 := { f with hkind := 0, held := [], stitches := held, pc := f.epcs, phase := 0, mark := 0, keep := [],
                     susp := 0, stall := 0, st := .running }
  ((f1.setSreg 1 (f.hslots.getD 0 0)).setSreg 2 (f.hslots.getD 1 0)).setSreg 3 (f.hslots.getD 2 0)

/-! ### Whose word runs -/

/-- The meaning of a scalar word: it runs for the scalar stream that holds the turn. -/
def asScalar (s : State) (body : FKey → Fib → Out) : Out :=
  match s.cur with
  | .scalar k => match s.fib? k with
    | some f => body k f
    | none => .refused .noActor
  | _ => .refused .noActor

/-- The meaning of a lane word: it runs for the fibre that holds the lane pipe, at its first stitch. -/
def asLane (s : State) (body : FKey → Fib → Stitch → Out) : Out :=
  match s.cur with
  | .lane k => match s.fib? k with
    | some f => match f.stitches with
      | t :: _ => body k f t
      | [] => .refused .noActor
    | none => .refused .noActor
  | _ => .refused .noActor

/-- The meaning of a valet word: it runs for a hart of a core. -/
def asHart (s : State) (body : Nat → Nat → Hart → Out) : Out :=
  match s.cur with
  | .hart c h => body c h (s.hart c h)
  | _ => .refused .noActor

end Sys2Proof.Machine
end

