-- ==== Sys2Proof/Machine/Bolt.lean ====
section
/-! DEFINITION. The bolt: the cut and its areas (R42 to R47), the codewords of its access rows (R53 to R58), its reads and writes by
bolt-window address, and the registers and accumulators that it holds. -/
namespace Sys2Proof.Machine

/-! ### The cut (R42 to R50) -/

def cutRegg (c : W32) : Nat := (c.extractLsb' 0 8).toNat
def cutScrg (c : W32) : Nat := (c.extractLsb' 8 8).toNat
def cutAccg (c : W32) : Nat := (c.extractLsb' 16 8).toNat

/-- Good granules of a quadrant, ascending (R46). -/
def goodOf (good : BitVec 128) (q : Nat) : List Nat := ((List.range 32).map (· + 32 * q)).filter fun g => good.getLsbD g

/-- The cut fits the core's good granules (R46). -/
def cutFits (cut : W32) (good : BitVec 128) : Bool :=
  (List.range 4).all fun q =>
    4 * (cutRegg cut / 16) + cutAccg cut / 4 + ((List.range (cutScrg cut)).filter fun i => i % 4 = q).length
      ≤ (goodOf good q).length

/-- The register area of sub-core k (R46). -/
def regArea (cut : W32) (good : BitVec 128) (k : Nat) : List Nat :=
  ((goodOf good (k / 4)).drop (k % 4 * (cutRegg cut / 16))).take (cutRegg cut / 16)

/-- The accumulator area of press q (R46). -/
def accArea (cut : W32) (good : BitVec 128) (q : Nat) : List Nat :=
  ((goodOf good q).drop (4 * (cutRegg cut / 16))).take (cutAccg cut / 4)

/-- Granules of a quadrant that the cut assigns (R46, R63). -/
def assigned (cut : W32) (good : BitVec 128) (q : Nat) : List Nat :=
  (goodOf good q).take (4 * (cutRegg cut / 16) + cutAccg cut / 4
    + ((List.range (cutScrg cut)).filter fun i => i % 4 = q).length)

/-- Physical granule of logical scratch granule i (R46). -/
def scratchGranule (cut : W32) (good : BitVec 128) (i : Nat) : Option Nat :=
  (goodOf good (i % 4))[4 * (cutRegg cut / 16) + cutAccg cut / 4 + i / 4]?

/-- The granule holds scratchpad under the cut in force. -/
def isScratchGranule (cut : W32) (good : BitVec 128) (g : Nat) : Bool :=
  (List.range (cutScrg cut)).any fun i => scratchGranule cut good i = some g

/-- Base of a core's bolt window (R17). -/
def boltBase (c : Nat) : Nat := 0xB_0000_0000_0000 + c * 0x80_0000

/-- Bolt-window address of a scratch offset of a core under its cut. -/
def scratchPa (co : Core) (c off : Nat) : Nat :=
  boltBase c + (scratchGranule co.bcut co.good (off / 65536)).getD 0 * 65536 + off % 65536

/-! ### The code of an access row (R54)

RS(36, 32) over GF(2⁸). Symbol b of a row, which bank b holds, is coefficient 35 − b of the codeword. -/

/-- α times an element of the field x⁸ + x⁴ + x³ + x² + 1. -/
def gfDouble (a : W8) : W8 := if a.getLsbD 7 then (a <<< 1) ^^^ 0x1D else a <<< 1

/-- Product in the field. -/
def gfMul (a b : W8) : W8 := (List.range 8).foldr (fun i r => gfDouble r ^^^ (if b.getLsbD i then a else 0)) 0

/-- α to the power n, n < 256, by squaring. -/
def gfAlpha (n : Nat) : W8 := (List.range 8).foldr (fun i r => if n.testBit i then gfDouble (gfMul r r) else gfMul r r) 1

/-- The inverse of a non-zero element: its 254th power, the product of its powers 2, 4, … 128. -/
def gfInv (a : W8) : W8 := ((List.range 7).foldl (fun (x : W8 × W8) _ => (gfMul x.1 (gfMul x.2 x.2), gfMul x.2 x.2)) (1, a)).1

/-- The generator (x − α⁰)(x − α¹)(x − α²)(x − α³), lowest coefficient first. -/
def rsGen : List W8 := (List.range 4).foldl (fun p i =>
  List.zipWith (· ^^^ ·) (0 :: p) (p.map (gfMul (gfAlpha i)) ++ [0])) [1]

/-- Check symbols 0 to 3 of 32 data bytes: the remainder of the data by the generator, highest coefficient first. -/
def checkSymbols (data : List W8) : List W8 :=
  data.foldl (fun r d => List.zipWith (· ^^^ ·) (r.drop 1 ++ [0])
    ((rsGen.take 4).reverse.map (gfMul (d ^^^ r.headD 0)))) [0, 0, 0, 0]

/-- The 36 symbols of a row, by bank. -/
def codeword (data : List W8) : List W8 := data ++ checkSymbols data

/-- The four syndromes of symbols, each with its bank. -/
def syndromes (e : List (Nat × W8)) : List W8 :=
  (List.range 4).map fun i => e.foldl (fun r x => r ^^^ gfMul x.2 (gfAlpha (i * (35 - x.1)))) 0

/-- Syndromes with one bank's part taken out, one fewer. -/
def withoutBank (s : List W8) (b : Nat) : List W8 :=
  List.zipWith (fun x y => y ^^^ gfMul (gfAlpha (35 - b)) x) s (s.drop 1)

/-- The errors at some banks that the syndromes show, if errors at those banks alone explain them. -/
def errorsAt (s : List W8) (banks : List Nat) : Option (List (Nat × W8)) :=
  if (banks.foldl withoutBank s).any (· ≠ 0) then none else
  some (banks.map fun b =>
    let others := banks.filter (· ≠ b)
    (b, gfMul (((others.foldl withoutBank s)).headD 0)
      (gfInv (others.foldl (fun r x => gfMul r (gfAlpha (35 - b) ^^^ gfAlpha (35 - x))) 1))))

/-- The sets of banks at which errors can be corrected (R56): the f marked ones, and e others with 2e + f ≤ 4; the fewest first. -/
def correctable (marks : List Nat) : List (List Nat) :=
  let rest := (List.range 36).filter fun b => !marks.contains b
  let ones := rest.map fun b => marks ++ [b]
  let twos := if marks = [] then rest.flatMap fun a => (rest.filter (a < ·)).map fun b => [a, b] else []
  marks :: ones ++ twos

/-- The errors that decoding finds (R56); `none`: the row is uncorrectable. -/
def rsDecode (marks : List Nat) (s : List W8) : Option (List (Nat × W8)) :=
  ((correctable marks).findSome? (errorsAt s)).map fun l => l.filter fun e => e.2 ≠ 0

/-- Two error patterns added. -/
def addErrors (x y : List (Nat × W8)) : List (Nat × W8) :=
  y.foldl (fun t e =>
    let v := tget t e.1 0 ^^^ e.2
    if v = 0 then tdel t e.1 else tset t e.1 v) x

/-! ### Access rows (R53) -/

/-- Core, quadrant and access row of a bolt-window address (R17, R53). Byte b of a granule lies in bank b mod 32, and access row a in
sub-array a mod 128 of its banks. -/
def boltRowOf (pa : Nat) : Nat × Nat × Nat :=
  let o := pa - 0xB_0000_0000_0000
  let g := o / 65536 % 128
  (o / 0x80_0000, g / 32, (g % 32) * 2048 + o % 65536 / 32)

/-- The bank of a byte at a bolt-window address, and the sub-array of an access row (R53). -/
def boltBank (pa : Nat) : Nat := pa % 32
def boltSubArray (row : Nat) : Nat := row % 128

/-- Bolt-window address of byte 0 of an access row of a quadrant. -/
def boltRowAddr (c q row : Nat) : Nat := boltBase c + (32 * q + row / 2048) * 65536 + row % 2048 * 32

/-- Access row n of an area of granules: its quadrant, and its row there. -/
def areaRow (gs : List Nat) (n : Nat) : Option (Nat × Nat) :=
  (gs[n / 2048 % gs.length]?).map fun g => (g / 32, g % 32 * 2048 + n % 2048)

/-- The access rows that hold a register of a fibre, each 8 lanes (R45, R53). Where they lie in the area of its sub-core is not
specified (R68; log 53). -/
def regRows (co : Core) (k : FKey) (v : Nat) : List (Option (Nat × Nat)) :=
  let k' := if v < 192 then k else { k with pos := 0 }
  (List.range 12).map fun i => areaRow (regArea co.bcut co.good k.sub) (Config.boltPlace k' v i)

/-- The access rows that hold row r of a tile of a spool, each 8 columns (log 53). -/
def tileRowRows (co : Core) (k : FKey) (a r : Nat) : List (Option (Nat × Nat)) :=
  (List.range 6).map fun j => areaRow (accArea co.bcut co.good (k.sub / 4)) (Config.boltPlace { k with pos := 0 } (256 + a) (6 * r + j))

/-! ### Counts (R65, R66) -/

/-- Number of 1 bits among the low n bits of a word. -/
def onesBelow (v : W64) (n : Nat) : Nat := ((List.range n).filter fun i => v.getLsbD i).length

/-- Banks that are marked (R57, R64). -/
def markedBanks (co : Core) (q : Nat) : List Nat := (List.range 36).filter fun b => (tget co.bfail q 0).getLsbD b

/-- A 16-bit count of a packed register rises by one and saturates (R65, R427, R429). -/
def bumpCount (v : W64) (field : Nat) : W64 :=
  let x := v.extractLsb' (16 * field) 16
  if x = BitVec.allOnes 16 then v else v + ((1 : W64) <<< (16 * field))

/-- BUCE after an uncorrectable row (R66). -/
def recordBuce (v : W64) (q row : Nat) : W64 :=
  if v.getLsbD 63 then v ||| (1 <<< 62)
  else BitVec.ofNat 64 (2 ^ 63 + q % 4 * 65536 + row % 65536) ||| (v &&& (1 <<< 62))

/-! ### Reads and writes of access rows (R55, R56)

A row's banks hold its codeword plus the errors listed for it; the code is linear, so its syndromes are those of the errors. -/

/-- The errors of an access row. -/
def Core.rowErrors (co : Core) (q row : Nat) : List (Nat × W8) :=
  match co.boltErr.find? (fun x => x.1 = q ∧ x.2.1 = row) with | some x => x.2.2 | none => []

/-- The errors of an access row replaced. -/
def Core.setRowErrors (co : Core) (q row : Nat) (e : List (Nat × W8)) : Core :=
  let rest := co.boltErr.filter fun x => !(x.1 = q && x.2.1 = row)
  { co with boltErr := if e = [] then rest else (q, row, e) :: rest }

/-- The row holds registers or accumulators of the cut in force. -/
def Core.rowHidden (co : Core) (q row : Nat) : Bool :=
  let g := 32 * q + row / 2048
  co.bcut.getLsbD 31 && (assigned co.bcut co.good q).contains g && !isScratchGranule co.bcut co.good g

/-- Elements 8i to 8i + 7 of a list take free values where the i-th of its rows is the row. -/
def spoilList (s : State) (n : Nat) (rows : List (Option (Nat × Nat))) (at_ : Nat × Nat) (l : List W32) : List W32 :=
  l.zipIdx.map fun e => if rows[e.2 / 8]? = some (some at_) then Config.freeWord s.freeCtr n e.2 else e.1

/-- The data of a row changes by errors that decoding did not find: bytes of scratch by their banks; the registers and accumulators that
lie there take free values, since their arrangement is not specified (R56, R68). -/
def spoilRow (c q row : Nat) (e : List (Nat × W8)) (s : State) : State :=
  let co := s.core c
  if !co.rowHidden q row then
    let pa := boltRowAddr c q row
    { s with mem := e.foldl (fun m x => if x.1 < 32 then Memory.write m (pa + x.1) (Memory.read m (pa + x.1) ^^^ x.2) else m) s.mem }
  else
    let at_ := (q, row)
    { s with
      freeCtr := s.freeCtr + 1
      fibs := s.fibs.map fun (f : FKey × Fib) => if f.1.core = c then (f.1, { f.2 with
        vregs := f.2.vregs.map fun v => (v.1, spoilList s v.1 (regRows co f.1 v.1) at_ v.2) }) else f
      spools := s.spools.map fun (p : FKey × Spool) => if p.1.core = c then (p.1, { p.2 with
        win := p.2.win.map fun v => (v.1, spoilList s v.1 (regRows co p.1 v.1) at_ v.2)
        tiles := p.2.tiles.map fun t => (t.1, { t.2 with
          rows := t.2.rows.map fun r => (r.1, spoilList s (256 + r.1) (tileRowRows co p.1 t.1 r.1) at_ r.2) }) }) else p }

/-- A read of an access row decodes its codeword (R56): the state with its counts, and whether the row was uncorrectable. More errors
than the code is sure to find may decode to other data. -/
def readBoltRow (c q row : Nat) (s : State) : State × Bool :=
  let co := s.core c
  let errs := co.rowErrors q row
  if errs = [] then (s, false) else
  let marks := markedBanks co q
  match rsDecode marks (syndromes errs) with
  | none => (s.setCore c { co with buce := recordBuce co.buce q row }, true)
  | some fix =>
    let left := addErrors errs fix
    let co1 := if fix.any fun e => !marks.contains e.1 then { co with becc := bumpCount co.becc q } else co
    let s := s.setCore c (if left = [] then co1 else co1.setRowErrors q row fix)
    (if left = [] then s else spoilRow c q row left s, false)

/-- The codeword of a row is written whole: all 36 symbols, those of marked banks included (R55). -/
def encodeRow (c q row : Nat) (s : State) : State :=
  if (s.core c).boltErr = [] then s else s.onCore c fun co => co.setRowErrors q row []

/-- The access rows that `n` bytes from a bolt-window address touch. -/
def boltRows (pa n : Nat) : List (Nat × Nat × Nat) :=
  (List.range ((pa % 32 + n + 31) / 32)).map fun i => boltRowOf (pa / 32 * 32 + 32 * i)

/-- A read of `n` bytes of a bolt window: the bytes, and the address of an uncorrectable row if one was met. -/
def readBolt (pa n : Nat) (s : State) : State × List W8 × Option Nat :=
  let (s, bad) := (boltRows pa n).foldl (fun (sb : State × Option Nat) r =>
    let x := readBoltRow r.1 r.2.1 r.2.2 sb.1
    (x.1, sb.2 <|> (if x.2 then some (boltRowAddr r.1 r.2.1 r.2.2) else none))) (s, none)
  (s, Memory.readBytes s.mem pa n, bad)

/-- A write of bytes within one access row (R55): a partial write reads the row first, and an uncorrectable row stops
it; a write stores the whole codeword. -/
def writeBoltRow (pa : Nat) (bs : List W8) (s : State) : State × Option Nat :=
  let r := boltRowOf pa
  let (s, bad) := if bs.length = 32 then (s, false) else readBoltRow r.1 r.2.1 r.2.2 s
  if bad then (s, some (boltRowAddr r.1 r.2.1 r.2.2))
  else (encodeRow r.1 r.2.1 r.2.2 { s with mem := Memory.writeBytes s.mem pa bs }, none)

/-- A write of bytes at a bolt-window address, row by row. -/
def writeBolt (pa : Nat) (bs : List W8) (s : State) : State × Option Nat :=
  let first := min bs.length (32 - pa % 32)
  let n := (bs.length - first + 31) / 32
  let pieces := (pa, bs.take first) :: (List.range n).map fun i =>
    (pa + first + 32 * i, (bs.drop (first + 32 * i)).take 32)
  pieces.foldl (fun (sb : State × Option Nat) p =>
    if p.2 = [] then sb else
    let x := writeBoltRow p.1 p.2 sb.1
    (x.1, sb.2 <|> x.2)) (s, none)

/-! ### Registers and accumulators in their rows (R55, R58) -/

/-- How a list of elements, 8 to a row, touches a row: not at all, in part, or whole. -/
def touchOf (p : Nat → Bool) (i : Nat) : Nat :=
  let n := ((List.range 8).filter fun j => p (8 * i + j)).length
  if n = 0 then 0 else if n < 8 then 1 else 2

/-- Rows are read: the address of the first that is uncorrectable. -/
def readRowsOf (c : Nat) (rows : List (Option (Nat × Nat))) (s : State) : State × Option Nat :=
  rows.foldl (fun (sb : State × Option Nat) r => match r with
    | none => sb
    | some (q, row) =>
      let x := readBoltRow c q row sb.1
      (x.1, sb.2 <|> (if x.2 then some (boltRowAddr c q row) else none))) (s, none)

/-- Elements of a list are written: a row written in part is read first, and every row written is encoded anew (R55). -/
def writeRowsOf (c : Nat) (rows : List (Option (Nat × Nat))) (p : Nat → Bool) (s : State) : State × Option Nat :=
  let part := rows.zipIdx.filterMap fun r => if touchOf p r.2 = 1 then some r.1 else none
  let (s, bad) := readRowsOf c part s
  if bad.isSome then (s, bad) else
  (rows.zipIdx.foldl (fun s r => match r.1 with
    | some (q, row) => if touchOf p r.2 = 0 then s else encodeRow c q row s
    | none => s) s, none)

/-- Registers of a fibre are read as operands (R58): the address of an uncorrectable row if one was met. -/
def readRegRows (k : FKey) (regs : List Nat) (s : State) : State × Option Nat :=
  if (s.core k.core).boltErr = [] then (s, none) else readRowsOf k.core (regs.flatMap (regRows (s.core k.core) k)) s

/-- The lanes of a mask of registers of a fibre are about to be written (R55): the address of a row that the write reads and cannot
correct. -/
def writeRegRows (k : FKey) (mask : Mask) (regs : List Nat) (s : State) : State × Option Nat :=
  if (s.core k.core).boltErr = [] then (s, none) else
  regs.foldl (fun (sb : State × Option Nat) v =>
    let x := writeRowsOf k.core (regRows (s.core k.core) k v) (fun L => mask.getLsbD L) sb.1
    (x.1, sb.2 <|> x.2)) (s, none)

/-- Rows of tiles of a spool are read by a press operation. -/
def readTileRows (k : FKey) (mask : Mask) (tiles : List Nat) (s : State) : State × Option Nat :=
  if (s.core k.core).boltErr = [] then (s, none) else
  readRowsOf k.core (tiles.flatMap fun a =>
    ((List.range 96).filter fun r => mask.getLsbD r).flatMap fun r => tileRowRows (s.core k.core) k a r) s

/-- Columns c0 to c0 + n − 1 of the rows of a mask of tiles are about to be written. -/
def writeTileRows (k : FKey) (mask : Mask) (tiles : List Nat) (c0 n : Nat) (s : State) : State × Option Nat :=
  if (s.core k.core).boltErr = [] then (s, none) else
  tiles.foldl (fun (sb : State × Option Nat) a =>
    ((List.range 96).filter fun r => mask.getLsbD r).foldl (fun (sb : State × Option Nat) r =>
      let x := writeRowsOf k.core (tileRowRows (s.core k.core) k a r) (fun c => c0 ≤ c && c < c0 + n) sb.1
      (x.1, sb.2 <|> x.2)) sb) (s, none)

/-! ### The bytes of registers as the valet's window shows them (R68) -/

/-- What a granule of registers or accumulators holds: the registers of its sub-core's fibres and spools, or the tiles of its press's
spools. -/
def granuleContent (s : State) (c g : Nat) : List (FKey × Nat × List W32) :=
  let co := s.core c
  match (List.range 16).find? fun k => (regArea co.bcut co.good k).contains g with
  | some k =>
    (s.fibs.filter fun f => f.1.core = c && f.1.sub = k).flatMap (fun f => f.2.vregs.map fun v => (f.1, v.1, v.2))
      ++ (s.spools.filter fun p => p.1.core = c && p.1.sub = k).flatMap fun p => p.2.win.map fun v => (p.1, v.1, v.2)
  | none =>
    (s.spools.filter fun p => p.1.core = c && p.1.sub / 4 = g / 32).flatMap fun p =>
      p.2.tiles.flatMap fun t => t.2.rows.map fun r => (p.1, 256 + 96 * t.1 + r.1, r.2)

/-- A byte of such a granule: zero while all that it holds is zero (R47), else a byte that its contents fix in a way that is not
specified. -/
def granuleByte (s : State) (c pa : Nat) : W8 :=
  let l := granuleContent s c ((pa - boltBase c) / 65536)
  if l.all fun e => e.2.2.all (· = 0) then 0 else Config.boltByte l pa

end Sys2Proof.Machine
end

