-- ==== Sys2Proof/Machine/Coherence.lean ====
section
/-! DEFINITION. Coherence by registration: homes, L1s, store buffers and the messages between them (R105 to R128),
and the order in which a thread's accesses are performed (R132, R150). -/
namespace Sys2Proof.Machine

/-! ### Lines and homes -/

/-- The home of a line: the core whose slot holds it, or its pool controller (R16, R77, R106). -/
def homeOf (line : Nat) : Node := if line < 2 ^ 34 then .home (line / 2 ^ 26) else .pool

/-- The core of a home node; a pool line has none. -/
def Node.coreOf : Node → Option Nat
  | .core c => some c
  | .home c => some c
  | _ => none

/-- A message with no mask, data or verdict. -/
def msg0 (kind : MsgKind) (src dst : Node) (line : Nat) : Msg :=
  { kind := kind, src := src, dst := dst, line := line, mask := 0, bmask := 0, data := [], sr := 0, poison := 0,
    party := src, region := 0, dom := 0, strong := false, act := 0, tag := 0, flag := false }

/-- Send a message: it joins the messages in flight (R110). -/
def send (m : Msg) (s : State) : State := { s with net := s.net ++ [m] }

/-- The owner of word i of a line, if it is Registered at its home (R105). -/
def State.ownerOf (s : State) (line i : Nat) : Option Node := tfind s.owners (32 * line + i)

/-- Words of a mask, in ascending order. -/
def wordsOf (m : W32) : List Nat := (List.range 32).filter fun i => m.getLsbD i

/-- A mask of one word. -/
def wbit (i : Nat) : W32 := (1 : W32) <<< i

/-- Words of a line that are Registered to someone other than `p`. -/
def State.foreign (s : State) (line : Nat) (mask : W32) (p : Option Node) : List (Nat × Node) :=
  (wordsOf mask).filterMap fun i => match s.ownerOf line i with
    | some o => if some o = p then none else some (i, o)
    | none => none

/-- Group words by owner: one mask for each owner, in order of first appearance. -/
def groupOwners (l : List (Nat × Node)) : List (Node × W32) :=
  l.foldl (fun t e => tset t e.2 (tget t e.2 0 ||| wbit e.1)) []

/-- The word at its home. -/
def State.homeWord (s : State) (line i : Nat) : W32 := memWord s.mem (32 * line + i)

/-- A line written at its home is written back: its row's check bits are new (R103). The spec does not say when a slice writes a dirty
line back; here it does so at once. DESIGN CHOICE (log 50). -/
def rewriteRow (line : Nat) (s : State) : State := match homeOf line with
  | .home c =>
    let o := line * 128 % 2 ^ 33
    if (s.core c).rowErr = [] then s
    else s.onCore c fun co => { co with rowErr := co.rowErr.filter fun e => !(e.1 = o / 3072 && e.2.1 = o % 3072 / 128) }
  | _ => s

/-- The home's word written, with its poison. -/
def setHomeWord (line i : Nat) (v : W32) (p : Bool) (s : State) : State :=
  let wa := 32 * line + i
  rewriteRow line { s with
    mem := Memory.writeBytes s.mem (4 * wa) (leBytes v.toNat 4)
    poison := if p then (if s.poison.contains wa then s.poison else s.poison ++ [wa]) else s.poison.filter (· ≠ wa) }

/-- Bytes of one word merged: byte j of the word is replaced when bit j of `m` is set; all four clear poison. -/
def mergeWord (m : BitVec 4) (new old : W32) : W32 :=
  (List.range 4).foldl (fun v j => if m.getLsbD j then
    (v &&& ~~~((0xFF : W32) <<< (8 * j))) ||| (new &&& ((0xFF : W32) <<< (8 * j))) else v) old

/-- Bytes of a word within a byte mask of a line. -/
def byteBits (bm : BitVec 128) (i : Nat) : BitVec 4 := bm.extractLsb' (4 * i) 4

/-- Words touched by a byte mask. -/
def wordMask (bm : BitVec 128) : W32 := (List.range 32).foldl (fun m i => if byteBits bm i = 0 then m else m ||| wbit i) 0

/-- The home's data of a line, 32 words. -/
def State.homeLine (s : State) (line : Nat) : List W32 := (List.range 32).map (s.homeWord line)

/-- Poison bits of a line at its home. -/
def State.homePoison (s : State) (line : Nat) : W32 :=
  (List.range 32).foldl (fun m i => if s.poison.contains (32 * line + i) then m ||| wbit i else m) 0

/-! ### Links and their send-window tags (R470, R472) -/

/-- The link of a line among the links that are up (R470). -/
def linkOf (up : W32) (line : Nat) : Option Nat :=
  let u := (List.range 32).filter fun k => up.getLsbD k
  let i := (line % 32) ^^^ (line / 32 % 32)
  if u = [] then none else u[i % u.length]?

/-- The link of a new request for a line: the link of the line's outstanding requests while there are any and it is up,
else the choice of R470. -/
def State.linkFor (s : State) (line : Nat) : Option Nat :=
  match s.linkTags.find? (fun t => t.line = line ∧ s.linksUp.getLsbD t.link) with
  | some t => some t.link
  | none => linkOf s.linksUp line

/-- A request takes a free tag of its link; `none` when no link is up or none of the 4,096 is free (R472). -/
def takeTag (line id : Nat) (s : State) : Option State :=
  match s.linkFor line with
  | none => none
  | some k =>
    let taken := (s.linkTags.filter fun t => t.link = k).map (·.tag)
    if 4096 ≤ taken.length then none else
    let tag := ((List.range (taken.length + 1)).find? fun i => !taken.contains i).getD 0
    some { s with linkTags := s.linkTags ++ [⟨k, tag, id, line⟩] }

/-- A request for a pool line takes a tag; a near line needs none. `none`: the request waits at its source. -/
def tagFor (line id : Nat) (s : State) : Option State := if line < 2 ^ 34 then some s else takeTag line id s

/-- The answer to a request has come: its tag is free. -/
def freeTag (id : Nat) (s : State) : State := { s with linkTags := s.linkTags.filter (·.id ≠ id) }

/-- A fabric request header (R471). -/
def fabHdr (dpkg spkg sagent len : Nat) (ns rg : Bool) (ord kind tag pa : Nat) : FabHdr :=
  { w0 := BitVec.ofNat 64 (dpkg % 4096 * 2 ^ 52 + spkg % 4096 * 2 ^ 40 + sagent % 512 * 2 ^ 31 + len % 256 * 2 ^ 20
      + (if ns then 2 ^ 19 else 0) + (if rg then 2 ^ 18 else 0) + ord % 4 * 2 ^ 16 + kind % 16 * 2 ^ 12 + tag % 4096)
    w1 := BitVec.ofNat 64 (pa % 2 ^ 52) }

/-! ### The L1 -/

/-- Physical bytes that a part covers. -/
def Part.covers (p : Part) (pa : Nat) : Bool := p.pa ≤ pa && pa < p.pa + p.n

/-- Words of its line that an access to near or pool memory touches. -/
def Acc.words (a : Acc) : W32 :=
  a.parts.foldl (fun m p => (List.range p.n).foldl (fun m j => m ||| wbit ((p.pa + j) / 4 % 32)) m) 0

/-- A core has its 8,192 memory requests outstanding (R32): its loads, stores and atomics (log 60). -/
def Core.full (c : Core) : Bool := decide (8192 ≤ c.loads.length + c.stores.length)

/-- The line of a core's L1. -/
def Core.l1line (c : Core) (line : Nat) : Option L1Line := c.l1.find? (·.line = line)

/-- Word i of a line of an L1; Invalid when the line is absent. -/
def Core.l1word (c : Core) (line i : Nat) : L1Word :=
  match c.l1line line with
  | some l => l.words.getD i {}
  | none => {}

/-- A word of an L1 line replaced; the line becomes most recently used. The line must be present. -/
def Core.setL1word (c : Core) (line i : Nat) (w : L1Word) : Core :=
  match c.l1line line with
  | some l => { c with l1 := { l with words := l.words.set i w } :: c.l1.filter (·.line ≠ line) }
  | none => c

/-- The line becomes most recently used (R69). -/
def Core.touchLine (c : Core) (line : Nat) : Core :=
  match c.l1line line with
  | some l => { c with l1 := l :: c.l1.filter (·.line ≠ line) }
  | none => c

/-- A line may be chosen as victim unless an outstanding REG names a word that it holds Registered: its GRANT brings no data for such
a word (R115, R121). -/
def Core.mayLeave (c : Core) (l : L1Line) : Bool :=
  !(c.stores.any fun a => a.sent && a.line == l.line && (wordsOf a.words).any fun i => (l.words.getD i {}).st = .registered)

/-- The L1 holds a line or has a way for it: 128 sets of 16 ways (R69). -/
def Core.room (c : Core) (line : Nat) : Bool :=
  (c.l1line line).isSome || (let same := c.l1.filter fun l => l.line % 128 = line % 128
    same.length < 16 || same.any c.mayLeave)

/-- Reservations of a core's harts on words of a line are broken; `keep`: the hart whose own store it is (R154). -/
def breakResv (c line : Nat) (mask : W32) (keep : Option Thread) (s : State) : State :=
  { s with harts := s.harts.map fun (e : (Nat × Nat) × Hart) =>
      match e.2.resv with
      | some (pa, n) =>
        if e.1.1 = c && pa / 128 = line && keep ≠ some (.hart e.1.1 e.1.2)
            && ((List.range n).any fun j => mask.getLsbD ((pa + j) / 4 % 32)) then (e.1, { e.2 with resv := none })
        else e
      | none => e }

/-- Registered words of a line leave an L1: a load of the line that has sent its LD and reads one of them will discard the reply and ask
again (R150). -/
def Core.staleLoads (c : Core) (line : Nat) (mask : W32) : Core :=
  { c with loads := c.loads.map fun a => if a.sent && a.line == line && a.words &&& mask != 0 then { a with stale := true } else a }

/-- Replacement (R121): the least recently used line of the set that may leave goes; its Registered words go to the
write-back buffer and are sent in one WB. -/
def evictFor (c line : Nat) (s : State) : State :=
  let co := s.core c
  let same := co.l1.filter fun l => l.line % 128 = line % 128
  if same.length < 16 then s else
  match (same.filter co.mayLeave).getLast? with
  | none => s
  | some v =>
    let regd := (List.range 32).foldl (fun m i => if (v.words.getD i {}).st = .registered then m ||| wbit i else m) (0 : W32)
    let pois := (List.range 32).foldl (fun m i => if (v.words.getD i {}).poison then m ||| wbit i else m) (0 : W32)
    let s := s.setCore c { co with l1 := co.l1.filter (·.line ≠ v.line) }
    if regd = 0 then s else
    let s := breakResv c v.line regd none s
    let data := v.words.map (·.val)
    let (id, s) := s.fresh
    let s := s.onCore c fun co => { co.staleLoads v.line regd with wb := co.wb ++ [⟨id, v.line, regd, data, pois⟩] }
    let s := (tagFor v.line id s).getD s
    send { msg0 .wb (.core c) (homeOf v.line) v.line with mask := regd, data := data, poison := pois, tag := id } s

/-- A line is present in the L1, installed Invalid with a region if it was not and there is a way for it (R29, R69). -/
def ensureLine (c line region : Nat) (s : State) : State :=
  match (s.core c).l1line line with
  | some _ => s.onCore c fun co => co.touchLine line
  | none =>
    if !(s.core c).room line then s else
    (evictFor c line s).onCore c fun co =>
      { co with l1 := ⟨line, region, List.replicate 32 {}⟩ :: co.l1 }

/-- The newest write-back entry that holds word i of a line (R117). -/
def Core.wbWord (c : Core) (line i : Nat) : Option WbEntry := (c.wb.filter fun e => e.line = line && e.mask.getLsbD i).getLast?

/-- A Registered word after a RECALL: a Valid copy; a poisoned one is no copy of anything (R117, R430). -/
def handedBack (fill : Nat) (w : L1Word) : L1Word := if w.poison then {} else { w with st := .valid, sr := false, fill := fill }

/-- A fill writes the words of a mask that are Invalid or Valid (R113, R117). -/
def fillLine (c line region fill : Nat) (mask : W32) (data : List W32) (s : State) : State :=
  (ensureLine c line region s).onCore c fun co =>
    (wordsOf mask).foldl (fun co i =>
      if (co.l1word line i).st = .registered then co
      else co.setL1word line i { st := .valid, val := data.getD i 0, fill := fill }) co

/-- Every word of a mask is Registered in the core's L1. -/
def Core.owns (c : Core) (line : Nat) (mask : W32) : Bool := (wordsOf mask).all fun i => (c.l1word line i).st = .registered

/-- A rinse of an L1 and its core's instruction cache by a region mask (R119, R73, R113). -/
def rinse (c : Nat) (m : W64) (s : State) : State :=
  s.onCore c fun co => { co with
    l1 := co.l1.map fun l => if m.getLsbD l.region then
        { l with words := l.words.map fun w => if w.st = .valid then {} else w } else l
    icache := co.icache.filter fun l => l.pinned || !m.getLsbD l.region
    loads := co.loads.map fun a =>
      let r := match co.l1line a.line with | some l => l.region | none => a.region
      if a.sent && m.getLsbD r then { a with noInstall := true } else a }

/-! ### Accesses -/

/-- The newest byte of the store buffer at an address: `some none` when it is an atomic not yet performed (R112). -/
def bufByte (stores : List Acc) (pa : Nat) : Option (Option W8) :=
  stores.foldl (fun r a => a.parts.foldl (fun r p =>
    if p.covers pa then (if a.kind = .store then some (p.data[pa - p.pa]?) else some none) else r) r) none

/-- The byte of a word. -/
def wordByte (v : W32) (j : Nat) : W8 := v.extractLsb' (8 * j) 8

/-- The bytes of a load to near or pool memory: from the store buffer first, then from `word`. `none` when some byte is not
available. -/
def gatherLoad (stores : List Acc) (a : Acc) (word : Nat → Option W32) : Option (List (Nat × Nat × W8)) :=
  a.parts.foldr (fun p acc => match acc with
    | none => none
    | some l =>
      (List.range p.n).foldr (fun j acc => match acc with
        | none => none
        | some l =>
          let pa := p.pa + j
          let here := fun b => some ((p.lane, p.off + j, b) :: l)
          match bufByte stores pa with
          | some (some b) => here b
          | some none => none
          | none => match word (pa / 4 % 32) with
            | some v => here (wordByte v (pa % 4))
            | none => none) (some l)) (some [])

/-- Words of which a load takes some byte from elsewhere than the store buffer. -/
def Core.unbuffered (c : Core) (a : Acc) : List Nat :=
  (wordsOf a.words).filter fun i => a.parts.any fun p => (List.range p.n).any fun j =>
    (p.pa + j) / 4 % 32 = i && bufByte c.stores (p.pa + j) = none

/-- A load that hits reads one state of its line (R149, R150): words that are all Registered, or Valid words that one event
filled (log 45). -/
def Core.oneState (c : Core) (a : Acc) : Bool :=
  let w := (c.unbuffered a).map (c.l1word a.line)
  w.all (fun x => x.st = .registered)
    || (!a.strong && w.all (fun x => x.st = .valid) && (w.map (·.fill)).eraseDups.length ≤ 1)

/-- The bytes a load would bind in its L1 now: from the store buffer and the words of R113 or R114. -/
def loadBytes (c : Core) (a : Acc) : Option (List (Nat × Nat × W8)) :=
  if c.oneState a then gatherLoad c.stores a fun i => some (c.l1word a.line i).val else none

/-- A reply serves word i of the load: it was asked for, and no store of the core stood over it when the LD was sent, so that the
reply is as new as what its thread has seen (R112, R113). -/
def Core.fromReply (c : Core) (a : Acc) (rmask : W32) (i : Nat) : Bool :=
  rmask.getLsbD i && !(a.held.getLsbD i && (c.l1word a.line i).st = .registered)

/-- The bytes a load binds when its reply comes: from the store buffer, the reply, and words its own L1 holds Registered. -/
def replyBytes (c : Core) (a : Acc) (rmask : W32) (rdata : List W32) : Option (List (Nat × Nat × W8)) :=
  gatherLoad c.stores a fun i =>
    if c.fromReply a rmask i then some (rdata.getD i 0)
    else if (c.l1word a.line i).st = .registered then some (c.l1word a.line i).val
    else none

/-- Some byte of the load waits for an atomic in the store buffer (R112). -/
def loadWaitsAtomic (c : Core) (a : Acc) : Bool :=
  a.parts.any fun p => (List.range p.n).any fun j => bufByte c.stores (p.pa + j) = some none

/-- The fibre of a thread, and the gang it belongs to. -/
def State.gangOf (s : State) (t : Thread) : Option GKey :=
  match t with
  | .fib k => (s.fib? k).map Fib.gang
  | .hart _ _ => none

/-- The race that an access met on the words of a mask: the lowest lane that touches one of them, and the address of that word
(R125). -/
def raceOf (a : Acc) (cause act : Nat) (mask : W32) : Option Race :=
  a.parts.findSome? fun p => ((List.range p.n).find? fun j => mask.getLsbD ((p.pa + j) / 4 % 32)).map fun j =>
    ⟨act, cause, p.lane, p.va + BitVec.ofNat 64 ((p.pa + j) / 4 * 4) - BitVec.ofNat 64 p.pa, a.region⟩

/-- The race that the report of an instruction names: the lowest lane, then the lowest address (R125, R35). -/
def raceFirst (x y : Race) : Race :=
  if x.lane < y.lane then x else if y.lane < x.lane then y else if x.va.toNat ≤ y.va.toNat then x else y

/-- A verdict comes with a reply (R125): the instruction keeps it until all its events are performed. -/
def raceVerdict (c : Nat) (a : Acc) (cause act : Nat) (mask : W32) (s : State) : State :=
  if act = 0 then s else
  match raceOf a cause act (if mask = 0 then BitVec.allOnes 32 else mask) with
  | none => s
  | some r => s.onCore c fun co => { co with insts := co.insts.map fun i => if i.id = a.inst then
      { i with race := some (match i.race with | none => r | some x => raceFirst x r) } else i }

/-- The race of an instruction takes its action (R125): a trap verdict for a fibre is held as a report; everything else is logged at
the core's hart 0. -/
def raceReport (c : Nat) (i : PendInst) (s : State) : State :=
  match i.race with
  | none => s
  | some r => match i.thr, r.act with
    | .fib k, 2 =>
      let dst := match i.fin with | .sreg d => d | _ => 0
      let ctr := if r.cause = 11 then 2 else if i.ld then 1 else 0
      s.onFib k fun f => { f with reports := f.reports ++ [⟨i.id, ctr, dst, r.cause, r.va, r.lane, r.region, i.pc, match i.fin with | .press _ => true | _ => false⟩] }
    | t, _ =>
      let (h, idn, ret) := match t with
        | .fib k => (handleOf k, match s.fib? k with | some f => ident k f | none => 0,
            match s.fib? k with | some f => f.retired | none => 0)
        | .hart _ _ => (0xFF, c % 256 * 2 ^ 56, 0)
      pushRec c (mkRecord 2 h r.region (r.lane ≠ 0xFF) (causeWord r.cause { lane := r.lane }) 0 0 r.va i.pc s.tick idn ret) s

/-- An UNCORRECTABLE record (RKIND 3) for hart 0 of a core (R413, R429). -/
def uncorrectableRec (core : Nat) (g : Option GKey) (src : Nat) (addr : Nat) (s : State) : State :=
  let gid := match g with | some g => (g.dom % 8) * 2 ^ 48 + g.gid % 65536 | none => 0
  pushRec core (mkRecord 3 0xFF 0 false (causeWord 30 {}) 0 0 (BitVec.ofNat 64 addr) (BitVec.ofNat 64 src) s.tick
    ((core % 256) * 2 ^ 56 + gid) 0) s

/-! ### Completion of an instruction's accesses -/

/-- The lane number of a part that no lane asked for. -/
def scalarLane : Nat := 0xFF

/-- Bytes of a lane's element, little-endian, missing bytes 0. -/
def gotBytes (got : List (Nat × Nat × W8)) (lane n : Nat) : List W8 :=
  (List.range n).map fun j => match got.find? (fun e => e.1 = lane ∧ e.2.1 = j) with
    | some e => e.2.2
    | none => 0

/-- The narrow extension of R344: 1 signed, 2 unsigned, by FMT. -/
def extendNarrow (fmt n : Nat) (v : Nat) : W32 :=
  if fmt = 0 then (BitVec.ofNat (8 * n) v).signExtend 32 else BitVec.ofNat 32 v

/-- The registers and values a completed load writes (R350, R354). -/
def finVals (fin : Fin) (mask : Mask) (got : List (Nat × Nat × W8)) : List (Nat × List W32) × List (Nat × Nat) :=
  let lanes := fun (f : Nat → W32) => (List.range 96).map fun L => if mask.getLsbD L then f L else 0
  match fin with
  | .vreg vd fmt n narrow =>
    if narrow ≠ 0 then ([(vd, lanes fun L => extendNarrow fmt n (leNat (gotBytes got L n)))], [(vd, fmt)])
    else if n = 8 then
      ([(vd, lanes fun L => BitVec.ofNat 32 (leNat (gotBytes got L 8))),
        (vd + 1, lanes fun L => BitVec.ofNat 32 (leNat (gotBytes got L 8) / 2 ^ 32))], [(vd, fmt), (vd + 1, 13)])
    else ([(vd, lanes fun L => BitVec.ofNat 32 (leNat (gotBytes got L 4)))], [(vd, fmt)])
  | .planes vd n =>
    let word := fun L w => BitVec.ofNat 64 (leNat ((gotBytes got L 48).drop (8 * w) |>.take 8))
    let z := fun L => (List.range 5).foldl (fun (x : W64) w => if 6 - n ≤ w then x ||| word L w else x) 0
    let plane := fun L w =>
      if n = 6 then word L w
      else if w = 5 then word L 5 &&& z L
      else if w + n = 5 then z L
      else if w + n < 5 then 0 else word L w
    ((List.range 12).map fun r => (vd + r, lanes fun L =>
        ((plane L (r / 2)) >>> (32 * (r % 2))).setWidth 32),
     (List.range 12).map fun r => (vd + r, 10))
  | _ => ([], [])

/-- Write a long result's registers and tags for a fibre. -/
def writeVals (k : FKey) (mask : Mask) (vt : List (Nat × List W32) × List (Nat × Nat)) (s : State) : State :=
  let s := vt.1.foldl (fun s e => s.writeLanes k mask e.1 e.2) s
  vt.2.foldl (fun s e => s.setVtag k e.1 e.2) s

/-- Write a long result when words have written some of its elements against its promise: each element that both write ends as one
of the two values, and the tag of each such register as one of the two tags (R253). -/
def writeClash (k : FKey) (mask : Mask) (clash : List (Nat × Mask)) (vt : List (Nat × List W32) × List (Nat × Nat)) (s : State) :
    State :=
  if clash = [] then writeVals k mask vt s else
  let both := fun (r L : Nat) => clash.any fun e => e.1 = r && e.2.getLsbD L
  let s1 := vt.1.foldl (fun (s : State) e =>
    { s.writeLanes k mask e.1 (e.2.zipIdx.zip (s.vreg k e.1) |>.map fun x =>
        if both e.1 x.1.2 && Config.freeBool (s.freeCtr + x.1.2) then x.2 else x.1.1) with
      freeCtr := s.freeCtr + 96 }) s
  vt.2.foldl (fun (s : State) e =>
    if (clash.any fun c => c.1 = e.1) && Config.freeBool s.freeCtr then { s with freeCtr := s.freeCtr + 1 }
    else { s.setVtag k e.1 e.2 with freeCtr := s.freeCtr + 1 }) s1

/-- Elements that words wrote against the promise of a long word in flight (R253). -/
def State.clashOf (s : State) (k : FKey) (id : Nat) : List (Nat × Mask) :=
  match s.fib? k with
  | some f => (f.longs.filter fun l => l.id = id).flatMap (·.clash)
  | none => []

/-- All the events of an instruction have been performed: results are written, counters fall, and an acquire part
rinses (R136, R159, R351). -/
def finishInst (c : Nat) (i : PendInst) (s : State) : State :=
  let s := raceReport c i s
  let s := match i.acq with
    | some m => rinse c m s
    | none => s
  match i.fin with
  | .hold => s
  | fin =>
    let s := s.onCore c fun co => { co with insts := co.insts.filter (·.id ≠ i.id) }
    match i.thr with
    | .fib k =>
      let s := match fin with
        | .press op => s.onFib k fun f => { f with prq := markDone f.prq op }
        | .sreg d => s.onFib k fun f => f.setSreg d (BitVec.ofNat 64 (leNat (gotBytes i.got scalarLane 8)))
        | _ =>
          let clash := State.clashOf s k i.id
          writeClash k i.mask clash (finVals fin i.mask i.got) s
      s.onFib k fun f => { f with
        ldq := if i.ld then markDone f.ldq i.id else f.ldq
        stc := if i.st then f.stc - 1 else f.stc
        longs := if f.reports.any (·.inst = i.id) then f.longs.map fun l => if l.id = i.id then { l with flags := 1 } else l
          else f.longs.filter (·.id ≠ i.id) }
    | .hart c h =>
      match fin with
      | .xreg d n sg =>
        let v := leNat (gotBytes i.got scalarLane n)
        let x : W64 := if sg then (BitVec.ofNat (8 * n) v).signExtend 64 else BitVec.ofNat 64 v
        if d = 0 then s else s.setHart c h { s.hart c h with x := (s.hart c h).x.set d x }
      | .freg d n => s.setHart c h ((s.hart c h).setFreg d n (leNat (gotBytes i.got scalarLane n)))
      | _ => s

/-- A fibre's load from pool or I/O space is logged, and in replay takes the value logged (R464, R466, KIND 7). -/
def logLoad (c : Nat) (a : Acc) (bytes : List (Nat × Nat × W8)) (s : State) : State × List (Nat × Nat × W8) :=
  let far := match a.space with | .pool | .io => true | _ => false
  match a.thr with
  | .fib k => match s.fib? k with
    | some f =>
      if a.kind = .store || !far then (s, bytes)
      else if s.replaying f.dom then a.parts.foldl (fun (x : State × List (Nat × Nat × W8)) p =>
          match x.1.logged f.dom fun r => r.kind = 7 && r.core = c && r.h = handleOf k && r.addr = p.va with
          | some r =>
            let v := leBytes r.val.toNat p.n
            (useLog f.dom r x.1, x.2.map fun b => if b.1 = p.lane && p.off ≤ b.2.1 && b.2.1 < p.off + p.n then
              (b.1, b.2.1, v.getD (b.2.1 - p.off) 0) else b)
          | none => x) (s, bytes)
      else (a.parts.foldl (fun s p => logOrder f.dom 7 c (handleOf k) f.retired p.va (BitVec.ofNat 64 (leNat
          ((bytes.filter fun b => b.1 = p.lane && p.off ≤ b.2.1 && b.2.1 < p.off + p.n).map (·.2.2)))) s) s, bytes)
    | none => (s, bytes)
  | _ => (s, bytes)

/-- One event of an instruction has been performed, with the bytes it bound, or the address of a poisoned word it
consumed: the instruction then delivers no data, and its thread's core reports it (R430). -/
def eventDone (c : Nat) (a : Acc) (bytes : List (Nat × Nat × W8)) (poisoned : Option Nat) (s : State) : State :=
  let s := s.onCore c fun co => { co with loads := co.loads.filter (·.id ≠ a.id), stores := co.stores.filter (·.id ≠ a.id) }
  let (s, bytes) := logLoad c a bytes s
  match (s.core c).insts.find? (·.id = a.inst) with
  | none => s
  | some i =>
    let i := { i with left := i.left - 1, got := i.got ++ bytes, poisoned := i.poisoned <|> poisoned }
    let s := s.onCore c fun co => { co with insts := co.insts.map fun x => if x.id = i.id then i else x }
    if i.left = 0 && i.poisoned.isNone then
      -- the write of its registers reads rows that it writes in part (R55)
      match i.thr with
      | .fib k => match writeRegRows k i.mask ((finVals i.fin i.mask i.got).1.map (·.1)) s with
        | (s, some a) => s.onCore c fun co => { co with insts := co.insts.map fun x => if x.id = i.id then { i with poisoned := some a } else x }
        | (s, none) => finishInst c i s
      | .hart _ _ => finishInst c i s
    else s

/-! ### Loads: bound in program order (R132 rule 1) -/

/-- The oldest load of a thread that is not performed. -/
def Core.headLoad (c : Core) (t : Thread) : Option Acc := c.loads.find? fun a => a.thr = t ∧ !a.prefetch

/-- The LD of a load: the words it needs that its core does not hold Registered (R113, R114). -/
def sendLd (c : Nat) (a : Acc) (s : State) : State :=
  match tagFor a.line a.id s with
  | none => s
  | some s =>
  let need := (wordsOf a.words).foldl (fun m i => if ((s.core c).l1word a.line i).st = .registered then m else m ||| wbit i)
    (0 : W32)
  let s := s.onCore c fun co => { co with loads := co.loads.map fun x => if x.id = a.id then
    { x with sent := true, noInstall := false, stale := false
             held := (co.stores.filter (·.line = a.line)).foldl (fun m b => m ||| b.words) 0 } else x }
  send { msg0 .ld (.core c) (homeOf a.line) a.line with
      mask := need, region := a.region, dom := a.dom,
      strong := a.strong, tag := a.id } s

/-- The first poisoned word among those an access reads from its own L1, as a byte address (R430). -/
def Core.poisonedWord (c : Core) (a : Acc) : Option Nat := ((wordsOf a.words).find? fun i =>
  let w := c.l1word a.line i
  w.poison && w.st = .registered).map fun i => 128 * a.line + 4 * i

/-- Two stores of one thread that leave in order: near, pool and I/O through the store buffer, scratch by the core that holds it
(R112, R132, R153). -/
def sameChain (a b : Acc) : Bool := a.thr = b.thr && (match a.space, b.space with
  | .scratch x, .scratch y => x = y
  | .scratch _, _ => false
  | _, .scratch _ => false
  | _, _ => true)

/-- Two accesses touch a word of near or pool memory in common. -/
def shareWord (a b : Acc) : Bool := match a.space, b.space with
  | .near, .near | .pool, .pool => a.line = b.line && a.words &&& b.words != 0
  | _, _ => false

/-- Is this the oldest store of its chain, and the oldest of its core's buffer on each of its words: stores of two threads of a core
to one word are performed as they entered (R146, R147; log 46). -/
def Core.isHead (c : Core) (a : Acc) : Bool := match c.stores.find? (fun b => sameChain a b || shareWord a b) with
  | some b => b.id = a.id
  | none => false

/-- Two accesses of a thread to I/O, or to the scratchpad of one core: a load follows the older stores there (R79, R153). -/
def samePlace (a b : Acc) : Bool := a.thr = b.thr && (match a.space, b.space with
  | .scratch x, .scratch y => x = y
  | .io, .io => true
  | _, _ => false)

/-- An access may be performed outside the L1: loads in their thread's order, and every access of a chain after the thread's earlier
ones there (R132, R153). -/
def Core.inTurn (co : Core) (a : Acc) : Bool := match a.kind with
  | .load => (match co.headLoad a.thr with | some h => h.id == a.id | none => false)
      && !(co.stores.any fun b => b.id < a.id && samePlace a b)
  | _ => co.isHead a && !(co.loads.any fun b => b.thr = a.thr && !b.prefetch && b.id < a.id)

/-- The part of the prefetchable aperture that names another fabric member (R478). -/
def fabricAperture (pa : Nat) : Bool := 2 ^ 51 ≤ pa && pa < 0x9_0000_0000_0000 && pa / 2 ^ 47 % 2 = 1

/-- An access to a fabric member's aperture leaves as an RD or WR with a free tag, or waits for one (R471, R472, R478). Which
member an address names is open (log 7). -/
def sendIo (c : Nat) (a : Acc) (s : State) : State :=
  match a.parts.head? with
  | none => s
  | some p =>
    if a.sent || !fabricAperture p.pa || !(s.core c).inTurn a then s else
    match takeTag a.line a.id s with
    | none => s
    | some s =>
      let t := (s.linkTags.getLast?).getD ⟨0, 0, 0, 0⟩
      let acq := match (s.core c).insts.find? (·.id = a.inst) with | some i => i.acq.isSome | none => false
      let ord := if !a.strong then 0 else if acq then 2 else 1
      let h := fabHdr (Config.freeWord s.freeCtr 0 0).toNat s.pkg.toNat c ((p.n + 3) / 4 - 1) false false ord
        (if a.kind = .load then 0 else 1) t.tag p.pa
      let mark := fun (x : Acc) => if x.id = a.id then { x with sent := true } else x
      { s.onCore c fun co => { co with loads := co.loads.map mark, stores := co.stores.map mark } with
        sent := s.sent ++ [{ link := t.link, hdr := h, data := p.data }], freeCtr := s.freeCtr + 1 }

/-- Perform the loads of a thread that can be performed, in order; the first that cannot sends its LD once. -/
def pumpLoads (fuel : Nat) (c : Nat) (t : Thread) (s : State) : State :=
  match fuel with
  | 0 => s
  | fuel + 1 =>
    match (s.core c).headLoad t with
    | none => s
    | some a =>
      match a.space with
      | .near | .pool =>
        if a.sent then s else
        match loadBytes (s.core c) a with
        | some b =>
          let p := (s.core c).poisonedWord a
          pumpLoads fuel c t (eventDone c a b p (s.onCore c fun co => co.touchLine a.line))
        | none => if loadWaitsAtomic (s.core c) a then s else sendLd c a s
      | .io => sendIo c a s
      | .scratch _ => s

/-- The loads of every thread of a core that can be performed. -/
def pumpCore (c : Nat) (s : State) : State :=
  ((s.core c).loads.map (·.thr)).eraseDups.foldl (fun s t => pumpLoads ((s.core c).loads.length + 1) c t s) s

/-! ### Stores and atomics: in their thread's order (R112, R127, R153) -/

/-- The value an atomic of width `n` bytes writes: operation codes of R239, 9 is compare-and-swap (R349, R352). -/
def atomicNew (op n : Nat) (old v cmp : Nat) : Nat :=
  let m := 2 ^ (8 * n)
  let sg := fun (x : Nat) => if 2 * x < m then (x : Int) else (x : Int) - m
  match op with
  | 0 => (old + v) % m
  | 1 => old &&& v
  | 2 => old ||| v
  | 3 => old ^^^ v
  | 4 => if sg old ≤ sg v then old else v
  | 5 => if sg old ≤ sg v then v else old
  | 6 => min old v
  | 7 => max old v
  | 8 => v
  | _ => if old = cmp then v else old

/-- The write of one part into words: a function that reads and replaces a word's value. -/
def writePart (get : Nat → W32) (p : Part) : List (Nat × W32 × Bool) :=
  let first := p.pa / 4
  let count := (p.pa + p.n - 1) / 4 - first + 1
  (List.range count).map fun q =>
    let wa := first + q
    let bs := (List.range 4).map fun j =>
      if p.covers (4 * wa + j) then (p.data.getD (4 * wa + j - p.pa) 0, true) else (wordByte (get wa) j, false)
    (wa, BitVec.ofNat 32 (leNat (bs.map (·.1))), bs.all (·.2))

/-- Write the L1 with one part: SR rises for a plain store; a whole-word write clears poison (R117, R430). -/
def l1WritePart (c : Nat) (a : Acc) (p : Part) (s : State) : State :=
  let get := fun wa => ((s.core c).l1word (wa / 32) (wa % 32)).val
  (writePart get p).foldl (fun s (e : Nat × W32 × Bool) => s.onCore c fun co =>
    let w := co.l1word (e.1 / 32) (e.1 % 32)
    co.setL1word (e.1 / 32) (e.1 % 32) { w with
      val := e.2.1
      sr := if a.strong then w.sr else true
      stamp := if a.strong then w.stamp else a.id
      poison := if e.2.2 then false else w.poison }) s

/-- The bytes of a part in the L1. -/
def l1ReadPart (c : Core) (p : Part) : List W8 :=
  (List.range p.n).map fun j => wordByte ((c.l1word ((p.pa + j) / 128) ((p.pa + j) / 4 % 32)).val) ((p.pa + j) % 4)

/-- Perform a store or atomic whose words are all Registered (R112, R127): lanes in ascending order. -/
def performStore (c : Nat) (a : Acc) (s : State) : State :=
  let s := breakResv c a.line a.words (some a.thr) s
  match a.kind with
  | .atomic =>
    let pois := (s.core c).poisonedWord a
    let (s, got) := a.parts.foldl (fun (sg : State × List (Nat × Nat × W8)) p =>
      let old := l1ReadPart (sg.1.core c) p
      let new := atomicNew a.op p.n (leNat old) (leNat p.data) (leNat p.cmp)
      (l1WritePart c { a with strong := true } { p with data := leBytes new p.n } sg.1,
       sg.2 ++ (old.zipIdx.map fun e => (p.lane, e.2, e.1)))) (s, [])
    eventDone c a got pois s
  | _ => eventDone c a [] none (a.parts.foldl (fun s p => l1WritePart c a p s) s)

/-- The REG of a store at the head (R112). -/
def sendReg (c : Nat) (a : Acc) (s : State) : State :=
  match tagFor a.line a.id s with
  | none => s
  | some s =>
  let s := s.onCore c fun co => { co with stores := co.stores.map fun x => if x.id = a.id then { x with sent := true } else x }
  send { msg0 .reg (.core c) (homeOf a.line) a.line with
      mask := a.words, region := a.region, dom := a.dom,
      strong := a.strong || a.kind = .atomic, tag := a.id } s

/-- A valet hart's store to near memory while its domain records is a home write (R463). -/
def State.asHomeWrite (s : State) (a : Acc) : Bool := match a.thr with
  | .hart _ _ => a.kind = .store && a.space = .near && (s.dom a.dom).rpctl.getLsbD 31
  | .fib _ => false

/-- The HWR of a store: its bytes of one line. -/
def sendHwr (c : Nat) (a : Acc) (s : State) : State :=
  let s := s.onCore c fun co => { co with stores := co.stores.map fun x => if x.id = a.id then { x with sent := true } else x }
  let byte := fun (i : Nat) => a.parts.foldl (fun (r : Option W8) p => if p.covers (128 * a.line + i) then p.data[128 * a.line + i - p.pa]?
    else r) none
  send { msg0 .hwr (.core c) (homeOf a.line) a.line with
      mask := a.words
      bmask := (List.range 128).foldl (fun m i => if (byte i).isSome then m ||| ((1 : BitVec 128) <<< i) else m) 0
      data := (List.range 32).map fun w => BitVec.ofNat 32 (leNat ((List.range 4).map fun j => (byte (4 * w + j)).getD 0))
      region := a.region, dom := a.dom, tag := a.id } s

/-- Drain a core's store buffer as far as it goes without an answer (R112). -/
def drain (c : Nat) (s : State) : State :=
  ((s.core c).stores.map (·.id)).foldl (fun s id =>
    match (s.core c).stores.find? (·.id = id) with
    | none => s
    | some a =>
      if !(s.core c).isHead a then s else
      -- replay performs no store to pool or I/O space (R466)
      if (a.space = .pool || a.space = .io) && s.replaying a.dom then
        eventDone c a (if a.kind = .atomic then a.parts.flatMap fun p => (List.range p.n).map fun j => (p.lane, p.off + j, 0) else [])
          none s
      else match a.space with
      | .near | .pool =>
        if a.sent then s
        else if s.asHomeWrite a then sendHwr c a s
        else if (s.core c).owns a.line a.words then performStore c a s
        else sendReg c a s
      | .io => sendIo c a s
      | .scratch _ => s) s

/-- After anything that may let accesses of a core proceed. -/
def settle (c : Nat) (s : State) : State := pumpCore c (drain c (pumpCore c s))

/-! ### The home (R106, R111, R115, R116) -/

/-- Words of a line that are busy (R111). -/
def State.busyWords (s : State) (line : Nat) : W32 :=
  s.acts.foldl (fun m a => if a.msg.line = line then m ||| a.msg.mask else m) 0

/-- The race action the home reads for a request (R26, R124). -/
def State.raceAction (s : State) (d r : Nat) : Nat := match tget (s.dom d).rat r 2 with | 0 => 0 | 1 => 1 | _ => 2

/-- The line holds a row of a live or pending grant of its core's stack (R86, R81). -/
def State.pinnedLine (s : State) (line : Nat) : Bool :=
  match homeOf line with
  | .home c =>
    let h := (line * 128 % 2 ^ 33) / 3072
    (s.core c).grants.any fun g => g.2.mask.getLsbD (h % 128) && g.2.lo ≤ h / 128 && h / 128 ≤ g.2.hi
  | _ => false

/-- A line held by its slice (R106); pool lines need no slice. -/
def State.lineHeld (s : State) (line : Nat) : Bool :=
  match homeOf line with
  | .home c => (s.core c).slice.contains line
  | _ => true

/-- The owner field that a Registered word holds at its home: PKG in [23:12], AGENT in [8:0] (R105). -/
def ownerField (pkg : BitVec 12) (n : Node) : W32 := match n with
  | .core c => BitVec.ofNat 32 (pkg.toNat * 4096 + c % 512)
  | .agent p a => BitVec.ofNat 32 (p % 4096 * 4096 + a % 512)
  | _ => 0

/-- The party that an owner field names (R105): an agent of the package is a core. -/
def ownerOfField (pkg : BitVec 12) (v : W32) : Node :=
  if v.extractLsb' 12 12 = pkg && !v.getLsbD 8 then .core (v.toNat % 512) else .agent (v.toNat / 4096 % 4096) (v.toNat % 512)

/-- Words become owned by a node: the home's data field holds the owner (R105, R106); or they become Valid. -/
def setOwners (line : Nat) (mask : W32) (o : Option Node) (s : State) : State :=
  (wordsOf mask).foldl (fun s i => match o with
    | some n => { s with owners := tset s.owners (32 * line + i) n
                         mem := Memory.writeBytes s.mem (4 * (32 * line + i)) (leBytes (ownerField s.pkg n).toNat 4) }
    | none => { s with owners := tdel s.owners (32 * line + i) }) s

/-- Merge bytes at the home; a word written whole loses its poison (R115, R430). -/
def homeMerge (line : Nat) (bm : BitVec 128) (data : List W32) (s : State) : State :=
  (wordsOf (wordMask bm)).foldl (fun s i =>
    let m := byteBits bm i
    let pois := s.poison.contains (32 * line + i) && m != 15
    setHomeWord line i (mergeWord m (data.getD i 0) (s.homeWord line i)) pois s) s

/-! ### The order log of a home (R464, R466) -/

/-- The domain whose recorder logs a home's events. -/
def State.homeDom (s : State) (line : Nat) : Option Nat := match homeOf line with
  | .home c => s.domOfCore c
  | _ => none

/-- The party of a request: its core, the handle of the fibre that acts, and that fibre's RETIRED. -/
def State.actorOf (s : State) (m : Msg) : Nat × Nat × Nat :=
  match (if m.kind = .xreg then m.party else m.src) with
  | .core c => match (s.core c).stores.find? (·.id = m.tag) with
    | some a => match a.thr with
      | .fib k => (c, handleOf k, match s.fib? k with | some f => f.retired | none => 0)
      | .hart _ _ => (c, 0xFF, 0)
    | none => (c, 0xFF, 0)
  | _ => (0, 0xFF, 0)

/-- Address of the first word that a request names. -/
def msgAddr (m : Msg) : W64 := BitVec.ofNat 64 (128 * m.line + 4 * (wordsOf m.mask).headD 0)

/-- The records of a domain's log that order the requests of a line's home. -/
def homeRecords (d line : Nat) (s : State) : List LogRec :=
  (s.dom d).log.filter fun r => (r.kind = 1 || r.kind = 2) && homeOf (r.addr.toNat / 128) = homeOf line

/-- A record of KIND 1 stands for a request. -/
def recordOf (m : Msg) (s : State) (r : LogRec) : Bool :=
  r.kind = 1 && r.core = (s.actorOf m).1 && r.addr = msgAddr m && r.val = m.mask.setWidth 64

/-- The core that a registration makes the owner. -/
def newOwner (m : Msg) : Node := if m.kind = .xreg then m.party else m.src

/-- A replayed registration uses its record, when that is the next of its home; its words have a new owner in the recording. -/
def useHome (d : Nat) (m : Msg) (s : State) : State :=
  match (homeRecords d m.line s).head? with
  | some r =>
    if recordOf m s r then
      let s := useLog d r s
      let dm := s.dom d
      s.setDom d { dm with recOwners := (wordsOf m.mask).foldl (fun l i => tset l (32 * m.line + i) (newOwner m)) dm.recOwners }
    else s
  | none => s

/-- A home write of a satchel copy, which the domain's fibres make; a valet hart's home write names its store (R463). -/
def State.copyWrite (s : State) (m : Msg) : Bool := match m.src with
  | .core c => !((s.core c).stores.any fun a => a.id = m.tag)
  | _ => false

/-- Log a home's event while the domain records; in replay the record it follows has been used. KIND 1: a registration;
KIND 2: a write from outside the domain's fibres, with the line's data in four further records; the mask holds 64 bytes, and
bytes of the line's upper half have a record of their own, whose ADDR is 64 higher (log 18). -/
def logHome (m : Msg) (s : State) : State :=
  match s.homeDom m.line with
  | none => s
  | some d =>
    if s.replaying d then
      if m.kind = .reg || m.kind = .xreg then useHome d m s else s
    else match m.kind with
      | .hwr =>
        if s.copyWrite m then s else
        let word := fun (i : Nat) => (m.data.getD i 0).toNat
        let two := fun (i : Nat) => word i + 2 ^ 32 * word (i + 1)
        let half := fun (h : Nat) (s : State) =>
          if m.bmask.extractLsb' (64 * h) 64 = 0 then s else
          let s := logOrder d 2 0 0xFF 0 (BitVec.ofNat 64 (128 * m.line + 64 * h)) (m.bmask.extractLsb' (64 * h) 64) s
          (List.range 4).foldl (fun s i => logOrder d (two (8 * i) % 256) (two (8 * i) / 256 % 256) (two (8 * i) / 65536)
            (two (8 * i + 2)) (BitVec.ofNat 64 (two (8 * i + 4))) (BitVec.ofNat 64 (two (8 * i + 6))) s) s
        half 1 (half 0 s)
      | .ld => s
      | .recall => s
      | _ =>
        let (c, h, n) := s.actorOf m
        logOrder d 1 c h n (msgAddr m) (m.mask.setWidth 64) s

/-- In replay a home holds a registration that the log places later (R466). A request for words that its core owned at this
place of the recording has no record there, since it hit in the L1, and is not held; nor is one that no record stands for. -/
def replayHolds (m : Msg) (s : State) : Bool :=
  match s.homeDom m.line with
  | none => false
  | some d =>
    let l := homeRecords d m.line s
    s.replaying d && (m.kind = .reg || m.kind = .xreg)
      && !(l.head?.any (recordOf m s)) && l.any (recordOf m s)
      && !((wordsOf m.mask).all fun i => tfind (s.dom d).recOwners (32 * m.line + i) = some (newOwner m))

/-- The event of a request at the home, once no word it names is held elsewhere against it (R115). -/
def homeEvent (m : Msg) (verdict : Nat) (raced : W32) (s : State) : State :=
  let mine := (wordsOf m.mask).foldl (fun x i => if s.ownerOf m.line i = some m.src then x ||| wbit i else x) (0 : W32)
  let fresh := m.mask &&& ~~~mine
  let reply := { msg0 .grant m.dst m.src m.line with tag := m.tag, region := m.region, dom := m.dom }
  let s := logHome m s
  match m.kind with
  | .reg =>
    let g := { reply with mask := m.mask, bmask := fresh.setWidth 128, data := s.homeLine m.line,
                          poison := s.homePoison m.line &&& fresh, act := verdict, sr := raced }
    let s := setOwners m.line m.mask (some m.src) s
    let s := { s with poison := s.poison.filter fun wa => !(wa / 32 == m.line && fresh.getLsbD (wa % 32)) }
    send g s
  | .xreg =>
    let mineC := (wordsOf m.mask).foldl (fun x i => if s.ownerOf m.line i = some m.party then x ||| wbit i else x) (0 : W32)
    let s := { s with poison := s.poison.filter fun wa => !(wa / 32 == m.line && (m.mask &&& ~~~mineC).getLsbD (wa % 32)) }
    send { reply with kind := .push, dst := m.party, mask := m.mask, data := m.data } (setOwners m.line m.mask (some m.party) s)
  | .hwr =>
    let s := homeMerge m.line m.bmask m.data s
    send { reply with kind := .hwack } s
  | .ld =>
    let valid := (List.range 32).foldl (fun x i => if s.ownerOf m.line i = none then x ||| wbit i else x) (0 : W32)
    send { reply with kind := .ldata, mask := valid, data := s.homeLine m.line, poison := s.homePoison m.line &&& valid } s
  | _ => s

/-- Ask owners to give words up on behalf of a request: REVOKE for REG and XREG, RECALL otherwise (R111, R115). -/
def askOwners (m : Msg) (l : List (Node × W32)) (s : State) : State :=
  let (id, s) := s.fresh
  let act := if m.kind = .reg && !m.strong then s.raceAction m.dom m.region else 0
  let kind := if m.kind = .reg || m.kind = .xreg then MsgKind.revoke else .recall
  let s := { s with acts := s.acts ++ [{ id := id, msg := m, wait := l, verdict := act }] }
  l.foldl (fun s e => send { msg0 kind m.dst e.1 m.line with
      mask := e.2, act := act, tag := id, region := m.region,
      dom := m.dom, party := if m.kind = .xreg then m.party else m.src } s) s

/-- The home's own recall of every Registered word of a line (R115, R122); with `leave` the line goes once all are home. -/
def recallFor (leave : Bool) (line : Nat) (s : State) : State :=
  let l := groupOwners (s.foreign line (BitVec.allOnes 32) none)
  if l = [] then s
  else askOwners { msg0 .recall (homeOf line) (homeOf line) line with mask := l.foldl (fun m e => m ||| e.2) 0, flag := leave } l s

/-- A recall after which the line stays. -/
def recallLine (line : Nat) (s : State) : State := recallFor false line s

/-- A line recalled for its place leaves its slice (R122). -/
def afterRecall (m : Msg) (s : State) : State := match homeOf m.line with
  | .home c => if m.kind = .recall && m.flag then s.onCore c fun co => { co with slice := co.slice.filter (· ≠ m.line) } else s
  | _ => s

/-- A write from outside the package to a pinned line, which its home answers with flag F at once (R477). -/
def State.refusedHwr (s : State) (m : Msg) : Bool :=
  m.kind = .hwr && s.pinnedLine m.line && (match m.src with | .route _ _ => true | .agent _ _ => true | _ => false)

/-- Serve one request whose words are not busy (R115, R116). -/
def serveHome (m : Msg) (s : State) : State :=
  match m.kind with
  | .reg =>
    let l := groupOwners (s.foreign m.line m.mask (some m.src))
    if l = [] then homeEvent m 0 0 s else askOwners m l s
  | .xreg =>
    let l := groupOwners (s.foreign m.line m.mask (some m.party))
    if l = [] then homeEvent m 0 0 s else askOwners m l s
  | .hwr =>
    let l := groupOwners (s.foreign m.line m.mask none)
    if s.refusedHwr m then
      send { msg0 .hwack m.dst m.src m.line with tag := m.tag, flag := true } s
    else if l = [] then homeEvent m 0 0 s else askOwners m l s
  | .ld =>
    let f := s.foreign m.line m.mask none
    match groupOwners f with
    | [] => homeEvent m 0 0 s
    | [(o, w)] =>
      if w = m.mask then
        let act := if m.strong || o = m.src then 0 else s.raceAction m.dom m.region
        send { msg0 .fwd m.dst o m.line with
            mask := m.mask, party := m.src, act := act, tag := m.tag, region := m.region,
            dom := m.dom } s
      else askOwners m [(o, w)] s
    | l => askOwners m l s
  | .wb =>
    let mine := (wordsOf m.mask).filter fun i => s.ownerOf m.line i = some m.src
    let s := mine.foldl (fun s i => setHomeWord m.line i (m.data.getD i 0) (m.poison.getLsbD i) s) s
    let s := mine.foldl (fun s i => setOwners m.line (wbit i) none s) s
    send { msg0 .wback m.dst m.src m.line with tag := m.tag } s
  | _ => s

/-- Serve the waiting requests of a line in arrival order: one that needs a busy word, or a word an earlier
waiting request needs, goes on waiting (R111). A REG of a link agent for a pinned line is held (R477). -/
def pumpHome (q : List Msg) (line : Nat) (blocked : W32) (s : State) : State :=
  match q with
  | [] => s
  | m :: r =>
    if m.line ≠ line then pumpHome r line blocked s
    else
      let held := m.kind = .reg && s.pinnedLine line && (match m.src with | .agent _ _ => true | _ => false)
      if (m.mask &&& (s.busyWords line ||| blocked)) ≠ 0 || held || replayHolds m s then pumpHome r line (blocked ||| m.mask) s
      else pumpHome r line blocked (serveHome m { s with homeQ := s.homeQ.erase m })

/-- The line becomes most recently used in its slice (R122). -/
def touchSlice (line : Nat) (s : State) : State := match homeOf line with
  | .home c => s.onCore c fun co => { co with slice := line :: co.slice.filter (· ≠ line) }
  | _ => s

/-- Serve what a line's home can serve; a line not held is filled first (R106). -/
def runHome (line : Nat) (s : State) : State :=
  if s.lineHeld line then pumpHome s.homeQ line 0 (touchSlice line s)
  else
    let no := s.homeQ.filter fun m => m.line = line && s.refusedHwr m
    let s := no.foldl (fun s m => serveHome m { s with homeQ := s.homeQ.erase m }) s
    if s.fills.contains line || !(s.homeQ.any (·.line = line)) then s
    else { s with fills := s.fills ++ [line] }

/-- A request arrives at its home (R111). -/
def homeArrive (m : Msg) (s : State) : State := runHome m.line { s with homeQ := s.homeQ ++ [m] }

/-- An answer to a REVOKE or RECALL: the home takes the words; the last answer lets the request's event happen. -/
def homeAnswer (m : Msg) (s : State) : State :=
  match s.acts.find? (·.id = m.tag) with
  | none => s
  | some a =>
    let keep := a.msg.kind ≠ .xreg
    let s := (wordsOf m.mask).foldl (fun s i =>
      let s := if keep then setHomeWord m.line i (m.data.getD i 0) (m.poison.getLsbD i) s else s
      setOwners m.line (wbit i) none s) s
    let a := { a with wait := a.wait.filter (·.1 ≠ m.src), sr := a.sr ||| m.sr }
    if a.wait = [] then
      let s := { s with acts := s.acts.filter (·.id ≠ a.id) }
      runHome m.line (afterRecall a.msg (homeEvent a.msg (if a.sr = 0 then 0 else a.verdict) a.sr s))
    else { s with acts := s.acts.map fun x => if x.id = a.id then a else x }

/-! ### Coherent values in one event: walkers, fetches, launches (log 10); operations of the home -/

/-- Nothing is in flight or being served for a line. -/
def State.quiet (s : State) (line : Nat) : Bool :=
  !(s.net.any (·.line = line)) && !(s.acts.any (·.msg.line = line))

/-- Some word of the line is Registered to an agent outside the package. -/
def State.agentHolds (s : State) (line : Nat) : Bool :=
  s.owners.any fun e => e.1 / 32 = line && (match e.2 with | .core _ => false | _ => true)

/-- Lines that an agent holds words of are recalled first, and whoever reads them in one event waits; `none`: there is no such
line. -/
def fetchHome (lines : List Nat) (s : State) : Option State :=
  if lines.any s.agentHolds then
    some ((lines.filter fun l => s.agentHolds l && s.quiet l).foldl (fun s l => recallLine l s) s)
  else none

/-- The current value of word i of a line, with its poison: the home's when it is Valid; else its owner's, in its L1
or write-back buffer, or in the newest message that carries it. -/
def State.curWord (s : State) (line i : Nat) : W32 × Bool :=
  match s.ownerOf line i with
  | none => (s.homeWord line i, s.poison.contains (32 * line + i))
  | some (.core c) =>
    let w := (s.core c).l1word line i
    if w.st = .registered then (w.val, w.poison) else
    match (s.core c).wbWord line i with
    | some e => (e.data.getD i 0, e.poison.getLsbD i)
    | none => match (s.net.filter fun m => m.line = line && m.data ≠ [] && m.mask.getLsbD i).getLast? with
      | some m => (m.data.getD i 0, m.poison.getLsbD i)
      | none => (s.homeWord line i, false)
  | some _ => (s.homeWord line i, s.poison.contains (32 * line + i))

/-- The current byte at a near or pool address. -/
def State.curByte (s : State) (pa : Nat) : W8 := wordByte (s.curWord (pa / 128) (pa / 4 % 32)).1 (pa % 4)

/-- `n` current bytes from a physical address up. -/
def State.curBytes (s : State) (pa n : Nat) : List W8 := (List.range n).map fun j => s.curByte (pa + j)

/-- The home operates on lines (R115, R127): every word of them must be Valid and none busy, else the Registered words are recalled and
the operation waits; `none`: it may be performed. -/
def homeTakes (lines : List Nat) (s : State) : Option State :=
  let busy := fun (l : Nat) => s.acts.any (·.msg.line = l)
  let owned := fun (l : Nat) => s.owners.any fun e => e.1 / 32 = l
  if lines.any fun l => busy l || owned l then
    some ((lines.filter fun l => owned l && !busy l).foldl (fun s l => recallLine l s) s)
  else none

/-- Bytes written at the home in one event, every word Valid there (R115); a word written whole loses its poison (R430). -/
def homeWriteNow (pa : Nat) (bs : List W8) (s : State) : State :=
  let s := ((List.range bs.length).map fun j => (pa + j) / 128).eraseDups.foldl (fun s l => rewriteRow l s) s
  { s with mem := Memory.writeBytes s.mem pa bs
           poison := s.poison.filter fun wa => !(pa ≤ 4 * wa && 4 * wa + 4 ≤ pa + bs.length) }

end Sys2Proof.Machine
end

