-- ==== Sys2Proof/Machine/RowOps.lean ====
section
/-! DEFINITION. The stack above a core: the refresh calendar, bank states and windows, grants, the checks of row
instructions and the B-latches (R80 to R104). -/
namespace Sys2Proof.Machine

/-- The phase of bank b at tick t (R92). -/
def sigma (b t : Nat) : Nat := (t + 4680 - 36 * b % 4680) % 4680

/-- A bank of a core at tick t. A bank the tables do not list has seen the calendar only. -/
def Core.bank (c : Core) (b t : Nat) : Bank :=
  match tfind c.banks b with
  | some x => match x.st, x.tp with
    | .precharging, some p => if p + 18 ≤ t then { x with st := .idle } else x
    | _, _ => x
  | none => if sigma b t < 420 then { st := .refresh, borrowed := 300 ≤ sigma b t } else {}

def Core.setBank (c : Core) (b : Nat) (x : Bank) : Core := { c with banks := tset c.banks b x }

/-- The live grant of a block on a core (R84, R89): slot and grant. -/
def Core.liveGrant (c : Core) (d b : Nat) : Option (Nat × RowGrant) :=
  c.grants.find? fun e => e.2.live && e.2.dom == d && e.2.bid == b

/-- The word of GRANT and RGTn (R89, R90). A pending grant shows V = 0. -/
def grantWord (n : Nat) (g : RowGrant) : W64 :=
  BitVec.ofNat 64 ((if g.live then 2 ^ 63 else 0) + g.share * 2 ^ 56 + g.lo * 2 ^ 42 + g.hi * 2 ^ 28 + (g.bid % 65536) * 2 ^ 12 + n)

/-- Row handle of an address of a populated slot, and the byte within the row (R81). -/
def rowOf (pa : Nat) : Nat × Nat := (pa % 2 ^ 33 / 3072, pa % 2 ^ 33 % 3072)

/-- Address of byte j of the row with handle h of core c (R81). -/
def rowAddr (c h j : Nat) : Nat := c * 2 ^ 33 + h * 3072 + j

/-- Does an instruction of a kind pass the refresh window of R93 at phase σ. Kinds: 0 act, 1 con, 2 pre. -/
def refreshOk (kind σ : Nat) : Bool :=
  420 ≤ σ && (match kind with | 0 => σ < 4623 | 1 => σ < 4661 | _ => σ < 4663)

/-- The state table of R95 for one instruction on a bank: what stops it, or the bank after it. -/
def bankStep (kind w t : Nat) (x : Bank) : Except Cause Bank :=
  match x.st, kind with
  | .idle, 0 => .ok { x with st := .opened, orow := w, ta := some t, tc := none }
  | .idle, 1 => .error .rowEarly
  | .idle, _ => .ok x
  | .opened, 0 => .error .rowOpen
  | .opened, 1 => if w = x.orow ∧ x.ta.getD 0 + 18 ≤ t then .ok { x with tc := some t } else .error .rowEarly
  | .opened, _ =>
    if x.ta.getD 0 + 40 ≤ t && (match x.tc with | some c => decide (c + 2 ≤ t) | none => true) then
      .ok { x with st := .precharging, tp := some t }
    else .error .rowEarly
  | .precharging, 0 => .error .rowEarly
  | .precharging, 1 => .error .rowEarly
  | .precharging, _ => .ok x
  | .refresh, _ => .error .rowRefresh

/-- Activates of a grant in ticks t − 37 to t − 0 that were performed (R94). -/
def recentActs (g : RowGrant) (t : Nat) : Nat := (g.acts.filter fun a => t < a + 38).length

/-- The checks of R97 in order, for a row instruction at its performance tick t: what stops it, or the grant slot,
the bank and the bank's new state. -/
def rowCheck (c : Core) (d bid kind : Nat) (h : W64) (t : Nat) : Except Cause (Nat × Nat × Bank) :=
  match c.liveGrant d bid with
  | none => .error .rowGrant
  | some (n, g) =>
    let b := h.toNat % 128
    let w := h.toNat / 128 % 16384
    if h.toNat ≥ 2 ^ 21 || !g.mask.getLsbD b then .error .rowGrant
    else if kind < 2 && (w < g.lo || g.hi < w) then .error .rowGrant
    else if !refreshOk kind (sigma b t) then .error .rowRefresh
    else match bankStep kind w t (c.bank b t) with
      | .error e => .error e
      | .ok x => if kind = 0 && recentActs g t + 1 > g.share then .error .rowBudget else .ok (n, b, x)

/-- The fibre's row instruction issued now would be performed at this tick (R83, R100). -/
def perfTick (c : Core) (kind sub ti : Nat) : Nat :=
  if kind = 1 then
    let p := sub / 4
    let taken := (c.rowOps.filter fun o => o.kind = 1 && o.t % 4 = p).map (·.t)
    let cand := (List.range (4 * (taken.length + 2))).map (· + (ti + 3))
    (cand.find? fun t => t % 4 = p && !taken.contains t).getD (ti + 3)
  else ti + 3

/-- Ticks until an instruction of a kind would pass the refresh, state and timing checks, up to 4,094 (R99): an Open bank is
closed by the controller at phase 4,662 and Idle again after its refresh slot (R93). No wait makes a consume of a bank that is not
Open legal, nor an activate of one that is (R98): 0xFFF. DEDUCED (log 21). -/
def waitFor (x : Bank) (b kind w t : Nat) : Nat :=
  let okAt := fun n =>
    let t' := t + n
    let x' := match x.st, x.tp with
      | .precharging, some p => if p + 18 ≤ t' then { x with st := .idle } else x
      | .refresh, _ => if 420 ≤ sigma b t' then { x with st := .idle } else x
      | .opened, _ => if 4680 ≤ sigma b t + n then { x with st := .idle } else x
      | _, _ => x
    refreshOk kind (sigma b t') && (match bankStep kind w t' x' with | .ok _ => true | .error _ => false)
  if (kind = 1 && x.st != .opened) || (kind = 0 && x.st = .opened) then 0xFFF else ((List.range 4095).find? okAt).getD 0xFFF

/-- NUCE after an uncorrectable line (R104). -/
def recordNuce (v : W64) (src h l : Nat) : W64 :=
  if v.getLsbD 63 then v ||| (1 <<< 62)
  else BitVec.ofNat 64 (2 ^ 63 + src % 4 * 2 ^ 26 + l * 2 ^ 21 + h % 2 ^ 21) ||| (v &&& (1 <<< 62))

/-- Lines of a row are read by a rowcon, the ordinary path or a scrub (SRC 0 to 2): one that corrects adds 1 to NECC, each
uncorrectable line is recorded in NUCE (R103, R104). Answers whether one was uncorrectable. -/
def readRowLines (core : Nat) (src h : Nat) (lines : List Nat) (s : State) : State × Bool :=
  let co := s.core core
  let found := lines.filterMap fun l => (co.rowErr.find? fun e => e.1 = h ∧ e.2.1 = l).map (·.2)
  if found = [] then (s, false) else
  let bad := (found.filter fun e => 1 < e.2).map (·.1)
  (s.setCore core { co with
    necc := if bad.length < found.length then BitVec.ofNat 64 (min (co.necc.toNat % 2 ^ 32 + 1) (2 ^ 32 - 1)) else co.necc
    nuce := bad.foldl (fun v l => recordNuce v src h l) co.nuce }, bad ≠ [])

/-- Latches that a product reads (R367, R369): the named one, and the other for a tangent. -/
def latchesOf (w : LaneWord) : List Nat :=
  let x := w.fn.toNat % 4
  if 2 ≤ x then [] else if w.fn.getLsbD 3 then [x, 1 - x] else [x]

/-- Latches that an operation reads; none for one without B. -/
def PressOp.latches (o : PressOp) : List Nat := if o.op = 0x90 || o.op = 0x91 then latchesOf o.w else []

/-- A rowcon that an operation does not wait for loads a latch that it reads: what the latch held stays with the operation, whose flags
and whose gang the new row does not affect (R101). -/
def PressOp.keepLatch (o : PressOp) (row latch : Nat) (old : Latch) : PressOp :=
  if o.latches.contains latch && !o.afterRow.contains row && (tfind o.latchWas latch).isNone then
    { o with latchWas := tset o.latchWas latch old } else o

/-- The transfer of an open row into a latch by rowcon `row` (R100, R170, R103). -/
def transferRow (core press latch h row : Nat) (s : State) : State :=
  let (s, bad) := readRowLines core 0 h (List.range 24) s
  let bad := bad || s.poison.any fun wa => rowAddr core h 0 ≤ 4 * wa && 4 * wa < rowAddr core h 3072
  let data := (List.range 3072).map fun j => Memory.read s.mem (rowAddr core h j)
  -- an operation that was to read what the latch held keeps it (R101)
  s.onCore core fun co =>
    let old := tget co.latches (2 * press + latch) {}
    { co with
      latches := tset co.latches (2 * press + latch) { data := data, poison := bad, h := h }
      press := co.press.map fun (p : Nat × List PressOp) => if p.1 = press then (p.1, p.2.map (·.keepLatch row latch old)) else p }

/-- The end of a grant (R88): its slot is freed; open banks are precharged by the controller when legal; a request that
its home held for the grant is served (R477). -/
def endGrant (core n : Nat) (s : State) : State :=
  let s := s.onCore core fun co => { co with grants := tdel co.grants n }
  ((s.homeQ.map (·.line)).eraseDups.filter fun l => homeOf l = .home core).foldl (fun s l => runHome l s) s

/-- The grants of a block, or of a gang, on a core end. -/
def endGrantsOf (p : RowGrant → Bool) (core : Nat) (s : State) : State :=
  ((s.core core).grants.filter fun e => p e.2).foldl (fun s e => endGrant core e.1 s) s

/-- The lines of a grant's rows (R86), as line numbers of the module, restricted to lines that anything knows of:
those with a Registered word. -/
def grantLines (core : Nat) (g : RowGrant) (s : State) : List Nat :=
  ((s.owners.map fun e => e.1 / 32).eraseDups).filter fun l =>
    homeOf l = .home core && (let h := (rowOf (l * 128)).1; g.mask.getLsbD (h % 128) && g.lo ≤ h / 128 && h / 128 ≤ g.hi)

/-- A write in flight or buffered to a line of a grant that passed its check before the grant (R86 step 1). -/
def writesPending (core : Nat) (g : RowGrant) (s : State) : Bool :=
  let hit := fun (l : Nat) => homeOf l = .home core && (let h := (rowOf (l * 128)).1
    g.mask.getLsbD (h % 128) && g.lo ≤ h / 128 && h / 128 ≤ g.hi)
  s.cores.any (fun e => e.2.stores.any fun a => (a.space = .near) && hit a.line)
    || s.net.any (fun m => hit m.line) || s.homeQ.any (fun m => hit m.line && m.kind ≠ .ld && (match m.kind, m.src with | .reg, .agent _ _ => false | _, _ => true)) || s.acts.any (fun a => hit a.msg.line)
    || s.cores.any (fun e => e.2.press.any fun p => p.2.any fun o => o.op = 0x96 && o.lines.any fun l => hit (l.1 / 128))
    || s.copies.any (fun y => !y.dscr && y.dpages.any fun p => (List.range 512).any fun j => hit (p.2.1 * 512 + j))

end Sys2Proof.Machine
end

