-- ==== Sys2Proof/Machine/Disturb.lean ====
section
/-! DEFINITION. What a program must not do while a press operation of its fibre is not waited for, and the undefined values
that follow (R101, R166, R381). -/
namespace Sys2Proof.Machine

/-- A free value for every lane of a register (log 7). -/
def freeLanes (s : State) (v : Nat) : List W32 := (List.range 96).map fun L => Config.freeWord s.freeCtr v L

/-- Registers of active lanes take undefined values. -/
def freeRegs (k : FKey) (mask : Mask) (dst : List Nat) (s : State) : State :=
  let s1 := dst.foldl (fun (s : State) v => s.writeLanes k mask v (freeLanes s v)) s
  { s1 with freeCtr := s.freeCtr + 1 }

/-- A row of a tile: 48 elements. -/
def Tile.row (t : Tile) (r : Nat) : List W32 := tget t.rows r (List.replicate 48 0)

/-- Columns c0 to c0 + n − 1 of the rows of active lanes take undefined values. -/
def freeTile (k : FKey) (mask : Mask) (tile c0 n : Nat) (s : State) : State :=
  let sp := s.spool k
  let t := tget sp.tiles tile {}
  let rows := ((List.range 96).filter fun r => mask.getLsbD r).map fun r => (r, (t.row r).zipIdx.map fun e =>
    if c0 ≤ e.2 && e.2 < c0 + n then Config.freeWord s.freeCtr (256 + 96 * tile + r) e.2 else e.1)
  let t := { t with rows := rows.foldl (fun l e => tset l e.1 e.2) t.rows }
  { s.setSpool k { sp with tiles := tset sp.tiles tile t } with freeCtr := s.freeCtr + 1 }

/-- The operation still stands in its press. -/
def State.inPress (s : State) (k : FKey) (id : Nat) : Bool := (tget (s.core k.core).press (k.sub / 4) []).any fun o => o.id = id

/-- Change an operation that stands in its press. -/
def onPressOp (k : FKey) (id : Nat) (f : PressOp → PressOp) (s : State) : State :=
  s.onCore k.core fun co => { co with press := co.press.map fun (p : Nat × List PressOp) =>
    (p.1, if p.1 = k.sub / 4 then p.2.map fun o => if o.id = id then f o else o else p.2) }

/-- The registers that an operation reads, as they stand. -/
def State.pressSrc (s : State) (o : PressOp) : List (Nat × List W32) := match s.fib? o.k with
  | some f => match f.unwaited.find? (·.id = o.id) with
    | some u => u.src.map fun v => (v, s.vreg o.k v)
    | none => []
  | none => []

/-- The bytes of the scratch access rows that a product reads. -/
def PressOp.rowBytes (o : PressOp) (mem : List Host.Cell) : List W8 :=
  if o.op = 0x90 || o.op = 0x91 then o.lines.flatMap fun l => Memory.readBytes mem l.1 32 else []

/-- A forbidden access is made: the operation's outputs will be undefined, and its operands stay as they were, since nothing else that
it does is affected (R101, R166). -/
def PressOp.taint (o : PressOp) (regs : List (Nat × List W32)) (mem : List Host.Cell) : PressOp :=
  if o.tainted then o
  else if o.started then { o with tainted := true }
  else { o with tainted := true, snapV := regs, snapB := if o.op = 0x97 then o.snapB else o.rowBytes mem }

/-- The program broke the rule of R166 for an operation: its accumulator rows, or an mdrain's destination, become undefined,
now if it has completed, else as it completes. -/
def disturbOp (k : FKey) (u : PressUse) (s : State) : State :=
  if s.inPress k u.id then onPressOp k u.id (fun o => o.taint (s.pressSrc o) s.mem) s
  else if u.dst ≠ [] then freeRegs k u.mask u.dst s
  else u.tiles.foldl (fun s t => freeTile k u.mask t u.c0 u.n s) s

/-- A fibre writes registers, and names registers, that operations of its spool use. -/
def disturbRegs (k : FKey) (writes touches : List Nat) (s : State) : State :=
  s.fibs.foldl (fun s e =>
    if e.1.core = k.core && e.1.sub = k.sub && e.1.slot = k.slot && e.2.unwaited ≠ [] then
      let own := fun (l : List Nat) => if e.1 = k then l else l.filter (192 ≤ ·)
      e.2.unwaited.foldl (fun s u =>
        let w := (own writes).any u.src.contains
        let d := (own touches).any u.dst.contains
        let s := if w || d then disturbOp e.1 u s else s
        if d then freeRegs e.1 u.mask u.dst s else s) s
    else s) s

/-- A fibre stores to access rows (bolt-window address ÷ 32) that its operations read. -/
def disturbRows (k : FKey) (rows : List Nat) (s : State) : State :=
  match s.fib? k with
  | some f => f.unwaited.foldl (fun s u => if rows.any u.rows.contains then disturbOp k u s else s) s
  | none => s

/-- A rowcon into a latch issues while operations of any fibre that read it stand in the press, or before a wait covers one of the
fibre's own (R101, R166). -/
def disturbLatch (k : FKey) (latch : Nat) (s : State) : State :=
  let s : State := match s.fib? k with
    | some f => f.unwaited.foldl (fun (s : State) u => if u.latch.contains latch then disturbOp k u s else s) s
    | none => s
  s.onCore k.core fun co => { co with press := co.press.map fun (p : Nat × List PressOp) =>
    if p.1 = k.sub / 4 then (p.1, p.2.map fun (o : PressOp) => if o.latches.contains latch then o.taint (s.pressSrc o) s.mem else o) else p }

/-- A fibre stores to bytes of an image that an mresume of its own loads: the elements become undefined (R381). -/
def disturbImage (k : FKey) (pa n : Nat) (s : State) : State :=
  match s.fib? k with
  | none => s
  | some f => f.unwaited.foldl (fun s u =>
      match u.image.zipIdx.find? (fun e => e.1 = pa / 128) with
      | none => s
      | some e =>
        let els := ((List.range n).map fun j => 128 * e.2 + (pa + j) % 128).filterMap fun o =>
          if 128 ≤ o && o < 128 + 18432 then some ((o - 128) / 192, (o - 128) % 192 / 4) else none
        if s.inPress k u.id then onPressOp k u.id (fun o => { o with hit := o.hit ++ els.eraseDups }) s
        else els.eraseDups.foldl (fun s x => u.tiles.foldl (fun s t => freeTile k (1 <<< x.1) t x.2 1 s) s) s) s

/-- A fibre's store, seen by the operations of its own that no wait on PR has covered (R166, R381). -/
def disturbStore (k : FKey) (l : List (Space × Nat × Nat)) (s : State) : State :=
  match s.fib? k with
  | none => s
  | some f => if f.unwaited = [] then s else
    l.foldl (fun (s : State) e => match e.1 with
      | .scratch _ => disturbRows k [e.2.1 / 32] s
      | .near | .pool => disturbImage k e.2.1 e.2.2 s
      | .io => s) s

end Sys2Proof.Machine
end

