-- ==== Sys2Proof/Machine/Translate.lean ====
section
/-! DEFINITION. Address spaces: scratch addresses (R49 to R51), page tables and their walk (R13 to R23),
the TLBs and miss slots (R31 to R36), the translation check of an access (R34, R35, R38 to R40), and fetching
(R72 to R74, R437, R438). -/
namespace Sys2Proof.Machine

/-! ### Scratch addresses (R49 to R51) -/

/-- A scratch part (R49 to R51): the core named and the bolt-window address, or SCRATCH_RANGE. -/
def scratchAt (s : State) (g : GKey) (a : W32) (n : Nat) : Option (Nat × Nat) :=
  let slot := (a.extractLsb' 29 3).toNat
  let off := (a.extractLsb' 0 23).toNat
  if a.extractLsb' 23 6 ≠ 0 then none else
  match s.gang? g with
  | none => none
  | some gr => match gr.cores[slot]? with
    | none => none
    | some c =>
      if off + n > cutScrg (s.core c).bcut * 65536 then none else some (c, scratchPa (s.core c) c off)

/-! ### Page tables (R18 to R23) -/

/-- Fields of a page-table entry (R19). -/
def pteValid (e : W64) : Bool := e.getLsbD 0
def pteLeaf (e : W64) : Bool := e.getLsbD 1
def pteW (e : W64) : Bool := e.getLsbD 2
def pteX (e : W64) : Bool := e.getLsbD 3
def pteF (e : W64) : Bool := e.getLsbD 4
def pteVo (e : W64) : Bool := e.getLsbD 5
def pteRegion (e : W64) : Nat := (e.extractLsb' 6 6).toNat
def pteKind (e : W64) : Nat := (e.extractLsb' 12 2).toNat
def pteD (e : W64) : Bool := e.getLsbD 14
def pteA (e : W64) : Bool := e.getLsbD 15
/-- The physical address of the frame. -/
def pteFrame (e : W64) : Nat := (e.extractLsb' 16 36).toNat * 65536

/-- Populated near memory: the first 6 GiB of a slot (R16). -/
def nearPopulated (pa : Nat) : Bool := pa < 2 ^ 41 && pa % 2 ^ 33 < 0x1_8000_0000
/-- The pool window (R15). -/
def inPool (pa : Nat) : Bool := 0x1000_0000_0000 ≤ pa && pa < 0x8_0000_0000_0000
/-- The I/O ranges of R15: apertures and the register aperture. -/
def inIo (pa : Nat) : Bool :=
  (0x8_0000_0000_0000 ≤ pa && pa < 0x9_0100_0000_0000) || (0xA_0000_0000_0000 ≤ pa && pa < 0xA_0001_0000_0000)
/-- The bolt windows (R15). -/
def inBolt (pa : Nat) : Bool := 0xB_0000_0000_0000 ≤ pa && pa < 0xB_0000_8000_0000

/-- The frame of a leaf lies where R15 and R16 allow for its KIND. -/
def leafFrameOk (e : W64) (size : Nat) : Bool :=
  let lo := pteFrame e
  let hi := lo + size - 1
  match pteKind e with
  | 0 => nearPopulated lo && nearPopulated hi
  | 1 => inPool lo && inPool hi
  | 2 => inIo lo && inIo hi
  | _ => inBolt lo && inBolt hi

/-- A valid entry at a level is malformed (R20). -/
def pteMalformed (level : Nat) (e : W64) : Bool :=
  e.extractLsb' 52 12 ≠ 0
  || (pteLeaf e && level == 1) || (!pteLeaf e && level == 3)
  || (!pteLeaf e && (e.extractLsb' 2 14 ≠ 0 || !(nearPopulated (pteFrame e) || inPool (pteFrame e))))
  || (pteLeaf e && level == 2 && (pteFrame e % 2 ^ 29 ≠ 0))
  || (pteLeaf e && !leafFrameOk e (if level = 2 then 2 ^ 29 else 2 ^ 16))
  || (pteF e && pteVo e)

/-- Canonical addresses (R13). -/
def canonical (va : W64) : Bool := va.extractLsb' 55 9 = if va.getLsbD 54 then BitVec.allOnes 9 else 0

/-- The index of a level (R14). -/
def walkIndex (va : W64) (level : Nat) : Nat := (va.extractLsb' (55 - 13 * level) 13).toNat

/-- Outcome of a walk. -/
inductive Walk where
  /-- cause code, level, physical address of the entry -/
  | fault (cause level entry : Nat)
  /-- leaf, its physical address, and whether it maps 512 MiB -/
  | leaf (e : W64) (entry : Nat) (large : Bool)
  deriving DecidableEq, Repr

/-- The walk from a table at a level (R18 to R20). -/
def walkFrom (s : State) (va : W64) (table level : Nat) : Nat → Walk
  | 0 => .fault Cause.pagetable.code level table
  | fuel + 1 =>
    let pa := table + 8 * walkIndex va level
    let e : W64 := BitVec.ofNat 64 (leNat (s.curBytes pa 8))
    if !pteValid e then .fault Cause.page.code level pa
    else if pteMalformed level e then .fault Cause.pagetable.code level pa
    else if pteLeaf e then .leaf e pa (level == 2)
    else walkFrom s va (pteFrame e) (level + 1) fuel

/-- The walk of a canonical address through a domain's root (R18, R25). -/
def walk (s : State) (d : Nat) (va : W64) : Walk :=
  let r := (s.dom d).dptb
  if !r.getLsbD 0 then .fault Cause.page.code 0 0
  else walkFrom s va ((r.extractLsb' 16 36).toNat * 65536) 1 3

/-- The entry with A set, and D as well: a store is performed through it (R22). -/
def pteStored (e : W64) : W64 := e ||| (1 <<< 15) ||| (1 <<< 14)

/-- The entry with A set, and D when a store asks (R22). -/
def pteTouched (e : W64) (wr : Bool) : W64 := e ||| (1 <<< 15) ||| (if wr && pteW e then 1 <<< 14 else 0)

/-- The 64 KiB page number of an address. -/
def vpnOf (va : W64) : Nat := (va.extractLsb' 16 39).toNat

/-- A cached translation maps a page. -/
def Tlb.maps (t : Tlb) (vpn : Nat) : Bool := if t.large then t.vpn / 8192 = vpn / 8192 else t.vpn = vpn

/-- The physical address of an address under a translation. -/
def Tlb.pa (t : Tlb) (va : W64) : Nat :=
  pteFrame t.leaf + (if t.large then va.toNat % 2 ^ 29 else va.toNat % 2 ^ 16)

/-- Add a translation, least recently used last, within a structure's size (R31). -/
def tlbAdd (size : Nat) (t : Tlb) (l : List Tlb) : List Tlb :=
  (t :: l.filter fun x => !(x.vpn == t.vpn && x.large == t.large)).take size

/-- The names of an address's level-1 and level-2 entries in a walker cache (R31). -/
def walkKey (va : W64) (level : Nat) : Nat :=
  if level = 1 then walkIndex va 1 else 8192 * (walkIndex va 1 + 1) + walkIndex va 2

/-- A walk that may begin at an entry of the die's walker caches (R31): whether one still stands there is open, so a
free choice decides. -/
def walkCached (s : State) (die d : Nat) (va : W64) : Walk :=
  let t := (s.die die).walk
  if !(s.dom d).dptb.getLsbD 0 || !Config.freeBool s.freeCtr then walk s d va
  else match tfind t (walkKey va 2) with
    | some e => walkFrom s va (pteFrame e) 3 1
    | none => match tfind t (walkKey va 1) with
      | some e => walkFrom s va (pteFrame e) 2 2
      | none => walk s d va

/-- The pointers that a walk of an address reads now, for the walker caches. -/
def walkPointers (s : State) (d : Nat) (va : W64) : List (Nat × W64) :=
  let root := ((s.dom d).dptb.extractLsb' 16 36).toNat * 65536
  let e1 : W64 := BitVec.ofNat 64 (leNat (s.curBytes (root + 8 * walkIndex va 1) 8))
  let e2 : W64 := BitVec.ofNat 64 (leNat (s.curBytes (pteFrame e1 + 8 * walkIndex va 2) 8))
  let ptr := fun (lv : Nat) (e : W64) => pteValid e && !pteLeaf e && !pteMalformed lv e
  if !(s.dom d).dptb.getLsbD 0 || !ptr 1 e1 then []
  else (walkKey va 1, e1) :: (if ptr 2 e2 then [(walkKey va 2, e2)] else [])

/-- The lines of the entries that a walk of an address reads now. -/
def walkLines (s : State) (d : Nat) (va : W64) : List Nat :=
  let root := ((s.dom d).dptb.extractLsb' 16 36).toNat * 65536
  let step := fun (table lv : Nat) => table + 8 * walkIndex va lv
  let ent := fun (pa : Nat) => (BitVec.ofNat 64 (leNat (s.curBytes pa 8)) : W64)
  let a1 := step root 1
  let a2 := step (pteFrame (ent a1)) 2
  let a3 := step (pteFrame (ent a2)) 3
  if !(s.dom d).dptb.getLsbD 0 then []
  else a1 / 128 :: (if pteLeaf (ent a1) then [] else a2 / 128 :: (if pteLeaf (ent a2) then [] else [a3 / 128]))

/-- Misses of a core that hold one of its 64 miss slots and wait for a walk or the L2 TLB, with their places (R32). -/
def Core.openSlots (c : Core) : List (MissSlot × Nat) := ((c.slots.filter (·.fault.isNone)).take 64).zipIdx

/-- The cores of a die whose misses a walk of a page serves. -/
def walkCores (s : State) (die vpn : Nat) : List Nat :=
  ((List.range 32).map (32 * die + ·)).filter fun c => (s.core c).openSlots.any fun x => x.1.vpn = vpn

/-- Run a walk of a page of a die in one event: A and D are set at the entry's home, and every request that has joined takes the leaf,
through the TLBs, or the fault (R20, R22, R31, R32). An entry that a word's owner holds is recalled first. -/
def runWalk (die d vpn : Nat) (s : State) : State :=
  let va : W64 := ((BitVec.ofNat 39 vpn).signExtend 64) <<< 16
  let cores := walkCores s die vpn
  let wr := cores.any fun c => (s.core c).openSlots.any fun x => x.1.vpn = vpn && x.1.wr
  let w := walkCached s die d va
  let note := fun (s : State) => { s.setDie die { s.die die with
    walk := (walkPointers s d va).foldl (fun t e => tset t e.1 e.2) (s.die die).walk, walkers := (s.die die).walkers.filter (· ≠ vpn) }
    with freeCtr := s.freeCtr + 1 }
  match w with
  | .fault ca lv pa => cores.foldl (fun s c => s.onCore c fun co => { co with slots := co.slots.map fun x =>
      if x.vpn = vpn && x.fault.isNone then { x with fault := some (ca, lv, pa) } else x }) (note s)
  | .leaf e pa large =>
    let e' := pteTouched e wr
    match (if e' = e then none else homeTakes [pa / 128] s) with
    | some s => s
    | none =>
      let s := note (if e' = e then s else homeWriteNow pa (leBytes e'.toNat 8) s)
      let t : Tlb := ⟨if large then vpn / 8192 * 8192 else vpn, large, e'⟩
      let s := s.setDie die { s.die die with l2 := tlbAdd 16384 t (s.die die).l2 }
      cores.foldl (fun s c => s.onCore c fun co =>
        { co with tlb := tlbAdd 256 t co.tlb, slots := co.slots.filter fun x => x.vpn ≠ vpn || x.fault.isSome }) s

/-- What satchel words have checked of their pages is dropped: they check it again. -/
def dropKept (p : Fib → Bool) (s : State) : State :=
  { s with fibs := s.fibs.map fun (e : FKey × Fib) => if e.2.phase = 2 && p e.2 then (e.1, { e.2 with keep := [] }) else e }

/-! ### The check of one part (R21, R34, R35, R86) -/

/-- What an access does, for its check. -/
inductive Use where
  | load | store | atomic | fetch
  /-- a satchel read or write -/
  | satRead | satWrite
  deriving DecidableEq, Repr

/-- Whose access it is (R21): `hart0` is hart 0 on behalf of a fibre. -/
inductive By where
  | fibre | hart1 | host | hart0
  deriving DecidableEq, Repr

/-- Outcome of the check of a part. -/
inductive PartRes where
  | ok (space : Space) (pa region : Nat)
  | fault (cause : Cause) (addr info : W64)
  | miss (vpn : Nat) (wr : Bool)
  deriving DecidableEq, Repr

/-- Does the use write. -/
def Use.writes : Use → Bool
  | .store | .atomic | .satWrite => true
  | _ => false

/-- The leaf grants the use to the party (R21). -/
def leafGrants (core : Nat) (e : W64) (pa : Nat) (u : Use) (by_ : By) : Bool :=
  let who := match by_ with | .fibre => pteF e | .hart0 => true | _ => !pteVo e
  let kind := pteKind e
  who && (!u.writes || pteW e || by_ = .hart0)
  && (u != .fetch || (pteX e && kind ≤ 1))
  && (kind ≠ 3 || (by_ = .hart1 && (pa - 0xB_0000_0000_0000) / 0x80_0000 == core && u != .fetch))
  && (kind ≠ 2 || !(u = .atomic || u = .satRead || u = .satWrite || u = .fetch))

/-- The stream that acts now waits for a translation (R36). -/
def State.waitsPage (s : State) : Bool := match s.cur with
  | .scalar k => (match s.fib? k with | some f => f.stall == 13 | none => false)
  | .lane k => (match s.fib? k with | some f => f.stallL == 13 | none => false)
  | _ => true

/-- What a walk that failed gives the stream that acts now and had joined it. -/
def faultOf (s : State) (core vpn : Nat) : Option (Nat × Nat × Nat) :=
  if s.waitsPage then
    ((s.core core).slots.find? fun x => x.vpn = vpn && x.fault.isSome && x.who.contains s.cur).bind (·.fault)
  else none

/-- The check of one part at a virtual address (R13, R20, R21, R22, R86). -/
def checkVa (s : State) (core : Nat) (u : Use) (by_ : By) (va : W64) : PartRes :=
  if !canonical va then .fault .page va 0 else
  let vpn := vpnOf va
  let missed := match faultOf s core vpn with
    | some (ca, lv, pa) => .fault (if ca = Cause.page.code then .page else .pagetable) va (BitVec.ofNat 64 (lv * 2 ^ 62 + pa))
    | none => .miss vpn u.writes
  match (s.core core).tlb.find? (·.maps vpn) with
  | some t =>
    if !leafGrants core t.leaf (t.pa va) u by_ then .fault .protection va 0
    else if u.writes && !pteD t.leaf then missed
    else
      let pa := t.pa va
      let space : Space := match pteKind t.leaf with
        | 0 => .near | 1 => .pool | 2 => .io | _ => .scratch core
      if u.writes && space = .near && s.pinnedLine (pa / 128) && by_ ≠ .host then .fault .rowPinnedWrite va 0
      else .ok space pa (pteRegion t.leaf)
  | none => missed

/-- A miss joins the slot of its page, or takes a slot, or waits for one in issue order: the core's first 64 misses hold its slots (R32).
A fault that the stream left behind is dropped. -/
def addSlot (core vpn : Nat) (wr : Bool) (s : State) : State :=
  s.onCore core fun co =>
    let left := (co.slots.map fun x => if x.fault.isSome && x.vpn = vpn then { x with who := x.who.filter (· ≠ s.cur) } else x).filter
      fun x => x.fault.isNone || x.who ≠ []
    if left.any fun x => x.vpn = vpn && x.fault.isNone then
      { co with slots := left.map fun x => if x.vpn = vpn && x.fault.isNone then
          { x with wr := x.wr || wr, who := if x.who.contains s.cur then x.who else x.who ++ [s.cur] } else x }
    else { co with slots := left ++ [{ vpn := vpn, wr := wr, who := [s.cur] }] }

/-- The translations an access used become most recently used (R31). -/
def touchTlb (core : Nat) (va : W64) (s : State) : State :=
  s.onCore core fun co => match co.tlb.find? (·.maps (vpnOf va)) with
    | some t => { co with tlb := t :: co.tlb.filter (· ≠ t) }
    | none => co

/-! ### Accesses of many lanes -/

/-- One lane's access. -/
structure LaneReq where
  lane : Nat
  addr : W64
  n : Nat
  data : List W8 := []
  cmp : List W8 := []
  deriving DecidableEq, Repr

/-- Parts of a plain access (R38): each the largest aligned power of two that fits. -/
def splitParts (a n : Nat) : Nat → List (Nat × Nat)
  | 0 => []
  | fuel + 1 =>
    if n = 0 then [] else
    let sz := if a % 8 = 0 ∧ 8 ≤ n then 8 else if a % 4 = 0 ∧ 4 ≤ n then 4 else if a % 2 = 0 ∧ 2 ≤ n then 2 else 1
    (a, sz) :: splitParts (a + sz) (n - sz) fuel

/-- Parts of a block access: split at line boundaries (R40). -/
def splitLines (a n : Nat) : List (Nat × Nat) :=
  let first := min n (128 - a % 128)
  if first = n then [(a, n)] else [(a, first), (a + first, n - first)]

/-- How an access splits and aligns: plain, aligned to its size, or a block aligned to 16. -/
inductive Shape where
  | plain | strong | block
  deriving DecidableEq, Repr

/-- A checked part: the part, its space and region. -/
structure Checked where
  part : Part
  space : Space
  region : Nat
  deriving DecidableEq, Repr

/-- Outcome of the check of an instruction's accesses. -/
inductive AccRes where
  | ok (l : List Checked)
  | fault (cause : Cause) (lane : Nat) (addr info : W64)
  | miss (l : List (Nat × Bool))
  deriving DecidableEq, Repr

/-- The parts of a lane's access with their alignment failure (R38 to R40). -/
def partsOf (sh : Shape) (r : LaneReq) : List (Nat × W64 × Nat) × Bool :=
  let a := r.addr.toNat
  let ps := match sh with
    | .plain => splitParts a r.n r.n
    | .strong => [(a, r.n)]
    | .block => splitLines a r.n
  let bad := match sh with
    | .plain => false
    | .strong => a % r.n ≠ 0
    | .block => a % 16 ≠ 0
  (ps.map fun p => (p.1 - a, r.addr + BitVec.ofNat 64 (p.1 - a), p.2), bad)

/-- The check of every part of every lane, in the order of the keys of R35. Lanes come in ascending order. -/
def checkAll (s : State) (core : Nat) (g : GKey) (scr : Bool) (sh : Shape) (u : Use) (by_ : By) (rs : List LaneReq) :
    AccRes :=
  let one := fun (r : LaneReq) =>
    let (ps, bad) := partsOf sh r
    if bad then [(r, 0, r.addr, r.n, PartRes.fault .align (if scr then (r.addr.setWidth 32).setWidth 64 else r.addr) 0)]
    else ps.map fun p =>
      if scr then match scratchAt s g (p.2.1.setWidth 32) p.2.2 with
        | some (c, pa) => (r, p.1, p.2.1, p.2.2, PartRes.ok (.scratch c) pa 0)
        | none => (r, p.1, p.2.1, p.2.2, PartRes.fault .scratchRange ((p.2.1.setWidth 32).setWidth 64) 0)
      else (r, p.1, p.2.1, p.2.2, checkVa s core u by_ p.2.1)
  let all : List (LaneReq × Nat × W64 × Nat × PartRes) := rs.flatMap one
  let misses := all.filterMap fun e => match e.2.2.2.2 with | .miss v w => some (v, w) | _ => none
  if misses ≠ [] then .miss misses else
  match all.find? (fun e => match e.2.2.2.2 with | .fault _ _ _ => true | _ => false) with
  | some (r, _, _, _, .fault c a i) => .fault c r.lane a i
  | _ => .ok (all.filterMap fun e => match e with
    | (r, off, va, n, .ok sp pa rg) => some
      ⟨{ lane := r.lane, off := off, n := n, pa := pa, va := va, data := (r.data.drop off).take n,
         cmp := (r.cmp.drop off).take n }, sp, rg⟩
    | _ => none)

/-- The stream that acts has taken the faults of the pages an access named, when its check completes. -/
def dropSlots (core : Nat) (vas : List W64) (s : State) : State :=
  let taken := fun (x : MissSlot) => if x.fault.isSome && (vas.any fun v => vpnOf v == x.vpn) then
    { x with who := x.who.filter (· ≠ s.cur) } else x
  s.onCore core fun co => { co with slots := (co.slots.map taken).filter fun x => x.fault.isNone || x.who ≠ [] }

/-- A scratch part split at access-row boundaries (R53). -/
def splitRow (e : Checked) : List Checked := match e.space with
  | .scratch _ =>
    let p := e.part
    let one := fun (o n : Nat) =>
      let q : Part := { p with
        off := p.off + o, n := n, pa := p.pa + o, va := p.va + BitVec.ofNat 64 o,
        data := (p.data.drop o).take n, cmp := (p.cmp.drop o).take n }
      { e with part := q }
    let first := 32 - p.pa % 32
    if p.n ≤ first then [e]
    else one 0 first :: (List.range ((p.n - first + 31) / 32)).map fun i => one (first + 32 * i) (min 32 (p.n - first - 32 * i))
  | _ => [e]

/-- Events of an access (R150): by beat, then by line for near and pool, by access row for scratch, one for each part
of I/O, in order of first appearance. -/
def groupParts (whole : Bool) (l : List Checked) : List (Space × Nat × Nat × List Checked) :=
  l.foldl (fun (gs : List (Space × Nat × Nat × List Checked)) e =>
    let beat := if whole then 0 else e.part.lane / 32
    let key := match e.space with
      | .near | .pool => (e.space, beat, e.part.pa / 128)
      | .scratch _ => (e.space, beat, e.part.pa / 32)
      | .io => (e.space, beat, gs.length + 2 ^ 52)
    if gs.any (fun g => (g.1, g.2.1, g.2.2.1) = key) then
      gs.map fun g => if (g.1, g.2.1, g.2.2.1) = key then (g.1, g.2.1, g.2.2.1, g.2.2.2 ++ [e]) else g
    else gs ++ [(key.1, key.2.1, key.2.2, [e])]) []

/-- The accesses an instruction starts: one `Acc` for each event. -/
def makeAccs (id0 inst : Nat) (t : Thread) (kind : AccKind) (strong : Bool) (op d : Nat) (pc : W64) (tick : Nat) (sys : Bool)
    (whole : Bool) (l : List Checked) : List Acc :=
  (groupParts whole (l.flatMap splitRow)).zipIdx.map fun e =>
    let g := e.1
    { id := id0 + e.2, inst := inst, thr := t, kind := kind, space := g.1,
      line := match g.2.2.2.head? with | some c => c.part.pa / 128 | none => 0
      parts := g.2.2.2.map (·.part), strong := strong, op := op,
      region := match g.2.2.2.head? with | some c => c.region | none => 0
      dom := d, pc := pc, since := id0, tick := tick, sysStrong := sys && strong }

/-- Issue an instruction's accesses: its loads or its stores and atomics join their queues, and what can be performed
at once is performed. -/
def issueAccs (c : Nat) (t : Thread) (pc : W64) (fin : Fin) (mask : Mask) (kind : AccKind) (strong : Bool) (op d : Nat)
    (ld st : Bool) (acq : Option W64) (sys : Bool) (l : List Checked) (s : State) (whole : Bool := false) : State :=
  let (inst, s) := s.fresh
  let accs := makeAccs s.nextId inst t kind strong op d pc s.tick sys whole l
  let s := { s with nextId := s.nextId + accs.length }
  let i : PendInst := { id := inst, thr := t, pc := pc, fin := fin, mask := mask, left := accs.length, ld := ld, st := st, acq := acq }
  let s := match t with
    | .fib k => s.onFib k fun f => { f with
        ldq := if ld then f.ldq ++ [(inst, false)] else f.ldq
        stc := if st then f.stc + 1 else f.stc }
    | .hart _ _ => s
  let s := s.onCore c fun co => { co with insts := co.insts ++ [i] }
  let s := match t, kind with
    | _, .load => s
    | .fib k, _ => disturbStore k (accs.flatMap fun a => a.parts.map fun p => (a.space, p.pa, p.n)) s
    | _, _ => s
  if accs = [] then finishInst c i s
  else
    let s := s.onCore c fun co => match kind with
      | .load => { co with loads := co.loads ++ accs }
      | _ => { co with stores := co.stores ++ accs }
    settle c s

/-! ### Fetching (R72 to R74, R435, R437, R438) -/

/-- Start of a range named by FWS or FWN, as a canonical address. -/
def fwAddr (v : W64) : W64 := ((v &&& 0x7F_FFFF_FFFF_FF80).setWidth 55).signExtend 64

/-- A fetch address redirected by a forwarding entry of the domain (R438). -/
def redirect (s : State) (d : Nat) (a : W64) : W64 :=
  let dm := s.dom d
  match (List.range 16).find? (fun n =>
    let l := tget dm.fwl n 0
    let old := (fwAddr (tget dm.fws n 0)).toInt
    l.getLsbD 63 && old ≤ a.toInt && a.toInt < old + (l.extractLsb' 7 25).toNat * 128) with
  | some n => a - fwAddr (tget dm.fws n 0) + fwAddr (tget dm.fwn n 0)
  | none => a

/-- The instruction-cache line that holds a physical address, filled from the home if it is absent (R73). What hart 0 fills takes way 0 of
its set, which nothing else takes (R72, R434); the other ways are replaced least recently used, pinned lines apart. -/
def icacheFill (c pa region : Nat) (s : State) (hart0 : Bool := false) : State :=
  let line := pa / 128
  let co := s.core c
  match co.icache.find? (·.line = line) with
  | some l => s.setCore c { co with icache := l :: co.icache.filter (·.line ≠ line) }
  | none =>
    let same := co.icache.filter fun l => l.line % 256 = line % 256 && l.way0 = hart0
    let room := if hart0 then 1 else 7 - (same.filter (·.pinned)).length
    let gone := ((same.filter (!·.pinned)).drop (room - 1)).map (·.line)
    let l : ICLine := { line := line, region := region, data := s.curBytes (line * 128) 128, way0 := hart0 }
    s.setCore c { co with icache := l :: co.icache.filter fun x => x.pinned || !gone.contains x.line }

/-- Outcome of a fetch. -/
inductive Fetch where
  | bytes (b : List W8) (s : State)
  | fault (cause : Cause) (addr info : W64) (s : State)
  | miss (s : State)

/-- Fetch `n` bytes of code at a virtual address (R21, R74): every page passes the fetch check, and the bytes come from
the instruction cache. -/
def fetchVa (s : State) (core : Nat) (by_ : By) (va : W64) (n : Nat) : Fetch :=
  let last := va + BitVec.ofNat 64 (n - 1)
  let second := last - BitVec.ofNat 64 (last.toNat % 65536)
  let go := fun (a : W64) => checkVa s core .fetch by_ a
  let pages := if vpnOf va = vpnOf last then [(va, go va)] else [(va, go va), (second, go second)]
  match pages.find? (fun p => match p.2 with | .miss _ _ => true | _ => false) with
  | some (_, .miss v w) => .miss (addSlot core v w s)
  | _ => match pages.find? (fun p => match p.2 with | .fault _ _ _ => true | _ => false) with
    | some (_, .fault c a i) => .fault c a i (dropSlots core [va, second] s)
    | _ =>
      let pas := pages.filterMap fun p => match p.2 with | .ok _ pa r => some (p.1, pa, r) | _ => none
      let at_ := fun (a : W64) => match pas.find? (fun e => vpnOf e.1 = vpnOf a) with
        | some e => (e.2.1 + (a - e.1).toNat, e.2.2)
        | none => (0, 0)
      let lines := ([(at_ va).1 / 128, (at_ last).1 / 128]).filter fun l => !((s.core core).icache.any (·.line = l))
      match fetchHome lines s with
      | some s => .miss s
      | none =>
      let s := if vpnOf va = vpnOf last then touchTlb core va s else touchTlb core second (touchTlb core va s)
      let s := icacheFill core (at_ va).1 (at_ va).2 s
      let s := icacheFill core (at_ last).1 (at_ last).2 s
      let co := s.core core
      .bytes ((List.range n).map fun j =>
        let pa := (at_ (va + BitVec.ofNat 64 j)).1
        match co.icache.find? (·.line = pa / 128) with
        | some l => l.data.getD (pa % 128) 0
        | none => 0) s

end Sys2Proof.Machine
end

