-- ==== Sys2Proof/Machine/HartOps.lean ====
section
/-! DEFINITION. Valet harts: their registers, CSRs and the taking of a RISC-V exception (R397, R398; the RISC-V
privileged architecture's own registers are PRESUMED, log 3). -/
namespace Sys2Proof.Machine

/-- x register n; x0 reads 0. -/
def Hart.reg (h : Hart) (n : Nat) : W64 := if n = 0 then 0 else h.x.getD n 0
def Hart.setReg (h : Hart) (n : Nat) (v : W64) : Hart := if n = 0 then h else { h with x := h.x.set n v }
def Hart.csrOf (h : Hart) (n : Nat) : W64 := tget h.csr n 0
def Hart.setCsr (h : Hart) (n : Nat) (v : W64) : Hart := { h with csr := tset h.csr n v }

/-- RISC-V exception codes this spec's words raise. -/
def excIllegal : Nat := 2
def excLoadAccess : Nat := 5
def excStoreAccess : Nat := 7
def excFetchPage : Nat := 12
def excLoadPage : Nat := 13
def excStorePage : Nat := 15
def excLoadMisaligned : Nat := 4
def excStoreMisaligned : Nat := 6

/-- Taking an exception on a hart: to S-mode when it is delegated and the hart runs below M, else to M-mode. The
cause, the word's address and the trap value are saved, the interrupt enable and the mode are stacked in mstatus, and
the pc goes to the vector base (log 3). -/
def takeExc (code : Nat) (tval : W64) (h : Hart) : Hart :=
  let st := h.csrOf 0x300
  if h.mode < 3 && (h.csrOf 0x302).getLsbD code then
    let sie := st.extractLsb' 1 1
    let st' := (st &&& ~~~(0x122 : W64)) ||| (sie.setWidth 64 <<< 5) ||| (if h.mode = 1 then 0x100 else 0)
    { ((((h.setCsr 0x141 h.pc).setCsr 0x142 (BitVec.ofNat 64 code)).setCsr 0x143 tval).setCsr 0x300 st') with
      mode := 1, pc := h.csrOf 0x105 &&& ~~~(3 : W64), phase := 0, mark := 0, keep := [] }
  else
    let mie := st.extractLsb' 3 1
    let st' := (st &&& ~~~(0x1888 : W64)) ||| (mie.setWidth 64 <<< 7) ||| (BitVec.ofNat 64 h.mode <<< 11)
    { ((((h.setCsr 0x341 h.pc).setCsr 0x342 (BitVec.ofNat 64 code)).setCsr 0x343 tval).setCsr 0x300 st') with
      mode := 3, pc := h.csrOf 0x305 &&& ~~~(3 : W64), phase := 0, mark := 0, keep := [] }

/-- A hart's word raises an exception: a next state. -/
def hartTrap (c h : Nat) (code : Nat) (tval : W64) (s : State) : Out := .next (s.setHart c h (takeExc code tval (s.hart c h)))

/-- The pc of the word after the one that a hart runs. -/
def Hart.nextPc (h : Hart) : W64 := h.pc + BitVec.ofNat 64 h.len

/-- A hart's word completes: the pc moves on to the next word. -/
def Hart.retire (h : Hart) : Hart := { h with pc := h.nextPc, phase := 0, mark := 0, keep := [] }

/-- A hart's word completes and writes x[d]. -/
def doneHart (c h d : Nat) (v : W64) (s : State) : Out := .next (s.setHart c h ((s.hart c h).setReg d v).retire)

end Sys2Proof.Machine
end

