-- ==== Sys2Proof/Machine/Hampers.lean ====
section
/-! DEFINITION. Hampers (R190, R359): a queue in memory whose HEAD and TAIL are updated at their home, and the
requests that wait at it in arrival order. -/
namespace Sys2Proof.Machine

/-- A 64-bit word of a hamper descriptor, as it stands in memory. -/
def State.hampWord (s : State) (desc off : Nat) : Nat := leNat (s.curBytes (desc + off) 8)

/-- Items in a hamper: TAIL − HEAD. -/
def State.hampCount (s : State) (desc : Nat) : Nat := (s.hampWord desc 8 + 2 ^ 64 - s.hampWord desc 0) % 2 ^ 64

/-- Physical address of a ring slot, through the frames taken at placement (R358). -/
def ringAddr (ring : W64) (pages : List (Nat × Nat)) (slot : Nat) : Nat :=
  let a := ring + BitVec.ofNat 64 (64 * slot)
  tget pages (vpnOf a) 0 * 65536 + a.toNat % 65536

/-- The core a hamper request acts for, for a pool hamper (R359). -/
def HampReq.coreOf (q : HampReq) : Option Nat := match q.thr with
  | some (.fib k) => some k.core
  | some (.hart c _) => some c
  | none => none

/-- The pointer that a request's operation writes: TAIL for an enqueue, HEAD for a dequeue (R190). -/
def HampReq.ptr (q : HampReq) : Nat := if q.enq then q.desc + 8 else q.desc

/-- The slot that a request's operation would use now. -/
def State.hampSlot (s : State) (q : HampReq) : Nat :=
  ringAddr q.ring q.pages ((if q.enq then s.hampWord q.desc 8 else s.hampWord q.desc 0) % 2 ^ q.cap)

/-- The core whose L1 performs the operation on a pool hamper (R359); a hamper in near memory, or a party outside the package, works
at the home (log 47). -/
def HampReq.ptrCore (q : HampReq) : Option Nat := match homeOf (q.desc / 128) with
  | .pool => q.coreOf
  | _ => none

/-- Is it the request's turn: it is the oldest of its kind at its hamper, and the hamper has room or an item. -/
def State.hampReady (s : State) (q : HampReq) : Bool :=
  let first := match s.hamp.find? (fun x => x.desc = q.desc ∧ x.enq = q.enq) with | some x => x.id == q.id | none => false
  let n := s.hampCount q.desc
  let dm := match q.thr with
    | some (.fib k) => match s.fib? k with | some f => some f.dom | none => none
    | _ => s.domOfCore (q.desc / 2 ^ 33)
  -- in replay, hampers work in the logged order (R466)
  let next := match dm with
    | some d => !s.replaying d || (match s.logged d fun r => (r.kind = 3 || r.kind = 4) && r.addr.toNat = q.desc with
        | some r => r.kind = (if q.enq then 3 else 4) && some r.core = q.coreOf
        | none => true)
    | none => true
  first && next && (if q.enq then n != 2 ^ q.cap else n != 0)

/-- The domain that logs a hamper's events. -/
def HampReq.domOf (q : HampReq) (s : State) : Nat := match q.thr with
  | some (.fib k) => match s.fib? k with | some f => f.dom | none => 0
  | _ => (s.domOfCore (q.desc / 2 ^ 33)).getD 0

/-- A hamper's event is logged; in replay its record has been used (R464, R466). -/
def logHamp (kind : Nat) (q : HampReq) (v : Nat) (s : State) : State :=
  let d := q.domOf s
  if s.replaying d then match s.logged d fun r => r.kind = kind && r.addr.toNat = q.desc with
    | some r => useLog d r s
    | none => s
  else
    let (h, n) := match q.thr with
      | some (.fib k) => (handleOf k, match s.fib? k with | some f => f.retired | none => 0)
      | _ => (0xFF, 0)
    logOrder d kind (q.coreOf.getD 0) h n (BitVec.ofNat 64 q.desc) (BitVec.ofNat 64 v) s

/-- The two words of a pointer. -/
def ptrMask (pa : Nat) : W32 := wbit (pa / 4 % 32) ||| wbit (pa / 4 % 32 + 1)

/-- The access by which a thread's core registers the pointer of a pool hamper: an atomic that leaves its value, in the thread's
store order (R127, R359). -/
def ptrAcc (q : HampReq) (t : Thread) (s : State) : Acc :=
  { id := s.nextId, inst := 0, thr := t, kind := .atomic, space := .pool, line := q.desc / 128
    parts := [{ lane := 0xFF, off := 0, n := 8, pa := q.ptr, va := BitVec.ofNat 64 q.ptr, data := List.replicate 8 0xFF }]
    strong := true, op := 1, dom := q.domOf s, since := s.nextId, tick := s.tick }

/-- What a request's operation needs first: at a home every word Valid of the lines it touches (R115); for a pool hamper the pointer
Registered to the core that acts (R127). `none`: it may be performed. -/
def hampTakes (q : HampReq) (s : State) : Option State :=
  let slot := s.hampSlot q / 128
  match q.ptrCore, q.thr with
  | some c, some t =>
    if (s.core c).owns (q.desc / 128) (ptrMask q.ptr) then homeTakes [slot] s
    else if (s.core c).stores.any fun a => a.inst = 0 && a.thr = t then some s
    else some (settle c ({ s with nextId := s.nextId + 1 }.onCore c fun co => { co with stores := co.stores ++ [ptrAcc q t s] }))
  | _, _ => homeTakes [q.desc / 128, slot] s

/-- The pointer takes its new value, in the L1 that owns it or at the home. -/
def writePtr (q : HampReq) (v : Nat) (s : State) : State := match q.ptrCore, q.thr with
  | some c, some t =>
    let a := ptrAcc q t s
    a.parts.foldl (fun s p => l1WritePart c a { p with data := leBytes v 8 } s) s
  | _, _ => homeWriteNow q.ptr (leBytes v 8) s

/-- The enqueue of R359: the item's 64 bytes at its slot, then TAIL. -/
def doEnqueue (q : HampReq) (s : State) : State :=
  let t := s.hampWord q.desc 8
  let s := writePtr q (t + 1) (homeWriteNow (s.hampSlot q) (bytesOf512 q.item) s)
  logHamp 3 q (t + 1) { s with hamp := s.hamp.filter (·.id ≠ q.id) }

/-- The dequeue of R359: the item at the head slot, then HEAD. -/
def doDequeue (q : HampReq) (s : State) : BitVec 512 × State :=
  let h := s.hampWord q.desc 0
  let item := ofBytes512 (Memory.readBytes s.mem (s.hampSlot q) 64)
  let s := writePtr q (h + 1) s
  (item, logHamp 4 q (h + 1) { s with hamp := s.hamp.filter (·.id ≠ q.id) })

/-- An event joins a block's mailbox; a full mailbox loses its oldest, and the next received has OVF set (R193). -/
def postMail (d b kind : Nat) (payload : W64) (s : State) : State :=
  let bl := s.block d b
  let item : BitVec 512 := BitVec.ofNat 512 (kind * 2 ^ 48 + payload.toNat * 2 ^ 64)
  let s := logOrder d 5 0 0xFF 0 (BitVec.ofNat 64 b) (BitVec.ofNat 64 (kind * 2 ^ 56) ||| (payload &&& 0xFF_FFFF_FFFF_FFFF)) s
  if bl.mail.length < 8 then s.setBlock d b { bl with mail := bl.mail ++ [item] }
  else s.setBlock d b { bl with mail := bl.mail.drop 1 ++ [item], mailOvf := true }

/-- The oldest event of a mailbox, with OVF when events were lost before it (R193). -/
def takeMail (d b : Nat) (s : State) : Option (BitVec 512 × State) :=
  let bl := s.block d b
  match bl.mail with
  | [] => none
  | m :: r => some (if bl.mailOvf then m ||| (1 <<< 62) else m, s.setBlock d b { bl with mail := r, mailOvf := false })

end Sys2Proof.Machine
end

