-- ==== Sys2Proof/Machine/Dist.lean ====
section
/-! DEFINITION. The distributor's operations: where fibres sit (R186), positions and the cut (R46, R47, R188), start,
kill and relaunch (R420 to R423), save and restore (R206 to R208, R417 to R419), and the consumption of bad data. -/
namespace Sys2Proof.Machine

/-! ### Fibres at their start (R262, R200, R289) -/

/-- A fibre as it starts (R262, R289, R378, R391). -/
def freshFib (l : Launch) (d gid bid fid : Nat) : Fib :=
  { dom := d, gid := gid, bid := bid, fid := fid, spid := fid / l.spf, regs := regsInit, pc := l.entry,
    hslots := List.replicate 16 0, jord := (l.fibw.extractLsb' 7 3).toNat, rmode := (l.fibw.extractLsb' 3 2).setWidth 64,
    lcb := l.lcbi, prio := (l.fibw.extractLsb' 5 2).toNat, syncMask := maskFull }

/-- Where fibre f of the gang's block i sits on the gang's cores (R186). -/
def fibPlace (l : Launch) (cores : List Nat) (i fid : Nat) : FKey :=
  let unit := i / l.bpu
  let n := (i % l.bpu) * l.spb + fid / l.spf
  if l.quad then
    let q := n % 4
    ⟨cores.getD ((q / 2) * l.w + 2 * unit + q % 2) 0, n / 4 % 16, n / 64, fid % l.spf⟩
  else ⟨cores.getD unit 0, n % 16, n / 16, fid % l.spf⟩

/-- Every (block, fibre) of a gang. -/
def gangFibs (l : Launch) : List (Nat × Nat) := (List.range l.bpg).flatMap fun i => (List.range l.fpb).map fun f => (i, f)

/-! ### Loads that may be long in coming (R205) -/

/-- A load that a fibre may be evicted over: to pool space, or strong at sys scope. -/
def Acc.remote (a : Acc) : Bool := a.space = .pool || a.sysStrong

/-- The loads of a fibre that are not performed, oldest first. -/
def fibLoads (s : State) (k : FKey) : List Acc := (s.core k.core).loads.filter fun a => a.thr = .fib k && !a.prefetch

/-- A remote load that has been pending for more than 2 µs. -/
def Acc.late (a : Acc) (tick : Nat) : Bool := a.remote && 2400 < tick - a.tick

/-- Address of a load's first byte. -/
def Acc.firstVa (a : Acc) : W64 := match a.parts.head? with | some p => p.va | none => 0

/-! ### The cut on a core (R47, R100) -/

/-- Remove the listed bytes of a core's granules: they read zero (R47). -/
def zeroGranules (c : Nat) (gs : List Nat) (m : List Host.Cell) : List Host.Cell :=
  m.filter fun e => !(boltBase c ≤ e.1 && e.1 < boltBase c + 0x80_0000 && gs.contains ((e.1 - boltBase c) / 65536))

/-- Apply a cut for a gang: the granules it assigns are written with zeros, whole codewords (R47, R55, R62), windows and tiles among
them (R200, R365), and the B-latches are cleared (R100). -/
def applyCut (c : Nat) (cut : W32) (g : GKey) (s : State) : State :=
  let good := (s.core c).good
  let gs := (List.range 4).flatMap (assigned cut good)
  let s := { s with mem := zeroGranules c gs s.mem, spools := s.spools.filter (·.1.core ≠ c) }
  s.onCore c fun co => { co with
    bcut := (cut.setWidth 24).setWidth 32 ||| 0x8000_0000, owner := some g, latches := [], reserved := true
    boltErr := co.boltErr.filter fun x => !gs.contains (32 * x.1 + x.2.1 / 2048)
    relics := co.relics.filter fun r => !gs.contains r.1 }

/-- Release a core's cut (R47): pinned lines are unpinned (R435). -/
def releaseCut (c : Nat) (s : State) : State :=
  let co := s.core c
  let hid := if co.bcut.getLsbD 31 then (List.range 16).flatMap (regArea co.bcut co.good) ++ (List.range 4).flatMap (accArea co.bcut co.good)
    else []
  { s.onCore c fun co => { co with bcut := 0, owner := none, reserved := false, xfree := [],
                                   icache := co.icache.filter (!·.pinned)
                                   relics := co.relics ++ hid.map fun g => (g, s.freeCtr, []) } with freeCtr := s.freeCtr + 1 }

/-- A translation made by the distributor or a host for the domain, through the tables as they stand (R188, R358). -/
def distXlate (s : State) (d : Nat) (va : W64) (u : Use) (by_ : By) : Option Nat :=
  if !canonical va then none else
  match walk s d va with
  | .leaf e _ large =>
    let pa := pteFrame e + (if large then va.toNat % 2 ^ 29 else va.toNat % 2 ^ 16)
    if leafGrants 256 e pa u by_ then some pa else none
  | .fault _ _ _ => none

/-- Read `n` bytes at a virtual address for the distributor; `none` if a page fails. -/
def distRead (s : State) (d : Nat) (va : W64) (n : Nat) : Option (List W8) :=
  ((List.range n).map fun j => va + BitVec.ofNat 64 j).foldr (fun a r => match r, distXlate s d a .load .fibre with
    | some l, some pa => some (s.curByte pa :: l)
    | _, _ => none) (some [])

/-- Lines that an agent which translates for itself reads for `n` bytes at an address: table entries, and what they map. -/
def distLines (s : State) (d : Nat) (va : W64) (n : Nat) : List Nat :=
  let first := va.toNat / 128
  ((List.range ((va.toNat + n + 127) / 128 - first)).flatMap fun i =>
    let a : W64 := BitVec.ofNat 64 (128 * (first + i))
    walkLines s d a ++ (match distXlate s d a .load .fibre with | some pa => [pa / 128] | none => [])).eraseDups

/-- Translate the pages of accesses that the distributor, a host or hart 0 makes, or lets others make: A is set in each leaf at its home,
and D for a store (R22). The first answer waits, for words that an owner gives up; the second has each page's address, `none` where
it fails. -/
def touchPages (d : Nat) (u : Use) (by_ : By) (vas : List W64) (s : State) : State ⊕ (State × List (Option Nat)) :=
  match fetchHome (vas.flatMap (walkLines s d)).eraseDups s with
  | some s => .inl s
  | none =>
    let leaf := fun (va : W64) => match walk s d va with
      | .leaf e en _ => (distXlate s d va u by_).map fun pa => (pa, en, e)
      | .fault _ _ _ => none
    let after := fun (e : W64) => if u.writes then pteStored e else pteTouched e false
    let found := vas.map leaf
    let writes := (found.filterMap id).filter fun x => after x.2.2 ≠ x.2.2
    match homeTakes (writes.map fun x => x.2.1 / 128).eraseDups s with
    | some s => .inl s
    | none => .inr (writes.foldl (fun s x => homeWriteNow x.2.1 (leBytes (after x.2.2).toNat 8) s) s,
        found.map fun x => x.map (·.1))

/-- The pages of stores. -/
def storePages (d : Nat) (by_ : By) (vas : List W64) (s : State) : State ⊕ (State × List (Option Nat)) :=
  touchPages d .store by_ vas s

/-- CAP, the ring's address and the addresses of its pages, from the 128 bytes of a hamper descriptor; `none`: broken (R190, R358). -/
def ringOf (b : List W8) : Option (Nat × W64 × List W64) :=
  let cap := leNat ((b.drop 24).take 4)
  let ring : W64 := BitVec.ofNat 64 (leNat ((b.drop 16).take 8))
  if cap < 4 || 24 < cap || leNat (b.drop 28) ≠ 0 || ring.toNat % 64 ≠ 0 then none
  else some (cap, ring, (List.range ((ring.toNat % 65536 + 64 * 2 ^ cap + 65535) / 65536)).map fun j => ring + BitVec.ofNat 64 (65536 * j))

/-- The frames of a ring's pages, if every one translates. -/
def ringPages (xlate : W64 → Option Nat) (vas : List W64) : Option (List (Nat × Nat)) :=
  vas.foldr (fun a r => match r, xlate a with | some l, some pa => some ((vpnOf a, pa / 65536) :: l) | _, _ => none) (some [])

/-- The gang record's channel for an entry of the channel table (R192, R358). -/
def bindChan (s : State) (d ch : Nat) (va : W64) : Chan :=
  let bad : Chan := ⟨ch, true, 0, 0, 0, [], false⟩
  if va.toNat % 128 ≠ 0 then bad else
  match distRead s d va 128, distXlate s d va .store .fibre with
  | some b, some pa => match ringOf b with
    | none => bad
    | some (cap, ring, vas) => match ringPages (fun a => distXlate s d a .store .fibre) vas with
      | none => bad
      | some pages => ⟨ch, false, pa, cap, ring, pages, inPool pa⟩
  | _, _ => bad

/-- The channels of a gang, read from the channel table at a placement (R192). -/
def readChans (s : State) (d : Nat) : List Chan :=
  match distRead s d (s.launch d).chtab 512 with
  | none => []
  | some b => (List.range 63).filterMap fun i =>
    let va : W64 := BitVec.ofNat 64 (leNat ((b.drop (8 * i)).take 8))
    if va = 0 then none else some (bindChan s d i va)

/-- The virtual addresses of the descriptors in the channel table. -/
def chanDescs (s : State) (d : Nat) : List W64 :=
  match distRead s d (s.launch d).chtab 512 with
  | none => []
  | some b => (List.range 63).filterMap fun i =>
    let va : W64 := BitVec.ofNat 64 (leNat ((b.drop (8 * i)).take 8))
    if va = 0 then none else some va

/-- The channels of a placement (R192, R358): every page that their operations store to has A and D set first (R22). -/
def bindChans (d : Nat) (s : State) : State ⊕ (State × List Chan) :=
  let l := s.launch d
  match fetchHome ((distLines s d l.chtab 512) ++ (chanDescs s d).flatMap fun va => distLines s d va 128).eraseDups s with
  | some s => .inl s
  | none =>
    let live := (readChans s d).filter (!·.broken)
    let rings := live.flatMap fun c => c.pages.map fun p => ((BitVec.ofNat 39 p.1).signExtend 64) <<< 16
    match storePages d .fibre (chanDescs s d ++ rings) s with
    | .inl s => .inl s
    | .inr (s, _) => .inr (s, readChans s d)

/-- Fill the pinned lines of a kernel on a core (R435). -/
def pinLines (c d : Nat) (s : State) : State :=
  let lines := ((s.launch d).pins.flatMap fun p => (List.range (p.2 / 128)).map fun j => p.1 + BitVec.ofNat 64 (128 * j)).eraseDups
  lines.foldl (fun s va => match distXlate s d va .fetch .fibre with
    | some pa => s.onCore c fun co => { co with
        icache := { line := pa / 128, region := 0, data := s.curBytes (pa / 128 * 128) 128, pinned := true } :: co.icache.filter (·.line ≠ pa / 128) }
    | none => s) s

/-! ### Positions (R188, R426) -/

/-- Corners of rectangles on a die in the order of R188. -/
def corners (l : Launch) : List (Nat × Nat) :=
  ((List.range 4).filter fun y => y % l.h = 0 && y + l.h ≤ 4).flatMap fun y =>
    ((List.range 8).filter fun x => x % l.w = 0 && x + l.w ≤ 8).map fun x => (y, x)

/-- The cores of a rectangle by scratch slot (R50). -/
def rectCores (l : Launch) (die y x : Nat) : List Nat :=
  (List.range (l.h * l.w)).map fun k => 32 * die + 8 * (y + k / l.w) + x + k % l.w

/-- A core can take the gang; `free` also asks that no cut is held (R188, R426). -/
def coreTakes (s : State) (l : Launch) (free : Bool) (c : Nat) : Bool :=
  let co := s.core c
  co.inService && !co.hot && cutFits l.cut co.good && (!free || (co.owner.isNone && !co.reserved))

/-- Dies of a domain, starting where the gang's search starts (R188). -/
def diesFrom (s : State) (d : Nat) (g : Gang) : List Nat :=
  let ds := (List.range 8).filter fun x => (s.dom d).dies.getLsbD x
  let start := match g.lastDie with
    | some x => (ds.findIdx? (· = x)).getD 0
    | none => if ds.length = 0 then 0 else g.gid % ds.length
  ds.drop start ++ ds.take start

/-- The first rectangle that can take the gang, as its cores by slot (R188). -/
def findPlace (s : State) (g : Gang) (free : Bool) : Option (List Nat) :=
  let l := s.launch g.dom
  ((diesFrom s g.dom g).flatMap fun die => (corners l).map fun yx => rectCores l die yx.1 yx.2).find?
    fun cs => cs.all (coreTakes s l free)

/-- Queue a placement request of a gang at the die it last ran on, or its first die (R187, R188). -/
def queueGang (g : Gang) (cls : Nat) (s : State) : State :=
  let die := (diesFrom s g.dom g).headD 0
  let (n, s) := s.fresh
  let s := s.setGang { g with st := .pending, cls := cls }
  s.setDie die { s.die die with queue := (s.die die).queue ++ [(cls, g.key, n)] }

/-- A gang leaves every queue. -/
def unqueue (k : GKey) (s : State) : State :=
  { s with dies := s.dies.map fun (e : Nat × Die) => (e.1, { e.2 with queue := e.2.queue.filter fun r => r.2.1 ≠ k }) }

/-- Release the reservations of a placement in progress (R189). -/
def rollback (die : Nat) (s : State) : State :=
  match (s.die die).placing with
  | none => s
  | some (_, _, cores, _) =>
    (cores.reverse.foldl (fun s c => releaseCut c s) s).setDie die { s.die die with placing := none }

/-- DUNP after a gang of the domain enters or leaves UNPLACED (R426). -/
def updateDunp (d : Nat) (lgid : Option Nat) (s : State) : State :=
  let n := (s.gangs.filter fun g => g.dom = d && g.st = .unplaced).length
  let dm := s.dom d
  let low := match lgid with | some g => g % 65536 | none => dm.dunp.toNat % 65536
  s.setDom d { dm with dunp := BitVec.ofNat 64 (n % 65536 * 2 ^ 48 + low) }

/-! ### Kill (R420 to R423) -/

/-- An access of a gang's fibre. -/
def State.ofGang (s : State) (k : GKey) (t : Thread) : Bool := s.gangOf t == some k

/-- The engines' work of a gang is discarded (R421). -/
def dropWork (k : GKey) (s : State) : State :=
  let mine := fun (t : Thread) => s.ofGang k t
  let fk := fun (f : FKey) => mine (.fib f)
  let granted := fun (a : Acc) => s.net.any fun m => m.kind == .grant && m.tag == a.id
  let s' := { s with
    cores := s.cores.map fun (e : Nat × Core) => (e.1, { e.2 with
      loads := e.2.loads.filter fun a => !mine a.thr
      stores := e.2.stores.filter fun a => !mine a.thr || granted a
      insts := e.2.insts.filter fun i => !mine i.thr
      rowOps := e.2.rowOps.filter fun o => !fk o.k
      press := e.2.press.map fun (p : Nat × List PressOp) => (p.1, p.2.filter fun o => !fk o.k)
      board := e.2.board.filter fun b => !(s.copies.any fun y => y.id = b.copy && fk y.k)
      subs := e.2.subs.map fun (x : Nat × Sub) => (x.1, { x.2 with
        holder := match x.2.holder with | some h => if fk h then none else some h | none => none
        passed := x.2.passed.filter fun p => !fk p.1
        slotF := x.2.slotF.filter fun p => !fk p
        xq := x.2.xq.filter fun p => !fk p }) })
    copies := s.copies.filter fun y => !fk y.k
    hamp := s.hamp.filter fun q => match q.thr with | some t => !mine t | none => true }
  { s' with fibs := s'.fibs.filter fun e => e.2.gang ≠ k,
            spools := s'.spools.filter fun e => !(s.fibs.any fun f => spoolOf f.1 = e.1 && f.2.gang = k) }

/-- Items of a gang's in-service slots, in ascending block then channel, without channel 63 and those whose fibre has issued its next
chrecv on the channel (R192, R422; log 13). -/
def serviceItems (g : Gang) (s : State) : List (Nat × BitVec 512) :=
  let l := s.launch g.dom
  (List.range l.bpg).flatMap fun i =>
    let bid := g.gid * l.bpg + i
    let bl := match tfind g.blocks bid with | some b => b | none => s.block g.dom bid
    let next := fun (fid ch : Nat) => (s.fibsOfBlock g.dom bid).any fun e => e.2.fid = fid && e.2.wait = .chan ch
    (List.range 63).flatMap fun ch => (bl.insv.filter fun e => e.2.1 = ch && !next e.1 ch).map fun e => (ch, e.2.2)

/-- Re-enqueue the items with RETRY set, to the hampers their channels were bound to (R422). -/
def reEnqueue (g : Gang) (items : List (Nat × BitVec 512)) (s : State) : State :=
  items.foldl (fun s e => match g.chans.find? (fun c => c.ch = e.1 && !c.broken) with
    | none => s
    | some c =>
      let (id, s) := s.fresh
      { s with hamp := s.hamp ++ [{ id := id, enq := true, desc := c.desc, cap := c.cap, ring := c.ring, pages := c.pages,
                                    item := e.2 ||| (1 <<< 63) }] }) s

/-- Forwarding entries without an anchor fall at the domain's full quiescence: every gang Exited, or Killed with no relaunch
committed (R439). -/
def clearForwards (d : Nat) (s : State) : State :=
  let quiet := fun (g : Gang) => g.st = .exited || g.st = .killed
    || ((g.st = .pending || g.st = .placing || g.st = .unplaced) && g.cls = 1)
  if (s.gangs.filter fun x => x.dom = d).all quiet then
    let dm := s.dom d
    s.setDom d { dm with fwl := dm.fwl.map fun e => if e.2.getLsbD 61 then e else (e.1, e.2 &&& ~~~((1 : W64) <<< 63)) }
  else s

/-- A record of KIND 9: class and first core of a placement; class 0 an eviction, 15 a kill (R464; log 18). -/
def logGang (k : GKey) (cls core : Nat) (s : State) : State :=
  logOrder k.dom 9 core 0xFF 0 (BitVec.ofNat 64 k.gid) (BitVec.ofNat 64 (cls + 256 * core)) s

/-- The kill event (R420 to R423). `hx`: hart 0's hx.gkill, after which the gang stays Killed; any other kill is
followed by a relaunch in class 1. -/
def killGang (k : GKey) (hx : Bool) (s : State) : State :=
  match s.gang? k with
  | none => s
  | some g =>
    if g.st = .exited || g.st = .killed then s else
    let items := serviceItems g s
    let wasUnplaced := g.st = .unplaced
    let s := (List.range 8).foldl (fun s die => match (s.die die).placing with
      | some (_, k', _, _) => if k' = k then rollback die s else s
      | none => s) s
    let s := unqueue k (dropWork k s)
    let s := g.cores.foldl (fun s c =>
      let s := endGrantsOf (fun r => r.dom == k.dom && r.gid == k.gid) c s
      if (s.core c).owner = some k then releaseCut c s else s) s
    let l := s.launch k.dom
    let s := { s with blocks := s.blocks.filter fun e => !(e.1.1 = k.dom && e.1.2 / l.bpg = k.gid) }
    let g' := { g with st := .killed, hkill := hx, cores := [], saved := [], blocks := [], thermalFrom := none, told := false
                       lastDie := match g.cores.head? with | some c => some (c / 32) | none => g.lastDie }
    let s := reEnqueue g items (s.setGang g')
    let s := logGang k 15 0 s
    let s := if wasUnplaced then updateDunp k.dom none s else s
    clearForwards k.dom (if hx then s else queueGang g' 1 s)

/-- A thread consumes a word that no code corrects (R58, R103, R430): hart 0 of `core` gets the record; the gang of a
fibre is killed; a hart takes an access fault. -/
def consumeBad (core : Nat) (t : Thread) (src addr : Nat) (store : Bool) (s : State) : State :=
  let s := uncorrectableRec core (s.gangOf t) src addr s
  -- it ends a replay (R467)
  let s := match s.gangOf t with
    | some g => if s.replaying g.dom then endReplay g.dom 4 s else s
    | none => s
  match t with
  | .fib _ => match s.gangOf t with
    | some g => killGang g false s
    | none => s
  | .hart c h => s.setHart c h (takeExc (if store then excStoreAccess else excLoadAccess) (BitVec.ofNat 64 addr) (s.hart c h))

/-- Accesses of a core that have consumed a poisoned word, or whose results met an uncorrectable row of the bolt, are reported at the
word's home, or at the core, and stopped (R58, R430). -/
def reap (c : Nat) (s : State) : State :=
  match (s.core c).insts.find? (·.poisoned.isSome) with
  | none => s
  | some i =>
    let pa := i.poisoned.getD 0
    let home := match homeOf (pa / 128) with | .home h => h | _ => c
    let s := s.onCore c fun co => { co with
      insts := co.insts.filter (·.id ≠ i.id), loads := co.loads.filter (·.inst ≠ i.id)
      stores := co.stores.filter (·.inst ≠ i.id) }
    if boltBase 0 ≤ pa then consumeBad c i.thr 0 pa true s else consumeBad home i.thr 2 pa i.st s

/-! ### Start, relaunch and restore at a commit (R188, R208, R423, R419) -/

/-- The fibres of a gang start at ENTRY (classes 1 and 4). -/
def startFibs (g : Gang) (cores : List Nat) (s : State) : State :=
  let l := s.launch g.dom
  (gangFibs l).foldl (fun s e =>
    let k := fibPlace l cores e.1 e.2
    let (n, s) := s.fresh
    traceFsync k 4 (s.setFib k { freshFib l g.dom g.gid (g.gid * l.bpg + e.1) e.2 with stamp := n })) s

/-- Does this fibre save and reload its spool's frame: the lowest-numbered of the spool that has not exited (R417). -/
def savesSpool (fs : List Fib) (f : Fib) : Bool :=
  !(fs.any fun x => x.bid = f.bid && x.spid = f.spid && x.st != .exited && x.fid < f.fid)

/-- A saved fibre enters the restore handler at its new place (R208, R417, R419), after an acquire at pkg with all regions (R139). -/
def restoreFib (l : Launch) (cores : List Nat) (g : Gang) (x : SavedFib) (s : State) : State :=
  let f := x.f
  let k := fibPlace l cores (x.bid - g.gid * l.bpg) f.fid
  let f0 := { freshFib l g.dom g.gid x.bid f.fid with
    retired := f.retired, wake := f.wake, epcs := f.epcs, epcl := f.epcl, wait := f.wait, redo := f.redo, redoI := f.redoI, st := f.st, ext := f.ext
    redoL := f.redoL, nlane := f.nlane, hback := f.hback }
  if f.st = .exited then s.setFib k { f0 with ext := false } else
  let s := rinse k.core (BitVec.allOnes 64) s
  let f1 := enterHandler 3 l.resth { f0 with st := .restoring }
  -- the fibre takes its extension block again (R199)
  let s := if f.ext then s.onCore k.core fun c => { c with xfree := tset c.xfree k.sub (tget c.xfree k.sub 0 - 1) } else s
  let s := s.setFib k { f1 with hslots := f1.hslots.set 4 (if savesSpool (g.saved.map (·.f)) f then 1 else 0) }
  traceFsync k 2 s

/-- Address of a gang's scratch image for a slot (R418). -/
def imageVa (l : Launch) (gid slot : Nat) : W64 := l.savea + BitVec.ofNat 64 (0x4_0000_0000 * gid + 0x80_0000 * slot)

/-- Bytes of a core's scratchpad that are not zero: offset and byte. -/
def scratchBytes (s : State) (c : Nat) : List (Nat × W8) :=
  let co := s.core c
  (List.range (cutScrg co.bcut)).flatMap fun i => match scratchGranule co.bcut co.good i with
    | none => []
    | some g =>
      let base := boltBase c + g * 65536
      (s.mem.filter fun e => base ≤ e.1 && e.1 < base + 65536).map fun e => (i * 65536 + (e.1 - base), e.2)

/-- The pages of a gang's scratch images: slot, granule and virtual address (R418). -/
def imagePages (l : Launch) (g : Gang) : List (Nat × Nat × W64) :=
  (List.range g.cores.length).flatMap fun slot => (List.range l.scrg).map fun i =>
    (slot, i, imageVa l g.gid slot + BitVec.ofNat 64 (65536 * i))

/-- Lines of a physical page that are owned or busy at their home. -/
def openLines (s : State) (pa : Nat) : List Nat :=
  let ls : List Nat := List.map (fun (e : Nat × Node) => e.1 / 32) s.owners ++ List.map (fun (x : HomeAct) => x.msg.line) s.acts
  (ls.filter fun l => pa ≤ 128 * l && 128 * l < pa + 65536).eraseDups

/-- Copy the scratchpads of a gang into its images, which are written whole (R419). The first answer waits, for words that an owner
gives up; a page that no store reaches any more holds the copy back (log 48). -/
def saveScratch (g : Gang) (s : State) : State ⊕ State :=
  let ps := imagePages (s.launch g.dom) g
  match storePages g.dom .fibre (ps.map (·.2.2)) s with
  | .inl s => .inl s
  | .inr (s, pas) =>
    if pas.any (·.isNone) then .inl s else
    match homeTakes (pas.flatMap fun pa => openLines s (pa.getD 0)) s with
    | some s => .inl s
    | none => .inr ((ps.zip pas).foldl (fun s e =>
        let pa := e.2.getD 0
        let bs := (scratchBytes s (g.cores.getD e.1.1 0)).filter fun x => x.1 / 65536 = e.1.2.1
        let s := { s with mem := s.mem.filter fun x => !(pa ≤ x.1 && x.1 < pa + 65536)
                          poison := s.poison.filter fun w => !(pa ≤ 4 * w && 4 * w < pa + 65536) }
        bs.foldl (fun s x => { s with mem := Memory.write s.mem (pa + x.1 % 65536) x.2 }) s) s)

/-- A gang's images can be copied back: every page translates, and no agent outside the package holds a word of it; else the state
that waits (log 48). -/
def imagesReady (g : Gang) (s : State) : Option State :=
  let pas := (imagePages (s.launch g.dom) g).map fun p => distXlate s g.dom p.2.2 .load .fibre
  if pas.any (·.isNone) then some s else fetchHome (pas.flatMap fun pa => openLines s (pa.getD 0)) s

/-- Copy an image back into a core's scratchpad (R419). -/
def loadScratch (d gid slot c : Nat) (s : State) : State :=
  let l := s.launch d
  (List.range (cutScrg (s.core c).bcut)).foldl (fun s i =>
    match distXlate s d (imageVa l gid slot + BitVec.ofNat 64 (65536 * i)) .load .fibre with
    | none => s
    | some pa =>
      let cells := (s.mem.filter fun e => pa ≤ e.1 && e.1 < pa + 65536).map (·.1)
      let owned := (s.owners.filter fun e => pa ≤ 4 * e.1 && 4 * e.1 < pa + 65536).flatMap fun e =>
        (List.range 4).map fun j => 4 * e.1 + j
      (cells ++ owned).eraseDups.foldl (fun s a =>
        { s with mem := Memory.write s.mem (scratchPa (s.core c) c (i * 65536 + (a - pa))) (s.curByte a) }) s) s

/-- The commit of a placement, one event (R188, R193, R423, R208). -/
def commitPlace (g : Gang) (cls : Nat) (cores : List Nat) (s : State) : State :=
  let l := s.launch g.dom
  let bids := (List.range l.bpg).map (g.gid * l.bpg + ·)
  let old := g.cores
  let g' := { g with st := .running, cls := cls, cores := cores, lastDie := cores.head?.map (· / 32), told := false
                     commit := s.tick, launches := if cls = 1 || cls = 4 then g.launches + 1 else g.launches, hkill := false, thermalFrom := none }
  let s := cores.foldl (fun s c => s.onCore c fun co => { co with
    xfree := (List.range 16).map fun k => (k, l.xp) }) s
  let s := logGang g.key cls (cores.headD 0) s
  if cls = 1 || cls = 4 then
    let s := startFibs g' cores (s.setGang { g' with saved := [], blocks := [] })
    let s := bids.foldl (fun s b => s.setBlock g.dom b (tget g.blocks b {})) s
    if cls = 1 then bids.foldl (fun s b => postMail g.dom b 2 (BitVec.ofNat 64 g'.launches) s) s else s
  else
    let s := bids.foldl (fun s b => s.setBlock g.dom b (tget g.blocks b {})) s
    let s := cores.zipIdx.foldl (fun s e => loadScratch g.dom g.gid e.2 e.1 s) (s.setGang g')
    let s := g.saved.foldl (fun s x => restoreFib l cores g' x s) s
    let s := s.setGang { g' with saved := [], blocks := [] }
    if cls = 3 then
      let from_ := (g.thermalFrom.getD (old.headD 0)) % 65536
      bids.foldl (fun s b => postMail g.dom b 3 (BitVec.ofNat 64 (from_ + cores.headD 0 % 65536 * 65536)) s) s
    else s

/-! ### Wakes (R207) -/

/-- The distributor's touch of a line completes: its home can be reached and serves it now, as a link that is up allows for pool
memory (R207; log 41). -/
def touchDone (s : State) (d : Nat) (va : W64) : Bool := match distXlate s d va .load .fibre with
  | none => false
  | some pa => (inPool pa → s.linksUp ≠ 0) && !(s.acts.any fun x => x.msg.line = pa / 128)

/-- The wake condition of a saved fibre is met (R207, R362). -/
def wakeMet (s : State) (g : Gang) (x : SavedFib) : Bool :=
  if x.f.st = .exited then false else
  let kind := (x.f.wake.extractLsb' 60 4).toNat
  let arg := (x.f.wake.extractLsb' 54 6).toNat
  match kind with
  | 0 => true
  | 5 => if arg = 63 then (tget g.blocks x.bid {}).mail ≠ [] else
    match g.chans.find? (·.ch = arg) with
    | some c => s.hampCount c.desc != 0
    | none => false
  | 6 => touchDone s g.dom (((x.f.wake.extractLsb' 0 52).signExtend 64) <<< 3)
  | _ => false

/-- Saved gangs of the domains of a die whose wake condition is met ask for restore (R207, R209). -/
def wakeGangs (die : Nat) (s : State) : State :=
  (s.gangs.filter fun g => g.st = .saved && (s.dom g.dom).dies.getLsbD die && g.saved.any (wakeMet s g)).foldl
    (fun s g => queueGang g (if g.thermalFrom.isSome then 3 else 2) s) s

end Sys2Proof.Machine
end

