-- ==== Sys2Proof/Machine/Issue.lean ====
section
/-! DEFINITION. Issue of words: interlocks of the scalar stream (R263, R296), deferred reports at their waits (R160,
R161, R411), the lookahead gate (R252), the end of a turn (R195, R196), and fetch redirection records (R438). -/
namespace Sys2Proof

/-! ### Fields of a lane word (R245) -/

def LaneWord.S (w : LaneWord) : Bool := w.md.getLsbD 3
def LaneWord.sat (w : LaneWord) : Bool := w.md.getLsbD 2
def LaneWord.hem (w : LaneWord) : Bool := w.md.getLsbD 4
def LaneWord.scr (w : LaneWord) : Bool := w.md.getLsbD 5
/-- FN[0], the immediate form. -/
def LaneWord.imm1 (w : LaneWord) : Bool := w.fn.getLsbD 0
/-- MOD has no bit outside a set, and S names s0 to s191 (R245, R247). -/
def LaneWord.mdIn (w : LaneWord) (allowed : BitVec 6) : Bool := w.md &&& ~~~allowed == 0 && (!w.S || w.vb.toNat < 192)
/-- The b operand's fields (R297, R314): the immediate form has S and VB clear; without it IMM is unused. -/
def LaneWord.bOk (w : LaneWord) : Bool := if w.imm1 then !w.S && w.vb == 0 else w.imm == 0

end Sys2Proof

namespace Sys2Proof.Machine

/-! ### Redirected fetches (R438) -/

/-- A fibre's fetch was redirected: its PC becomes the new address and hart 0 gets a record of RKIND 4. -/
def redirected (k : FKey) (lane : Bool) (old new : W64) (s : State) : State :=
  let s := if lane then s else s.onFib k fun f => { f with pc := new }
  match s.fib? k with
  | none => s
  | some f => pushRec k.core (mkRecord 4 (handleOf k) 0 lane 0 f.pc f.lanePc old new s.tick (ident k f) f.retired) s

/-- A value that replay returns from the log in place of the one read now (R466, KIND 6 and 7). -/
def replayed (s : State) (k : FKey) (f : Fib) (kind : Nat) (addr : W64) (v : W64) : W64 :=
  if s.replaying f.dom then
    match s.logged f.dom fun r => r.kind = kind && r.core = k.core && r.h = handleOf k && r.count = f.retired && r.addr = addr with
    | some r => r.val
    | none => v
  else v

/-- A value read by sget TICK, rowstat or chpoll is logged (R464, KIND 6); in replay its record has been used. -/
def logRead (k : FKey) (f : Fib) (count : Nat) (pc v : W64) (s : State) : State :=
  if s.replaying f.dom then
    match s.logged f.dom fun r => r.kind = 6 && r.core = k.core && r.h = handleOf k && r.count = count && r.addr = pc with
    | some r => useLog f.dom r s
    | none => s
  else logOrder f.dom 6 k.core (handleOf k) count pc v s

/-! ### Lane words ahead of a scalar word (R296) -/

/-- Scalar registers that a lane word writes (R302, R309, R311, R308, R312, R322, R378). -/
def laneScalarDests (i : Instr) : List Nat :=
  let tri := fun (w : LaneWord) => [w.vd.toNat, w.vd.toNat + 1, w.vd.toNat + 2]
  match i with
  | .vcmp w | .fcmp w => if w.fn.getLsbD 2 then [] else tri w
  | .vballot w => if w.fn = 0 then tri w else [w.vd.toNat]
  | .vred w => [w.vd.toNat]
  | .vfirst w => [w.vd.toNat]
  | .vtos w => [w.vd.toNat]
  | .vtag w => [w.vd.toNat]
  | .mmodeRead w => [w.vd.toNat]
  | _ => []

/-- Code bytes at a virtual address as a fetch would read them, with no effect; `none` when a page fails. -/
def peekCode (s : State) (core d : Nat) (va : W64) (n : Nat) : Option (List W8) :=
  ((List.range n).map fun j => va + BitVec.ofNat 64 j).foldr (fun a r =>
    let pa := match (s.core core).tlb.find? (·.maps (vpnOf a)) with
      | some t => some (t.pa a)
      | none => distXlate s d a .fetch .fibre
    match r, pa with
    | some l, some p => some ((match (s.core core).icache.find? (·.line = p / 128) with
        | some x => x.data.getD (p % 128) 0
        | none => s.curByte p) :: l)
    | _, _ => none) (some [])

/-- The scalar register that a lane word reads, S[VB] (R245). -/
def laneScalarReads (w : LaneWord) : List Nat := if w.S then [w.vb.toNat] else []

/-- The words of a stitch that have not issued and act on some lane; `none`: its code cannot be read yet. -/
def stitchWords (s : State) (core d : Nat) (m : Mask) (pc : W64) : Nat → Option (List (Instr × LaneWord))
  | 0 => some []
  | fuel + 1 => match peekCode s core d pc 12 with
    | none => none
    | some b =>
      let w : BitVec 96 := BitVec.ofNat 96 (leNat b)
      match decodeLane w with
      | .ok i =>
        let acts := m != 0 || (laneFields w).a || (match i with | .mmodeRead _ => true | _ => false)
        let here := if acts then [(i, laneFields w)] else []
        if (laneFields w).k then some here else (stitchWords s core d m (pc + 12) fuel).map (here ++ ·)
      | _ => some []

/-- The lane words enqueued so far that have yet to issue; `none`: some of them cannot be read yet. -/
def pendingLane (s : State) (k : FKey) (f : Fib) : Option (List (Instr × LaneWord)) :=
  f.stitches.foldr (fun t acc => match acc, stitchWords s k.core f.dom t.mask t.pc (24 - t.n) with
    | some l, some r => some (r ++ l)
    | _, _ => none) (some [])

/-- Some pending lane word names one of the registers by `p`; a word that cannot be read yet may. -/
def laneNames (s : State) (k : FKey) (f : Fib) (p : Instr × LaneWord → List Nat) (regs : List Nat) : Bool :=
  f.stitches ≠ [] && regs.any (· ≠ 0) && (match pendingLane s k f with
    | some l => l.any fun i => (p i).any fun d => d ≠ 0 && regs.contains d
    | none => true)

/-! ### Interlocks of the scalar stream -/

/-- A scalar load or atomic that has yet to write one of the registers (R263). -/
def loadPending (s : State) (k : FKey) (regs : List Nat) : Bool :=
  (s.core k.core).insts.any fun i => i.thr = .fib k && (match i.fin with | .sreg d => d ≠ 0 && regs.contains d | _ => false)

/-- A rowstat that has yet to write one of the registers (R99, R263). -/
def statPending (s : State) (k : FKey) (regs : List Nat) : Bool :=
  (s.core k.core).rowOps.any fun o => o.k = k && o.kind = 3 && o.d ≠ 0 && regs.contains o.d

/-- Why a scalar word that touches these registers cannot issue yet, as a stall reason. -/
def interlock (s : State) (k : FKey) (f : Fib) (regs : List Nat) : Option Nat :=
  if f.div.isSome then some 17
  else if loadPending s k regs then some 3
  else if statPending s k regs then some 17
  else if laneNames s k f (laneScalarDests ·.1) regs then some 17
  else none

/-! ### Deferred reports (R160, R161, R411) -/

/-- Deliver a held report as an exact stop at the word that waits. -/
def deliver (k : FKey) (r : Report) (s : State) : Out :=
  match s.fib? k with
  | none => .refused .noActor
  | some f =>
    let f := { f with reports := f.reports.erase r, longs := f.longs.filter fun l => !(l.id = r.inst && l.flags ≠ 0) }
    .next (takeStop k r.cause { lane := r.lane, addr := r.addr, aux := r.aux, info := r.info,
                                        srcl := r.srcl || r.cause = 0x13 || r.cause = 0x14 || r.lane ≠ scalarLane } f.pc (s.setFib k f))

/-- The oldest held report among those a wait covers (R411). -/
def oldestReport (f : Fib) (p : Report → Bool) : Option Report :=
  (f.reports.filter p).foldl (fun m r => match m with
    | none => some r
    | some x => if r.inst < x.inst then some r else some x) none

/-- A word that is a consuming wait: a held report it covers stops the fibre at it; otherwise it goes on. -/
def consuming (k : FKey) (f : Fib) (p : Report → Bool) (s : State) (go : Out) : Out :=
  match oldestReport f p with
  | some r => deliver k r s
  | none => go

/-- Reports covered by a wait on a counter (R160): LD also covers plain scalar loads (R161). -/
def covers (c : Nat) (r : Report) : Bool :=
  match c with
  | 1 => r.ctr = 1 || r.ctr = 0
  | 2 => r.ctr = 2
  | 3 => r.ctr = 3
  | _ => false

/-- Reports covered by a release: stores and plain scalar loads (R160, R161). -/
def releaseCovers (r : Report) : Bool := r.ctr = 2 || r.ctr = 0

/-- The frame of a scalar word that reads and writes registers: it waits for their older writers, and for the lane words that read
what it writes (R296); it delivers a report of a scalar load it reads, and then runs. -/
def scalarWord (reads writes : List Nat) (s : State) (body : FKey → Fib → Out) : Out :=
  asScalar s fun k f => match interlock s k f (reads ++ writes) with
    | some r => if r = 3 && loadPending s k reads then stallLoads k s else stall k r s
    | none =>
      if laneNames s k f (laneScalarReads ·.2) writes then stall k 17 s else consuming k f (fun r => r.ctr = 0 && r.dst ≠ 0 && reads.contains r.dst) s (body k f)

/-! ### Lane words: retirement, hops, the gate -/

/-- The fibre's turn of the lane pipe ends (R195). -/
def endTurn (k : FKey) (s : State) : State := s.onCore k.core fun co => co.setSub k.sub ((co.sub k.sub).endTurn k)

/-- The fibre may issue words: not stopped, parked, saved or done (R203). -/
def Fib.runs (f : Fib) : Bool := match f.st with
  | .running | .blocked | .saving | .restoring => true
  | _ => false

/-- The domain lets no further word issue: a checkpoint is being taken (R462). -/
def State.holds (s : State) (f : Fib) : Bool := (s.dom f.dom).quiesce

/-- A fibre that could take a turn of the lane pipe (R195): its scalar word's checks do not stand open. -/
def Fib.ready (f : Fib) : Bool := f.runs && f.stitches ≠ [] && f.susp ≠ 1

/-- The fibres of a sub-core that are ready. -/
def readyFibs (s : State) (c u : Nat) : List (FKey × Fib) :=
  s.fibs.filter fun e => e.1.core = c && e.1.sub = u && e.2.ready && !s.holds e.2

/-- A ready fibre that has been passed over in 16 selections (R195). -/
def starved (s : State) (c u : Nat) : Option FKey :=
  ((readyFibs s c u).find? fun e => 16 ≤ tget ((s.core c).sub u).passed e.1 0).map (·.1)

/-- A turn begins: the others that were ready have been passed over once more (R195). -/
def beginTurn (c u : Nat) (k : FKey) (s : State) : State :=
  let b := (s.core c).sub u
  let others := ((readyFibs s c u).map (·.1)).filter (· ≠ k)
  s.onCore c fun co => co.setSub u { b with
    holder := some k
    passed := others.map fun x => (x, tget b.passed x 0 + 1) }

/-- A lane word's last beat has issued: the stitch moves on, and a knot ends it and the turn (R249, R293). -/
def laneRetire (k : FKey) (w : LaneWord) (s : State) : State :=
  let s := s.onFib k fun f => match f.stitches with
    | [] => f
    | t :: r =>
      { f with
        stitches := if w.k then r else { t with pc := t.pc + 12, n := t.n + 1 } :: r
        nlane := f.nlane + 1
        retired := if f.hkind = 0 then f.retired + 1 else f.retired
        susp := if f.susp = 2 then 0 else f.susp
        markL := 0
        stays := false
        stallL := if w.k && r = [] then 1 else 0 }
  if w.k then endTurn k s else s

/-- Write a scalar register from a lane word: later lane words of the fibre see it too (R296). -/
def laneSetSreg (k : FKey) (n : Nat) (v : W64) (s : State) : State :=
  if n = 0 then s else
  s.onFib k fun f => { f.setSreg n v with stitches := f.stitches.map fun t => { t with snap := t.snap.set n v } }

/-- The next ready spool-mate of a fibre in rotation (R196). -/
def nextMate (s : State) (k : FKey) : Option FKey :=
  ([1, 2, 3].map fun j => { k with pos := (k.pos + j) % 4 }).find? fun m => m ≠ k && (match s.fib? m with
    | some f => f.ready && !s.holds f
    | none => false)

/-- A lane word stalls. With the hop prefix and a reason of R196 the pipe passes to the next ready spool-mate, or to a fibre passed
over in 16 selections (R195); a word that finds no mate waits as though H were clear. -/
def laneStall (k : FKey) (w : LaneWord) (r : Nat) (s : State) : Out :=
  let stays := match s.fib? k with | some f => f.stays | none => false
  if !(w.h && [2, 3, 4, 5, 13, 15, 20].contains r) || stays then .next (s.onFib k fun f => { f with stallL := r })
  else match nextMate s k with
    | some m =>
      let s := endTurn k (s.onFib k fun f => { f with stallL := r })
      .next (beginTurn k.core k.sub ((starved s k.core k.sub).getD m) s)
    | none => .next (s.onFib k fun f => { f with stallL := r, stays := true })

/-- The lookahead of a long word as it binds: 15 sets no gate for a word that raises LD, and is 14 for any other (R252). -/
def gateOf (w : LaneWord) (mem : Bool) : Option Nat :=
  if w.la = 15 then (if mem then none else some 14) else some w.la.toNat

/-- The long result that gates the fibre's next lane word, if any (R252). -/
def gate (f : Fib) : Option LongRes := f.longs.find? fun l => match l.la with
  | some n => n < f.nlane - l.at_
  | none => false

/-- An acquire load or atomic of the fibre's scalar stream has not completed: no later lane word issues (R130). -/
def scalarAcq (s : State) (k : FKey) : Bool := (s.core k.core).insts.any fun i =>
  i.thr = .fib k && i.acq.isSome && (match i.fin with | .sreg _ => true | _ => false)

/-- What a lane word's meaning works with: the fibre, its stitch's mask in force, and the scalar values it reads. -/
structure LaneCtx where
  k : FKey
  f : Fib
  mask : Mask
  snap : List W64
  pc : W64

/-- S[n] as the lane word reads it (R296). -/
def LaneCtx.sreg (c : LaneCtx) (n : Nat) : W64 := if n = 0 then 0 else c.snap.getD n 0

/-- The wait of a lane word before its meaning: an acquire of the scalar stream (R130), then the gate with the report it delivers
(R252, R411). `none`: the word may issue. -/
def laneWait (w : LaneWord) (k : FKey) (f : Fib) (s : State) : Option Out :=
  if scalarAcq s k then some (laneStall k w 3 s) else
  match gate f with
  | some l =>
    if l.flags ≠ 0 then match f.reports.find? (·.inst = l.id) with
      | some r => some (deliver k r s)
      | none => some (.next (s.onFib k fun f => { f with longs := f.longs.filter (·.id ≠ l.id) }))
    else some (laneStall k w (if l.mem then 3 else 2) s)
  | none => none

/-- The no-op rule (R248), then the meaning of a lane word. -/
def laneBody (w : LaneWord) (always : Bool) (k : FKey) (f : Fib) (t : Stitch) (s : State) (body : LaneCtx → Out) : Out :=
  let mask := if w.a then maskFull else t.mask
  if mask = 0 && !always then .next (laneRetire k w s)
  else body ⟨k, f, mask, t.snap, t.pc⟩

/-- The frame of a lane word (R247 steps 1 to 3, R252): the gate, the no-op rule, then its meaning. `always`: mofence
and mmode, performed whatever the mask (R248). -/
def laneWord (w : LaneWord) (always : Bool) (s : State) (body : LaneCtx → Out) : Out :=
  asLane s fun k f t => match laneWait w k f s with
    | some o => o
    | none => laneBody w always k f t s body

/-- The frame of a press operation, which takes no part in lookahead (R164, R253): no gate holds it. -/
def pressFrame (w : LaneWord) (always : Bool) (s : State) (body : LaneCtx → Out) : Out :=
  asLane s fun k f t => if scalarAcq s k then laneStall k w 3 s else laneBody w always k f t s body

/-- The value that a long result in flight will write to lane L of register v, once it is there: a load's is there when all bytes
of its element are bound. -/
def newElem (s : State) (k : FKey) (l : LongRes) (v L : Nat) : Option W32 :=
  if !l.mem then (tfind l.vals v).map fun x => x.getD L 0
  else match (s.core k.core).insts.find? (·.id = l.id) with
    | none => none
    | some i =>
      let n := match i.fin with | .vreg _ _ n _ => n | .planes _ _ => 48 | _ => 0
      if (List.range n).all fun j => i.got.any fun e => e.1 = L && e.2.1 = j then
        (tfind (finVals i.fin i.mask i.got).1 v).map fun x => x.getD L 0
      else none

/-- Register v as a lane word reads it: an element of a long result that the word was promised not to read is the old or the new
value (R253); a value that no event has bound yet can only be the old one. -/
def readV (s : State) (k : FKey) (v : Nat) : List W32 :=
  let old := s.vreg k v
  match s.fib? k with
  | none => old
  | some f => match (f.longs.filter fun l => l.regs.contains v).getLast? with
    | none => old
    | some l => (List.range 96).map fun L =>
        if l.mask.getLsbD L && Config.freeBool (s.freeCtr + L) then (newElem s k l v L).getD (old.getD L 0)
        else old.getD L 0

/-- A word writes the lanes of a mask in registers that long results in flight will write: the promise is broken (R253). -/
def markClash (mask : Mask) (regs : List Nat) (f : Fib) : Fib :=
  { f with longs := f.longs.map fun l => { l with clash := l.clash ++ (regs.filter l.regs.contains).map fun r => (r, mask) } }

/-- A short lane word writes registers and tags, and completes. -/
def laneDone (c : LaneCtx) (w : LaneWord) (vals : List (Nat × List W32)) (tags : List (Nat × Nat)) (s : State) : Out :=
  let s := if c.f.longs = [] then s else { s.onFib c.k (markClash c.mask (vals.map (·.1) ++ tags.map (·.1))) with freeCtr := s.freeCtr + 96 }
  let s := disturbRegs c.k (vals.map (·.1) ++ tags.map (·.1)) [] s
  match writeRegRows c.k c.mask (vals.map (·.1)) s with
  | (s, some a) => .next (consumeBad c.k.core (.fib c.k) 0 a true s)
  | (s, none) => .next (laneRetire c.k w (writeVals c.k c.mask (vals, tags) s))

/-- A long lane word's results stand pending until their write-back event (R252). -/
def laneLong (c : LaneCtx) (w : LaneWord) (vals : List (Nat × List W32)) (tags : List (Nat × Nat)) (s : State) : Out :=
  let regs := vals.map (·.1) ++ tags.map (·.1)
  let s := if c.f.longs = [] then s else { s.onFib c.k (markClash c.mask regs) with freeCtr := s.freeCtr + 96 }
  let (id, s) := (disturbRegs c.k regs [] s).fresh
  let r : LongRes := { id := id, pc := c.pc, mask := c.mask, vals := vals, tags := tags, la := gateOf w false, at_ := c.f.nlane,
                       regs := regs }
  .next (laneRetire c.k w (s.onFib c.k fun f => { f with longs := f.longs ++ [r] }))

/-! ### Releases (R118, R136, R153) -/

/-- What a release at a scope still waits for, by a thread whose release issued at request `mark`: 0 blk, 1 die, 2 pkg,
3 sys. Scratch stores of the thread are awaited at every scope. -/
def releaseWaits (s : State) (c : Nat) (t : Thread) (scope : Nat) (oneCore : Bool) (mark : Nat) : Bool :=
  ((s.core c).stores.any fun a => a.id < mark && (match a.space with
    | .scratch _ => a.thr = t
    | .near => scope ≠ 0 || !oneCore
    | .pool => scope = 3
    | .io => scope = 3))
  || (scope ≠ 0 || !oneCore) && (s.copies.any fun y => y.core = c && y.id < mark && (y.out.any fun o => o.1 < mark)
    && (scope = 3 || y.dpages.any fun p => p.2.1 < 2 ^ 25))

/-- A release clears SR on the words whose last store entered the store buffer before it issued (R117, R118; log 12). -/
def clearSr (c mark : Nat) (s : State) : State :=
  s.onCore c fun co => { co with l1 := co.l1.map fun l =>
    { l with words := l.words.map fun w => if w.sr && w.stamp < mark then { w with sr := false } else w } }

/-- The fibre's block runs on one core (R118). -/
def Fib.oneCore (f : Fib) (s : State) : Bool := !(s.launch f.dom).quad

/-- Loads of a thread that are not performed (R132). An atomic stands with the stores and is no older load here. DEDUCED (log 59). -/
def loadsOut (s : State) (c : Nat) (t : Thread) : Bool := (s.core c).loads.any fun a => a.thr = t && !a.prefetch

/-- Loads and the reads of atomics of a thread that are not performed: what an acquire waits for (R136, R137). -/
def readsOut (s : State) (c : Nat) (t : Thread) : Bool :=
  loadsOut s c t || (s.core c).stores.any fun a => a.thr = t && a.kind = .atomic

/-- A plain scalar load of a fibre is not performed: whether it draws a report is not known yet (R161). -/
def scalarLoadOut (s : State) (k : FKey) : Bool :=
  (s.core k.core).loads.any fun a => a.thr = .fib k && !a.prefetch && !a.strong && a.parts.any fun p => p.lane = scalarLane

/-- An acquire's rinse at a scope (R119, R347): none for a blk acquire by a block on one core. -/
def acquireRinse (c scope : Nat) (oneCore : Bool) (m : W64) (s : State) : State :=
  if scope = 0 && oneCore then s else rinse c m s

/-- The press operations of a fibre that have not completed. -/
def pressBusy (s : State) (k : FKey) : List PressOp :=
  (tget (s.core k.core).press (k.sub / 4) []).filter fun o => o.k = k

end Sys2Proof.Machine
end

