-- ==== Sys2Proof/Machine/ScalarFlow.lean ====
section
/-! DEFINITION. Control transfer, enqueuing of lane work, waits, time, barriers and crews: majors 0x10 to 0x17
(R273 to R283, R201, R202, R211). -/
namespace Sys2Proof.Machine

/-! ### Control transfer (R273 to R276) -/

/-- The condition of br (R240). -/
def brTaken (c : BitVec 4) (v : W64) (m : Mask) : Bool :=
  match c.toNat with
  | 0 => v == 0
  | 1 => v != 0
  | 2 => v.slt 0
  | 3 => (0 : W64).sle v
  | 4 => (0 : W64).slt v
  | 5 => v.sle 0
  | 6 => m != 0
  | 7 => m == 0
  | _ => m == maskFull

/-- A word offset from the PC: 4 × off (R237). -/
def wordOffset {n : Nat} (o : BitVec n) : W64 := (o.signExtend 64) <<< 2

/-- A transfer is taken: the stream goes on at `pc`, and the fibre issues nothing on either stream until the fetch check of its target
has passed (R276, R409). -/
def Fib.jump (f : Fib) (pc : W64) : Fib := { f.retireAt pc with susp := 1 }

/-- A transfer is taken. -/
def doneJump (k : FKey) (pc : W64) (s : State) : Out := .next (s.onFib k fun f => f.jump pc)

/-- br (R273, R240). -/
def execBr (a : BitVec 8) (c : BitVec 4) (o : BitVec 14) (s : State) : Out :=
  scalarWord (if c.toNat < 6 then [a.toNat] else [1, 2, 3]) [] s fun k f =>
    let t := brTaken c (f.sreg a.toNat) f.mask
    let s := trace k [b8 (if t then 0x31 else 0x30), b8 (handleOf k)] s
    if t then doneJump k (f.pc + wordOffset o) s else done k s

/-- jmp (R274). -/
def execJmp (o : BitVec 26) (s : State) : Out := scalarWord [] [] s fun k f => doneJump k (f.pc + wordOffset o) s

/-- call (R274): S[5] takes the address of the next word. -/
def execCall (o : BitVec 26) (s : State) : Out :=
  scalarWord [] [5] s fun k f =>
    .next (s.onFib k fun g => (g.setSreg 5 (f.pc + 4)).jump (f.pc + wordOffset o))

/-- A transfer to a register's value (R275): a target that is not a multiple of 4 traps ALIGN. -/
def jumpTo (k : FKey) (f : Fib) (t : W64) (link : Bool) (s : State) : Out :=
  if t.extractLsb' 0 2 ≠ 0 then trapScalar k .align { addr := t } s
  else
    let s := trace k ([b8 0x40, b8 (handleOf k)] ++ leBytes t.toNat 8) s
    .next (s.onFib k fun g => (if link then g.setSreg 5 (f.pc + 4) else g).jump t)

/-- jr (R275). -/
def execJr (a : BitVec 8) (s : State) : Out := scalarWord [a.toNat] [] s fun k f => jumpTo k f (f.sreg a.toNat) false s
/-- callr (R275). -/
def execCallr (a : BitVec 8) (s : State) : Out := scalarWord [a.toNat] [5] s fun k f => jumpTo k f (f.sreg a.toNat) true s
/-- ret (R275). -/
def execRet (s : State) : Out := scalarWord [5] [] s fun k f => jumpTo k f (f.sreg 5) false s

/-! ### Lane work (R277, R278, R295, R458) -/

/-- Enqueue a stitch at a lane PC, with the mask and the scalar values as they stand. -/
def enqueueStitch (k : FKey) (f : Fib) (pc : W64) (idx : Option W64) (s : State) : Out :=
  if f.lq ≥ 16 then stall k 17 s else
  let differs := (match f.traceMask with | some m => m != f.mask | none => false) || f.mask != f.syncMask
  let s := if differs then trace k ([b8 0x50, b8 (handleOf k)] ++ maskBytes f.mask) s else s
  let s := match idx with
    | some i => trace k ([b8 0x58, b8 (handleOf k)] ++ leBytes i.toNat 8) s
    | none => s
  .next (s.onFib k fun g => { g.retire with
    stitches := g.stitches ++ [{ pc := pc, mask := f.mask, snap := f.regs, born := s.nextId }]
    stallL := if g.stitches = [] then 0 else g.stallL
    traceMask := some f.mask })

/-- lrun (R277). -/
def execLrun (o : BitVec 22) (s : State) : Out :=
  scalarWord [1, 2, 3] [] s fun k f => enqueueStitch k f (f.lcb + BitVec.ofNat 64 (12 * o.toNat)) none s
/-- lrunr (R278). -/
def execLrunr (a : BitVec 8) (s : State) : Out :=
  scalarWord [a.toNat, 1, 2, 3] [] s fun k f =>
    enqueueStitch k f (f.lcb + 12 * f.sreg a.toNat) (some (f.sreg a.toNat)) s

/-! ### Waits (R279 to R281, R160, R211) -/

/-- Stall reason of a wait counter (R159), by the code of R242. -/
def counterStall (c : Nat) : Nat := match c with | 0 => 17 | 1 => 3 | 2 => 21 | 3 => 4 | 4 => 5 | _ => 6

/-- swait (R279, R160): LD, ST and PR first wait for LQ = 0; held reports the wait covers stop the fibre here. -/
def execSwait (n : BitVec 8) (c : BitVec 4) (s : State) : Out :=
  scalarWord [] [] s fun k f =>
    let c := c.toNat
    if (c = 1 || c = 2 || c = 3) && f.lq ≠ 0 then stall k 17 s
    else if c = 1 && scalarLoadOut s k then stallLoads k s
    else if f.counter c ≤ n.toNat then consuming k f (covers c) s <|
      done k (if c = 3 then s.onFib k fun g => { g with
        unwaited := g.unwaited.filter fun u => g.prq.any (·.1 = u.id) } else s)
    else if c = 1 then stallLoads k s
    else stall k (counterStall c) s

/-- yield (R280): no architectural effect; the port issues another fibre's word next if one can issue. -/
def execYield (s : State) : Out := scalarWord [] [] s fun k _ => .next (s.onFib k fun f => { f.retire with yielded := true })

/-- twait (R281, R211): completes when TICK ≥ S[a]; in replay at once (R466). -/
def execTwait (a : BitVec 8) (s : State) : Out :=
  scalarWord [a.toNat] [] s fun k f =>
    if (f.sreg a.toNat).toNat ≤ s.tick || s.replaying f.dom then done k s
    else .next (s.onFib k fun g => { g with stall := 18, keep := [f.sreg a.toNat] })

/-! ### Barriers (R201, R282, R139) -/

/-- Fibres of a barrier's set that have not exited. -/
def barrierSet (s : State) (f : Fib) (w : Wait) : List (FKey × Fib) :=
  let l := match w with
    | .gbar => s.fibsOfGang f.gang
    | .fbar => (s.fibsOfBlock f.dom f.bid).filter fun e => e.2.spid = f.spid
    | .cbar c => (s.fibsOfBlock f.dom f.bid).filter fun e => (tget (s.block f.dom f.bid).crews c []).contains e.2.fid
    | _ => s.fibsOfBlock f.dom f.bid
  l.filter fun e => e.2.st != .exited

/-- A fibre departs: its release clears SR (R118), the acquire rinses with all ones, and the barrier word completes (R139, R282). -/
def depart (k : FKey) (mark : Nat) (rinses : Bool) (s : State) : State :=
  let s := clearSr k.core mark s
  let s := if rinses then rinse k.core (BitVec.allOnes 64) s else s
  s.onFib k fun f =>
    let g := f.retire
    { g with wait := .none, st := if f.st = .blocked then .running else f.st, stamp := f.stamp }

/-- Members that wait to join a crew join it for the next phase (R202). -/
def joinLate (d b c : Nat) (s : State) : State :=
  let bl := s.block d b
  let l := tget bl.late c []
  if l = [] then s else
  s.setBlock d b { bl with crews := tset bl.crews c (tget bl.crews c [] ++ l), late := tdel bl.late c }

/-- Reports that a barrier word covers: those of press operations once none is outstanding (R160). -/
def barrierCovers (f : Fib) (r : Report) : Bool := r.ctr ≤ 2 || f.pr = 0

/-- The barrier completes when every member of its set that has not exited has arrived; all depart together (R201).
While a member is frozen or parked, or holds a report that it covers, the others wait (R204, R411, R413). -/
def tryBarrier (f : Fib) (w : Wait) (s : State) : State :=
  let set := barrierSet s f w
  if set.all (fun e => e.2.wait = w && e.2.st != .saving && e.2.st != .saved && e.2.st != .restoring
      && e.2.st != .frozen && e.2.st != .parked && (oldestReport e.2 (barrierCovers e.2)).isNone) then
    let wide := match w with | .gbar => true | _ => !(f.oneCore s)
    let s := set.foldl (fun s e => depart e.1 e.2.mark wide s) s
    match w with
    | .cbar c => joinLate f.dom f.bid c s
    | _ => s
  else s

/-- Is every condition of a blocking point met besides the wait itself (R205, R412); no stitch is held there (R417). -/
def atBlockingPoint (s : State) (k : FKey) (f : Fib) : Bool :=
  f.lq = 0 && f.pr = 0 && f.sac = 0 && f.rw = 0 && f.ld = 0 && f.reports = [] && f.hkind ≤ 1 && f.held = []
    && !((s.core k.core).stores.any fun a => a.thr = .fib k)

/-- A waiting fibre becomes Blocked when it stands at a blocking point, and WAKE takes its condition (R203, R205). -/
def block (k : FKey) (kind arg : Nat) (s : State) : State :=
  match s.fib? k with
  | none => s
  | some f =>
    if f.st = .running && atBlockingPoint s k f then
      s.setFib k { f with st := .blocked, since := s.tick, wake := BitVec.ofNat 64 (kind * 2 ^ 60 + arg * 2 ^ 54) }
    else s

/-- A barrier word (R201, R282, R283): illegal in a save or restore handler; its arrival waits for LQ = 0, for the results of earlier
lane words and loads, and for what its release awaits; then the fibre waits for the others. A report that stops it there withdraws
the arrival, and its release has cleared no SR (R411). -/
def barrierWord (w : Wait) (reason kind arg scope : Nat) (s : State) : Out :=
  scalarWord [] [] s fun k f =>
    if f.hkind = 2 || f.hkind = 3 then trapScalar k .illegal {} s
    else if f.wait = w then consuming k f (barrierCovers f) s <|
      .next (tryBarrier f w (block k kind arg (s.onFib k fun g => { g with stall := reason })))
    else if f.lq ≠ 0 then stall k 17 s
    else if f.ld ≠ 0 || readsOut s k.core (.fib k) then stallLoads k s
    else if f.longs.any (·.flags = 0) then stall k 17 s
    else consuming k f (barrierCovers f) s <|
      let mark := if f.phase = 0 then s.nextId else f.mark
      if releaseWaits s k.core (.fib k) scope (f.oneCore s) mark then
        .next (s.onFib k fun g => { g with phase := 1, mark := mark, stall := 21 })
      else .next (tryBarrier f w (block k kind arg (s.onFib k fun g => { g with wait := w, phase := 2, mark := mark, stall := reason })))

/-- bar (R201). -/
def execBar (s : State) : Out := barrierWord .bar 7 1 0 0 s
/-- fbar (R201). -/
def execFbar (s : State) : Out := barrierWord .fbar 8 2 0 0 s
/-- gbar (R201): at die scope. -/
def execGbar (s : State) : Out := barrierWord .gbar 7 4 0 1 s
/-- cbar (R201, R202): by a fibre that is no member it completes at once and synchronises nothing. One that joins from the next
phase arrives for that phase. -/
def execCbar (c : BitVec 3) (s : State) : Out :=
  asScalar s fun k f =>
    if f.hkind = 2 || f.hkind = 3 then trapScalar k .illegal {} s
    else if (tget (s.block f.dom f.bid).crews c.toNat [] ++ tget (s.block f.dom f.bid).late c.toNat []).contains f.fid then barrierWord (.cbar c.toNat) 9 3 c.toNat 0 s
    else scalarWord [] [] s fun k _ => done k s

/-- cjoin (R202, R283): a crew whose current phase has an arrival takes the member from the next phase. -/
def execCjoin (c : BitVec 3) (s : State) : Out :=
  scalarWord [] [] s fun k f =>
    if f.hkind = 2 || f.hkind = 3 then trapScalar k .illegal {} s else
    let bl := s.block f.dom f.bid
    let m := tget bl.crews c.toNat []
    let l := tget bl.late c.toNat []
    if m.contains f.fid || l.contains f.fid then done k s
    else if (s.fibsOfBlock f.dom f.bid).any (fun e => m.contains e.2.fid && e.2.wait = .cbar c.toNat) then
      done k (s.setBlock f.dom f.bid { bl with late := tset bl.late c.toNat (l ++ [f.fid]) })
    else done k (s.setBlock f.dom f.bid { bl with crews := tset bl.crews c.toNat (m ++ [f.fid]) })

/-- The fibre leaves a crew; a phase that only it kept open completes (R201, R202). -/
def leaveCrew (f : Fib) (c : Nat) (s : State) : State :=
  let bl := s.block f.dom f.bid
  let s := s.setBlock f.dom f.bid { bl with
    crews := tset bl.crews c ((tget bl.crews c []).filter (· ≠ f.fid))
    late := tset bl.late c ((tget bl.late c []).filter (· ≠ f.fid)) }
  let s := if barrierSet s f (.cbar c) = [] then joinLate f.dom f.bid c s else s
  if barrierSet s f (.cbar c) = [] then s else tryBarrier f (.cbar c) s

/-- cleave (R202, R283). -/
def execCleave (c : BitVec 3) (s : State) : Out :=
  scalarWord [] [] s fun k f =>
    if f.hkind = 2 || f.hkind = 3 then trapScalar k .illegal {} s else done k (leaveCrew f c.toNat s)

end Sys2Proof.Machine
end

