-- ==== Sys2Proof/Machine/ScalarSpecial.lean ====
section
/-! DEFINITION. Special registers and extension blocks: major 0x18 (R284 to R293, R199). -/
namespace Sys2Proof.Machine

/-- Cores of a domain in service (R290). -/
def nCores (s : State) (d : Nat) : Nat := (s.dom d).ncores

/-- The value of a special register of a fibre (R241, R289 to R293). -/
def specialReg (s : State) (k : FKey) (f : Fib) (n : Nat) : W64 :=
  match n with
  | 0x00 => BitVec.ofNat 64 (f.tslot.getD s.tick)
  | 0x01 => BitVec.ofNat 64 (f.fid % 32)
  | 0x02 => BitVec.ofNat 64 (f.spid % 32)
  | 0x03 => BitVec.ofNat 64 (f.bid % 2 ^ 25)
  | 0x04 => BitVec.ofNat 64 (f.gid % 65536)
  | 0x05 => BitVec.ofNat 64 (k.core % 256 * 65536 + k.core / 32 % 8 * 256 + f.dom % 8)
  | 0x06 => BitVec.ofNat 64 (nCores s f.dom % 512)
  | 0x08 => BitVec.ofNat 64 (f.jord % 8)
  | 0x09 => f.jflags
  | 0x0A => f.rmode
  | 0x0B => f.lcb
  | 0x0C => BitVec.ofNat 64 (f.prio % 4)
  | 0x10 => f.tvec
  | 0x11 => f.epcs
  | 0x12 => f.epcl
  | 0x13 => f.cause
  | 0x14 => f.wake
  | 0x18 => match (s.core k.core).liveGrant f.dom f.bid with
    | some (g, r) => grantWord g r
    | none => 0
  | 0x19 => BitVec.ofNat 64 f.retired
  | _ => 0

/-- Bits of a special register that a write keeps; the others are reserved and ignored (R220, R221, R205, R291, R292). -/
def specialMask (n : Nat) : W64 :=
  match n with
  | 0x08 => 7
  | 0x09 => 0x1FF_FFFF_FFFF
  | 0x0A => 0x1F03
  | 0x0C => 3
  | 0x10 => 0xFFFF_FFFF_FFFF_FFFC
  | 0x13 => 0xFFFF_FFFF
  | 0x14 => 0xFFCF_FFFF_FFFF_FFFF
  | _ => BitVec.allOnes 64

/-- The fibre with a writable special register written, reserved bits dropped. -/
def setSpecial (n : Nat) (v : W64) (f : Fib) : Fib :=
  let v := v &&& specialMask n
  match n with
  | 0x08 => { f with jord := v.toNat }
  | 0x09 => { f with jflags := v }
  | 0x0A => { f with rmode := v }
  | 0x0B => { f with lcb := v }
  | 0x0C => { f with prio := v.toNat }
  | 0x10 => { f with tvec := v }
  | 0x11 => { f with epcs := v }
  | 0x12 => { f with epcl := v }
  | 0x13 => { f with cause := v }
  | 0x14 => { f with wake := v }
  | _ => f

/-- A register marked H of R241. -/
def isHandlerReg (n : Nat) : Bool := 0x10 ≤ n && n ≤ 0x14

/-- sget (R284, R285): JFLAGS and RETIRED wait for the lane stream; TICK is logged (R464). -/
def execSget (d n : BitVec 8) (s : State) : Out :=
  scalarWord [] [d.toNat] s fun k f =>
    let m := n.toNat
    if (m = 0x09 || m = 0x19) && (f.lq ≠ 0 || f.longs.any fun l => !l.mem) then stall k 17 s
    else
      let v := specialReg s k f m
      if m = 0 then
        let v := replayed s k f 6 f.pc v
        doneSreg k d.toNat v (logRead k f f.retired f.pc v s)
      else doneSreg k d.toNat v s

/-- sset (R284 to R286): H registers only in a handler; JORD, JFLAGS and RMODE wait for the lane stream; an LCB that is
not a multiple of 12 traps ALIGN. -/
def execSset (n a : BitVec 8) (s : State) : Out :=
  scalarWord [a.toNat] [] s fun k f =>
    let m := n.toNat
    let v := f.sreg a.toNat
    if isHandlerReg m && f.hkind = 0 then trapScalar k .privileged {} s
    else if (m = 0x08 || m = 0x09 || m = 0x0A) && (f.lq ≠ 0 || f.longs.any fun l => !l.mem) then stall k 17 s
    else if m = 0x0B && v.toNat % 12 ≠ 0 then trapScalar k .align { addr := v } s
    else .next (s.onFib k fun g => (setSpecial m v g).retire)

/-- The extension block v128 to v191 of a fibre reads 0 with tag 15 (R199, R287). -/
def clearExt (f : Fib) : Fib :=
  { f with vregs := f.vregs.filter fun e => !(128 ≤ e.1 && e.1 < 192), tags := f.tags.filter fun e => !(128 ≤ e.1 && e.1 < 192) }

/-- Free extension blocks of a sub-core's pool (R199). -/
def poolFree (s : State) (k : FKey) : Nat := tget (s.core k.core).xfree k.sub 0
def setPoolFree (k : FKey) (n : Nat) (s : State) : State := s.onCore k.core fun c => { c with xfree := tset c.xfree k.sub n }

/-- xacq (R287, R199): illegal in a save or restore handler (R283); waiting fibres are served in order of issue. -/
def execXacq (s : State) : Out :=
  scalarWord [] [] s fun k f =>
    if f.hkind = 2 || f.hkind = 3 then trapScalar k .illegal {} s
    else if f.lq ≠ 0 then stall k 17 s
    else if f.ext then done k s
    else if (s.launch f.dom).xp = 0 then trapScalar k .regRange {} s
    else
      let b := (s.core k.core).sub k.sub
      let q := if b.xq.contains k then b.xq else b.xq ++ [k]
      if poolFree s k ≠ 0 && q.head? = some k then
        let s := s.onCore k.core fun c => c.setSub k.sub { b with xq := q.drop 1 }
        .next ((setPoolFree k (poolFree s k - 1) s).onFib k fun g => { (clearExt g).retire with ext := true })
      else stall k 11 (s.onCore k.core fun c => c.setSub k.sub { b with xq := q })

/-- The fibre's extension block goes back to the pool (R199). -/
def returnExt (k : FKey) (f : Fib) (s : State) : State :=
  if f.ext then (setPoolFree k (poolFree s k + 1) s).onFib k fun g => { clearExt g with ext := false } else s

/-- xrel (R288): waits for LQ, LD and PR to be 0. -/
def execXrel (s : State) : Out :=
  scalarWord [] [] s fun k f =>
    if f.lq ≠ 0 then stall k 17 s
    else if f.ld ≠ 0 then stall k 3 s
    else if f.pr ≠ 0 then stall k 4 s
    else done k (returnExt k f s)

end Sys2Proof.Machine
end

