-- ==== Sys2Proof/Machine/System.lean ====
section
/-! DEFINITION. Hem registers and the system words: majors 0x26 and 0x27 (R384, R393 to R396, R507). -/
namespace Sys2Proof.Machine

/-- A hem register of a block (R383). -/
def hemOf (s : State) (d b h : Nat) : Hem := tget (s.block d b).hems h {}
def setHem (d b h : Nat) (v : Hem) (s : State) : State :=
  s.setBlock d b { s.block d b with hems := tset (s.block d b).hems h v }

/-- hemset (R384). -/
def execHemset (h : BitVec 5) (a : BitVec 8) (t : BitVec 2) (s : State) : Out :=
  scalarWord [a.toNat] [] s fun k f =>
    let v := f.sreg a.toNat
    done k (setHem f.dom f.bid h.toNat ⟨v.setWidth 32, (v >>> 32).setWidth 32, t.toNat⟩ s)

/-- hemget (R384). -/
def execHemget (d : BitVec 8) (h : BitVec 5) (s : State) : Out :=
  scalarWord [] [d.toNat] s fun k f =>
    let m := hemOf s f.dom f.bid h.toNat
    doneSreg k d.toNat (m.hi ++ m.lo) s

/-- trap (R394): waits for LQ = 0, then stops with TRAP_CALL; the stream resumes at the next word. -/
def execTrap (c : BitVec 8) (s : State) : Out :=
  scalarWord [] [] s fun k f =>
    if f.lq ≠ 0 then stall k 17 s
    else .next (takeStop k Cause.trapCall.code { arg := c.toNat } (f.pc + 4) s)

/-- brk (R394): waits for LQ = 0, then stops with BREAK at its own address. -/
def execBrk (c : BitVec 8) (s : State) : Out :=
  scalarWord [] [] s fun k f =>
    if f.lq ≠ 0 then stall k 17 s
    else .next (takeStop k Cause.brk.code { arg := c.toNat } f.pc s)

/-- The counters of tret and exit, and the stall reason of the first that is not 0 (R396, R507, R159). -/
def countersWait (f : Fib) : Option Nat :=
  ([0, 1, 2, 3, 4, 5].find? fun c => f.counter c ≠ 0).map counterStall

/-- The status of a handler is one tret accepts (R396). -/
def tretStatusOk (f : Fib) : Bool :=
  let h3 := f.hslots.getD 3 0
  h3 == BitVec.ofNat 64 f.hkind && f.epcs.extractLsb' 0 2 == 0 && f.epcl.extractLsb' 0 2 == 0
    && (f.wake.extractLsb' 60 4).toNat < 7

/-- A fibre that has finished its restore handler leaves Restoring: it waits again at its barrier, issues its chrecv
again, or issues its cancelled loads again and goes on (R208). -/
def leaveRestoring (k : FKey) (s : State) : State :=
  match s.fib? k with
  | none => s
  | some f =>
    let kind := (f.wake.extractLsb' 60 4).toNat
    let waits := 1 ≤ kind && kind ≤ 4
    let s := s.setFib k { f with
      st := if waits then .blocked else .running
      wait := if waits then f.wait else .none
      phase := if waits then 2 else 0
      since := s.tick, redo := [], redoI := [], redoL := [], hkind := f.hback, hback := 0
      longs := if kind = 6 then f.redoL.map fun l => { l with id := l.id + s.nextId } else []
      ldq := if kind = 6 then f.ldq ++ (f.redoI.filter (·.ld)).map fun i => (i.id + s.nextId, false) else f.ldq }
    let s := if kind = 6 then
        -- the loads ask anew, under new request numbers, through the tables as they stand
        let n := s.nextId
        let top := (f.redo.map (·.id) ++ f.redoI.map (·.id)).foldl max 0
        let again := fun (a : Acc) =>
          let pa := fun (p : Part) => (distXlate s f.dom p.va .load .fibre).getD p.pa
          let ps := a.parts.map fun p => { p with pa := pa p }
          { a with
            id := a.id + n, inst := a.inst + n, thr := .fib k, sent := false, parts := ps
            line := (ps.head?.map fun p => p.pa / 128).getD a.line }
        let s := { s with nextId := n + top + 1 }
        settle k.core (s.onCore k.core fun co => { co with
          loads := co.loads ++ f.redo.map again
          insts := co.insts ++ f.redoI.map fun i => { i with id := i.id + n, thr := .fib k, race := none } })
      else s
    traceFsync k 3 s

/-- Why tret and exit wait: for their counters, and for plain scalar loads whose verdict is not known (R161, R396, R507). -/
def lastWait (k : FKey) (f : Fib) (s : State) (go : Out) : Out :=
  if scalarLoadOut s k || f.lq = 0 && f.ld ≠ 0 then stallLoads k s else match countersWait f with
    | some r => stall k r s
    | none => go

/-- tret (R396): the wait, a consuming wait, then the status check, then the return of the handler's KIND. -/
def execTret (s : State) : Out :=
  scalarWord [] [] s fun k f =>
    if f.hkind = 0 then trapScalar k .tretIllegal {} s
    else consuming k f (fun _ => true) s <| lastWait k f s <|
      if !tretStatusOk f then trapScalar k .statusReserved {} s
      else match f.hkind with
        | 1 => .next (traceFsync k 3 (s.onFib k leaveHandler))
        | 2 =>
          .next (s.onFib k fun f => { leaveHandler f with st := .saved })
        | _ =>
          -- the last restore handler of the gang lets every fibre go on together (R419)
          let s := s.onFib k fun f => { leaveHandler f with st := .restoring }
          let all := s.fibsOfGang f.gang
          if all.all (fun e => e.2.st = .exited || (e.2.st = .restoring && e.2.hkind = 0)) then
            .next ((all.filter fun e => e.2.st = .restoring).foldl (fun s e => leaveRestoring e.1 s) s)
          else .next s

/-- hidget (R395): a handler slot, only in a handler. -/
def execHidget (d : BitVec 8) (n : BitVec 4) (s : State) : Out :=
  scalarWord [] [d.toNat] s fun k f =>
    if f.hkind = 0 then trapScalar k .privileged {} s else doneSreg k d.toNat (f.hslots.getD n.toNat 0) s

/-- hidput (R395). -/
def execHidput (a : BitVec 8) (n : BitVec 4) (s : State) : Out :=
  scalarWord [a.toNat] [] s fun k f =>
    if f.hkind = 0 then trapScalar k .privileged {} s
    else .next (s.onFib k fun g => { g.retire with hslots := g.hslots.set n.toNat (f.sreg a.toNat) })

/-- Barriers that an exit lets complete: of the block, the spool, the gang and every crew (R201). -/
def barriersAfterExit (f : Fib) (s : State) : State :=
  let ws := [Wait.bar, .fbar, .gbar] ++ (List.range 8).map Wait.cbar
  ws.foldl (fun s w => if (barrierSet s f w) = [] || !((barrierSet s f w).any fun e => e.2.wait = w) then s
    else tryBarrier f w s) s

/-- Grants of a block that has left a core end (R88, R507). -/
def endIdleGrants (core : Nat) (f : Fib) (s : State) : State :=
  if (s.fibsOfCore core).any (fun e => e.2.dom = f.dom && e.2.bid = f.bid && e.2.st != .exited) then s
  else endGrantsOf (fun g => g.dom == f.dom && g.bid == f.bid) core s

/-- A gang whose fibres have all exited is Exited, and its cut is released (R210, R47). -/
def gangExit (g : GKey) (s : State) : State :=
  if (s.fibsOfGang g).any (fun e => e.2.st != .exited) then s
  else match s.gang? g with
    | none => s
    | some r =>
      clearForwards g.dom (r.cores.foldl (fun s c => releaseCut c s) (s.setGang { r with st := .exited }))

/-- exit (R507): waits for every counter, then ends the fibre. -/
def execExit (s : State) : Out :=
  scalarWord [] [] s fun k f =>
    if f.hkind ≠ 0 then trapScalar k .illegal {} s
    else consuming k f (fun _ => true) s <| lastWait k f s <|
      let s := trace k [b8 0x62, b8 (handleOf k)] s
      let s := returnExt k f (s.onCore k.core fun co => { co with rowOps := co.rowOps.filter (·.k ≠ k) })
      let bl := s.block f.dom f.bid
      let s := s.setBlock f.dom f.bid { bl with
        crews := bl.crews.map fun e => (e.1, e.2.filter (· ≠ f.fid))
        late := bl.late.map fun e => (e.1, e.2.filter (· ≠ f.fid))
        insv := bl.insv.filter fun e => e.1 ≠ f.fid }
      let s := s.onFib k fun g => { g.retire with st := .exited, wait := .none, since := s.tick }
      .next (gangExit f.gang (endIdleGrants k.core f (barriersAfterExit f s)))

end Sys2Proof.Machine
end

