-- ==== Sys2Proof/Machine/EvDist.lean ====
section
/-! DEFINITION. Events of the distributor and the management controller: start of a domain (R43, R44, R181 to R185, R260, R261,
R434), placement (R187 to R189, R426), eviction and its save (R205 to R209, R419), hot cores (R209, R426), retirement of
granules, banks and cores (R63, R64, R424), and forwarding entries (R437). -/
namespace Sys2Proof.Machine

/-! ### The launch record (R43, R44, R181 to R185) -/

/-- A cut word is legal (R43). -/
def cutLegal (c : W32) : Bool :=
  let r := cutRegg c
  c.extractLsb' 24 8 = 0 && 16 ≤ r && r ≤ 128 && r % 16 = 0 && cutAccg c % 4 = 0 && r + cutScrg c + cutAccg c ≤ 128

/-- Fibre-registers of a sub-core and tile slots of a press under a cut (R45). -/
def fibreRegs (c : W32) : Nat := cutRegg c / 16 * 65536 / 384
def tileSlots (c : W32) : Nat := cutAccg c / 4 * 65536 / 18432

/-- Spools that one sub-core holds (R184). -/
def spoolsPerSub (l : Launch) : Nat :=
  let rf := fibreRegs l.cut
  let s := if rf < 64 * l.xp then 0 else min 4 ((rf - 64 * l.xp) / (l.spf * l.baseSize + l.winSize))
  if 0 < s ∧ 0 < l.acct then min s (tileSlots l.cut / (4 * l.acct)) else s

/-- Blocks that a unit holds (R184). -/
def unitCapacity (l : Launch) : Nat := (if l.quad then 64 else 16) * spoolsPerSub l / l.spb

/-- Bytes of a record from an offset, as a number. -/
def field (b : List W8) (off n : Nat) : Nat := leNat ((b.drop off).take n)

/-- The launch record's fields. -/
def launchOf (b : List W8) : Launch :=
  { cut := BitVec.ofNat 32 (field b 4 4), entry := BitVec.ofNat 64 (field b 8 8), lcbi := BitVec.ofNat 64 (field b 16 8)
    saveh := BitVec.ofNat 64 (field b 0x18 8), resth := BitVec.ofNat 64 (field b 0x20 8), savea := BitVec.ofNat 64 (field b 0x28 8)
    chtab := BitVec.ofNat 64 (field b 0x30 8), fibw := BitVec.ofNat 32 (field b 0x38 4), gangw := BitVec.ofNat 32 (field b 0x3C 4)
    ngang := field b 0x40 4, evt := field b 0x44 4, khdr := BitVec.ofNat 64 (field b 0x48 8) }

/-- The first check of a launch record that fails: CAUSE and OFF (R44, R185). -/
def launchFault (b : List W8) : Option (Nat × Nat) :=
  let l := launchOf b
  let checks : List (Bool × Nat × Nat) := [
    (field b 0 4 = 1, 1, 0), (cutLegal l.cut, 2, 4), (l.entry.toNat % 4 = 0, 1, 0x08), (l.lcbi.toNat % 12 = 0, 1, 0x10),
    (l.saveh.toNat % 4 = 0, 1, 0x18), (l.resth.toNat % 4 = 0, 1, 0x20), (l.savea.toNat % 0x1_0000 = 0, 5, 0x28),
    (l.fibw.extractLsb' 29 3 = 0 && l.fibw.extractLsb' 0 3 = 0 && l.acct ≤ 16, 1, 0x38),
    (l.gangw.extractLsb' 24 8 = 0 && l.gangw.extractLsb' 0 13 = 0 && l.h ≤ 2 && l.w ≤ 4, 1, 0x3C),
    (1 ≤ l.ngang && l.ngang ≤ 65536, 1, 0x40), (1 ≤ l.evt && l.evt ≤ 1_000_000, 1, 0x44), (l.khdr.toNat % 4 = 0, 1, 0x48),
    (field b 0x50 0x30 = 0, 1, 0x50), (spoolsPerSub l ≠ 0, 1, 0x38),
    (l.bpu ≤ unitCapacity l && (!l.quad || (l.h = 2 && 2 ≤ l.w)), 1, 0x3C)]
  (checks.find? fun c => !c.1).map (·.2)

/-! ### The kernel header and the pin ranges (R260, R261, R434) -/

/-- Pin ranges in use: index, start, length. -/
def pinRanges (h : List W8) : List (Nat × W64 × Nat) :=
  if field h 4 4 % 2 = 0 then [] else
  (List.range (min 16 (field h 0xC 4))).map fun i => (i, BitVec.ofNat 64 (field h (0x40 + 16 * i) 8), field h (0x48 + 16 * i) 8)

/-- Lines of a pin range. -/
def pinLinesOf (r : Nat × W64 × Nat) : List W64 := (List.range (r.2.2 / 128)).map fun j => r.2.1 + BitVec.ofNat 64 (128 * j)

/-- The first range, if any, that carries the union of lines past the quota of 768 lines. -/
def pinQuota : List (Nat × W64 × Nat) → List W64 → Option Nat
  | [], _ => none
  | r :: rs, have_ =>
    if 768 < r.2.2 / 128 then some r.1 else
    let all := (have_ ++ pinLinesOf r).eraseDups
    if 768 < all.length then some r.1 else pinQuota rs all

/-- The first check of a kernel header that fails (R44, R261). -/
def headerFault (l : Launch) (h : List W8) : Option (Nat × Nat) :=
  let rs := pinRanges h
  -- with PIN 1 every range has its multiples, in use or not
  let pins := if field h 4 4 % 2 = 0 then [] else (List.range 16).flatMap fun i =>
    [(decide (field h (0x40 + 16 * i) 8 % 128 = 0), 0x40 + 16 * i), (decide (field h (0x48 + 16 * i) 8 % 128 = 0), 0x48 + 16 * i)]
  let checks : List (Bool × Nat) := [(decide (field h 0 4 = 1), 0), (decide (field h 4 4 < 2), 4), (decide (field h 8 4 = 4), 8),
    (decide (field h 0xC 4 ≤ 16), 0xC), (decide (field h 0x20 8 = l.lcbi.toNat), 0x20), (decide (field h 0x28 8 % 12 = 0), 0x28),
    (decide (field h 0x30 16 = 0), 0x30)] ++ pins
  match checks.find? fun c => !c.1 with
  | some c => some (3, c.2)
  | none => (pinQuota rs []).map fun i => (3, 0x40 + 16 * i)

/-- The first pin range that gives some set a fourth pinned line, or whose lines fail the fetch check (R434). -/
def pinFault (s : State) (d : Nat) : List (Nat × W64 × Nat) → List W64 → Option (Nat × Nat)
  | [], _ => none
  | r :: rs, have_ =>
    let mine := pinLinesOf r
    let all := (have_ ++ mine).eraseDups
    let crowded := all.any fun a => 3 < (all.filter fun x => x.toNat / 128 % 256 = a.toNat / 128 % 256).length
    if crowded || mine.any (fun a => (distXlate s d a .fetch .fibre).isNone) then some (4, 0x40 + 16 * r.1)
    else pinFault s d rs all

/-- DSTART refused with a cause at an offset. -/
def refuseStart (d cause off : Nat) (s : State) : State :=
  s.setDom d { s.dom d with dstart := BitVec.ofNat 64 (off % 65536 * 2 ^ 32 + cause * 256 + 2) }

/-- A legal start: the retained launch record, NCORES, the gangs, and their placement requests in class 4 (R180, R187). -/
def startDomain (d : Nat) (l : Launch) (s : State) : State :=
  let n := ((s.coresOfDom d).filter fun c => (s.core c).inService).length
  let s := s.setDom d { s.dom d with launch := some l, dstart := 1, ncores := n }
  let gs : List Gang := (List.range l.ngang).map fun g => { dom := d, gid := g }
  gs.foldl (fun s g => queueGang g 4 s) { s with gangs := s.gangs ++ gs }

/-- DOMAIN_START: the distributor checks the launch record, the kernel header and the pin ranges, and records DSTART. -/
def execDomainStart (d : Nat) (s : State) : Out :=
  let dm := s.dom d
  if !s.cfgOk || dm.dies = 0 || dm.dstart.extractLsb' 0 2 ≠ 0 then .next s else
  let kh := match distRead s d dm.recAddr 128 with | some b => distLines s d (launchOf b).khdr 320 | none => []
  match fetchHome (distLines s d dm.recAddr 128 ++ kh) s with
  | some s => .next s
  | none =>
  match distRead s d dm.recAddr 128 with
  | none => .next (refuseStart d 6 0 s)
  | some b => match launchFault b with
    | some (c, o) => .next (refuseStart d c o s)
    | none =>
      let l := launchOf b
      match distRead s d l.khdr 320 with
      | none => .next (refuseStart d 7 0 s)
      | some h => match headerFault l h with
        | some (c, o) => .next (refuseStart d c o s)
        | none => match pinFault s d (pinRanges h) [] with
          | some (c, o) => .next (refuseStart d c o s)
          | none => .next (startDomain d { l with pins := (pinRanges h).map fun r => (r.2.1, r.2.2) } s)

/-! ### Placement (R187 to R189, R426) -/

/-- The request a die serves next: lowest class, then arrival. -/
def nextRequest (x : Die) : Option (Nat × GKey × Nat) :=
  (sortBy (fun (a b : Nat × GKey × Nat) => a.1 < b.1 || (a.1 == b.1 && a.2.2 ≤ b.2.2)) x.queue).head?

/-- A placement starts (R188): the cores are reserved in ascending number, the cut is applied and the pinned lines are filled, and the
gang record takes its channels. -/
def reserve (die cls : Nat) (g : Gang) (chans : List Chan) (cores : List Nat) (s : State) : State :=
  let s := unqueue g.key s
  let s := s.setGang { g with st := .placing, cls := cls, chans := chans }
  let s := (sortBy (fun a b => decide (a ≤ b)) cores).foldl (fun s c =>
    pinLines c g.dom (applyCut c (s.launch g.dom).cut g.key s)) s
  s.setDie die { s.die die with placing := some (cls, g.key, cores, s.tick) }

/-- In replay a gang is placed when the next gang record of the log says so (R467). -/
def placedNext (s : State) (g : Gang) (cls : Nat) : Bool := match s.logged g.dom fun r => r.kind = 9 with
  | some r => r.addr.toNat = g.gid && r.val.toNat % 256 = cls
  | none => false

/-- PLACEMENT: the placement in progress commits, or the next request is served: reserved where it fits, left in the queue where
its rectangle is occupied, UNPLACED where none fits in the domain. -/
def execPlacement (d : Nat) (s : State) : Out :=
  match (s.die d).placing with
  | some (cls, k, cores, _) =>
    match s.gang? k with
    | none => .next (rollback d s)
    | some g =>
      match (if cls = 2 || cls = 3 then imagesReady { g with cores := cores } s else none) with
      | some s => .next s
      | none => .next (commitPlace g cls cores (s.setDie d { s.die d with placing := none }))
  | none => match nextRequest (s.die d) with
    | none => .next s
    | some (cls, k, _) => match s.gang? k with
      | none => .next (unqueue k s)
      | some g =>
        if s.replaying g.dom && !placedNext s g cls then .next s else
        match findPlace s g true with
        | some cores => match bindChans g.dom s with
          | .inl s => .next s
          | .inr (s, chans) => .next (reserve d cls g chans cores s)
        | none =>
          if (findPlace s g false).isSome then .next s
          else .next (updateDunp g.dom (some g.gid) ((unqueue k s).setGang { g with st := .unplaced, cls := cls }))

/-- The bound of a placement expires in this tick while a request of a higher class waits (R189). -/
def boundExpires (s : State) (d : Nat) : Bool :=
  match (s.die d).placing with
  | some (cls, _, _, t) => s.tick = t + 4800 && (s.die d).queue.any fun r => r.1 < cls
  | none => false

/-- PLACEMENT_BOUND_EXPIRY: the placement aborts, and goes back to the head of its class. -/
def execPlacementBoundExpiry (d : Nat) (s : State) : Out :=
  if !boundExpires s d then .next s else
  match (s.die d).placing with
  | some (cls, k, _, _) =>
    let s := rollback d s
    let s := match s.gang? k with | some g => s.setGang { g with st := .pending } | none => s
    .next (s.setDie d { s.die d with queue := (cls, k, 0) :: (s.die d).queue })
  | none => .next s

/-! ### Blocking at a remote load, eviction and the save (R205 to R209, R419) -/

/-- The condition of a wait for a remote load: its KIND and the load's address (R205). -/
def remoteWake (va : W64) : W64 := BitVec.ofNat 64 (6 * 2 ^ 60) ||| ((va.extractLsb' 3 52).setWidth 64)

/-- REMOTE_LOAD_TIMEOUT (R205): a fibre at a consuming wait whose oldest load is remote and has been pending for more than 2 µs
reaches its blocking point; a report that it holds is delivered there first (R412). -/
def execRemoteLoadTimeout (k : FKey) (s : State) : Out :=
  match s.fib? k, (fibLoads s k).head? with
  | some f, some a =>
    if f.st = .running && f.stall = 3 && f.waits && a.late s.tick && atBlockingPoint s k { f with ldq := [], reports := [] } then
      match oldestReport f (fun _ => true) with
      | some r => deliver k r s
      | none => .next (s.setFib k { f with st := .blocked, since := s.tick, wait := .remote a.firstVa, wake := remoteWake a.firstVa })
    else .next s
  | _, _ => .next s

/-- Since when the gang has been idle, counted from the flag of its hottest core for a migration; `none` while it is not: every
fibre Blocked or Exited (R206, R209). -/
def idleSince (s : State) (g : Gang) : Option Nat :=
  let fs := s.fibsOfGang g.key
  let ok := fun (e : FKey × Fib) => e.2.st = .exited || (e.2.st = .blocked && e.2.reports = [])
  if g.st ≠ .running || fs = [] || !fs.all ok then none
  else
    let idle := fs.foldl (fun m e => max m e.2.since) 0
    some (if g.thermalFrom.isSome then g.cores.foldl (fun m c => if (s.core c).hot then max m (s.core c).hotAt else m) idle else idle)

/-- The gang may be chosen: idle for EVT µs, and another gang of the domain waits in class 2 or 4, or a thermal request stands. -/
def mayEvict (s : State) (g : Gang) : Bool :=
  match idleSince s g with
  | none => false
  | some t => t + (s.launch g.dom).evt * 1200 ≤ s.tick && (g.thermalFrom.isSome || s.dies.any fun e =>
      e.2.queue.any fun r => r.2.1.dom = g.dom && r.2.1 != g.key && (r.1 = 2 || r.1 = 4))

/-- The first page of the gang's scratch images that a store may not reach, with level and entry of a walk that failed (R413, R419
step 1). -/
def imageFault (s : State) (g : Gang) : Option (W64 × W64) :=
  ((imagePages (s.launch g.dom) g).find? fun p => (distXlate s g.dom p.2.2 .store .fibre).isNone).map fun p =>
    (p.2.2, match walk s g.dom p.2.2 with | .fault _ lv pa => BitVec.ofNat 64 (lv * 2 ^ 62 + pa) | .leaf _ _ _ => 0)

/-- A Blocked fibre of a gang chosen for eviction (R206): its remote loads are cancelled, with the words whose results they bring, and
kept to be issued again; the others are to complete before it goes to its save handler. -/
def startSave (k : FKey) (f : Fib) (s : State) : State :=
  let gone := (fibLoads s k).filter (·.remote)
  let ins := (s.core k.core).insts.filter fun i => gone.any fun a => a.inst = i.id
  let s := s.onCore k.core fun co => { co with
    loads := co.loads.filter fun a => !gone.any fun x => x.id = a.id
    insts := co.insts.filter fun i => !ins.any (fun x => x.id = i.id) || co.loads.any fun a => a.inst = i.id && !a.remote }
  settle k.core (s.setFib k { f with st := .saving, redo := gone, redoI := ins, stall := 0
                                     redoL := f.longs.filter fun l => ins.any fun i => i.id = l.id })

/-- A fibre whose loads have all completed or been cancelled, or that holds a report of one (R411), goes to its save handler. A chrecv
that still waits is withdrawn; one that has its item has completed, and KIND is 0 (R362). -/
def enterSave (k : FKey) (f : Fib) (s : State) : State :=
  let fs := s.fibsOfGang f.gang
  let ins := f.redoI.map fun i => match (s.core k.core).insts.find? (·.id = i.id) with | some x => x | none => i
  let s := withdraw k (s.onCore k.core fun co => { co with insts := co.insts.filter fun i => !ins.any fun x => x.id = i.id })
  let taken := f.wake.extractLsb' 60 4 == 5 && f.phase ≠ 7
  let f1 := { f with
    epcs := f.pc, epcl := f.lanePc, redoI := ins, ldq := [], longs := [], hback := f.hkind
    wake := if taken then 0 else f.wake
    wait := match f.wait with | .remote _ | .chan _ => .none | w => w }
  let f2 := enterHandler 2 (s.launch f.dom).saveh f1
  let s := s.setFib k { f2 with hslots := f2.hslots.set 4 (if savesSpool (fs.map (·.2)) f then 1 else 0) }
  traceFsync k 2 (s.onCore k.core fun co => co.setSub k.sub ((co.sub k.sub).endTurn k))

/-- The turn of a fibre that has been chosen and is not yet in its save handler. -/
def saveTurn (k : FKey) (f : Fib) (s : State) : Out :=
  match oldestReport f (fun _ => true) with
  | some r => deliver k r s
  | none => if fibLoads s k ≠ [] then stall k 3 s else .next (enterSave k f s)

/-- Every Blocked fibre of a gang is sent to its save handler (R206). -/
def evictGang (g : Gang) (s : State) : State :=
  let fs := s.fibsOfGang g.key
  let s := logGang g.key 0 (g.cores.headD 0) (s.setGang { g with st := .saving })
  (fs.filter fun e => e.2.st = .blocked).foldl (fun s e => startSave e.1 e.2 s) s

/-- The record that a gang's cores get when its scratch images cannot be stored (R413, R419). -/
def imageRec (c : Nat) (g : Gang) (va info : W64) (tick : Nat) : BitVec 512 :=
  mkRecord 1 0xFF 0 false (causeWord Cause.page.code {}) 0 0 va info tick (c % 256 * 2 ^ 56 + g.dom % 8 * 2 ^ 48 + g.gid % 65536) 0

/-- EVICTION_CHOICE: among the gangs of a domain that may be evicted, the one idle longest goes to its save handlers. One whose
scratch images cannot be stored is not chosen, and its cores are told once, until they can (R419; log 48). -/
def execEvictionChoice (d : Nat) (s : State) : Out :=
  if s.replaying d then .next s else
  let cands := s.gangs.filter fun g => g.dom = d && mayEvict s g
  let bad := cands.filterMap fun g => (imageFault s g).map fun x => (g, x)
  let good := cands.filter fun g => (imageFault s g).isNone
  let s := (bad.filter fun e => !e.1.told).foldl (fun s e => e.1.cores.foldl (fun s c =>
    pushRec c (imageRec c e.1 e.2.1 e.2.2 s.tick) s) (s.setGang { e.1 with told := true })) s
  match (sortBy (fun a b => (idleSince s a).getD 0 ≤ (idleSince s b).getD 0) good).head? with
  | none => .next s
  | some g => .next (evictGang { g with told := false } s)

/-- GANG_SAVE_COMPLETE (R419): after the last tret, and the last countdown of the gang's copies, the save is a release at pkg
(R139, R118), the scratchpads go to their images, the grants end, the cuts are released, and the gang is Saved. -/
def execGangSaveComplete (g : GKey) (s : State) : Out :=
  match s.gang? g with
  | none => .next s
  | some r =>
    let fs := s.fibsOfGang g
    if r.st ≠ .saving || !(fs.all fun e => e.2.st = .saved || e.2.st = .exited) || s.copies.any (fun y => fs.any fun e => e.1 = y.k)
        || r.cores.any (fun c => releaseWaits s c (.hart c 0) 2 true s.nextId) then
      .next s
    else
      match saveScratch r (r.cores.foldl (fun s c => clearSr c s.nextId s) s) with
      | .inl s => .next s
      | .inr s =>
      let bids := (fs.map (·.2.bid)).eraseDups
      let r' := { r with
        st := .saved, stoppedAt := s.tick
        saved := fs.map fun e => ⟨e.2.bid, e.2⟩
        blocks := bids.map fun b => (b, s.block g.dom b)
        lastDie := r.cores.head?.map (· / 32) }
      let s := { s.setGang r' with
        fibs := s.fibs.filter fun e => e.2.gang ≠ g
        spools := s.spools.filter fun e => !(fs.any fun f => spoolOf f.1 = e.1)
        blocks := s.blocks.filter fun e => !(e.1.1 = g.dom && bids.contains e.1.2) }
      let s := r.cores.foldl (fun s c => releaseCut c (endGrantsOf (fun x => x.dom == g.dom && x.gid == g.gid) c s)) s
      .next ((List.range 8).foldl (fun s die => if (s.dom g.dom).dies.getLsbD die then wakeGangs die s else s) s)

/-! ### Hot cores (R209, R426) -/

/-- HOT_FLAG: the management controller flags a core hot, and throttles it. -/
def execHotFlag (c : Nat) (s : State) : Out :=
  .next (s.onCore c fun co => { co with hot := true, hotAt := if co.hot then co.hotAt else s.tick, throttled := true })

/-- HOT_RESIDENCY_EXPIRY: a gang with a hot core, 2 ms after its last commit, has a thermal request against it. -/
def execHotResidencyExpiry (g : GKey) (s : State) : Out :=
  match s.gang? g with
  | none => .next s
  | some r =>
    if r.st = .running && r.cores.any (fun c => (s.core c).hot) && r.commit + 2_400_000 ≤ s.tick then
      .next (s.setGang { r with thermalFrom := some (r.cores.headD 0) })
    else .next s

/-- HOT_FLAG_CLEAR: UNPLACED gangs that now fit return to Pending in their class. -/
def execHotFlagClear (c : Nat) (s : State) : Out :=
  let s := s.onCore c fun co => { co with hot := false, throttled := false }
  let cool := fun (g : Gang) => if g.st = .running && !(g.cores.any fun c => (s.core c).hot) then { g with thermalFrom := none } else g
  let s := { s with gangs := s.gangs.map cool }
  let fit := s.gangs.filter fun g => g.st = .unplaced && (findPlace s g false).isSome
  .next (fit.foldl (fun s g => updateDunp g.dom none (queueGang g g.cls s)) s)

/-! ### Retirement (R63, R64, R424) -/

/-- A write to BGOOD0 or BGOOD1: granules of the cut in force stay, and set GERR. -/
def bgoodWrite (c : Nat) (hi : Bool) (v : W64) (s : State) : State :=
  let co := s.core c
  let inCut := fun (g : Nat) => co.bcut.getLsbD 31 && (assigned co.bcut co.good (g / 32)).contains g
  let asked := ((List.range 64).filter fun i => v.getLsbD i).map fun i => if hi then i + 64 else i
  let refused := asked.any fun g => co.good.getLsbD g && inCut g
  let gone := asked.filter fun g => !inCut g
  s.setCore c { co with
    good := gone.foldl (fun m g => m &&& ~~~((1 : BitVec 128) <<< g)) co.good
    bstat := if refused then co.bstat ||| 2 else co.bstat }

/-- GRANULE_RETIRE. -/
def execGranuleRetire (c : Nat) (hi : Bool) (v : BitVec 64) (s : State) : Out := .next (bgoodWrite c hi v s)

/-- A write to BFAILq: more than two marks change nothing and set ERR. -/
def bfailWrite (c q : Nat) (v : W64) (s : State) : State :=
  let old := tget (s.core c).bfail q 0
  let new := if 2 < onesBelow v 36 then old ||| (1 <<< 63)
    else (v &&& 0xF_FFFF_FFFF) ||| (if v.getLsbD 63 then (0 : W64) else old &&& (1 <<< 63))
  s.onCore c fun co => { co with bfail := tset co.bfail q new }

/-- BANK_MARK. -/
def execBankMark (c q : Nat) (v : BitVec 64) (s : State) : Out := .next (bfailWrite c q v s)

/-- An event for every block of a domain: of resident gangs, and of gangs saved or waiting to be placed, which find it in their mailbox
(R193; log 22). -/
def postAll (d kind : Nat) (payload : W64) (s : State) : State :=
  let l := s.launch d
  let s := ((s.blocks.filter fun e => e.1.1 = d).map (·.1.2)).foldl (fun s b => postMail d b kind payload s) s
  let item : BitVec 512 := BitVec.ofNat 512 (kind * 2 ^ 48 + payload.toNat * 2 ^ 64)
  let add := fun (bl : Block) => if bl.mail.length < 8 then { bl with mail := bl.mail ++ [item] }
    else { bl with mail := bl.mail.drop 1 ++ [item], mailOvf := true }
  let away := fun (g : Gang) => match g.st with | .pending | .placing | .saved | .unplaced => true | _ => false
  let s := { s with gangs := s.gangs.map fun g => if g.dom = d && away g then
      { g with blocks := (List.range l.bpg).map fun i => (g.gid * l.bpg + i, add (tget g.blocks (g.gid * l.bpg + i) {})) } else g }
  (List.range 8).foldl (fun s die => if (s.dom d).dies.getLsbD die then wakeGangs die s else s) s

/-- Every Registered word of a core's L1 goes home by WB, and the L1 is empty (R122). -/
def writeBackAll (c : Nat) (s : State) : State :=
  (s.core c).l1.foldl (fun s v =>
    let regd := (List.range 32).foldl (fun m i => if (v.words.getD i {}).st = .registered then m ||| wbit i else m) (0 : W32)
    let pois := (List.range 32).foldl (fun m i => if (v.words.getD i {}).poison then m ||| wbit i else m) (0 : W32)
    let s := s.onCore c fun co => { co with l1 := co.l1.filter (·.line ≠ v.line) }
    if regd = 0 then s else
    let s := breakResv c v.line regd none s
    let (id, s) := s.fresh
    let s := s.onCore c fun co => { co with wb := co.wb ++ [⟨id, v.line, regd, v.words.map (·.val), pois⟩] }
    let s := (tagFor v.line id s).getD s
    send { msg0 .wb (.core c) (homeOf v.line) v.line with mask := regd, data := v.words.map (·.val), poison := pois, tag := id } s) s

/-- Words are on their way to a core's L1: a request of its own that its home has not answered, or an answer that brings words. -/
def wordsDue (s : State) (c : Nat) : Bool :=
  let asks := fun (m : Msg) => m.kind = .reg && m.src = .core c || m.kind = .xreg && m.party = .core c
  s.net.any (fun m => asks m || (m.kind = .grant || m.kind = .push) && m.dst = .core c) || s.homeQ.any asks || s.acts.any fun x => asks x.msg

/-- The last steps of a retirement, once every word of the core has come home: its parts leave service, NCORES falls, TOPO is
posted and DONE is set. -/
def retireFinish (c : Nat) (s : State) : State :=
  let co := s.core c
  if !co.cret.getLsbD 0 || co.cret.getLsbD 1 || co.wb ≠ [] || wordsDue s c then s else
  let s := s.onCore c fun co => { co with
    cret := 3, l1 := [], icache := [], tlb := [], slots := [], press := [], loads := [], stores := [], insts := [], latches := [] }
  let held := fun (h : Hart) => { h with run := false, phase := 0, resv := none }
  let s := (s.setHart c 0 (held (s.hart c 0))).setHart c 1 (held (s.hart c 1))
  match s.domOfCore c with
  | none => s
  | some d =>
    let n := (s.dom d).ncores - 1
    let s := s.setDom d { s.dom d with ncores := n }
    postAll d 1 (BitVec.ofNat 64 (n % 65536 + c % 65536 * 65536)) s

/-- A write to CRET: 1 to RET starts the sequence of R424; a write while RET is 1 is ignored. -/
def cretWrite (c : Nat) (v : W64) (s : State) : State :=
  let co := s.core c
  if !v.getLsbD 0 || co.cret.getLsbD 0 then s else
  let s := s.setCore c { co with cret := 1, inService := false }
  let s := match co.owner with | some g => killGang g false s | none => s
  let s := endGrantsOf (fun _ => true) c s
  let s := { s with copies := s.copies.map fun y => if y.cons = some c then { y with cons := none } else y }
  retireFinish c (writeBackAll c s)

/-- CORE_RETIRE: a write to CRET; while a retirement waits for its words to come home, its last steps. -/
def execCoreRetire (c : Nat) (v : BitVec 64) (s : State) : Out := .next (retireFinish c (cretWrite c v s))

/-! ### Forwarding entries (R437) -/

/-- Length in bytes that FWL gives. -/
def fwLen (v : W64) : Nat := (v.extractLsb' 7 25).toNat * 128

/-- Two ranges of addresses share a byte. -/
def rangesMeet (a : W64) (n : Nat) (b : W64) (m : Nat) : Bool := a.toInt < b.toInt + m && b.toInt < a.toInt + n

/-- A write of V = 1 is refused (R437). -/
def forwardRefused (dm : Dom) (n : Nat) (len : Nat) : Bool :=
  let old := fwAddr (tget dm.fws n 0)
  let new := fwAddr (tget dm.fwn n 0)
  let others := (List.range 16).filterMap fun i =>
    let l := tget dm.fwl i 0
    if i ≠ n && l.getLsbD 63 then some (fwAddr (tget dm.fws i 0), fwLen l) else none
  len = 0 || (new.toInt - old.toInt) % 384 ≠ 0 || rangesMeet old len new len
    || others.any fun o => rangesMeet old len o.1 o.2 || rangesMeet new len o.1 o.2

/-- A write to FWLn. -/
def fwlWrite (d n : Nat) (v : W64) (s : State) : State :=
  let dm := s.dom d
  let l := dm.launch.getD {}
  let cur := tget dm.fwl n 0
  let t := if v.getLsbD 62 then cur &&& ~~~((1 : W64) <<< 62) else cur
  let err : W64 := 1 <<< 62
  let len := v &&& 0xFFFF_FF80
  let new :=
    if cur.getLsbD 63 then
      let t := if len ≠ cur &&& 0xFFFF_FF80 then t ||| err else t
      if v.getLsbD 63 then t else t &&& ~~~((1 : W64) <<< 63) &&& ~~~((1 : W64) <<< 61)
    else if !v.getLsbD 63 then (t &&& err) ||| len
    else if forwardRefused dm n (fwLen v) then t ||| err
    else
      let old := fwAddr (tget dm.fws n 0)
      let holds := fun (a : W64) => rangesMeet old (fwLen v) a 1
      let anch := dm.launch.isSome && (holds l.entry || holds l.saveh || holds l.resth || holds l.lcbi)
      (t &&& err) ||| len ||| (1 <<< 63) ||| (if anch then 1 <<< 61 else 0)
  s.setDom d { dm with fwl := tset dm.fwl n new }

/-- A write to FWSn or FWNn: ignored while the entry is valid, and ERR is set. -/
def fwWrite (d n : Nat) (isNew : Bool) (v : W64) (s : State) : State :=
  let dm := s.dom d
  let l := tget dm.fwl n 0
  if l.getLsbD 63 then s.setDom d { dm with fwl := tset dm.fwl n (l ||| (1 <<< 62)) }
  else
    let v := v &&& 0x7F_FFFF_FFFF_FF80
    s.setDom d (if isNew then { dm with fwn := tset dm.fwn n v } else { dm with fws := tset dm.fws n v })

/-- FORWARD_ENTRY_ENABLE: a write to FWLn with V = 1. -/
def execForwardEntryEnable (d n : Nat) (v : BitVec 64) (s : State) : Out := .next (fwlWrite d n (v ||| (1 <<< 63)) s)
/-- FORWARD_ENTRY_FREE: a write to FWLn with V = 0. -/
def execForwardEntryFree (d n : Nat) (v : BitVec 64) (s : State) : Out := .next (fwlWrite d n (v &&& ~~~((1 : W64) <<< 63)) s)

end Sys2Proof.Machine
end

