-- ==== Sys2Proof/Machine/ScalarMem.lean ====
section
/-! DEFINITION. Scalar loads, stores, ordering words and atomics: majors 0x0F and 0x19 to 0x22 (R272, R346 to R349). -/
namespace Sys2Proof.Machine

/-! ### Before an access issues -/

/-- A scalar acquire of the fibre has not completed: nothing later of its thread is performed or issues (R136). -/
def acqPending (s : State) (c : Nat) (t : Thread) : Bool := (s.core c).insts.any fun i => i.thr = t && i.acq.isSome

/-- Why an access of a fibre cannot issue yet: an acquire in progress (R136); for a store, an older load (R132), an
engine that has not started on a descriptor (R172), or a full counter (R159); for a lane load a full counter; and 8,192 requests of the
core outstanding (R32; what counts, and reason 3, are the model's: log 60). -/
def memStall (s : State) (k : FKey) (f : Fib) (ld st : Bool) : Option Nat :=
  if acqPending s k.core (.fib k) || (s.core k.core).full then some 3
  else if st && loadsOut s k.core (.fib k) then some 3
  else if st && (s.copies.any fun y => y.k = k && !y.started) then some 5
  else if st && f.stc ≥ 63 then some 21
  else if ld && f.ld ≥ 63 then some 3
  else none

/-- The access rows of a scratch part within its core's scratchpad. -/
def scratchRows (p : Part) : Nat × Nat :=
  let off := p.va.toNat % 2 ^ 23
  (off / 32, (off + p.n - 1) / 32)

/-- A range scoreboard entry stalls the access (R176). -/
def boardHit (s : State) (l : List Checked) (wr : Bool) : Bool := l.any fun e => match e.space with
  | .scratch c => let r := scratchRows e.part
    (s.core c).board.any fun b => (b.dest || wr) && b.lo ≤ r.2 && r.1 ≤ b.hi
  | _ => false

/-- The translations an instruction used become most recently used, and fault slots it met are consumed. -/
def usedPages (c : Nat) (rs : List LaneReq) (s : State) : State :=
  let vas := rs.flatMap fun r => [r.addr, r.addr + BitVec.ofNat 64 (r.n - 1)]
  vas.foldl (fun s v => touchTlb c v s) (dropSlots c vas s)

/-- Misses take slots; the word's check has not completed, so the fibre issues nothing on either stream (R34, R409). -/
def missScalar (k : FKey) (l : List (Nat × Bool)) (s : State) : Out :=
  .next ((l.foldl (fun s e => addSlot k.core e.1 e.2 s) s).onFib k fun f => { f with stall := 13, susp := 1 })

/-- A scalar word whose checks have passed waits: the other stream may issue. -/
def stallOpen (k : FKey) (r : Nat) (s : State) : Out :=
  .next (s.onFib k fun f => { f with stall := r, susp := if f.susp = 1 then 0 else f.susp })

/-- The check of a scalar word's accesses (R34, R51, R39): a miss waits, a failure stops the fibre exactly, and otherwise
the word goes on with its checked parts, unless the range scoreboard holds an access row (R176). -/
def scalarCheck (k : FKey) (f : Fib) (scr : Bool) (sh : Shape) (u : Use) (rs : List LaneReq) (s : State)
    (go : List Checked → State → Out) : Out :=
  match checkAll s k.core f.gang scr sh u .fibre rs with
  | .miss l => missScalar k l s
  | .fault c _ a i => trapScalar k c { addr := a, info := i } (if scr then s else usedPages k.core rs s)
  | .ok l => if boardHit s l u.writes then stallOpen k 15 s else go l (if scr then s else usedPages k.core rs s)

/-- A scalar word retires and its accesses start. -/
def startScalar (k : FKey) (f : Fib) (fin : Fin) (kind : AccKind) (strong : Bool) (op : Nat) (st : Bool) (acq : Option W64)
    (sys : Bool) (l : List Checked) (s : State) : Out :=
  .next (reap k.core (issueAccs k.core (.fib k) f.pc fin 0 kind strong op f.dom false st acq sys l (s.onFib k Fib.retire)))

/-- One access of the scalar stream. -/
def scalarReq (a : W64) (n : Nat) (data cmp : List W8) : List LaneReq :=
  [{ lane := scalarLane, addr := a, n := n, data := data, cmp := cmp }]

/-- A release at a scope, before the word that carries it (R118, R136, R153): the fibre waits with reason 21, then SR is
cleared, then the word goes on. -/
def releaseThen (k : FKey) (f : Fib) (scope : Nat) (s : State) (go : State → Out) : Out :=
  let mark := if f.phase = 0 then s.nextId else f.mark
  if releaseWaits s k.core (.fib k) scope (f.oneCore s) mark then
    .next (s.onFib k fun g => { g with phase := 1, mark := mark, stall := 21, susp := if g.susp = 1 then 0 else g.susp })
  else go (clearSr k.core mark s)

/-- A word that covers the reports of plain scalar loads: it waits for the older ones, whose verdicts are not known yet, and is then
a consuming wait (R161, R411). -/
def covering (k : FKey) (f : Fib) (p : Report → Bool) (s : State) (go : Out) : Out :=
  if scalarLoadOut s k then stallLoads k s else consuming k f p s go

/-! ### Plain accesses (R272, R346) -/

/-- A plain scalar load of n bytes at an address. -/
def plainLoad (reads : List Nat) (d : BitVec 8) (n : Nat) (scr : Bool) (addr : Fib → W64) (s : State) : Out :=
  scalarWord reads [d.toNat] s fun k f =>
    match memStall s k f false false with
    | some r => stall k r s
    | none => scalarCheck k f scr .plain .load (scalarReq (addr f) n [] []) s fun l s =>
        startScalar k f (.sreg d.toNat) .load false 0 false none false l s

/-- ldlit (R272): a plain load at (PC with bits [2:0] cleared) + 8 × imm18. -/
def execLdlit (d : BitVec 8) (n : BitVec 18) (s : State) : Out :=
  plainLoad [] d 8 false (fun f => (f.pc &&& ~~~(7 : W64)) + ((n.signExtend 64) <<< 3)) s

/-- sld (R346). -/
def scalarLoad (n : Nat) (d a : BitVec 8) (p : Bool) (o : BitVec 9) (s : State) : Out :=
  plainLoad [a.toNat] d n p (fun f => f.sreg a.toNat + o.signExtend 64) s

/-- sst (R346): raises ST and enters the store buffer. -/
def scalarStore (n : Nat) (d a : BitVec 8) (p : Bool) (o : BitVec 9) (s : State) : Out :=
  scalarWord [a.toNat, d.toNat] [] s fun k f =>
    match memStall s k f false true with
    | some r => stall k r s
    | none =>
      let data := leBytes (f.sreg d.toNat).toNat n
      scalarCheck k f p .plain .store (scalarReq (f.sreg a.toNat + o.signExtend 64) n data []) s fun l s =>
        startScalar k f .none .store false 0 true none false l s

def execSld8 (d a : BitVec 8) (p : Bool) (o : BitVec 9) (s : State) : Out := scalarLoad 1 d a p o s
def execSld16 (d a : BitVec 8) (p : Bool) (o : BitVec 9) (s : State) : Out := scalarLoad 2 d a p o s
def execSld32 (d a : BitVec 8) (p : Bool) (o : BitVec 9) (s : State) : Out := scalarLoad 4 d a p o s
def execSld64 (d a : BitVec 8) (p : Bool) (o : BitVec 9) (s : State) : Out := scalarLoad 8 d a p o s
def execSst8 (d a : BitVec 8) (p : Bool) (o : BitVec 9) (s : State) : Out := scalarStore 1 d a p o s
def execSst16 (d a : BitVec 8) (p : Bool) (o : BitVec 9) (s : State) : Out := scalarStore 2 d a p o s
def execSst32 (d a : BitVec 8) (p : Bool) (o : BitVec 9) (s : State) : Out := scalarStore 4 d a p o s
def execSst64 (d a : BitVec 8) (p : Bool) (o : BitVec 9) (s : State) : Out := scalarStore 8 d a p o s

/-! ### Ordering words (R347, R136) -/

/-- A word on the scalar stream that carries a release or an acquire waits for the lane words enqueued before it (R130). -/
def orderedWord (k : FKey) (f : Fib) (s : State) (go : Out) : Out := if f.lq ≠ 0 then stall k 17 s else go

/-- acq (R347): waits until every older load of the thread has been performed, then rinses. -/
def execAcq (sc : BitVec 2) (a : BitVec 8) (s : State) : Out :=
  scalarWord [a.toNat] [] s fun k f => orderedWord k f s <|
    if readsOut s k.core (.fib k) || acqPending s k.core (.fib k) then stall k 3 s
    else done k (acquireRinse k.core sc.toNat (f.oneCore s) (f.sreg a.toNat) s)

/-- rel (R347, R118). -/
def execRel (sc : BitVec 2) (s : State) : Out :=
  scalarWord [] [] s fun k f => orderedWord k f s <|
    covering k f releaseCovers s <| releaseThen k f sc.toNat s fun s => done k s

/-- fence (R347, R136): a release, then an acquire with the same scope. -/
def execFence (sc : BitVec 2) (a : BitVec 8) (s : State) : Out :=
  scalarWord [a.toNat] [] s fun k f => orderedWord k f s <|
    covering k f releaseCovers s <| releaseThen k f sc.toNat s fun s =>
      if readsOut s k.core (.fib k) || acqPending s k.core (.fib k) then
        .next (s.onFib k fun g => { g with phase := 1, mark := if f.phase = 0 then s.nextId else f.mark, stall := 3 })
      else done k (acquireRinse k.core sc.toNat (f.oneCore s) (f.sreg a.toNat) s)

/-- rinse (R347): orders nothing; the rinse of R119 at its issue. -/
def execRinse (a : BitVec 8) (s : State) : Out :=
  scalarWord [a.toNat] [] s fun k f => done k (rinse k.core (f.sreg a.toNat) s)

/-! ### Strong accesses and atomics (R348, R349) -/

/-- The rinse of an acquire form: mask all ones, none at blk scope for a block on one core (R119, R239). -/
def acqMask (f : Fib) (scope : Nat) (s : State) : W64 := if scope = 0 && f.oneCore s then 0 else BitVec.allOnes 64

/-- sld with an order and a scope (R348, R114): at blk scope by a block on one core it is served as a plain load, and its LD is then a plain
one, which race detection examines. DEDUCED (log 58). -/
def execSldStrong (sc : BitVec 2) (o : Bool) (d a : BitVec 8) (w : BitVec 2) (s : State) : Out :=
  scalarWord [a.toNat] [d.toNat] s fun k f =>
    if o && f.lq ≠ 0 then stall k 17 s else
    match memStall s k f false false with
    | some r => stall k r s
    | none => scalarCheck k f false .strong .load (scalarReq (f.sreg a.toNat) (2 ^ w.toNat) [] []) s fun l s =>
        startScalar k f (.sreg d.toNat) .load (!(sc = 0 && f.oneCore s)) 0 false
          (if o then some (acqMask f sc.toNat s) else none) (sc = 3) l s

/-- sst with an order and a scope (R348): a release store drains first. -/
def execSstStrong (sc : BitVec 2) (o : Bool) (d a : BitVec 8) (w : BitVec 2) (s : State) : Out :=
  scalarWord [a.toNat, d.toNat] [] s fun k f =>
    if o && f.lq ≠ 0 then stall k 17 s else
    match memStall s k f false true with
    | some r => stall k r s
    | none =>
      let n := 2 ^ w.toNat
      scalarCheck k f false .strong .store (scalarReq (f.sreg a.toNat) n (leBytes (f.sreg d.toNat).toNat n) []) s fun l s =>
        let go := fun s => startScalar k f .none .store true 0 true none (sc = 3) l s
        if o then covering k f releaseCovers s (releaseThen k f sc.toNat s go) else go s

/-- A scalar atomic (R349): release part, the access at the word's owner, acquire part; it raises ST. -/
def scalarAtomic (op : Nat) (o sc : BitVec 2) (z : Bool) (d a : BitVec 8) (s : State) : Out :=
  scalarWord (if op = 9 then [a.toNat, d.toNat, d.toNat + 1] else [a.toNat, d.toNat]) [d.toNat] s fun k f =>
    if o ≠ 0 && f.lq ≠ 0 then stall k 17 s else
    match memStall s k f false true with
    | some r => stall k r s
    | none =>
      let n := if z then 8 else 4
      let old := leBytes (f.sreg d.toNat).toNat n
      let new := if op = 9 then leBytes (f.sreg (d.toNat + 1)).toNat n else old
      scalarCheck k f false .strong .atomic (scalarReq (f.sreg a.toNat) n new (if op = 9 then old else [])) s fun l s =>
        let acq := if o.getLsbD 0 then some (acqMask f sc.toNat s) else none
        let go := fun s => startScalar k f (.sreg d.toNat) .atomic true op true acq (sc = 3) l s
        if o.getLsbD 1 then covering k f releaseCovers s (releaseThen k f sc.toNat s go) else go s

/-- satom (R349). -/
def execSatom (o sc : BitVec 2) (z : Bool) (d a : BitVec 8) (x : BitVec 4) (s : State) : Out :=
  scalarAtomic x.toNat o sc z d a s

/-- scas (R349). -/
def execScas (o sc : BitVec 2) (z : Bool) (d a : BitVec 8) (s : State) : Out := scalarAtomic 9 o sc z d a s

end Sys2Proof.Machine
end

