-- ==== Sys2Proof/Machine/Channels.lean ====
section
/-! DEFINITION. Channels: major 0x23 (R358 to R363). The hamper's own events are in EvHamper. -/
namespace Sys2Proof.Machine

/-- The bound, unbroken channel of a fibre's gang (R192, R358). -/
def chanOf (s : State) (f : Fib) (c : Nat) : Option Chan := match s.gang? f.gang with
  | some g => g.chans.find? fun x => x.ch = c && !x.broken
  | none => none

/-- The hamper request of a thread that stands at a home. -/
def State.hampOf (s : State) (t : Thread) : Option HampReq := s.hamp.find? fun q => q.thr = some t

/-- A new hamper request joins those held, in arrival order (R359). -/
def askHamper (t : Thread) (enq : Bool) (c : Chan) (item : BitVec 512) (s : State) : State :=
  let (id, s) := s.fresh
  { s with hamp := s.hamp ++ [{ id := id, enq := enq, desc := c.desc, cap := c.cap, ring := c.ring, pages := c.pages,
                                item := item, thr := some t }] }

/-- An item as the eight doublewords a fibre keeps. -/
def itemWords (v : BitVec 512) : List W64 := (List.range 8).map fun i => v.extractLsb' (64 * i) 64
def wordsItem (l : List W64) : BitVec 512 := ofBytes512 (l.flatMap fun w => leBytes w.toNat 8)

/-- The in-service slot of a fibre and channel takes an item, or is cleared (R192; log 13). -/
def setService (d b fid ch : Nat) (item : Option (BitVec 512)) (s : State) : State :=
  let bl := s.block d b
  let rest := bl.insv.filter fun e => !(e.1 = fid && e.2.1 = ch)
  s.setBlock d b { bl with insv := match item with | some x => rest ++ [(fid, ch, x)] | none => rest }

/-- chsend (R360): release, the item's 64 bytes as plain loads, then the enqueue at the hamper's home. -/
def execChsend (c : BitVec 6) (a : BitVec 8) (p : Bool) (s : State) : Out :=
  scalarWord [a.toNat] [] s fun k f =>
    if f.phase = 3 then stall k 10 s
    else match chanOf s f c.toNat with
      | none => trapScalar k .channel { addr := c.setWidth 64 } s
      | some ch =>
        let addr := f.sreg a.toNat
        if f.phase = 2 then match (s.core k.core).insts.find? (fun i => i.id = f.mark) with
          | some i =>
            if i.left ≠ 0 then stall k 3 s else
            let s := s.onCore k.core fun co => { co with insts := co.insts.filter (·.id ≠ i.id) }
            let s := askHamper (.fib k) true ch (ofBytes512 (gotBytes i.got scalarLane 64)) s
            .next (s.onFib k fun g => { g with phase := 3, stall := 10 })
          | none => .next (s.onFib k fun g => { g with phase := 0 })
        else if c = 63 then trapScalar k .channel { addr := 63 } s
        else if addr.extractLsb' 0 6 ≠ 0 then
          trapScalar k .align { addr := if p then (addr.setWidth 32).setWidth 64 else addr } s
        else orderedWord k f s <| match memStall s k f false false with
          | some r => stall k r s
          | none => scalarCheck k f p .plain .load (scalarReq addr 64 [] []) s fun l s =>
              covering k f releaseCovers s <| releaseThen k f (if ch.pool then 3 else 2) s fun s =>
                let s := s.onFib k fun g => { g with phase := 2, mark := s.nextId, stall := 3, susp := 0 }
                .next (reap k.core (issueAccs k.core (.fib k) f.pc .hold 0 .load false 0 f.dom false false none false l s))

/-- The 64 bytes that a chrecv stores, one plain store of the scalar stream. -/
def recvReq (va : W64) (item : BitVec 512) : List LaneReq := scalarReq va 64 (bytesOf512 item) []

/-- A chrecv that waits can take an item: its stores may issue and its acquire follow, and its check passes; the checked parts of
its 64 bytes (R361). -/
def recvParts (s : State) (k : FKey) (f : Fib) (item : BitVec 512) : Option (List Checked) :=
  match f.keep with
  | va :: _ :: p :: _ =>
    if (memStall s k f false true).isSome || readsOut s k.core (.fib k) then none else
    match checkAll s k.core f.gang (p = 1) .plain .store .fibre (recvReq va item) with
    | .ok l => if boardHit s l true then none else some l
    | _ => none
  | _ => none

/-- The item has come to a chrecv: it is stored, takes its in-service slot, and the acquire follows (R361). -/
def receive (k : FKey) (f : Fib) (ch : Nat) (item : BitVec 512) (l : List Checked) (s : State) : State :=
  let pool := match chanOf s f ch with | some x => x.pool && ch ≠ 63 | none => false
  let s := setService f.dom f.bid f.fid ch (some item) s
  let s := s.onFib k fun g => { g.retire with
    st := if g.st = .blocked then .running else g.st, wait := .none, stall := if g.st = .parked then g.stall else 0 }
  let s := issueAccs k.core (.fib k) f.pc .none 0 .store false 0 f.dom false true none false l s
  reap k.core (acquireRinse k.core (if pool then 3 else 2) (f.oneCore s) (f.keep.getD 1 0) s)

/-- A chrecv that waits becomes Blocked at its blocking point. Nothing can stop it there any more, so it has taken the place of the
item it had in service (R192, R205, R411; log 13). -/
def blockChan (k : FKey) (f : Fib) (ch : Nat) (s : State) : State :=
  let s := block k 5 ch s
  match s.fib? k with
  | some g => if g.st = .blocked then setService f.dom f.bid f.fid ch none s else s
  | none => s

/-- chrecv (R361, R205): waits at the hamper's home, which passes an item once every check has passed, or at the block's mailbox for
channel 63. -/
def execChrecv (c : BitVec 6) (d a : BitVec 8) (p : Bool) (s : State) : Out :=
  scalarWord [a.toNat, d.toNat] [] s fun k f =>
    let addr := f.sreg a.toNat
    let va := if p then (addr.setWidth 32).setWidth 64 else addr
    if f.phase = 7 then
      match oldestReport f (fun _ => true), checkAll s k.core f.gang p .plain .store .fibre (recvReq addr 0) with
      | some r, _ => deliver k r s
      | none, .fault e _ x i => trapScalar k e { addr := x, info := i } s
      | none, .miss l => missScalar k l s
      | none, .ok _ =>
        let s := s.onFib k fun g => { g with stall := 10, susp := if g.susp = 1 then 0 else g.susp }
        if c = 63 then match takeMail f.dom f.bid s with
          | none => .next (blockChan k f 63 s)
          | some (item, s') => match recvParts s k f item with
            | some l => .next (receive k f 63 item l s')
            | none => .next s
        else match chanOf s f c.toNat with
          | some x => .next (if s.hampCount x.desc = 0 then blockChan k f c.toNat s else s)
          | none => .next s
    else if c ≠ 63 && (chanOf s f c.toNat).isNone then trapScalar k .channel { addr := c.setWidth 64 } s
    else if addr.extractLsb' 0 6 ≠ 0 then trapScalar k .align { addr := va } s
    else orderedWord k f s <| match memStall s k f false false with
      | some r => stall k r s
      | none => scalarCheck k f p .plain .store (scalarReq addr 64 [] []) s fun _ s =>
          covering k f (fun _ => true) s <|
            let s := match chanOf s f c.toNat with
              | some x => if c = 63 then s else askHamper (.fib k) false x 0 s
              | none => s
            .next (s.onFib k fun g => { g with phase := 7, wait := .chan c.toNat, stall := 10, susp := 0
                                               keep := [addr, f.sreg d.toNat, if p then 1 else 0] })

/-- chpoll (R363): TAIL − HEAD at the home, in its turn among the thread's loads; for channel 63 the mailbox's items. -/
def execChpoll (c : BitVec 6) (d : BitVec 8) (s : State) : Out :=
  scalarWord [] [d.toNat] s fun k f =>
    if c = 63 then doneSreg k d.toNat (BitVec.ofNat 64 (s.block f.dom f.bid).mail.length) s
    else match chanOf s f c.toNat with
      | none => trapScalar k .channel { addr := c.setWidth 64 } s
      | some ch =>
        if readsOut s k.core (.fib k) || acqPending s k.core (.fib k) || !s.quiet (ch.desc / 128) then stall k 3 s
        else
          let v := replayed s k f 6 f.pc (BitVec.ofNat 64 (s.hampCount ch.desc))
          doneSreg k d.toNat v (logRead k f f.retired f.pc v s)

end Sys2Proof.Machine
end

