-- ==== Sys2Proof/Machine/EvRecord.lean ====
section
/-! DEFINITION. The recorder of a domain: checkpoints, order logs and replay (R461 to R468). -/
namespace Sys2Proof.Machine

/-! ### Registers (R461) -/

/-- A near address of a domain's cores. -/
def State.nearOf (s : State) (d pa : Nat) : Bool := pa < 2 ^ 41 && (s.dom d).dies.getLsbD (pa / 2 ^ 38)

/-- An address of the bolt windows of a domain's cores. -/
def State.boltOf (s : State) (d pa : Nat) : Bool := inBolt pa && (s.dom d).dies.getLsbD ((pa - 0xB_0000_0000_0000) / 0x80_0000 / 32)

/-- STATE of RPSTAT. -/
def rpState (dm : Dom) : Nat := (dm.rpstat.extractLsb' 0 4).toNat

/-- A write to RPCTL. Setting EN starts recording; clearing it ends it. -/
def rpctlWrite (d : Nat) (v : W64) (s : State) : State :=
  let dm := s.dom d
  let t := (v.extractLsb' 0 10).toNat
  let depth := (v.extractLsb' 16 4).toNat
  let base := (dm.rpbase.extractLsb' 30 22).toNat * 2 ^ 30
  if rpState dm = 2 || t = 0 || 1000 < t || depth = 0 || (v.getLsbD 31 && !inPool base) then
    s.setDom d { dm with rpctl := dm.rpctl ||| (1 <<< 63) }
  else
    let err : W64 := if v.getLsbD 63 then 0 else dm.rpctl &&& (1 <<< 63)
    let dm' := { dm with rpctl := (v &&& 0x800F_03FF) ||| err }
    if v.getLsbD 31 && !dm.rpctl.getLsbD 31 then
      s.setDom d { dm' with rpstat := (dm.rpstat &&& 0x8000_0000) ||| 1, checkpoints := [], log := [], lastCkpt := s.tick, quiesce := false }
    else if !v.getLsbD 31 && dm.rpctl.getLsbD 31 then
      s.setDom d { dm' with rpstat := dm.rpstat &&& ~~~(15 : W64), quiesce := false }
    else s.setDom d dm'

/-- RECORDING_ENABLE: a write to RPCTL with EN = 1. -/
def execRecordingEnable (d : Nat) (v : BitVec 64) (s : State) : Out := .next (rpctlWrite d (v ||| 0x8000_0000) s)

/-! ### Checkpoints (R462) -/

/-- Fibres of a domain. -/
def State.fibsOfDom (s : State) (d : Nat) : List (FKey × Fib) := s.fibs.filter fun e => e.2.dom = d

/-- A fibre can be captured: its counters are 0, its store buffer is drained and it has no access outstanding. -/
def captured (s : State) (e : FKey × Fib) : Bool :=
  let mine := fun (t : Thread) => t == .fib e.1
  e.2.ld = 0 && e.2.stc = 0 && e.2.pr = 0 && e.2.sac = 0 && e.2.rw = 0
    && !((s.core e.1.core).stores.any fun a => mine a.thr) && !((s.core e.1.core).insts.any fun i => mine i.thr)

/-- The near memory of a domain and the bolts of its cores, every word at its current value. -/
def domImage (s : State) (d : Nat) : List Host.Cell :=
  let m := s.mem.filter fun e => s.nearOf d e.1 || s.boltOf d e.1
  (s.owners.filter fun e => s.nearOf d (4 * e.1)).foldl (fun m e =>
    Memory.writeBytes m (4 * e.1) (leBytes (s.curWord (e.1 / 32) (e.1 % 32)).1.toNat 4)) m

/-- Bytes of page data in a checkpoint: every populated page for the first, else the pages that differ from the last. -/
def pageBytes (s : State) (d : Nat) (old : Option CheckpointRec) (m : List Host.Cell) : Nat :=
  match old with
  | none => ((s.coresOfDom d).length) * 0x1_8000_0000
  | some r =>
    let diff := (m.filter fun e => !r.mem.contains e) ++ (r.mem.filter fun e => !m.contains e)
    65536 * ((diff.filter fun e => s.nearOf d e.1).map fun e => e.1 / 65536).eraseDups.length

/-- The checkpoint is taken: slot, sequence number, and the logs since the last one closed with it. A slot that would overflow
ends recording. -/
def takeCheckpoint (d : Nat) (s : State) : State :=
  let s := { s with hamp := s.hamp.filter fun q => q.enq || (match q.thr with
    | some (.fib k) => (match s.fib? k with | some f => f.dom != d | none => true)
    | _ => true) }
  let s := (s.fibsOfDom d).foldl (fun s e => if e.2.phase = 7 then s.onFib e.1 fun f => { f with phase := 0, keep := [], wait := .none } else s) s
  let dm := s.dom d
  let m := domImage s d
  let seq := (dm.rpstat.extractLsb' 32 32).toNat + 1
  let depth := (dm.rpctl.extractLsb' 16 4).toNat
  let slot := if seq = 1 then 0 else 1 + (seq - 2) % depth
  let dm := { dm with quiesce := false, lastCkpt := s.tick }
  let bytes := pageBytes s d dm.checkpoints.getLast? m
  if 2 ^ slotLog dm < bytes then
    s.setDom d (recordOverflow dm)
  else
    let gangs := s.gangs.filter (·.dom = d)
    let r : CheckpointRec := {
      seq := seq
      mem := m
      gangs := gangs
      fibs := s.fibsOfDom d
      spools := s.spools.filter fun e => (s.fibsOfDom d).any fun f => spoolOf f.1 = e.1
      blocks := s.blocks.filter fun e => e.1.1 = d
      cuts := (s.coresOfDom d).map fun c => (c, (s.core c).bcut)
      bytes := bytes
      owners := s.owners.filter fun e => s.nearOf d (4 * e.1) }
    let kept := match dm.checkpoints.getLast? with
      | some p => dm.checkpoints.dropLast ++ [{ p with log := dm.log }]
      | none => []
    let all := kept ++ [r]
    s.setDom d { dm with
      checkpoints := all.drop (all.length - (depth + 1))
      log := []
      rpstat := BitVec.ofNat 64 (seq * 2 ^ 32 + slot * 16 + 1) ||| (dm.rpstat &&& 0x8000_0000) }

/-- CHECKPOINT: T ms after the last one the domain's fibres issue no further word; once every fibre can be captured, the
checkpoint is copied and they run on. -/
def execCheckpoint (d : Nat) (s : State) : Out :=
  let dm := s.dom d
  let t := (dm.rpctl.extractLsb' 0 10).toNat
  if !dm.rpctl.getLsbD 31 || rpState dm ≠ 1 || s.tick < dm.lastCkpt + t * 1_200_000 then .next s
  else if (s.fibsOfDom d).all (captured s) then .next (takeCheckpoint d s)
  else .next (s.setDom d { dm with quiesce := true })

/-! ### Replay (R465, R466) -/

/-- Nothing of the domain's memory stands in any cache or message, and its accesses that waited ask again. -/
def forgetLines (d : Nat) (s : State) : State :=
  let mine := fun (line : Nat) => s.nearOf d (128 * line)
  let again := fun (a : Acc) => if mine a.line then { a with sent := false } else a
  { s with
    owners := s.owners.filter fun e => !mine (e.1 / 32)
    poison := s.poison.filter fun wa => !mine (wa / 32)
    net := s.net.filter fun m => !mine m.line
    acts := s.acts.filter fun a => !mine a.msg.line
    homeQ := s.homeQ.filter fun m => !mine m.line
    fills := s.fills.filter fun l => !mine l
    cores := s.cores.map fun (e : Nat × Core) => (e.1, { e.2 with
      l1 := e.2.l1.filter fun l => !mine l.line
      wb := e.2.wb.filter fun w => !mine w.line
      icache := e.2.icache.filter fun l => !mine l.line
      loads := e.2.loads.map again
      stores := e.2.stores.map again }) }

/-- The cores of the domain take back their cuts, owners and extension pools. -/
def restoreCores (d : Nat) (r : CheckpointRec) (s : State) : State :=
  let l := s.launch d
  r.cuts.foldl (fun s e => s.onCore e.1 fun co => { co with
    bcut := e.2
    owner := (r.gangs.find? fun g => g.cores.contains e.1).map Gang.key
    reserved := r.gangs.any fun g => g.cores.contains e.1
    xfree := (List.range 16).map fun k => (k, l.xp - (r.fibs.filter fun f => f.1.core = e.1 && f.1.sub = k && f.2.ext).length)
    latches := []
    grants := [] }) s

/-- The replay from a kept checkpoint: kill without re-enqueue, restore memory, place every gang as captured, and run. -/
def startReplay (d : Nat) (r : CheckpointRec) (s : State) : State :=
  let dm := s.dom d
  let s := (s.gangs.filter (·.dom = d)).foldl (fun s g => unqueue g.key (dropWork g.key s)) s
  let s := (List.range 8).foldl (fun s die => if dm.dies.getLsbD die then rollback die s else s) s
  let s := forgetLines d s
  let base := s.mem.filter fun e => !(s.nearOf d e.1 || s.boltOf d e.1)
  let s := { s with
    mem := r.mem.foldl (fun m e => Memory.write m e.1 e.2) base
    gangs := s.gangs.filter (·.dom ≠ d) ++ r.gangs
    fibs := s.fibs.filter (fun e => e.2.dom ≠ d) ++ r.fibs
    spools := s.spools ++ r.spools
    blocks := s.blocks.filter (fun e => e.1.1 ≠ d) ++ r.blocks }
  let s := restoreCores d r s
  let bid := (dm.rptgt0.extractLsb' 0 25).toNat
  let fid := (dm.rptgt0.extractLsb' 25 5).toNat
  let base := match r.fibs.find? (fun e => e.2.bid = bid ∧ e.2.fid = fid) with | some e => e.2.retired | none => 0
  let log := (dm.checkpoints.filter fun x => r.seq ≤ x.seq).flatMap (·.log) ++ dm.log
  s.setDom d { s.dom d with log := log, recOwners := r.owners, tgtBase := base, rpstat := (dm.rpstat &&& ~~~(15 : W64)) ||| 2 }

/-- A write to RPCMD: with bit 0 set and EN 0 it starts a replay, or is refused with STATE 5 (R465). -/
def rpcmdWrite (d : Nat) (v : W64) (s : State) : State :=
  let s := s.setDom d { s.dom d with rpcmd := v }
  let dm := s.dom d
  if !v.getLsbD 0 || dm.rpctl.getLsbD 31 then s else
  match dm.checkpoints.find? (·.seq = (v.extractLsb' 32 32).toNat) with
  | some r =>
    if r.gangs.all fun g => g.cores.all fun c => (s.core c).inService then startReplay d r s
    else s.setDom d { dm with rpstat := (dm.rpstat &&& ~~~(15 : W64)) ||| 5 }
  | none => s.setDom d { dm with rpstat := (dm.rpstat &&& ~~~(15 : W64)) ||| 5 }

/-- REPLAY_START: a write to RPCMD with bit 0 set. -/
def execReplayStart (d : Nat) (v : BitVec 64) (s : State) : Out := .next (rpcmdWrite d (v ||| 1) s)

/-! ### The course of a replay (R466, R467), as the issue ports and the homes follow it -/

/-- A registration that the log places next, of words its core owns already, has no request in the replay, nor has
one of a valet hart or of an agent outside: its record is passed over (log 31). -/
def replaySkips (d : Nat) (s : State) : State :=
  ((s.homeQ.map fun m => homeOf m.line).eraseDups).foldl (fun s h =>
    match s.logged d fun r => (r.kind = 1 || r.kind = 2) && homeOf (r.addr.toNat / 128) = h with
    | some r =>
      let line := r.addr.toNat / 128
      let words := wordsOf (r.val.setWidth 32)
      if r.kind = 1 && r.h = 0xFF then
        let s := useLog d r s
        let dm := s.dom d
        s.setDom d { dm with recOwners := words.foldl (fun l i => tdel l (32 * line + i)) dm.recOwners }
      else if r.kind = 1 && words.all (fun i => s.ownerOf line i = some (.core r.core))
          && !(s.homeQ.any fun m => recordOf m s r) && !(s.acts.any fun a => recordOf a.msg s r) then
        let s := useLog d r s
        let dm := s.dom d
        s.setDom d { dm with recOwners := words.foldl (fun l i => tset l (32 * line + i) (.core r.core)) dm.recOwners }
      else s
    | none => s) s

/-- Home writes from outside that are next at their home, and requests that a home held for its log. -/
def replayHomes (d : Nat) (s : State) : State :=
  let s := replaySkips d s
  let lines := (s.homeQ.map (·.line)).eraseDups
  let s := match s.logged d fun r => r.kind = 1 || r.kind = 2 with
    | some r =>
      if r.kind ≠ 2 then s else match homeTakes [r.addr.toNat / 128] s with
      | some s => s
      | none =>
      let l := (s.dom d).log
      let at_ := (l.findIdx? (· = r)).getD 0
      let data := ((l.drop (at_ + 1)).take 4).flatMap fun x =>
        leBytes (x.kind + 256 * x.core + 65536 * x.h) 8 ++ leBytes x.count 8 ++ leBytes x.addr.toNat 8 ++ leBytes x.val.toNat 8
      let s := (List.range 64).foldl (fun s i => if r.val.getLsbD i then homeWriteNow (r.addr.toNat + i) [data.getD (r.addr.toNat % 128 + i) 0] s else s) s
      s.setDom d { s.dom d with log := l.take at_ ++ l.drop (at_ + 5) }
    | none => s
  lines.foldl (fun s l => runHome l s) s

/-- A fibre has passed a logged event of its own, or meets one at another count: the replay has diverged (R467). -/
def replayMissed (s : State) (k : FKey) (f : Fib) : Bool :=
  s.replaying f.dom && ((s.dom f.dom).log.any fun r => (r.kind = 6 || r.kind = 8 || r.kind = 10) && r.core = k.core
    && r.h = handleOf k && r.count < f.retired)

/-- The stop fibre has reached its count (R466). -/
def replayTarget (s : State) (f : Fib) : Bool :=
  let dm := s.dom f.dom
  s.replaying f.dom && f.hkind = 0 && f.bid = (dm.rptgt0.extractLsb' 0 25).toNat && f.fid = (dm.rptgt0.extractLsb' 25 5).toNat
    && dm.tgtBase + dm.rptgt1.toNat ≤ f.retired

/-- The stop at the target: the fibre freezes with BREAK and argument 0xFF, every other fibre is parked, STATE 3. -/
def stopAtTarget (k : FKey) (f : Fib) (s : State) : State :=
  let s := takeStop k Cause.brk.code { arg := 0xFF } f.pc s
  endReplay f.dom 3 s

/-- A stop recorded at this count that the word did not make is injected, with its cause and address (R467). -/
def injectStop (k : FKey) (f : Fib) (s : State) : Option State :=
  if !s.replaying f.dom then none else
  match s.logged f.dom fun r => r.kind = 8 && r.core = k.core && r.h = handleOf k && r.count = f.retired with
  | some r => some (takeStop k r.addr.toNat { addr := r.val } f.pc s)
  | none => none

end Sys2Proof.Machine
end

