-- ==== Sys2Proof/Machine/Operands.lean ====
section
/-! DEFINITION. Operand forms of lane words: formats, sub-elements, registers and groups with their checks in the order of
R247 (R198, R212 to R214, R232, R233, R297, R337). -/
namespace Sys2Proof.Machine

/-! ### Formats (R212, R215, R244) -/

/-- Formats of 64 bits act on register pairs: f64, i64, n64. -/
def is64 (fmt : Nat) : Bool := fmt = 7 || fmt = 11 || fmt = 12
/-- Integer formats: codes 0 to 5, 11 and 12. -/
def isInt (fmt : Nat) : Bool := fmt ≤ 5 || fmt = 11 || fmt = 12
/-- Binary floating formats: codes 6 to 9. -/
def isFloat (fmt : Nat) : Bool := 6 ≤ fmt && fmt ≤ 9
/-- Width of a sub-element. -/
def subWidth (fmt : Nat) : Nat :=
  if is64 fmt then 64 else if fmt = 2 || fmt = 3 || fmt = 8 || fmt = 9 then 16 else if fmt = 4 || fmt = 5 then 8 else 32
/-- Sub-elements of an element. -/
def subCount (fmt : Nat) : Nat := if is64 fmt then 1 else 32 / subWidth fmt
/-- Signed integer formats. -/
def isSigned (fmt : Nat) : Bool := fmt = 0 || fmt = 2 || fmt = 4 || fmt = 11

/-- Two's complement reading of w bits. -/
def toSigned (w x : Nat) : Int := if 2 * (x % 2 ^ w) < 2 ^ w then (x % 2 ^ w : Nat) else ((x % 2 ^ w : Nat) : Int) - 2 ^ w
/-- A sub-element as an integer under its format's sign. -/
def intOf (fmt x : Nat) : Int := if isSigned fmt then toSigned (subWidth fmt) x else (x % 2 ^ subWidth fmt : Nat)
/-- Sub-element j of an element. -/
def subVal (w j x : Nat) : Nat := x / 2 ^ (w * j) % 2 ^ w
/-- An element from its sub-elements, low first. -/
def packSubs (w : Nat) (l : List Nat) : Nat := l.foldr (fun x r => x % 2 ^ w + 2 ^ w * r) 0
/-- An integer's low w bits. -/
def wrapTo (w : Nat) (x : Int) : Nat := (x % 2 ^ w).toNat

/-! ### Registers a word touches -/

/-- Registers of an operand or result, with the tag code each must carry (`none`: any, or a result), and the base rules of
jets and of pairs or blocks. `read`: the word itself reads them as it issues; it reads no result, and a press operation reads its
operands later (R164). -/
structure Regs where
  regs : List (Nat × Option Nat)
  jetOk : Bool := true
  fmtOk : Bool := true
  rangeOk : Bool := true
  read : Bool := true

/-- A single register, or a pair, expected to carry a tag. -/
def single (fmt v : Nat) (tag : Option Nat) : Regs :=
  if is64 fmt then { regs := [(v, tag), (v + 1, tag.map fun _ => 13)], fmtOk := v % 2 == 0 } else { regs := [(v, tag)] }

/-- A result in a single register, or a pair. -/
def result (fmt v : Nat) : Regs := { single fmt v none with read := false }

/-- g(k) of R232. -/
def groupSize (k : Nat) : Nat := match k with | 0 => 1 | 1 => 2 | 2 => 4 | 3 => 4 | _ => 8

/-- The register of coefficient i of a group. -/
def coefReg (fmt v i : Nat) : Nat := if is64 fmt then v + 2 * i else v + i

/-- A jet group at order k (R232, R233); a result checks no tag. -/
def group (fmt k v : Nat) (check : Bool) : Regs :=
  let one := fun i =>
    let r := coefReg fmt v i
    let t0 := if i = 0 then fmt else 14
    let t1 := if i = 0 then 13 else 14
    if is64 fmt then [(r, if check then some t0 else none), (r + 1, if check then some t1 else none)]
    else [(r, if check then some t0 else none)]
  { regs := (List.range (k + 1)).flatMap one
    jetOk := k == 0 || v % (if is64 fmt then 2 * groupSize k else groupSize k) == 0
    fmtOk := k != 0 || !is64 fmt || v % 2 == 0
    read := check }

/-- Tags a group's write sets (R213, R233). -/
def groupTags (fmt k v : Nat) : List (Nat × Nat) :=
  (List.range (k + 1)).flatMap fun i =>
    let r := coefReg fmt v i
    let t0 := if i = 0 then fmt else 14
    let t1 := if i = 0 then 13 else 14
    if is64 fmt then [(r, t0), (r + 1, t1)] else [(r, t0)]

/-- Tags a single write sets. -/
def singleTags (fmt v : Nat) : List (Nat × Nat) := if is64 fmt then [(v, fmt), (v + 1, 13)] else [(v, fmt)]

/-- A block group of twelve registers (R337). -/
def blockGroup (v : Nat) (check : Bool) : Regs :=
  { regs := (List.range 12).map fun i => (v + i, if check then some 10 else none), fmtOk := v % 4 == 0, read := check }

/-- The register is available to the fibre (R198). -/
def available (f : Fib) (l : Launch) (v : Nat) : Bool :=
  if v < 128 then v < l.baseSize else if v < 192 then f.ext else v < 192 + l.winSize && v < 256

/-- The lane that a JET_ORDER stop names: the lowest active one (R498 case 3: lane 0; log 19). -/
def lowestLane (m : Mask) : Nat := ((List.range 96).find? fun i => m.getLsbD i).getD 0xFF

/-- Checks 4 to 7 of R247 for a lane word, in order: its fields, its jet orders, its registers, its tags. A register that
the word names may be one that a press operation writes (R166). A register of a long result in flight is not held to its tag: the
broken promise raises no fault (R253). Then the operands are read; one in an uncorrectable row kills the gang (R58). -/
def laneChecked (c : LaneCtx) (w : LaneWord) (legal jet : Bool) (l : List Regs) (s : State) (go : State → Out) :
    Out :=
  if !legal then trapLane c.k .illegal {} s
  else if !jet || l.any (fun r => !r.jetOk) then trapLane c.k .jetOrder { lane := lowestLane c.mask } s
  else if l.any (fun r => !r.rangeOk || r.regs.any fun e => !available c.f (s.launch c.f.dom) e.1) then trapLane c.k .regRange {} s
  else if l.any (fun r => !r.fmtOk) then trapLane c.k .format {} s
  else if !w.t && l.any (fun r => r.regs.any fun e => match e.2 with
      | some t => s.vtag c.k e.1 != t && !(c.f.longs.any fun x => x.regs.contains e.1)
      | none => false) then trapLane c.k .format {} s
  else match readRegRows c.k ((l.filter (·.read)).flatMap fun r => r.regs.map (·.1)) s with
    | (s, some a) => .next (consumeBad c.k.core (.fib c.k) 0 a false s)
    | (s, none) => go (disturbRegs c.k [] (l.flatMap fun r => r.regs.map (·.1)) s)

/-! ### Elements -/

/-- The elements of a register, or of a pair, of all 96 lanes, as numbers. -/
def elems (s : State) (k : FKey) (fmt v : Nat) : List Nat :=
  let lo := (readV s k v).map BitVec.toNat
  if is64 fmt then (lo.zip ((readV s k (v + 1)).map BitVec.toNat)).map fun e => e.1 + 2 ^ 32 * e.2 else lo

/-- The registers that hold a list of elements. -/
def elemRegs (fmt v : Nat) (xs : List Nat) : List (Nat × List W32) :=
  let lo := xs.map (BitVec.ofNat 32)
  if is64 fmt then [(v, lo), (v + 1, xs.map fun x => BitVec.ofNat 32 (x / 2 ^ 32))] else [(v, lo)]

/-- Every lane's copy of one element. -/
def splat (x : Nat) : List Nat := List.replicate 96 x

/-- The same sub-element in every place of an element. -/
def spread (fmt x : Nat) : Nat := packSubs (subWidth fmt) (List.replicate (subCount fmt) x)

/-- Operand b of the integer majors (R297). -/
def operandB (s : State) (c : LaneCtx) (w : LaneWord) (fmt : Nat) : List Nat :=
  if w.S then splat (if is64 fmt then (c.sreg w.vb.toNat).toNat else spread fmt (c.sreg w.vb.toNat).toNat)
  else if w.imm1 then splat (if fmt = 11 then (w.imm.signExtend 64).toNat else if is64 fmt then w.imm.toNat else spread fmt w.imm.toNat)
  else elems s c.k fmt w.vb.toNat

/-- Registers of operand b: none when it is scalar or immediate. -/
def regsB (w : LaneWord) (fmt : Nat) (tag : Option Nat) : List Regs :=
  if w.S || w.imm1 then [] else [single fmt w.vb.toNat tag]

/-- Active lanes of a mask in ascending order. -/
def activeLanes (m : Mask) : List Nat := (List.range 96).filter fun L => m.getLsbD L

/-- Raise bits of JFLAGS (R220). -/
def orFlags (k : FKey) (v : W64) (s : State) : State :=
  if v = 0 then s else s.onFib k fun f => { f with jflags := f.jflags ||| v }

/-- JFLAGS.SAT. -/
def flagSat : W64 := 1 <<< 40

/-- A mask triple written to S[d] to S[d+2] (R294, R302). -/
def setTriple (k : FKey) (d : Nat) (m : Mask) (s : State) : State :=
  laneSetSreg k (d + 2) ((m.extractLsb' 64 32).setWidth 64)
    (laneSetSreg k (d + 1) ((m.extractLsb' 32 32).setWidth 64) (laneSetSreg k d ((m.extractLsb' 0 32).setWidth 64) s))

/-- The mask of lanes that satisfy a test. -/
def maskOf (p : Nat → Bool) : Mask := BitVec.ofNat 96 ((List.range 96).foldr (fun L r => (if p L then 1 else 0) + 2 * r) 0)

end Sys2Proof.Machine
end

