-- ==== Sys2Proof/Machine/Satchel.lean ====
section
/-! DEFINITION. Satchel words: major 0x24 (R172 to R177, R386 to R389). The copy engine's own events are in EvSatchel. -/
namespace Sys2Proof.Machine

/-! ### Descriptors (R386) -/

/-- The fields of a descriptor. -/
structure SatDesc where
  src : W64
  dst : W64
  len : Nat
  ctl : W32
  cdw : W32
  rsv : Nat
  deriving DecidableEq, Repr

/-- A descriptor from its 32 bytes. -/
def satDesc (b : List W8) : SatDesc :=
  { src := BitVec.ofNat 64 (leNat (b.take 8)), dst := BitVec.ofNat 64 (leNat ((b.drop 8).take 8))
    len := leNat ((b.drop 16).take 4), ctl := BitVec.ofNat 32 (leNat ((b.drop 20).take 4))
    cdw := BitVec.ofNat 32 (leNat ((b.drop 24).take 4)), rsv := leNat ((b.drop 28).take 4) }

def SatDesc.sscr (d : SatDesc) : Bool := d.ctl.getLsbD 8
def SatDesc.dscr (d : SatDesc) : Bool := d.ctl.getLsbD 9
def SatDesc.cons (d : SatDesc) : Bool := d.ctl.getLsbD 10
def SatDesc.core (d : SatDesc) : Nat := (d.ctl.extractLsb' 0 8).toNat

/-- The field checks of R387 step 2. -/
def SatDesc.fieldsOk (d : SatDesc) : Bool :=
  d.ctl.extractLsb' 11 21 == 0 && d.rsv == 0 && 1 ≤ d.len && d.len ≤ 0x100_0000
    && !(d.sscr && d.src.extractLsb' 32 32 != 0) && !(d.dscr && d.dst.extractLsb' 32 32 != 0)
    && !(d.cons && d.dscr) && (d.cons || d.core == 0)

/-- One check of a descriptor, in the order of R387: a failure with its address, or a range of one page to translate. -/
inductive SatStep where
  | fail (c : Cause) (addr : W64)
  | page (u : Use) (va : W64) (n : Nat)
  deriving DecidableEq, Repr

/-- A virtual range cut at its 64 KiB pages. -/
def pageChunks (va : W64) (n : Nat) : List (W64 × Nat) :=
  let first := min n (65536 - va.toNat % 65536)
  (va, first) :: (List.range ((n - first + 65535) / 65536)).map fun i =>
    (va + BitVec.ofNat 64 (first + 65536 * i), min 65536 (n - first - 65536 * i))

/-- The first byte of a scratch range that fails its check (R51, R407): its start, when not even that byte is in range, else the byte
after the scratchpad's last. -/
def scratchFail (s : State) (g : GKey) (a : W32) : W32 := match scratchAt s g a 1 with
  | some (c, _) => a + BitVec.ofNat 32 (cutScrg (s.core c).bcut * 65536 - (a.extractLsb' 0 23).toNat)
  | none => a

/-- The checks of one end of a copy. -/
def satEnd (s : State) (g : GKey) (scr : Bool) (u : Use) (a : W64) (n : Nat) : List SatStep :=
  if scr then match scratchAt s g (a.setWidth 32) n with
    | some _ => []
    | none => [.fail .scratchRange ((scratchFail s g (a.setWidth 32)).setWidth 64)]
  else (pageChunks a n).map fun p => .page u p.1 p.2

/-- The checks of a descriptor at scratch address `at_` (R387). -/
def satSteps (s : State) (f : Fib) (at_ : W64) (d : SatDesc) : List SatStep :=
  if !d.fieldsOk then [.fail .illegal 0]
  else if d.cdw.extractLsb' 0 2 ≠ 0 then [.fail .align (d.cdw.setWidth 64)]
  else if (scratchAt s f.gang d.cdw 4).isNone then [.fail .scratchRange (d.cdw.setWidth 64)]
  else satEnd s f.gang d.sscr .satRead d.src d.len ++ satEnd s f.gang d.dscr .satWrite d.dst d.len
    ++ (if d.cons && !((s.dom f.dom).dies.getLsbD (d.core / 32) && (s.core d.core).inService) then
          [.fail .protection at_] else [])

/-- A page checked: its frame, region and space as one word. -/
def packPage (pa region : Nat) (sp : Space) : W64 :=
  BitVec.ofNat 64 (pa / 65536 + region * 2 ^ 40 + (if sp = .pool then 2 ^ 48 else 0))

/-- The check of one page of a range: its translation, and for a write every line of it under R86. -/
def satPage (s : State) (core : Nat) (u : Use) (va : W64) (n : Nat) : PartRes :=
  match checkVa s core u .fibre va with
  | .ok sp pa r =>
    let lines := (List.range ((pa % 128 + n + 127) / 128)).map fun i => pa / 128 + i
    if u.writes && sp = .near then match lines.find? s.pinnedLine with
      | some l => .fault .rowPinnedWrite (va + BitVec.ofNat 64 (l * 128 - pa)) 0
      | none => .ok sp pa r
    else .ok sp pa r
  | x => x

/-- Outcome of the checks of a sat word. -/
inductive SatRes where
  | ok (kept : List W64)
  | fault (c : Cause) (addr info : W64)
  /-- pages checked so far, and the page that missed -/
  | miss (kept : List W64) (vpn : Nat) (wr : Bool)
  deriving DecidableEq, Repr

/-- The checks in order; `kept` holds the pages that earlier attempts have checked, `acc` those passed now. A TINV and a new row grant
drop what is kept, so that a page is checked again (R27, R86). -/
def satRun (s : State) (core : Nat) : List SatStep → List W64 → List W64 → SatRes
  | [], _, acc => .ok acc
  | .fail c a :: _, _, _ => .fault c a 0
  | .page _ _ _ :: r, k :: ks, acc => satRun s core r ks (acc ++ [k])
  | .page u va n :: r, [], acc => match satPage s core u va n with
    | .ok sp pa rg => satRun s core r [] (acc ++ [packPage pa rg sp])
    | .fault c a i => .fault c a i
    | .miss v w => .miss acc v w

/-- The translations of the pages that an attempt checked become most recently used (R31). -/
def satTouch (core : Nat) (steps : List SatStep) (old new : Nat) (s : State) : State :=
  let vas := steps.filterMap fun x => match x with | .page _ va _ => some va | .fail _ _ => none
  ((vas.take new).drop old).foldl (fun s va => touchTlb core va s) s

/-- The frames of a range, taken from the pages checked: virtual page, frame, region. -/
def takePages (va : W64) (n : Nat) (kept : List W64) : List (Nat × Nat × Nat) × List W64 :=
  let cs := pageChunks va n
  ((cs.zip kept).map fun e => (vpnOf e.1.1, (e.2.extractLsb' 0 40).toNat, (e.2.extractLsb' 40 6).toNat), kept.drop cs.length)

/-- Scoreboard entries a descriptor needs: core, destination or source, first and last access row (R176). -/
def boardNeeds (s : State) (g : GKey) (d : SatDesc) : List (Nat × Bool × Nat × Nat) :=
  let rows := fun (a : W64) (dest : Bool) => match scratchAt s g (a.setWidth 32) d.len with
    | some (c, _) => let off := a.toNat % 2 ^ 23; [(c, dest, off / 32, (off + d.len - 1) / 32)]
    | none => []
  (if d.sscr then rows d.src false else []) ++ (if d.dscr then rows d.dst true else [])

/-- Every core's scoreboard has room for the entries (R176). -/
def boardRoom (s : State) (needs : List (Nat × Bool × Nat × Nat)) : Bool :=
  needs.all fun e => (s.core e.1).board.length + (needs.filter fun x => x.1 = e.1).length ≤ 32

/-- Issue one descriptor: SA rises, the entries are taken, and the copy stands in flight (R387). -/
def issueCopy (k : FKey) (f : Fib) (d : SatDesc) (kept : List W64) (s : State) : State × List W64 :=
  let (sp, kept) := if d.sscr then ([], kept) else takePages d.src d.len kept
  let (dp, kept) := if d.dscr then ([], kept) else takePages d.dst d.len kept
  let (id, s) := s.fresh
  let y : Copy := { id := id, k := k, core := k.core, src := d.src, dst := d.dst, len := d.len,
                    cons := if d.cons then some d.core else none, sscr := d.sscr, dscr := d.dscr, cdw := d.cdw.toNat,
                    spages := sp, dpages := dp, mark := id }
  let s := (boardNeeds s f.gang d).foldl (fun s e => s.onCore e.1 fun co =>
    { co with board := co.board ++ [⟨id, e.2.1, e.2.2.1, e.2.2.2⟩] }) s
  ({ s with copies := s.copies ++ [y] }.onFib k fun g => { g with sac := g.sac + 1 }, kept)

/-- Descriptors of a batch whose addresses pass, before the first that does not (R387 step 1). -/
def descsIn (s : State) (g : GKey) (va : W64) (n : Nat) : Nat :=
  ((List.range n).find? fun i => (scratchAt s g ((va + BitVec.ofNat 64 (32 * i)).setWidth 32) 32).isNone).getD n

/-- sat.copy and sat.batch of n descriptors at S[a][31:0] (R387). -/
def satIssue (a : BitVec 8) (n : Nat) (s : State) : Out :=
  scalarWord [a.toNat] [] s fun k f =>
    let va := ((f.sreg a.toNat).setWidth 32).setWidth 64
    let m := descsIn s f.gang va n
    if f.phase = 2 then match (s.core k.core).insts.find? (fun i => i.id = f.mark) with
      | none => .next (s.onFib k fun g => { g with phase := 0 })
      | some i =>
        if i.left ≠ 0 then .next (s.onFib k fun g => { g with stall := 3 }) else
        let bs := gotBytes i.got scalarLane (32 * m)
        let ds := (List.range m).map fun j => satDesc ((bs.drop (32 * j)).take 32)
        let drop := fun (s : State) => s.onCore k.core fun co => { co with insts := co.insts.filter (·.id ≠ i.id) }
        let steps := (ds.zipIdx.map fun e => satSteps s f (va + BitVec.ofNat 64 (32 * e.2)) e.1).flatten
          ++ (if m < n then [.fail .scratchRange (va + BitVec.ofNat 64 (32 * m))] else [])
        match satRun s k.core steps f.keep [] with
        | .fault c ad inf => trapScalar k c { addr := ad, info := inf } (drop s)
        | .miss kept v w => .next ((addSlot k.core v w (satTouch k.core steps f.keep.length kept.length s)).onFib k fun g =>
            { g with keep := kept, stall := 13, susp := 1 })
        | .ok kept =>
          let s := satTouch k.core steps f.keep.length kept.length s
          let needs := ds.flatMap (boardNeeds s f.gang)
          if f.sac + n ≤ 63 && boardRoom s needs then
            .next ((ds.foldl (fun (sk : State × List W64) d => issueCopy k f d sk.2 sk.1) (drop s, kept)).1.onFib k Fib.retire)
          else .next (s.onFib k fun g => { g with keep := kept, stall := 5, susp := 0 })
    else if va.extractLsb' 0 5 ≠ 0 then trapScalar k .align { addr := va } s
    else match memStall s k f false false with
      | some r => stall k r s
      | none => scalarCheck k f true .plain .load (scalarReq va (32 * max m 1) [] []) s fun l s =>
          let s := s.onFib k fun g => { g with phase := 2, mark := s.nextId, stall := 3, susp := 1, keep := [] }
          .next (reap k.core (issueAccs k.core (.fib k) f.pc .hold 0 .load false 0 f.dom false false none false l s))

/-- sat.copy (R387). -/
def execSatCopy (a : BitVec 8) (s : State) : Out := satIssue a 1 s
/-- sat.batch (R387): n = x + 1. -/
def execSatBatch (a : BitVec 8) (n : BitVec 4) (s : State) : Out := satIssue a (n.toNat + 1) s

/-! ### Countdown (R174, R177) -/

/-- Subtract arrived bytes from a countdown word: a scratch atomic at its quadrant. -/
def countDown (g : GKey) (k : FKey) (cdw n : Nat) (s : State) : State :=
  match scratchAt s g (BitVec.ofNat 32 cdw) 4 with
  | none => s
  | some (_, pa) =>
    let (s, bs, bad) := readBolt pa 4 s
    match bad with
    | some a => consumeBad k.core (.fib k) 0 a false s
    | none => (writeBolt pa (leBytes ((leNat bs + 2 ^ 32 - n % 2 ^ 32) % 2 ^ 32) 4) s).1

/-- A copy's scoreboard entries fall. -/
def dropBoard (p : Board → Bool) (s : State) : State :=
  { s with cores := s.cores.map fun (e : Nat × Core) => (e.1, { e.2 with board := e.2.board.filter fun b => !p b }) }

/-- The final step of a cancelled copy: the bytes that will never arrive (R177). -/
def lastStep (y : Copy) (s : State) : State := match s.fib? y.k with
  | some f => if y.arrived = y.len then s else countDown f.gang y.k y.cdw (y.len - y.arrived) s
  | none => s

/-- Cancel one copy (R177): nothing more is read or written for it; its final step follows what is still on its way. -/
def cancelCopy (y : Copy) (s : State) : State :=
  let s := dropBoard (fun b => b.copy = y.id) s
  let s := if y.nread < y.len then s.onFib y.k fun f => { f with sac := f.sac - 1 } else s
  if y.out = [] then lastStep y { s with copies := s.copies.filter (·.id ≠ y.id) }
  else { s with copies := s.copies.map fun x => if x.id = y.id then { x with dead := true } else x }

/-- sat.cancel (R388): it completes with the last final step. -/
def execSatCancel (a : BitVec 8) (s : State) : Out :=
  scalarWord [a.toNat] [] s fun k f =>
    let w := ((f.sreg a.toNat).setWidth 32).toNat
    let s := (s.copies.filter fun y => y.k = k && !y.dead && y.cdw = w).foldl (fun s y => cancelCopy y s) s
    if s.copies.any fun y => y.k = k && y.dead && y.cdw = w then stall k 5 s else done k s

/-- bwait (R389, R174): waits until the i32 word is at most 0, then acquires at pkg scope with its mask. -/
def execBwait (d a : BitVec 8) (s : State) : Out :=
  scalarWord [a.toNat, d.toNat] [] s fun k f =>
    let w := (f.sreg a.toNat).setWidth 32
    if w.extractLsb' 0 2 ≠ 0 then trapScalar k .align { addr := w.setWidth 64 } s
    else match scratchAt s f.gang w 4 with
      | none => trapScalar k .scratchRange { addr := w.setWidth 64 } s
      | some (c, pa) => orderedWord k f s <|
        if readsOut s k.core (.fib k) || acqPending s k.core (.fib k) then stall k 3 s
        else if (s.core k.core).stores.any (fun x => x.thr = .fib k && x.space = .scratch c) then stall k 5 s
        else if boardHit s [⟨{ lane := scalarLane, off := 0, n := 4, pa := pa, va := w.setWidth 64 }, .scratch c, 0⟩] false then
          stall k 15 s
        else
          let (s, bs, bad) := readBolt pa 4 s
          match bad with
          | some x => .next (consumeBad k.core (.fib k) 0 x false s)
          | none =>
            if (BitVec.ofNat 32 (leNat bs) : W32).sle 0 then
              done k (acquireRinse k.core 2 (f.oneCore s) (f.sreg d.toNat) s)
            else stall k 5 s

end Sys2Proof.Machine
end

