-- ==== Sys2Proof/Machine/Rows.lean ====
section
/-! DEFINITION. Row words: major 0x25 (R83, R96 to R101). A row instruction is performed at its performance tick, by the
event ROW_PERFORMANCE. -/
namespace Sys2Proof.Machine

/-- The tick a fibre's word samples: the one its twait slot gave, else TICK (R83, R211). -/
def sampledTick (f : Fib) (s : State) : Nat := f.tslot.getD s.tick

/-- In replay a row instruction is not timed and takes its recorded outcome (R466): a recorded stop is injected where its word
issues; any other completes at once. -/
def rowReplayed (kind latch d : Nat) (h : W64) (k : FKey) (f : Fib) (s : State) : Out :=
  match kind with
  | 1 => done k (transferRow k.core (k.sub / 4) latch (h.toNat % 2 ^ 21) s.nextId s)
  | 3 => doneSreg k d (replayed s k f 6 f.pc 0) (logRead k f f.retired f.pc 0 s)
  | _ => done k s

/-- A row instruction issues (R83): rowact, rowcon and rowpre wait for their performance tick, and the fibre issues nothing
meanwhile (R409); a rowstat goes on, and readers of S[d] wait for its sample (R99, R263). -/
def rowIssue (kind : Nat) (a : BitVec 8) (latch d : Nat) (s : State) : Out :=
  scalarWord [a.toNat] (if kind = 3 then [d] else []) s fun k f =>
    if f.phase = 1 then stall k 6 s
    else if s.replaying f.dom then rowReplayed kind latch d (f.sreg a.toNat) k f s
    else if kind = 1 && f.rw ≥ 63 then stall k 6 s
    else
      let (id, s) := s.fresh
      let t := perfTick (s.core k.core) kind k.sub (sampledTick f s)
      let op : RowOp := { id := id, k := k, kind := kind, h := f.sreg a.toNat, latch := latch, d := d, pc := f.pc, count := f.retired, t := t }
      let s := s.onCore k.core fun co => { co with rowOps := co.rowOps ++ [op] }
      let s := if kind = 1 then disturbLatch k latch s else s
      .next (s.onFib k fun g => if kind = 3 then g.retire else { g with
        phase := 1, mark := id, stall := 6, susp := 1
        rwq := if kind = 1 then g.rwq ++ [(id, false)] else g.rwq })

/-- rowact (R97). -/
def execRowact (a : BitVec 8) (s : State) : Out := rowIssue 0 a 0 0 s
/-- rowcon (R97, R100). -/
def execRowcon (a : BitVec 8) (b : Bool) (s : State) : Out := rowIssue 1 a (if b then 1 else 0) 0 s
/-- rowpre (R97). -/
def execRowpre (a : BitVec 8) (s : State) : Out := rowIssue 2 a 0 0 s

/-- Would a rowwait of kind k on handle h complete now (R98): an instruction issued next would pass, or none ever would: no grant
allows it, the bank of an activate is Open, or that of a consume is not Open on the row and not being opened on it. An activate
under a grant with SHARE 0 is none of the cases that R98 lists, and waits for ever. DESIGN CHOICE (log 49). -/
def rowwaitDone (s : State) (k : FKey) (f : Fib) (kind : Nat) (h : W64) : Bool :=
  let co := s.core k.core
  let x := co.bank (h.toNat % 128) s.tick
  let opening := co.rowOps.any fun o => o.kind = 0 && o.h.toNat % 2 ^ 21 = h.toNat % 2 ^ 21
  match rowCheck co f.dom f.bid kind h (perfTick co kind k.sub s.tick) with
  | .ok _ => true
  | .error .rowGrant => true
  | .error _ => (kind = 0 && x.st = .opened)
      || (kind = 1 && !(x.st = .opened && x.orow = h.toNat / 128 % 16384) && !opening)

/-- rowwait (R98): stalls with reason 6 until an instruction of its kind would pass; it never faults. -/
def execRowwait (a : BitVec 8) (kd : BitVec 2) (s : State) : Out :=
  scalarWord [a.toNat] [] s fun k f =>
    if s.replaying f.dom || rowwaitDone s k f kd.toNat (f.sreg a.toNat) then done k s
    else .next (s.onFib k fun g => { g with stall := 6, keep := [BitVec.ofNat 64 kd.toNat, f.sreg a.toNat] })

/-- rowstat (R99): the word is sampled at t_i + 3. -/
def execRowstat (d a : BitVec 8) (kd : BitVec 2) (s : State) : Out := rowIssue 3 a kd.toNat d.toNat s

end Sys2Proof.Machine
end

