-- ==== Sys2Proof/Machine/Valet.lean ====
section
/-! DEFINITION. Valet words: ordinary RV64 loads and stores, the A extension, FENCE and FENCE.I (R154, R436, R17, R68, R79), and
custom-0 (R399, R400). -/
namespace Sys2Proof.Machine

/-! ### The bolt window (R17, R68) -/

/-- The granule of a bolt-window address is good. -/
def windowGood (s : State) (c pa : Nat) : Bool := (s.core c).good.getLsbD ((pa - boltBase c) / 65536)

/-- The granule holds registers or accumulators of the cut in force: their arrangement is not specified. -/
def windowHidden (s : State) (c pa : Nat) : Bool := (s.core c).rowHidden ((pa - boltBase c) / 65536 / 32) ((boltRowOf pa).2.2)

/-- A granule that held registers until its cut was released: the release, and the addresses written since. -/
def Core.relic (co : Core) (c pa : Nat) : Option (Nat × List Nat) := tfind co.relics ((pa - boltBase c) / 65536)

/-- A window read: stored bytes of a good granule, zero of a retired one. Where registers or accumulators lie, and after their cut is
released where they lay and nothing has been written since, the bytes are not specified (R68; log 53). -/
def windowRead (c pa n : Nat) (s : State) : State × List W8 × Option Nat :=
  if !windowGood s c pa then (s, List.replicate n 0, none)
  else
    let (s, bs, bad) := readBolt pa n s
    if windowHidden s c pa then (s, (List.range n).map fun j => granuleByte s c (pa + j), bad)
    else match (s.core c).relic c pa with
      | some (id, done) => (s, bs.zipIdx.map fun b => if done.contains (pa + b.2) then b.1 else Config.relicByte id (pa + b.2), bad)
      | none => (s, bs, bad)

/-- Bytes of a former granule of registers are written. -/
def overRelic (c pa n : Nat) (s : State) : State := match (s.core c).relic c pa with
  | some (id, done) => s.onCore c fun co => { co with
      relics := tset co.relics ((pa - boltBase c) / 65536) (id, done ++ (List.range n).map (pa + ·)) }
  | none => s

/-- A window write: dropped with BSTAT.WERR unless its granule is good and is scratchpad or outside the cut. -/
def windowWrite (c pa : Nat) (bs : List W8) (s : State) : State × Option Nat :=
  if windowGood s c pa && !windowHidden s c pa then
    let x := writeBolt pa bs s
    if x.2.isSome then x else (overRelic c pa bs.length x.1, none)
  else (s.onCore c fun co => { co with bstat := co.bstat ||| 1 }, none)

/-! ### The check of a hart's access (R12, R15, R21, R35, R39, R86, R154) -/

/-- Outcome of the check: parts, a RISC-V exception, or a miss. -/
inductive HRes where
  | ok (l : List Checked)
  | exc (code : Nat) (tval : W64)
  | miss (l : List (Nat × Bool))
  deriving DecidableEq, Repr

/-- Exception codes of a use, by kind of failure; a load-reserved raises the load's (R154). -/
def accessExc (u : Use) (lr : Bool) : Nat := if u.writes && !lr then excStoreAccess else excLoadAccess
def pageExc (u : Use) (lr : Bool) : Nat := if u.writes && !lr then excStorePage else excLoadPage
def alignExc (u : Use) (lr : Bool) : Nat := if u.writes && !lr then excStoreMisaligned else excLoadMisaligned

/-- Space of a physical address that hart 0 of core c names; `none`: nothing is there for it. -/
def physSpace (c pa : Nat) : Option Space :=
  if nearPopulated pa then some .near else if inPool pa then some .pool else if inIo pa then some .io
  else if inBolt pa && (pa - 0xB_0000_0000_0000) / 0x80_0000 = c then some (.scratch c) else none

/-- One part of a hart's access. -/
def hartPart (s : State) (c h : Nat) (u : Use) (atomic lr : Bool) (va : W64) : Except (Sum (Nat × W64) (Nat × Bool)) (Space × Nat × Nat) :=
  let amo := fun (sp : Space) => atomic && (match sp with | .io => true | .scratch _ => h = 0 | _ => false)
  if h = 0 then
    match physSpace c va.toNat with
    | none => .error (.inl (accessExc u lr, va))
    | some sp =>
      if amo sp || (u.writes && sp = .near && s.pinnedLine (va.toNat / 128)) then .error (.inl (accessExc u lr, va))
      else .ok (sp, va.toNat, 0)
  else match checkVa s c u .hart1 va with
    | .ok sp pa r => if amo sp then .error (.inl (accessExc u lr, va)) else .ok (sp, pa, r)
    | .miss v w => .error (.inr (v, w))
    | .fault .rowPinnedWrite a _ => .error (.inl (accessExc u lr, a))
    | .fault _ a _ => .error (.inl (pageExc u lr, a))

/-- The check of a hart's access of n bytes: an atomic is aligned, a plain access splits as R38 gives. -/
def hartCheck (s : State) (c h : Nat) (u : Use) (atomic lr : Bool) (va : W64) (n : Nat) (data cmp : List W8) : HRes :=
  if atomic && va.toNat % n ≠ 0 then .exc (alignExc u lr) va else
  let ps := if atomic then [(va.toNat, n)] else splitParts va.toNat n 16
  ps.foldl (fun r p => match r with
    | .ok l =>
      let off := p.1 - va.toNat
      (match hartPart s c h u atomic lr (va + BitVec.ofNat 64 off) with
      | .ok (sp, pa, rg) =>
        let q : Part :=
          { lane := scalarLane, off := off, n := p.2, pa := pa, va := va + BitVec.ofNat 64 off, data := (data.drop off).take p.2, cmp := cmp }
        .ok (l ++ [⟨q, sp, rg⟩])
      | .error (.inl (e, a)) => .exc e a
      | .error (.inr m) => .miss [m])
    | x => x) (.ok [])

/-- Go on with a checked access, once the core has room for a request (R32); an exception is taken, a miss takes a slot and the hart
waits. -/
def hartChecked (s : State) (c h : Nat) (u : Use) (atomic lr : Bool) (va : W64) (n : Nat) (data cmp : List W8)
    (go : List Checked → State → Out) : Out :=
  match hartCheck s c h u atomic lr va n data cmp with
  | .ok l => if (s.core c).full then .next s else go l (if h = 0 then s else touchTlb c (va + BitVec.ofNat 64 (n - 1)) (touchTlb c va s))
  | .exc e a => hartTrap c h e a (if h = 0 then s else dropSlots c [va, va + BitVec.ofNat 64 (n - 1)] s)
  | .miss l => .next (l.foldl (fun s e => addSlot c e.1 e.2 s) s)

/-- Every part lies in the bolt window. -/
def inWindow (l : List Checked) : Bool := l.all fun e => match e.space with | .scratch _ => true | _ => false

/-- The domain that a core's valet belongs to. -/
def hartDom (s : State) (c : Nat) : Nat := (s.domOfCore c).getD 0

/-- The word completes when its accesses have been performed; one that took an exception has gone elsewhere. -/
def hartWait (c h : Nat) (s : State) : Out :=
  let hs := s.hart c h
  if hs.phase ≠ 3 then .next s
  else if (s.core c).insts.any (·.id = hs.mark) then .next s
  else .next (s.setHart c h hs.retire)

/-- Start a hart's loads or atomics and wait for them. -/
def hartStart (c h : Nat) (fin : Fin) (kind : AccKind) (strong : Bool) (op : Nat) (acq : Option W64) (l : List Checked) (s : State) :
    Out :=
  let hs := s.hart c h
  let s := s.setHart c h { hs with phase := 3, mark := s.nextId }
  hartWait c h (reap c (issueAccs c (.hart c h) hs.pc fin 0 kind strong op (hartDom s c) false false acq false l s))

/-! ### Loads and stores (R154, R38) -/

/-- Width in bytes and sign of a load, by funct3. -/
def rvWidth (f : BitVec 3) : Nat := 2 ^ (f.toNat % 4)
def rvSigned (f : BitVec 3) : Bool := f.toNat < 4

/-- Bytes read as a register's value. -/
def rvExtend (n : Nat) (sg : Bool) (bs : List W8) : W64 :=
  if sg then (BitVec.ofNat (8 * n) (leNat bs)).signExtend 64 else BitVec.ofNat 64 (leNat bs)

/-- A hart's plain load of n bytes, which `put` or `fin` gives to its register. -/
def hartLoad (c h : Nat) (va : W64) (n : Nat) (fin : Fin) (put : List W8 → Hart → Hart) (s : State) : Out :=
  if (s.hart c h).phase = 3 then hartWait c h s else
  hartChecked s c h .load false false va n [] [] fun l s =>
    if inWindow l then
      let r := l.foldl (fun (r : State × List W8 × Option Nat) e =>
        let x := windowRead c e.part.pa e.part.n r.1
        (x.1, r.2.1 ++ x.2.1, r.2.2 <|> x.2.2)) (s, [], none)
      match r.2.2 with
      | some bad => .next (consumeBad c (.hart c h) 0 bad false r.1)
      | none => .next (r.1.setHart c h (put r.2.1 (r.1.hart c h)).retire)
    else hartStart c h fin .load false 0 none l s

/-- An ordinary load: a plain access. -/
def execValetLoad (f : BitVec 3) (a d : BitVec 5) (i : BitVec 12) (s : State) : Out :=
  asHart s fun c h hs =>
    hartLoad c h (hs.reg a.toNat + i.signExtend 64) (rvWidth f) (.xreg d.toNat (rvWidth f) (rvSigned f))
      (fun bs x => x.setReg d.toNat (rvExtend (rvWidth f) (rvSigned f) bs)) s

/-- A hart's plain store of checked parts, by the word at `pc`; the hart goes on. -/
def hartStore (c h : Nat) (pc : W64) (l : List Checked) (s : State) : State :=
  reap c (issueAccs c (.hart c h) pc .none 0 .store false 0 (hartDom s c) false false none false l s)

/-- A hart's plain store of a value's low n bytes. -/
def hartPut (c h : Nat) (va : W64) (n : Nat) (v : W64) (s : State) : Out :=
  hartChecked s c h .store false false va n (leBytes v.toNat n) [] fun l s =>
    if inWindow l then
      let r := l.foldl (fun (r : State × Option Nat) e =>
        let x := windowWrite c e.part.pa e.part.data r.1
        (x.1, r.2 <|> x.2)) (s, none)
      match r.2 with
      | some bad => .next (consumeBad c (.hart c h) 0 bad true r.1)
      | none => .next (r.1.setHart c h (r.1.hart c h).retire)
    else .next (hartStore c h (s.hart c h).pc l (s.setHart c h (s.hart c h).retire))

/-- An ordinary store: a plain access. -/
def execValetStore (f : BitVec 3) (a b : BitVec 5) (i : BitVec 12) (s : State) : Out :=
  asHart s fun c h hs => hartPut c h (hs.reg a.toNat + i.signExtend 64) (rvWidth f) (hs.reg b.toNat) s

/-! ### Releases and acquires of a hart (R134, R136, R154) -/

/-- A release at a scope before the rest of a word; `ph` is the phase while it waits. -/
def hartRelease (c h : Nat) (hs : Hart) (scope : Nat) (s : State) (go : State → Out) : Out :=
  let mark := if hs.phase = 0 then s.nextId else hs.mark
  if releaseWaits s c (.hart c h) scope true mark then .next (s.setHart c h { hs with phase := 1, mark := mark })
  else go (clearSr c mark s)

/-- The hart's word completes with no register written. -/
def retireHart (c h : Nat) (s : State) : Out := .next (s.setHart c h (s.hart c h).retire)

/-- FENCE (R154): at pkg scope with mask 0 when W precedes R; else it orders nothing more. -/
def execValetFence (_m p q : BitVec 4) (s : State) : Out :=
  asHart s fun c h hs =>
    if p.getLsbD 0 && q.getLsbD 1 then hartRelease c h hs 2 s (retireHart c h) else retireHart c h s

/-- FENCE.I (R436). -/
def execValetFenceI (s : State) : Out :=
  asHart s fun c h _ =>
    if (s.core c).stores.any (fun a => a.thr = .hart c h) then .next s
    else retireHart c h (s.onCore c fun co => { co with icache := co.icache.filter (·.pinned) })

/-- hx.acq (R399). -/
def execHxAcq (sc : BitVec 2) (a : BitVec 5) (s : State) : Out :=
  asHart s fun c h hs => retireHart c h (acquireRinse c sc.toNat true (hs.reg a.toNat) s)

/-- hx.rel (R399). -/
def execHxRel (sc : BitVec 2) (s : State) : Out :=
  asHart s fun c h hs => hartRelease c h hs sc.toNat s (retireHart c h)

/-- hx.fence (R399). -/
def execHxFence (sc : BitVec 2) (a : BitVec 5) (s : State) : Out :=
  asHart s fun c h hs => hartRelease c h hs sc.toNat s fun s => retireHart c h (acquireRinse c sc.toNat true (hs.reg a.toNat) s)

/-- hx.rinse (R399). -/
def execHxRinse (a : BitVec 5) (s : State) : Out :=
  asHart s fun c h hs => retireHart c h (rinse c (hs.reg a.toNat) s)

/-- hx.tick (R399, R82). -/
def execHxTick (d : BitVec 5) (s : State) : Out :=
  asHart s fun c h _ => doneHart c h d.toNat (BitVec.ofNat 64 s.tick) s

/-! ### The A extension (R154) -/

/-- Mask of an acquire bit. -/
def aqMask (q : Bool) : Option W64 := if q then some (BitVec.allOnes 64) else none

/-- An atomic on a bolt-window word (hart 1): the old value and the write in one step. -/
def windowAtomic (c h d n op : Nat) (acq : Option W64) (e : Checked) (s : State) : Out :=
  let (s, old, bad) := windowRead c e.part.pa n s
  match bad with
  | some a => .next (consumeBad c (.hart c h) 0 a true s)
  | none =>
    let new := leBytes (atomicNew op n (leNat old) (leNat e.part.data) 0) n
    let s := (windowWrite c e.part.pa new s).1
    let s := match acq with | some m => rinse c m s | none => s
    doneHart c h d (rvExtend n true old) s

/-- A load-reserved or an AMO: a release part, the atomic at its owner, an acquire part. -/
def hartAtomic (d a : BitVec 5) (n op : Nat) (new : Hart → W64) (lr aq rl : Bool) (s : State) : Out :=
  asHart s fun c h hs =>
    if hs.phase = 3 then hartWait c h s else
    let go := fun (s : State) =>
      hartChecked s c h .store true lr (hs.reg a.toNat) n (leBytes (new hs).toNat n) [] fun l s =>
        match l with
        | [e] =>
          let s := if lr then s.setHart c h { s.hart c h with resv := some (e.part.pa, n) } else s
          if inWindow l then windowAtomic c h d.toNat n op (aqMask aq) e s
          else hartStart c h (.xreg d.toNat n true) .atomic true op (aqMask aq) l s
        | _ => .next s
    if rl then hartRelease c h hs 2 s go else go s

/-- lr.w and lr.d: the word's value, and a reservation on it. -/
def execValetLr (z q l : Bool) (a d : BitVec 5) (s : State) : Out :=
  hartAtomic d a (if z then 8 else 4) 2 (fun _ => 0) true q l s

/-- The operation code of an AMO by funct5. -/
def amoOp (f : Nat) : Nat := match f with
  | 1 => 8 | 4 => 3 | 8 => 2 | 12 => 1 | 16 => 4 | 20 => 5 | 24 => 6 | 28 => 7 | _ => 0

/-- AMO words. -/
def execValetAmo (f : BitVec 5) (z q l : Bool) (b a d : BitVec 5) (s : State) : Out :=
  hartAtomic d a (if z then 8 else 4) (amoOp f.toNat) (fun hs => hs.reg b.toNat) false q l s

/-- sc.w and sc.d: the store is performed, after the hart's older stores, if the reservation still stands; rd takes 0, or 1
when it does not. -/
def execValetSc (z q l : Bool) (b a d : BitVec 5) (s : State) : Out :=
  asHart s fun c h hs =>
    let n := if z then 8 else 4
    let data := leBytes (hs.reg b.toNat).toNat n
    let go := fun (s : State) =>
      hartChecked s c h .store true false (hs.reg a.toNat) n data [] fun cl s =>
        if (s.core c).stores.any (fun x => x.thr = .hart c h) then .next s else
        match cl with
        | [e] =>
          let free := fun (s : State) => s.setHart c h { s.hart c h with resv := none }
          let win := inWindow cl
          let a0 : Acc := { id := s.nextId, inst := 0, thr := .hart c h, kind := .store, space := e.space, line := e.part.pa / 128,
                            parts := [e.part], strong := true }
          if hs.resv = some (e.part.pa, n) && (win || (s.core c).owns a0.line a0.words) then
            let s := if win then (windowWrite c e.part.pa data s).1 else performStore c a0 s
            let s := if q then rinse c (BitVec.allOnes 64) s else s
            doneHart c h d.toNat 0 (settle c (free s))
          else doneHart c h d.toNat 1 (free s)
        | _ => .next s
    if l then hartRelease c h hs 2 s go else go s

/-! ### Hampers named by address (R400) -/

/-- A hart's descriptor: its channel with the addresses of its ring's pages, or the lines that an agent outside the package holds words
of. -/
inductive HDesc where
  | ok (c : Chan) (ring : List W64)
  | broken
  | wait (lines : List Nat)
  | exc (code : Nat) (tval : W64)
  | miss (l : List (Nat × Bool))
  deriving DecidableEq, Repr

/-- As whom a hart translates a ring's pages: hart 0 through the domain's root whatever the leaf grants (R21). -/
def ringBy (h : Nat) : By := if h = 0 then .hart0 else .hart1

/-- The descriptor at an address, with its ring's frames and, for TINV, the frame of its own page (R27, R358). -/
def hartDesc (s : State) (c h : Nat) (va : W64) : HDesc :=
  if va.toNat % 128 ≠ 0 then .broken else
  match hartCheck s c h .store false false va 8 [] [] with
  | .exc e a => .exc e a
  | .miss l => .miss l
  | .ok l =>
    let pa := match l with | e :: _ => e.part.pa | [] => 0
    if !(nearPopulated pa || inPool pa) then .broken else
    if s.agentHolds (pa / 128) then .wait [pa / 128] else
    match ringOf (s.curBytes pa 128) with
    | none => .broken
    | some (cap, ring, vas) =>
      let tables := (vas.flatMap (walkLines s (hartDom s c))).eraseDups
      if tables.any s.agentHolds then .wait tables else
      match ringPages (fun a => distXlate s (hartDom s c) a .store (ringBy h)) vas with
      | none => .broken
      | some pages => .ok ⟨0, false, pa, cap, ring, pages ++ [(vpnOf va, pa / 65536)], inPool pa⟩ vas

/-- The frame of hx.hsend and hx.hrecv: a misaligned item or a broken descriptor writes −1; then the item's address is checked, and the
ring's pages take A and D. -/
def hartHamper (s : State) (c h d : Nat) (u : Use) (item desc : W64) (data : List W8) (go : Chan → List Checked → State → Out) : Out :=
  if item.toNat % 64 ≠ 0 then doneHart c h d (BitVec.allOnes 64) s else
  match hartDesc s c h desc with
  | .broken => doneHart c h d (BitVec.allOnes 64) s
  | .exc e a => hartTrap c h e a s
  | .miss l => .next (l.foldl (fun s e => addSlot c e.1 e.2 s) s)
  | .wait l => .next ((fetchHome l s).getD s)
  | .ok ch ring => hartChecked s c h u false false item 64 data [] fun l s =>
    match storePages (hartDom s c) (ringBy h) ring s with
    | .inl s => .next s
    | .inr (s, _) => go ch l s

/-- hx.hsend (R400): a release, the item read, and the enqueue; it waits while the hamper is full. -/
def execHxHsend (b a d : BitVec 5) (s : State) : Out :=
  asHart s fun c h hs =>
    match hs.phase with
    | 9 => doneHart c h d.toNat 0 s
    | 4 => .next s
    | 3 =>
      match (s.core c).insts.find? (fun i => i.id = hs.mark) with
      | none => .next (s.setHart c h { hs with phase := 0 })
      | some i =>
        if i.left ≠ 0 then .next s else
        let s := s.onCore c fun co => { co with insts := co.insts.filter (·.id ≠ i.id) }
        hartHamper s c h d.toNat .load (hs.reg a.toNat) (hs.reg b.toNat) [] fun ch _ s =>
          .next ((askHamper (.hart c h) true ch (ofBytes512 (gotBytes i.got scalarLane 64)) s).setHart c h { hs with phase := 4 })
    | _ =>
      hartHamper s c h d.toNat .load (hs.reg a.toNat) (hs.reg b.toNat) [] fun ch l s =>
        hartRelease c h hs (if ch.pool then 3 else 2) s fun s =>
          let s := s.setHart c h { hs with phase := 3, mark := s.nextId }
          .next (reap c (issueAccs c (.hart c h) hs.pc .hold 0 .load false 0 (hartDom s c) false false none false l s))

/-- hx.hrecv (R400): dequeues only when the hamper is not empty, after the requests that wait there. -/
def execHxHrecv (b a d : BitVec 5) (s : State) : Out :=
  asHart s fun c h hs =>
    hartHamper s c h d.toNat .store (hs.reg a.toNat) (hs.reg b.toNat) [] fun ch l s =>
      let q : HampReq := { id := s.nextId, enq := false, desc := ch.desc, cap := ch.cap, ring := ch.ring, pages := ch.pages,
                           thr := some (.hart c h) }
      if s.hampCount ch.desc = 0 then doneHart c h d.toNat 0 s
      else if s.hamp.any fun x => x.desc = ch.desc && !x.enq then .next s
      else match hampTakes q s with
      | some s => .next s
      | none =>
        let (item, s) := doDequeue q s
        let bs := bytesOf512 item
        let l := l.map fun e => { e with part := { e.part with data := (bs.drop e.part.off).take e.part.n } }
        let s := s.setHart c h ((s.hart c h).setReg d.toNat 1).retire
        .next (acquireRinse c (if ch.pool then 3 else 2) true (BitVec.allOnes 64) (hartStore c h hs.pc l s))

end Sys2Proof.Machine
end

