-- ==== Sys2Proof/Machine/ValetFibre.lean ====
section
/-! DEFINITION. Custom-1: fibres, records, grants and gangs, as hart 0 reaches them (R401 to R406, R84 to R86, R88, R210). -/
namespace Sys2Proof.Machine

/-! ### Frame and handles (R398, R401) -/

/-- A custom-1 word runs on hart 0 in M-mode; elsewhere it is an illegal instruction (R398). -/
def hart0 (s : State) (body : Nat → Hart → Out) : Out :=
  asHart s fun c h hs => if h ≠ 0 || hs.mode ≠ 3 then hartTrap c h excIllegal 0 s else body c hs

/-- Write rd with a status and go on. -/
def status (c : Nat) (d : BitVec 5) (n : Nat) (s : State) : Out := doneHart c 0 d.toNat (BitVec.ofNat 64 n) s

/-- Bits of rs1 that must be 0 are 0; the selector only where the word takes one. -/
def handleBits (v : W64) (sel : Bool) : Bool := v.extractLsb' 8 8 == 0 && v.extractLsb' 32 32 == 0 && (sel || v.extractLsb' 16 16 == 0)

/-- The fibre of the core that rs1 names. -/
def namedFib (s : State) (c : Nat) (v : W64) : Option (FKey × Fib) :=
  let k := keyOfHandle c (v.toNat % 256)
  (s.fib? k).map fun f => (k, f)

/-- A word on a named fibre that writes a status: 2 for a bad bit, 1 for an empty handle. -/
def onHandle (a d : BitVec 5) (s : State) (body : Nat → FKey → Fib → Out) : Out :=
  hart0 s fun c hs =>
    let v := hs.reg a.toNat
    if !handleBits v false then status c d 2 s
    else match namedFib s c v with
      | none => status c d 1 s
      | some (k, f) => body c k f

/-! ### Park, unpark, enter (R203, R401, R406) -/

/-- An action of hart 0 on a fibre is logged with its selector and value (R464, KIND 10); park, unpark and enter, which have no
selector, are logged under numbers of the model's own (log 18). -/
def logAct (k : FKey) (f : Fib) (sel : Nat) (v : W64) (s : State) : State :=
  logOrder f.dom 10 k.core (handleOf k) f.retired (BitVec.ofNat 64 sel) v s

/-- The fibre's turn of the lane pipe ends. -/
def dropHolder (k : FKey) (s : State) : State :=
  s.onCore k.core fun co => co.setSub k.sub ((co.sub k.sub).endTurn k)

/-- A fibre is parked. -/
def parkFib (k : FKey) (f : Fib) (s : State) : State := dropHolder k (s.setFib k { f with st := .parked, stall := 22, stallL := 22, tslot := none })

/-- hx.park: Running, Blocked or Frozen → Parked. -/
def execHxPark (a d : BitVec 5) (s : State) : Out :=
  onHandle a d s fun c k f =>
    match f.st with
    | .parked => status c d 0 s
    | .running | .blocked | .frozen =>
      -- a row instruction in its check runs on to its performance tick
      if (s.core c).rowOps.any (fun o => o.k = k && o.kind ≠ 3) then .next s else
      status c d 0 (logAct k f 0x1_0000 0 (parkFib k f s))
    | _ => status c d 1 s

/-- Does the wait of a fibre still stand: for loads, while the oldest is remote and late (R203, R205). -/
def waitStands (s : State) (k : FKey) (f : Fib) : Bool := match f.wait with
  | .none => false
  | .remote _ => (match (fibLoads s k).head? with | some a => a.late s.tick | none => false)
      && atBlockingPoint s k { f with ldq := [] }
  | _ => atBlockingPoint s k f

/-- The state to which a fibre goes back: by its handler, to the save that it was chosen for, or Blocked when its wait still stands
(R203, R206). -/
def runAgain (s : State) (k : FKey) (f : Fib) : FSt :=
  if f.hkind = 2 then .saving else if f.hkind = 3 then .restoring
  else if ((s.gang? f.gang).any fun g => g.st == .saving) then .saving
  else if waitStands s k f then .blocked else .running

/-- A fibre runs again (R203). -/
def unparkFib (k : FKey) (f : Fib) (s : State) : State :=
  let f := { f with wait := match f.wait with | .remote a => if waitStands s k f then .remote a else .none | w => w }
  traceFsync k 1 (s.setFib k { f with st := runAgain s k f, stall := 0, stallL := 0, since := s.tick })

/-- A fibre enters its trap handler (R390, R406). -/
def enterFib (k : FKey) (f : Fib) (s : State) : State :=
  traceFsync k 2 ((withdraw k s).setFib k { enterHandler 1 f.tvec f with st := .running, stallL := 1, wait := .none })

/-- hx.unpark: Parked or Frozen → Running, or Blocked; status 1 while its stop record waits for room (R404). -/
def execHxUnpark (a d : BitVec 5) (s : State) : Out :=
  onHandle a d s fun c k f =>
    match f.st with
    | .parked | .frozen =>
      if f.recWait then status c d 1 s
      else status c d 0 (logAct k f 0x1_0001 0 (unparkFib k f s))
    | _ => status c d 1 s

/-- hx.fenter: a Parked fibre, in no handler, enters its trap handler at TVEC. -/
def execHxFenter (a d : BitVec 5) (s : State) : Out :=
  onHandle a d s fun c k f =>
    if f.st ≠ .parked || f.hkind ≠ 0 || f.recWait then status c d 1 s
    else if f.tvec = 0 then status c d 2 s
    else status c d 0 (logAct k f 0x1_0002 0 (enterFib k f s))

/-! ### The state word (R403) -/

/-- Code of a fibre's state; a Saved fibre, still on its core, reads as Saving. -/
def stCode : FSt → Nat
  | .running => 1 | .blocked => 2 | .frozen => 3 | .parked => 4 | .saving => 5 | .saved => 5 | .restoring => 6 | .exited => 7
  | .gone => 0

/-- hx.fstat. -/
def execHxFstat (a d : BitVec 5) (s : State) : Out :=
  hart0 s fun c hs =>
    let v := hs.reg a.toNat
    match (if handleBits v false then namedFib s c v else none) with
    | none => status c d 0 s
    | some (_, f) => status c d (stCode f.st + (if f.hkind ≠ 0 then 8 + f.hkind % 4 * 16 else 0) + f.fid % 32 * 2 ^ 16
        + f.gid % 65536 * 2 ^ 32) s

/-! ### Register access (R402) -/

/-- What a selector reaches. -/
inductive Sel where
  | elem (v L : Nat) | sreg (n : Nat) | special (n : Nat) | tag (v : Nat) | pc | lpc | counter (n : Nat) | hem (n : Nat)
  | act (n : Nat) | slot (n : Nat)
  deriving DecidableEq, Repr

/-- The register of the bolt that a selector reaches, and the lane: hx.fget reads it as an operand is read, and hx.fput writes one of its
lanes; the word that meets an uncorrectable row writes no register (R58; log 53). -/
def Sel.reads : Sel → List Nat | .elem v _ => [v] | _ => []
def Sel.lane : Sel → Mask | .elem _ L => 1 <<< L | _ => 0

/-- Special registers that R241 assigns. -/
def specialNums : List Nat := [0, 1, 2, 3, 4, 5, 6, 8, 9, 0xA, 0xB, 0xC, 0x10, 0x11, 0x12, 0x13, 0x14, 0x18, 0x19]

/-- The selector of rs1[31:16]. -/
def selOf (x : Nat) : Option Sel :=
  if 0x8000 ≤ x then (if (x - 0x8000) % 128 < 96 then some (.elem ((x - 0x8000) / 128) ((x - 0x8000) % 128)) else none)
  else match x / 4096 with
    | 0 => if x < 192 then some (.sreg x) else none
    | 1 => if specialNums.contains (x % 4096) then some (.special (x % 4096)) else none
    | 2 => if x % 4096 < 256 then some (.tag (x % 4096)) else none
    | 3 => if x = 0x3000 then some .pc else if x = 0x3001 then some .lpc else none
    | 4 => if x % 4096 < 6 then some (.counter (x % 4096)) else none
    | 5 => if x % 4096 < 32 then some (.hem (x % 4096)) else if x % 4096 < 64 then some (.act (x % 4096 - 32)) else none
    | 6 => if x % 4096 < 16 then some (.slot (x % 4096)) else none
    | _ => none

/-- The stitch whose next word selector 0x3001 names: the first held, else the first enqueued. -/
def firstStitch (f : Fib) : Option Stitch := (f.held ++ f.stitches).head?

/-- A write to the register is still pending (R401): for JFLAGS, that of a product in flight, which raises flags as it completes (R220,
R230). -/
def writePending (s : State) (k : FKey) (f : Fib) : Sel → Bool
  | .elem v _ => f.longs.any (fun l => l.regs.contains v) || f.unwaited.any fun u => u.dst.contains v && s.inPress k u.id
  | .tag v => f.longs.any (fun l => l.regs.contains v) || f.unwaited.any fun u => u.dst.contains v && s.inPress k u.id
  | .sreg n => loadPending s k [n] || statPending s k [n] || (match f.div with | some (d, _) => d = n | none => false)
  | .special n => n = 0x09 && (pressBusy s k).any fun o => o.op = 0x90 || o.op = 0x91
  | _ => false

/-- The selected state, or `none` for a bad selector. -/
def selGet (s : State) (k : FKey) (f : Fib) : Sel → Option W64
  | .elem v L => if available f (s.launch f.dom) v then some (((s.vreg k v).getD L 0).setWidth 64) else none
  | .sreg n => some (f.sreg n)
  | .special n => some (specialReg s k f n)
  | .tag v => some (BitVec.ofNat 64 (s.vtag k v))
  | .pc => some f.pc
  | .lpc => (firstStitch f).map (·.pc)
  | .counter n => some (BitVec.ofNat 64 (f.counter n))
  | .hem n => let m := hemOf s f.dom f.bid n; some (m.hi ++ m.lo)
  | .act n => some (BitVec.ofNat 64 (hemOf s f.dom f.bid n).act)
  | .slot n => some (f.hslots.getD n 0)

/-- A write of the selected state: the status, and the state after it when the status is 0. -/
def selPut (s : State) (k : FKey) (f : Fib) (v : W64) : Sel → Nat × State
  | .elem r L =>
    if available f (s.launch f.dom) r then (0, s.setVreg k r ((s.vreg k r).set L (v.setWidth 32))) else (2, s)
  | .sreg n => (0, s.setFib k (f.setSreg n v))
  | .special n =>
    if n ≤ 6 || n = 0x18 || n = 0x19 then (3, s)
    else if n = 0x0B && v.toNat % 12 ≠ 0 then (2, s)
    else (0, s.setFib k (setSpecial n v f))
  | .tag r => if v.toNat < 16 then (0, s.setVtag k r v.toNat) else (2, s)
  | .pc => if v.toNat % 4 = 0 then (0, (withdraw k s).setFib k { f with pc := v, phase := 0, mark := 0, keep := [], wait := f.waitLeft }) else (2, s)
  | .lpc =>
    if v.toNat % 4 ≠ 0 then (2, s) else match f.held, f.stitches with
      | t :: r, _ => (0, s.setFib k { f with held := { t with pc := v } :: r })
      | [], t :: r => (0, s.setFib k { f with stitches := { t with pc := v } :: r })
      | [], [] => (2, s)
  | .counter _ => (3, s)
  | .hem n => (0, setHem f.dom f.bid n { hemOf s f.dom f.bid n with lo := v.setWidth 32, hi := (v >>> 32).setWidth 32 } s)
  | .act n => if v.toNat ≤ 2 then (0, setHem f.dom f.bid n { hemOf s f.dom f.bid n with act := v.toNat } s) else (2, s)
  | .slot n => (0, s.setFib k { f with hslots := f.hslots.set n v })

/-- hx.fget: 0 for a bad bit or selector, an empty handle, or a fibre that is not Parked. -/
def execHxFget (a d : BitVec 5) (s : State) : Out :=
  hart0 s fun c hs =>
    let v := hs.reg a.toNat
    match (if handleBits v true then namedFib s c v else none), selOf (v.toNat / 65536 % 65536) with
    | some (k, f), some x =>
      if f.st ≠ .parked then status c d 0 s
      else if writePending s k f x then .next s
      else match readRegRows k x.reads s with
        | (s, some a) => retireHart c 0 (consumeBad c (.fib k) 0 a false s)
        | (s, none) => doneHart c 0 d.toNat ((selGet s k f x).getD 0) s
    | _, _ => status c d 0 s

/-- hx.fput. -/
def execHxFput (b a d : BitVec 5) (s : State) : Out :=
  hart0 s fun c hs =>
    let v := hs.reg a.toNat
    if !handleBits v true then status c d 2 s
    else match namedFib s c v with
      | none => status c d 1 s
      | some (k, f) =>
        if f.st ≠ .parked then status c d 1 s
        else match selOf (v.toNat / 65536 % 65536) with
          | none => status c d 2 s
          | some x =>
            let r := selPut s k f (hs.reg b.toNat) x
            if r.1 ≠ 0 then status c d r.1 r.2 else
            match writeRegRows k x.lane x.reads r.2 with
            | (s, some a) => retireHart c 0 (consumeBad c (.fib k) 0 a true s)
            | (s, none) => status c d 0 (logAct k f (v.toNat / 65536 % 65536) (hs.reg b.toNat) s)

/-! ### Records (R404) -/

/-- A waiting stop record enters the queue once there is room. -/
def admitRecord (c : Nat) (s : State) : State :=
  match (s.core c).waiting with
  | (k, r) :: rest =>
    if (s.core c).recs.length < 64 then
      (s.onCore c fun co => { co with recs := co.recs ++ [r], waiting := rest }).onFib k fun f => { f with recWait := false }
    else s
  | [] => s

/-- hx.fpop: the oldest record is stored at a physical address; rd takes the records left, or −1. -/
def execHxFpop (a d : BitVec 5) (s : State) : Out :=
  hart0 s fun c hs =>
    let v := hs.reg a.toNat
    let co := s.core c
    match co.recs with
    | [] => doneHart c 0 d.toNat (BitVec.allOnes 64) s
    | r :: rest =>
      if v.extractLsb' 52 12 ≠ 0 || v.toNat % 64 ≠ 0 then doneHart c 0 d.toNat (BitVec.allOnes 64) s else
      let r := if co.recLoss then r ||| (1 <<< 31) else r
      hartChecked s c 0 .store false false v 64 (bytesOf512 r) [] fun l s =>
        let s := s.onCore c fun co => { co with recs := rest, recLoss := false }
        let s := s.setHart c 0 (((s.hart c 0).setReg d.toNat (BitVec.ofNat 64 rest.length)).retire)
        let s := admitRecord c s
        if inWindow l then .next (l.foldl (fun s e => (windowWrite c e.part.pa e.part.data s).1) s)
        else .next (hartStore c 0 hs.pc l s)

/-! ### Grants (R84 to R86, R88, R405) -/

/-- A grant descriptor's fields. -/
structure GrantDesc where
  mask : BitVec 128
  lo : Nat
  hi : Nat
  share : Nat
  bid : Nat
  rsv : Bool

/-- The 32 bytes of a grant descriptor. -/
def grantDesc (b : List W8) : GrantDesc :=
  let f := fun (o n : Nat) => leNat ((b.drop o).take n)
  { mask := BitVec.ofNat 128 (f 0 16), lo := f 16 2, hi := f 18 2, share := f 20 1, bid := f 24 4 % 2 ^ 25
    rsv := f 21 3 = 0 && f 24 4 < 2 ^ 25 && f 28 4 = 0 }

/-- The refusal of a grant, if any: 2 for its fields, 1 for its block, 4 for a limit. -/
def grantRefusal (s : State) (c dom : Nat) (g : GrantDesc) : Option Nat :=
  let co := s.core c
  if g.mask = 0 || g.hi < g.lo || 16383 < g.hi || 16 < g.share || !g.rsv then some 2
  else if !((s.fibsOfCore c).any fun e => e.2.dom = dom && e.2.bid = g.bid && e.2.st != .exited)
      || co.grants.any (fun e => e.2.dom = dom && e.2.bid = g.bid) then some 1
  else if 8 ≤ co.grants.length || co.grants.any (fun e => e.2.mask &&& g.mask ≠ 0)
      || 16 < sumNat (co.grants.map (·.2.share)) + g.share then some 4
  else none

/-- hx.rgrant (R86): hart 0 reads the descriptor with loads of its own, takes the slot, and waits until the grant is live. The spec gives
no status for a grant that ends before that, with its block: hart 0 then waits for ever. DESIGN CHOICE (log 56). -/
def execHxRgrant (a d : BitVec 5) (s : State) : Out :=
  hart0 s fun c hs =>
    let v := hs.reg a.toNat
    match hs.phase with
    | 6 => status c d (0x100 + hs.mark) s
    | 5 => .next s
    | 3 =>
      match (s.core c).insts.find? (fun i => i.id = hs.mark) with
      | none => .next (s.setHart c 0 { hs with phase := 0 })
      | some i =>
        if i.left ≠ 0 then .next s else
        let s := s.onCore c fun co => { co with insts := co.insts.filter (·.id ≠ i.id) }
        let g := grantDesc (gotBytes i.got scalarLane 32)
        let dom := hartDom s c
        match grantRefusal s c dom g with
        | some e => status c d e s
        | none =>
          let n := ((List.range 8).find? fun n => (tfind (s.core c).grants n).isNone).getD 0
          let gid := match (s.fibsOfCore c).find? (fun e => e.2.dom = dom && e.2.bid = g.bid) with | some e => e.2.gid | none => 0
          let r : RowGrant := { live := false, dom := dom, gid := gid, bid := g.bid, mask := g.mask, lo := g.lo, hi := g.hi, share := g.share }
          let s := s.onCore c fun co => { co with
            grants := tset co.grants n r
            banks := ((List.range 128).filter fun b => g.mask.getLsbD b).foldl (fun t b => tset t b (co.bank b s.tick)) co.banks }
          .next ((dropKept (fun _ => true) s).setHart c 0 { s.hart c 0 with phase := 5, mark := n })
    | _ =>
      if v.extractLsb' 52 12 ≠ 0 || v.toNat % 32 ≠ 0 then status c d 2 s else
      hartChecked s c 0 .load false false v 32 [] [] fun l s =>
        let s := s.setHart c 0 { s.hart c 0 with phase := 3, mark := s.nextId }
        .next (reap c (issueAccs c (.hart c 0) hs.pc .hold 0 .load false 0 (hartDom s c) false false none false l s))

/-- hx.rrevoke: ends the grant in a slot; a free slot gives status 1. -/
def execHxRrevoke (a d : BitVec 5) (s : State) : Out :=
  hart0 s fun c hs =>
    let v := hs.reg a.toNat
    if 8 ≤ v.toNat then status c d 2 s
    else match tfind (s.core c).grants v.toNat with
      | none => status c d 1 s
      | some _ => status c d 0 (endGrant c v.toNat s)

/-! ### Gangs (R401, R210, R420) -/

/-- The gang of the core's domain that rs1 names. -/
def namedGang (s : State) (c : Nat) (v : W64) : Option Gang := match s.domOfCore c with
  | some d => s.gang? ⟨d, v.toNat % 65536⟩
  | none => none

/-- A word on a named gang: 2 for a bad bit, 1 for a GID outside the domain or a gang that has Exited (R210). -/
def onGang (a d : BitVec 5) (s : State) (body : Nat → Gang → State) : Out :=
  hart0 s fun c hs =>
    let v := hs.reg a.toNat
    if v.toNat ≥ 65536 then status c d 2 s
    else match namedGang s c v with
      | none => status c d 1 s
      | some g => if g.st = .exited then status c d 1 s else status c d 0 (body c g)

/-- hx.gkill: the gang stays Killed; a gang already Killed stays as it is. -/
def execHxGkill (a d : BitVec 5) (s : State) : Out := onGang a d s fun _ g => killGang g.key true s

/-- hx.grelaunch: kills the gang if it is not Killed, then relaunches it in class 1. -/
def execHxGrelaunch (a d : BitVec 5) (s : State) : Out :=
  onGang a d s fun _ g =>
    match g.st with
    | .killed => if s.dies.any (fun e => e.2.queue.any fun r => r.2.1 = g.key) then s else queueGang g 1 s
    | _ => killGang g.key false s

end Sys2Proof.Machine
end

