-- ==== Sys2Proof/Machine/Course.lean ====
section
/-! DEFINITION. The course of a replay (R466, R467): what the log does before a word issues, after it, and as TICK passes. -/
namespace Sys2Proof.Machine

/-! ### Hart 0's logged actions (R464 KIND 10, R466) -/

/-- The next action or stop that the log holds for a fibre is an action at the fibre's count. -/
def nextAct (s : State) (k : FKey) (f : Fib) : Option LogRec :=
  match s.logged f.dom fun r => (r.kind = 8 || r.kind = 10) && r.core = k.core && r.h = handleOf k with
  | some r => if r.kind = 10 && r.count = f.retired then some r else none
  | none => none

/-- The action is performed on the fibre, and its record has been used. -/
def applyAct (k : FKey) (f : Fib) (r : LogRec) (s : State) : State :=
  let s := useLog f.dom r s
  match r.addr.toNat with
  | 0x1_0000 => parkFib k f s
  | 0x1_0001 => unparkFib k f s
  | 0x1_0002 => enterFib k f s
  | x => match selOf x with
    | some y => (selPut s k f r.val y).2
    | none => s

/-! ### At a word boundary -/

/-- What the log does before a fibre's next word: divergence, the stop at the target, or an action of hart 0; `none`: the word
runs. -/
def beforeWord (k : FKey) (s : State) : Option State :=
  match s.fib? k with
  | none => none
  | some f =>
    if !s.replaying f.dom then none
    else if replayMissed s k f then some (endReplay f.dom 4 s)
    else if replayTarget s f then some (stopAtTarget k f s)
    else (nextAct s k f).map fun r => applyAct k f r s

/-- A word that completed past a stop recorded at its count does not stand: the stop is injected instead (R467). -/
def afterWord (k : FKey) (before : State) (o : Out) : Out :=
  match o, before.fib? k with
  | .next after, some f => match after.fib? k with
    | some g =>
      if g.retired = f.retired then o
      else match injectStop k f before with
        | some s => .next s
        | none => o
    | none => o
  | _, _ => o

/-! ### As TICK passes -/

/-- Records of these kinds stand where their parties put them; a gang record waits until those before it have been used. -/
def ordersGangs (r : LogRec) : Bool := [1, 2, 3, 4, 7, 8, 10].contains r.kind

/-- The gang record that comes next in a replaying domain's log (R467: a recorded eviction or kill is performed; one that was not
recorded is suppressed; log 18). -/
def replayGang (d : Nat) (s : State) : State :=
  match s.logged d fun r => r.kind = 9 || ordersGangs r with
  | none => s
  | some r =>
    if r.kind ≠ 9 then s else
    let g : GKey := ⟨d, r.addr.toNat⟩
    let cls := r.val.toNat % 256
    match s.gang? g with
    | none => useLog d r s
    | some x =>
      if cls = 15 then
        let again := (s.dom d).log.any fun y => y.kind = 9 && y.addr = r.addr && y.val.toNat % 256 = 1
        killGang g (!again) (useLog d r s)
      else if cls = 0 then
        if x.st = .running && (s.fibsOfGang g).all (fun e => e.2.st = .blocked || e.2.st = .exited) then evictGang x (useLog d r s)
        else s
      else if x.st = .running then useLog d r s
      else s

/-- The channel 63 event that comes next: TOPO is posted again; the others arise with their gangs. -/
def replayEvent (d : Nat) (s : State) : State :=
  match s.logged d fun r => r.kind = 5 || r.kind = 9 || ordersGangs r with
  | none => s
  | some r =>
    if r.kind ≠ 5 then s else
    let s := useLog d r s
    if r.val.extractLsb' 56 8 = 1 then postMail d r.addr.toNat 1 (r.val &&& 0xFF_FFFF_FFFF_FFFF) s else s

/-- Actions of hart 0 on fibres that do not issue. -/
def replayActs (d : Nat) (s : State) : State :=
  (s.fibsOfDom d).foldl (fun s e => match s.fib? e.1 with
    | some f => (match f.st with
      | .parked | .frozen | .blocked => (match nextAct s e.1 f with
        | some r => applyAct e.1 f r s
        | none => s)
      | _ => s)
    | none => s) s

/-- Each replaying domain follows its log as TICK passes. -/
def replayTick (s : State) : State :=
  (List.range 8).foldl (fun s d =>
    if s.replaying d then replayActs d (replayEvent d (replayGang d (replayHomes d s))) else s) s

end Sys2Proof.Machine
end

