-- ==== Sys2Proof/Machine/EvSatchel.lean ====
section
/-! DEFINITION. The satchel engine (R123, R172 to R177): the start of a descriptor, the copy of one destination line, and the
arrival of what it sent. -/
namespace Sys2Proof.Machine

/-! ### Arrival and countdown (R123, R174) -/

/-- A copy with everything arrived, or cancelled with nothing more to come, ends. -/
def copyEnds (y : Copy) : Bool := y.out = [] && (y.dead || y.arrived = y.len)

/-- Change a copy in flight; one that ends is gone, and its scoreboard entries with it. -/
def setCopy (y : Copy) (s : State) : State :=
  if copyEnds y then dropBoard (fun b => b.copy = y.id) { s with copies := s.copies.filter (·.id ≠ y.id) }
  else { s with copies := s.copies.map fun x => if x.id = y.id then y else x }

/-- Bytes of a copy have arrived: the countdown word falls by their number; the last that come for a cancelled copy are followed by its
final step (R177). -/
def copyBytes (y : Copy) (n : Nat) (s : State) : State :=
  let y := { y with arrived := y.arrived + n }
  let s := setCopy y s
  let s := match s.fib? y.k with
    | some f => countDown f.gang y.k y.cdw n s
    | none => s
  if y.dead && y.out = [] then lastStep y s else s

/-- The copy that sent the message with a tag. -/
def State.copyOf (s : State) (tag : Nat) : Option (Copy × Nat) :=
  s.copies.findSome? fun y => (y.out.find? fun o => o.1 = tag).map fun o => (y, o.2)

/-- What a message of a copy carried has arrived. -/
def copyArrived (tag : Nat) (s : State) : State := match s.copyOf tag with
  | some (y, n) => copyBytes { y with out := y.out.filter (·.1 ≠ tag) } n s
  | none => s

/-! ### The start (R172) -/

/-- SATCHEL_START: the engine starts on descriptor n once the fibre's older loads are performed and its older stores
acknowledged. -/
def execSatchelStart (n : Nat) (s : State) : Out :=
  match s.copies.find? (·.id = n) with
  | none => .next s
  | some y =>
    let co := s.core y.core
    let older := fun (a : Acc) => a.thr = .fib y.k && !a.prefetch && a.id < y.mark
    if y.started || y.dead || co.loads.any older || co.stores.any older then .next s
    else .next { s with copies := s.copies.map fun x => if x.id = n then { x with started := true } else x }

/-! ### One line (R123, R172 to R176) -/

/-- Pieces of a range that no access row's boundary cuts: offset and length. -/
def rowPieces (a n : Nat) : List (Nat × Nat) :=
  if n = 0 then [] else
  let first := min n (32 - a % 32)
  (0, first) :: (List.range ((n - first + 31) / 32)).map fun i => (first + 32 * i, min 32 (n - first - 32 * i))

/-- Physical address and region of a virtual address through the frames taken at issue. -/
def pageAt (pages : List (Nat × Nat × Nat)) (va : W64) : Nat × Nat :=
  match pages.find? (fun p => p.1 = vpnOf va) with
  | some p => (p.2.1 * 65536 + va.toNat % 65536, p.2.2)
  | none => (0, 0)

/-- The physical addresses of a run of source bytes in near or pool memory. -/
def sourcePas (y : Copy) (n : Nat) : List Nat :=
  (List.range n).map fun j => (pageAt y.spages (y.src + BitVec.ofNat 64 (y.nread + j))).1

/-- Source lines are such that the engine can read them now: nothing in flight, and for a pool line a link that is up. -/
def sourceReady (s : State) (pas : List Nat) : Bool :=
  ((pas.map (· / 128)).eraseDups).all fun l => s.quiet l && (l < 2 ^ 34 || (s.linkFor l).isSome)

/-- The first poisoned word among source bytes. -/
def sourcePoison (s : State) (pas : List Nat) : Option Nat := pas.find? fun pa => (s.curWord (pa / 128) (pa / 4 % 32)).2

/-- Bytes of a scratch range of a gang, with an uncorrectable row that was met. -/
def scratchRead (g : GKey) (a : W64) (n : Nat) (s : State) : State × List W8 × Option Nat :=
  (rowPieces a.toNat n).foldl (fun (x : State × List W8 × Option Nat) p =>
    match scratchAt x.1 g ((a + BitVec.ofNat 64 p.1).setWidth 32) p.2 with
    | none => x
    | some (_, pa) => let y := readBolt pa p.2 x.1
      (y.1, x.2.1 ++ y.2.1, x.2.2 <|> y.2.2)) (s, [], none)

/-- Bytes written to a scratch range of a gang. -/
def scratchWrite (g : GKey) (a : W64) (bs : List W8) (s : State) : State × Option Nat :=
  (rowPieces a.toNat bs.length).foldl (fun (x : State × Option Nat) p =>
    match scratchAt x.1 g ((a + BitVec.ofNat 64 p.1).setWidth 32) p.2 with
    | none => x
    | some (_, pa) => let y := writeBolt pa ((bs.drop p.1).take p.2) x.1
      (y.1, x.2 <|> y.2)) (s, none)

/-- The end of the source bytes that the engine reads for a destination run of m bytes: whole source words, so that a store to one is
copied old or new (R173). -/
def readEnd (y : Copy) (m : Nat) : Nat :=
  let e := y.nsent + m
  min y.len (e + (4 - (y.src.toNat + e) % 4) % 4)

/-- Source bytes up to `hi` have been read, and the first `m` that stood unsent have gone: SA falls with the last byte read, and the
source's scoreboard entry with it (R173, R176). -/
def copyRead (y : Copy) (hi m : Nat) (bs : List W8) (s : State) : Copy × State :=
  let last := hi = y.len && y.nread ≠ y.len
  let y := { y with nread := hi, nsent := y.nsent + m, carry := bs.drop m }
  let s := { s with copies := s.copies.map fun x => if x.id = y.id then y else x }
  if last then (y, (dropBoard (fun b => b.copy = y.id && !b.dest) s).onFib y.k fun f => { f with sac := f.sac - 1 })
  else (y, s)

/-- The words of a line that a run of bytes covers whole, and the bytes of the others. -/
def wholeWords (first n : Nat) : W32 × BitVec 128 :=
  let inside := fun (i : Nat) => first ≤ i && i < first + n
  let whole := (List.range 32).foldl (fun m w => if (List.range 4).all fun j => inside (4 * w + j) then m ||| wbit w else m) (0 : W32)
  (whole, (List.range 128).foldl (fun m i => if inside i && !whole.getLsbD (i / 4) then m ||| ((1 : BitVec 128) <<< i) else m) 0)

/-- The 32 words of a line with a run of bytes at an offset. -/
def lineData (first : Nat) (bs : List W8) : List W32 :=
  (List.range 32).map fun w => BitVec.ofNat 32 (leNat ((List.range 4).map fun j =>
    if first ≤ 4 * w + j then bs.getD (4 * w + j - first) 0 else 0))

/-- Send one message of a copy; `none` when it finds no free tag. -/
def copySend (y : Copy) (m : Msg) (n : Nat) (s : State) : Option (Copy × State) :=
  let (id, s) := s.fresh
  (tagFor m.line id s).map fun s => ({ y with out := y.out ++ [(id, n)] }, send { m with tag := id } s)

/-- Write a destination line: whole words by XREG to a consumer, everything else by HWR (R123). -/
def copyWrite (y : Copy) (d pa region : Nat) (bs : List W8) (s : State) : Option (Copy × State) :=
  let line := pa / 128
  let (whole, part) := wholeWords (pa % 128) bs.length
  let data := lineData (pa % 128) bs
  let base := fun (k : MsgKind) => { msg0 k (.core y.core) (homeOf line) line with data := data, region := region, dom := d }
  let all := (List.range 128).foldl (fun m i => if pa % 128 ≤ i && i < pa % 128 + bs.length then m ||| ((1 : BitVec 128) <<< i) else m)
    (0 : BitVec 128)
  let hwr := fun (bm : BitVec 128) (n : Nat) (ys : Copy × State) =>
    copySend ys.1 { base .hwr with mask := wordMask bm, bmask := bm } n ys.2
  match y.cons with
  | none => hwr all bs.length (y, s)
  | some c =>
    let nw := 4 * (wordsOf whole).length
    let sent := if whole = 0 then some (y, s)
      else copySend y { base .xreg with mask := whole, party := .core c } nw s
    sent.bind fun ys => if part = 0 then some ys else hwr part (bs.length - nw) ys

/-- With the bytes read since, the run of m bytes is written at its destination; `none`: it must wait. -/
def copyLine (y : Copy) (f : Fib) (hi m : Nat) (new : List W8) (s : State) : Option State :=
  let bs := y.carry ++ new
  let va := y.dst + BitVec.ofNat 64 y.nsent
  if y.dscr then
    let (y, s) := copyRead y hi m bs s
    let (s, bad) := scratchWrite f.gang va (bs.take m) s
    match bad with
    | some a => some (consumeBad y.k.core (.fib y.k) 0 a true s)
    | none => some (copyBytes y m s)
  else
    let (pa, region) := pageAt y.dpages va
    (copyWrite y f.dom pa region (bs.take m) s).map fun ys => (copyRead ys.1 hi m bs ys.2).2

/-- SATCHEL_LINE_COPY: the engine reads and writes one destination line of descriptor n. A poisoned source word, or an uncorrectable
access row, is consumed by the fibre's gang (R58, R430). -/
def execSatchelLineCopy (n : Nat) (s : State) : Out :=
  match s.copies.find? (·.id = n) with
  | none => .next s
  | some y => match s.fib? y.k with
    | none => .next s
    | some f =>
      if !y.started || y.dead || y.nsent = y.len then .next s else
      let m := min (y.len - y.nsent) (128 - (y.dst + BitVec.ofNat 64 y.nsent).toNat % 128)
      let hi := readEnd y m
      if y.sscr then
        let (s1, bs, bad) := scratchRead f.gang (y.src + BitVec.ofNat 64 y.nread) (hi - y.nread) s
        match bad with
        | some a => .next (consumeBad y.k.core (.fib y.k) 0 a false s1)
        | none => .next ((copyLine y f hi m bs s1).getD s)
      else
        let pas := sourcePas y (hi - y.nread)
        if !sourceReady s pas then .next s else
        match fetchHome ((pas.map (· / 128)).eraseDups) s with
        | some s => .next s
        | none => match sourcePoison s pas with
          | some pa =>
            let home := match homeOf (pa / 128) with | .home h => h | _ => y.core
            .next (consumeBad home (.fib y.k) 2 (pa / 4 * 4) false s)
          | none => .next ((copyLine y f hi m (pas.map s.curByte) s).getD s)

end Sys2Proof.Machine
end

