-- ==== Sys2Proof/Machine/EvTrace.lean ====
section
/-! DEFINITION. The basting unit (R453 to R460, R499): its packet stream, its ring in near memory, samples and syncs. -/
namespace Sys2Proof.Machine

/-! ### The stream (R456, R457, R459) -/

/-- The TD packet of a delta. -/
def tdBytes (d : Nat) : List W8 :=
  if d = 0 then [] else if d ≤ 15 then [b8 (0x20 + d)] else
  let n := ((List.range 8).find? fun n => d < 256 ^ (n + 1)).getD 7 + 1
  b8 (0x10 + n) :: leBytes d n

/-- A packet enters the buffer of 64 KiB, after the TD that brings the running time to its tick; without room, or after a
loss, both are dropped and their bytes are counted (R501: a dropped TD moves the running time too). -/
def bastPut (tick : Nat) (p : List W8) (b : Bast) : Bast :=
  let q := tdBytes (tick - b.run) ++ p
  if b.lost ≠ 0 || 65536 < b.buf.length + q.length then { b with lost := b.lost + q.length, run := tick }
  else { b with buf := b.buf ++ q, run := tick, last := tick }

/-- SYNC sets the running time. -/
def bastSync (tick : Nat) (b : Bast) : Bast :=
  let b := { b with syncAt := some tick }
  if b.lost ≠ 0 || 65536 < b.buf.length + 9 then { b with lost := b.lost + 9 }
  else { b with buf := b.buf ++ b8 0x70 :: leBytes tick 8, run := tick, last := tick }

/-- The packets of the open tick enter the buffer, in ascending handle order; samples follow (R457). -/
def bastFlush (tick : Nat) (b : Bast) : Bast :=
  (sortBy (fun x y => x.1 ≤ y.1) b.open_).foldl (fun b e => bastPut tick e.2 b) { b with open_ := [] }

/-- A packet of the unit itself. -/
def unitPacket (c : Nat) (p : List W8) (s : State) : State :=
  s.onCore c fun co => { co with bast := bastPut s.tick p (bastFlush s.tick co.bast) }

/-- The FSYNC of a fibre with reason 0. -/
def fsyncBytes (k : FKey) (f : Fib) : List W8 :=
  [b8 0x71, b8 (handleOf k), b8 0] ++ leBytes f.pc.toNat 8 ++ leBytes f.lanePc.toNat 8 ++ maskBytes f.mask ++ leBytes f.retired 8

/-- Traced resident fibres of a core in handle order. -/
def tracedFibs (s : State) (c : Nat) : List (FKey × Fib) :=
  sortBy (fun a b => handleOf a.1 ≤ handleOf b.1) ((s.fibsOfCore c).filter fun e => s.traces e.1 && e.2.st != .exited)

/-- SYNC, then an FSYNC of each traced resident fibre (R458). -/
def syncAll (c : Nat) (s : State) : State :=
  let s := s.onCore c fun co => { co with bast := bastSync s.tick (bastFlush s.tick co.bast) }
  (tracedFibs s c).foldl (fun (s : State) e =>
    (s.onCore c fun co => { co with bast := bastPut s.tick (fsyncBytes e.1 e.2) co.bast }).onFib e.1 fun f =>
      { f with syncMask := f.mask }) s

/-- TRACE_PERIODIC_SYNC: at a tick that is a multiple of 2^(SYP+10), unless this tick's sync has been made (R458). -/
def periodicDue (s : State) (c : Nat) : Bool :=
  let b := (s.core c).bast
  b.ctl.getLsbD 1 && s.tick % 2 ^ ((b.ctl.extractLsb' 24 4).toNat + 10) = 0 && b.syncAt != some s.tick

def execTracePeriodicSync (c : Nat) (s : State) : Out := if periodicDue s c then .next (syncAll c s) else .next s

/-- TRACE_RESYNC: once 64 bytes are free after a loss, LOSS with its count, SYNC and the FSYNCs (R459); no TD precedes LOSS (R501). -/
def execTraceResync (c : Nat) (s : State) : Out :=
  let b := bastFlush s.tick (s.core c).bast
  if b.lost = 0 || 65536 < b.buf.length + 64 then .next s
  else
    let n := min b.lost (2 ^ 32 - 1)
    let s := s.onCore c fun co => { co with bast := { b with buf := b.buf ++ b8 0x80 :: leBytes n 4, lost := 0, last := s.tick } }
    .next (syncAll c s)

/-! ### Control (R453, R454) -/

/-- Size of the ring, in bytes. -/
def Bast.size (b : Bast) : Nat := 2 ^ (b.base.extractLsb' 0 5).toNat

/-- A refused write sets ERR. -/
def bastErr (c : Nat) (s : State) : State :=
  s.onCore c fun co => { co with bast := { co.bast with ctl := co.bast.ctl ||| (1 <<< 63) } }

/-- A write to BTCTL. Setting SEN or TEN starts the count of BTWR again; setting TEN makes the sync of R499. -/
def btctlWrite (c : Nat) (v : W64) (s : State) : State :=
  let b := (s.core c).bast
  let sk := (v.extractLsb' 16 5).toNat
  if sk < 10 || 20 < sk || 10 < (v.extractLsb' 24 4).toNat then bastErr c s else
  let err : W64 := if v.getLsbD 63 then 0 else b.ctl &&& (1 <<< 63)
  let rise := fun (i : Nat) => v.getLsbD i && !b.ctl.getLsbD i
  let b' := { bastFlush s.tick b with ctl := (v &&& 0xFFFF_0F1F_0003) ||| err }
  let b' := if rise 0 || rise 1 then { b' with wr := 0, rd := 0 } else b'
  let b' := if rise 0 then { b' with nextSample := (s.core c).clk + 2 ^ sk, samp := [] } else b'
  let s := s.onCore c fun co => { co with bast := b' }
  if rise 1 then syncAll c s else s

/-- A write to BTBASE. -/
def btbaseWrite (c : Nat) (v : W64) (s : State) : State :=
  let b := (s.core c).bast
  let size := (v.extractLsb' 0 5).toNat
  let base := (v.extractLsb' 16 36).toNat * 65536
  if b.ctl.extractLsb' 0 2 ≠ 0 || size < 16 || 30 < size || base % 2 ^ size ≠ 0
      || !nearPopulated base || !nearPopulated (base + 2 ^ size - 1) || base / 2 ^ 33 ≠ (base + 2 ^ size - 1) / 2 ^ 33 then bastErr c s
  else s.onCore c fun co => { co with bast := { b with base := v &&& 0xF_FFFF_FFFF_001F } }

/-- A write to BTRD. -/
def btrdWrite (c : Nat) (v : W64) (s : State) : State :=
  let b := (s.core c).bast
  if v.toNat + b.size < b.wr || b.wr < v.toNat then bastErr c s
  else s.onCore c fun co => { co with bast := { b with rd := v.toNat } }

/-- TRACE_ENABLE: a write to BTCTL with TEN = 1. -/
def execTraceEnable (c : Nat) (v : BitVec 64) (s : State) : Out := .next (btctlWrite c (v ||| 2) s)

/-- BASTING_READ_ADVANCE: a write to BTRD. -/
def execBastingReadAdvance (c : Nat) (v : BitVec 64) (s : State) : Out := .next (btrdWrite c v s)

/-- A line of the stream is written to the ring as a home write, once its owned words are home, and BTWR advances (R453, R115). -/
def drainLine (c : Nat) (s : State) : State :=
  let b := (s.core c).bast
  let pa := (b.base.extractLsb' 16 36).toNat * 65536 + b.wr % b.size
  if b.buf.length < 128 || b.rd + b.size < b.wr + 128 then s
  else match homeTakes [pa / 128] s with
  | some s => s
  | none =>
    (homeWriteNow pa (b.buf.take 128) s).onCore c fun co =>
    { co with bast := { co.bast with buf := co.bast.buf.drop 128, wr := co.bast.wr + 128 } }

/-- BASTING_LINE_DRAIN. -/
def execBastingLineDrain (c : Nat) (s : State) : Out := .next (drainLine c s)

/-- The open line is to be padded. -/
def padDue (s : State) (b : Bast) : Bool := b.open_ = [] && b.buf.length % 128 ≠ 0 && b.last + 1200 ≤ s.tick

/-- BASTING_PAD: after 1,200 ticks without a packet the open line is padded with zeros and written. -/
def execBastingPad (c : Nat) (s : State) : Out :=
  let b := (s.core c).bast
  if !padDue s b then .next s
  else
    let pad := List.replicate (128 - b.buf.length % 128) (0 : W8)
    .next (drainLine c (s.onCore c fun co => { co with bast := { b with buf := b.buf ++ pad } }))

/-! ### Samples (R455) -/

/-- The stall reason a sample records; 0 is issued. `other`: another fibre holds the lane pipe (R195). -/
def sampleReason (port : Nat) (throttled other : Bool) (f : Fib) : Nat := match f.st with
  | .frozen => 14
  | .parked => 22
  | _ =>
    let r := if port = 0 then f.stall
      else if f.stitches = [] then 1
      else if other then (if f.stallL = 0 then 16 else min 16 f.stallL)
      else f.stallL
    -- a throttled core's fibres show 19 (R209), where no lower reason holds (R455)
    if throttled && 19 < r then 19 else r

/-- The fibre that a port samples next: the resident fibre after its last in rotation. -/
def sampleNext (s : State) (c u last : Nat) : Option (FKey × Fib) :=
  let pos := fun (k : FKey) => 4 * k.slot + k.pos
  let l := s.fibs.filter fun e => e.1.core = c && e.1.sub = u && e.2.st != .exited
  (sortBy (fun a b => (pos a.1 + 16 - last % 16) % 16 ≤ (pos b.1 + 16 - last % 16) % 16) l).head?

/-- A sample is due. -/
def sampleDue (co : Core) : Bool := co.bast.ctl.getLsbD 0 && !co.gated && co.bast.nextSample ≤ co.clk

/-- PC_SAMPLE: every 2^SK clk each issue port records one sample of its sub-core's fibres. -/
def execPcSample (c : Nat) (s : State) : Out :=
  let b := (s.core c).bast
  let co := s.core c
  if !sampleDue co then .next s else
  let ports := (List.range 16).flatMap fun u => [(u, 0), (u, 1)]
  let r := ports.foldl (fun (r : List (Nat × Nat) × List (Nat × List W8)) p =>
    let i := 2 * p.1 + p.2
    match sampleNext s c p.1 (tget r.1 i 0) with
    | none => r
    | some (k, f) =>
      let other := match (co.sub p.1).holder with | some h => h != k | none => false
      let why := sampleReason p.2 co.throttled other f
      let pkt := [b8 (0x90 + p.2), b8 (handleOf k), b8 (if why = 0 then 0x80 else why)] ++ leBytes f.pc.toNat 8 ++ leBytes f.lanePc.toNat 8
      (tset r.1 i (4 * k.slot + k.pos + 1), r.2 ++ [(256 + i, pkt)])) (b.samp, [])
  .next (s.onCore c fun co => { co with bast := { b with
    samp := r.1
    nextSample := b.nextSample + 2 ^ (b.ctl.extractLsb' 16 5).toNat
    open_ := b.open_ ++ r.2 } })

end Sys2Proof.Machine
end

