-- ==== Sys2Proof/Machine/EvFibre.lean ====
section
/-! DEFINITION. Events of one core: long results and divisions that complete (R252, R253, R263), scratch accesses at their quadrant
(R52, R153), clock steps and gating (R211, R456, R483), storage errors (R56, R103, R429, R430), and the passing of TICK (R82). -/
namespace Sys2Proof.Machine

/-! ### Long results (R252, R253, R263) -/

/-- LONG_RESULT_WRITEBACK: the oldest long result of a fibre that no access brings is written, and its gate opens. -/
def execLongResultWriteback (k : FKey) (s : State) : Out :=
  match s.fib? k with
  | none => .next s
  | some f => match f.longs.find? (fun l => !l.mem) with
    | none => .next s
    | some l => match writeRegRows k l.mask (l.vals.map (·.1)) s with
      | (s, some a) => .next (consumeBad k.core (.fib k) 0 a true s)
      | (s, none) => .next ((writeClash k l.mask l.clash (l.vals, l.tags) s).onFib k fun f => { f with
          longs := f.longs.filter fun x => x.id ≠ l.id })

/-- SCALAR_DIVIDE_COMPLETE: a division writes its result, and the fibre may issue scalar words again. -/
def execScalarDivideComplete (k : FKey) (s : State) : Out :=
  match s.fib? k with
  | none => .next s
  | some f => match f.div with
    | none => .next s
    | some (d, v) => .next (s.setFib k { f.setSreg d v with div := none })

/-! ### Scratch accesses (R52, R55, R58, R152, R153) -/

/-- The access with a number, and the core of its thread. -/
def State.accOf (s : State) (n : Nat) : Option (Nat × Acc) :=
  s.cores.findSome? fun e => ((e.2.loads ++ e.2.stores).find? fun a => a.id = n).map fun a => (e.1, a)

/-- Read, modify and write one part of a scratch access: bytes bound, and an uncorrectable row that was met. -/
def scratchPart (a : Acc) (p : Part) (s : State) : State × List (Nat × Nat × W8) × Option Nat :=
  let bind := fun (bs : List W8) => bs.zipIdx.map fun e => (p.lane, p.off + e.2, e.1)
  match a.kind with
  | .load => let (s, bs, bad) := readBolt p.pa p.n s
    (s, bind bs, bad)
  | .store => let (s, bad) := writeBolt p.pa p.data s
    (s, [], bad)
  | .atomic =>
    let (s, old, bad) := readBolt p.pa p.n s
    if bad.isSome then (s, [], bad) else
    let (s, bad) := writeBolt p.pa (leBytes (atomicNew a.op p.n (leNat old) (leNat p.data) (leNat p.cmp)) p.n) s
    (s, bind old, bad)

/-- SCRATCH_ACCESS_PERFORMED: the access with number n is performed at the quadrant of the core it names, lanes in ascending
order. An uncorrectable row is consumed by its thread's gang. -/
def execScratchAccessPerformed (n : Nat) (s : State) : Out :=
  match s.accOf n with
  | none => .next s
  | some (c, a) =>
    let scr := match a.space with | .scratch _ => true | _ => false
    if !scr || !(s.core c).inTurn a then .next s else
    let (s, got, bad) := a.parts.foldl (fun (x : State × List (Nat × Nat × W8) × Option Nat) p =>
      if x.2.2.isSome then x else
      let y := scratchPart a p x.1
      (y.1, x.2.1 ++ y.2.1, y.2.2)) (s, [], none)
    match bad with
    | some pa =>
      let s := s.onCore c fun co => { co with
        insts := co.insts.filter (·.id ≠ a.inst), loads := co.loads.filter (·.inst ≠ a.inst)
        stores := co.stores.filter (·.inst ≠ a.inst) }
      .next (consumeBad c a.thr 0 pa (a.kind ≠ .load) s)
    | none => .next (reap c (settle c (eventDone c a got none s)))

/-! ### Clocks (R211, R456, R458, R483) -/

/-- A twait slot is open on some port of the core. -/
def Core.slotOpen (co : Core) : Bool := co.subs.any fun u => u.2.slotF ≠ []

/-- A core's clock changes, with its STEP packet (R456, R483). -/
def stepClock (c mhz : Nat) (s : State) : State :=
  let s := s.onCore c fun co => { co with mhz := mhz, stepTo := none }
  if (s.core c).bast.ctl.getLsbD 1 then unitPacket c [b8 0xA1, b8 (mhz / 25)] s else s

/-- CLOCK_STEP: a core clock of 600 to 2,400 MHz in steps of 25 takes effect at a tick boundary; while a twait slot is open it waits for
the first one after the slot closes (R211). -/
def execClockStep (c mhz : Nat) (s : State) : Out :=
  if mhz < 600 || 2400 < mhz || mhz % 25 ≠ 0 then .next s
  else .next (if (s.core c).slotOpen then s.onCore c fun co => { co with stepTo := some mhz } else stepClock c mhz s)

/-- A core is idle: no fibre of it has a word to issue but at the end of a wait. -/
def coreIdle (s : State) (c : Nat) : Bool :=
  !(s.core c).slotOpen && (s.fibsOfCore c).all fun e => match e.2.st with
    | .running | .saving | .restoring => e.2.stall = 18 && e.2.stitches = []
    | .blocked => e.2.stitches = []
    | _ => true

/-- CLOCK_GATE: an idle core's clock is gated; GATE is followed by a sync. -/
def execClockGate (c : Nat) (s : State) : Out :=
  if (s.core c).gated || !coreIdle s c then .next s
  else
    let s := s.onCore c fun co => { co with gated := true }
    .next (if (s.core c).bast.ctl.getLsbD 1 then syncAll c (unitPacket c [b8 0xA0] s) else s)

/-- A gated core is woken. -/
def wakeCore (c : Nat) (s : State) : State := if (s.core c).gated then s.onCore c fun co => { co with gated := false } else s

/-- CLOCK_UNGATE. -/
def execClockUngate (c : Nat) (s : State) : Out := .next (wakeCore c s)

/-! ### Storage errors (R56, R103, R379, R429, R430) -/

/-- A count of CECC rises (R429): 0 UNC, 1 L1C, 2 SLC, 3 ICP. -/
def bumpCecc (c n : Nat) (s : State) : State := s.onCore c fun co => { co with cecc := bumpCount co.cecc n }

/-- Symbols go wrong in a codeword. -/
def addErr (l : List (Nat × Nat × Nat)) (a b n : Nat) : List (Nat × Nat × Nat) :=
  let old := match l.find? fun e => e.1 = a ∧ e.2.1 = b with | some e => e.2.2 | none => 0
  (a, b, old + n) :: l.filter fun e => !(e.1 = a && e.2.1 = b)

/-- The storage of the module is disturbed. A corrected word counts. An uncorrectable word of an L1 is dropped if it is Valid and
poisoned if it is Registered; a Valid word of a slice is poisoned; an instruction-cache line is refilled. -/
def applyUpset (u : Upset) (s : State) : State :=
  match u with
  | .bolt c q row b e => s.onCore c fun co =>
    co.setRowErrors (q % 4) (row % 65536) (addErrors (co.rowErrors (q % 4) (row % 65536)) [(b % 36, e)])
  | .row c h l n => s.onCore c fun co => { co with rowErr := addErr co.rowErr (h % 2 ^ 21) (l % 24) n }
  | .l1 c wa fixed =>
    let w := (s.core c).l1word (wa / 32) (wa % 32)
    if w.st = .invalid then s
    else if fixed then bumpCecc c 1 s
    else bumpCecc c 0 (s.onCore c fun co => co.setL1word (wa / 32) (wa % 32)
      (if w.st = .valid then {} else { w with poison := true }))
  | .slice c wa fixed =>
    if !(s.core c).slice.contains (wa / 32) then s
    else if fixed then bumpCecc c 2 s
    else if (s.ownerOf (wa / 32) (wa % 32)).isSome then s
    else bumpCecc c 0 { s with poison := if s.poison.contains wa then s.poison else s.poison ++ [wa] }
  | .icache c line =>
    if (s.core c).icache.any (·.line = line) then
      bumpCecc c 3 (s.onCore c fun co => { co with icache := co.icache.map fun l =>
        if l.line = line then { l with data := s.curBytes (128 * line) 128 } else l })
    else s
  | .press c p r col first => s.onCore c fun co => { co with faulty := co.faulty ++ [(p, r, col, first)] }

/-! ### The passing of TICK (R82, R457) -/

/-- A released fibre has yet to take its clk of a slot. -/
def slotHolds (s : State) : Bool := s.cores.any fun e => e.2.subs.any fun u => match u.2.slotF with
  | k :: _ => (match s.fib? k with
    | some f => (match f.tslot with | some t => decide (t + 2 ≤ s.tick) | none => false)
    | none => false)
  | [] => false

/-- Packets of the tick that ends stand in the stream, and the core clock has made its edges. -/
def Core.endTick (t : Nat) (co : Core) : Core :=
  let a := co.clkAcc + co.mhz
  let co := { co with bast := bastFlush t co.bast }
  if co.gated then co else { co with clk := co.clk + a / 1200, clkAcc := a % 1200 }

/-- A clock step that waited takes effect, its slot having closed (R211). -/
def dueSteps (s : State) : State :=
  (s.cores.filterMap fun e => if e.2.slotOpen then none else e.2.stepTo.map fun m => (e.1, m)).foldl
    (fun s e => stepClock e.1 e.2 s) s

/-- TICK advances by one, but not past the clk of a slot that a released fibre has yet to take (R211). -/
def advanceTick (s : State) : State :=
  if slotHolds s then s
  else dueSteps { s with tick := s.tick + 1, cores := s.cores.map fun (e : Nat × Core) => (e.1, e.2.endTick s.tick) }

end Sys2Proof.Machine
end

