-- ==== Sys2Proof/Machine/EvTranslate.lean ====
section
/-! DEFINITION. Events of translation: walks, L2 TLB hits, and invalidations through TINV (R22, R27, R31 to R33). -/
namespace Sys2Proof.Machine

/-- The translation that answers a miss from the L2 TLB: it maps the page, and a store finds D set (R22, R32). -/
def l2Hit (s : State) (c : Nat) (sl : MissSlot) : Option Tlb :=
  (s.die (c / 32)).l2.find? fun t => t.maps sl.vpn && (!sl.wr || pteD t.leaf || !pteW t.leaf)

/-- The miss of a core in a slot, while its walk has no outcome. -/
def openSlot (s : State) (c slot : Nat) : Option MissSlot := ((s.core c).openSlots[slot]?).map (·.1)

/-- The oldest miss of a core that needs a walker: the L2 TLB does not answer it and no walk of its page runs on the die. -/
def needsWalker (s : State) (c : Nat) : Option MissSlot :=
  ((s.core c).openSlots.find? fun x => (l2Hit s c x.1).isNone && !(s.die (c / 32)).walkers.contains x.1.vpn).map (·.1)

/-- The core of a die whose oldest miss takes the next free walker: round-robin from the last (R32). -/
def walkerTurn (s : State) (die : Nat) : Option Nat :=
  ((List.range 32).map fun j => 32 * die + ((s.die die).lastWalk + 1 + j) % 32).find? fun c => (needsWalker s c).isSome

/-- A free walker of a die is taken for the miss whose turn it is; at most 32 run (R32). -/
def takeWalker (die : Nat) (s : State) : State :=
  let x := { s.die die with walkers := (s.die die).walkers.filter fun v => walkCores s die v ≠ [] }
  if 32 ≤ x.walkers.length then s else
  match walkerTurn s die with
  | none => s
  | some c => match needsWalker s c with
    | some m => s.setDie die { x with walkers := x.walkers ++ [m.vpn], lastWalk := c % 32 }
    | none => s

/-- PAGE_WALK (R18 to R23, R32): free walkers of the die take the misses whose turn it is, and the walk of the miss in this slot
proceeds. -/
def execPageWalk (c slot : Nat) (s : State) : Out :=
  match openSlot s c slot, s.domOfCore c with
  | some sl, some d =>
    let die := c / 32
    let s := takeWalker die s
    if !(s.die die).walkers.contains sl.vpn then .next s else
    match fetchHome (walkLines s d (((BitVec.ofNat 39 sl.vpn).signExtend 64) <<< 16)) s with
    | some s => .next s
    | none => .next (runWalk die d sl.vpn s)
  | _, _ => .next s

/-- L2_TLB_HIT (R32): the die's L2 TLB answers a miss of a core's L1 TLB. -/
def execL2TlbHit (c slot : Nat) (s : State) : Out :=
  match openSlot s c slot with
  | none => .next s
  | some sl => match l2Hit s c sl with
    | none => .next s
    | some t =>
      let die := s.die (c / 32)
      let s := s.setDie (c / 32) { die with l2 := t :: die.l2.filter (· ≠ t) }
      .next (s.onCore c fun co =>
        { co with tlb := tlbAdd 256 t co.tlb, slots := co.slots.filter fun x => x.vpn ≠ sl.vpn || x.fault.isSome })

/-! ### Invalidation (R27, R33) -/

/-- Mode and first page of an invalidation. -/
def tinvMode (v : W64) : Nat := (v.extractLsb' 62 2).toNat
def tinvVpn (v : W64) : Nat := (v.extractLsb' 16 39).toNat

/-- The invalidation covers a 64 KiB page. -/
def tinvCovers (v : W64) (vpn : Nat) : Bool := match tinvMode v with
  | 0 => vpn = tinvVpn v
  | 1 => vpn / 8192 = tinvVpn v / 8192
  | _ => true

/-- The invalidation removes a translation: it maps a page that it covers. -/
def tinvDrops (v : W64) (t : Tlb) : Bool := match tinvMode v with
  | 0 => t.maps (tinvVpn v)
  | 1 => t.vpn / 8192 = tinvVpn v / 8192
  | _ => true

/-- The invalidation removes an entry of a walker cache: a walk of a covered page reads it. -/
def tinvDropsWalk (v : W64) (key : Nat) : Bool :=
  let a : W64 := v &&& 0x7F_FFFF_FFFF_0000
  tinvMode v = 2 || key = walkKey a 1 || key = walkKey a 2

/-- Translations go from every TLB and walker cache of the domain, and what its satchel words have checked. -/
def tinvRemove (d : Nat) (v : W64) (s : State) : State :=
  let mine := fun (die : Nat) => (s.dom d).dies.getLsbD die
  { dropKept (fun f => f.dom = d) s with
    cores := s.cores.map fun (e : Nat × Core) => if mine (e.1 / 32) then (e.1, { e.2 with
        tlb := e.2.tlb.filter fun t => !tinvDrops v t
        slots := e.2.slots.filter fun x => x.fault.isNone || !tinvCovers v x.vpn }) else e
    dies := s.dies.map fun (e : Nat × Die) => if mine e.1 then (e.1, { e.2 with
        l2 := e.2.l2.filter fun t => !tinvDrops v t
        walk := e.2.walk.filter fun w => !tinvDropsWalk v w.1 }) else e }

/-- A write to TINV (R27): refused while BUSY and for MODE 3. -/
def tinvWrite (d : Nat) (v : W64) (s : State) : State :=
  let dm := s.dom d
  let t := if v.getLsbD 1 then dm.tinv &&& ~~~(2 : W64) else dm.tinv
  if t.getLsbD 0 || tinvMode v = 3 then s.setDom d { dm with tinv := t ||| 2 }
  else
    let t' := (v &&& 0xC07F_FFFF_FFFF_0000) ||| (t &&& 2) ||| 1
    let (mark, s) := s.fresh
    tinvRemove d t' (s.setDom d { dm with tinv := t', tinvMark := mark })

/-- An access that passed its check before the invalidation, through a translation it covers, is not performed. A fibre's hamper works
on the frames of its gang's placement, and does not count (R358). -/
def tinvOpen (s : State) (d : Nat) (v : W64) (mark : Nat) : Bool :=
  let va := fun (a : W64) => tinvCovers v (vpnOf a)
  let acc := fun (a : Acc) => a.since < mark && a.parts.any (fun p => va p.va) && (match a.thr, a.space with
    | .hart _ 0, _ => false
    | _, .scratch _ => false
    | _, _ => true)
  s.cores.any (fun e => (s.dom d).dies.getLsbD (e.1 / 32) && ((e.2.loads ++ e.2.stores).any acc
    || e.2.press.any fun p => p.2.any fun o => (o.op = 0x96 || o.op = 0x97) && o.id < mark && o.lines.any fun l => va l.2.2))
  || s.copies.any (fun y => y.id < mark && (s.dom d).dies.getLsbD (y.core / 32)
    && (y.spages ++ y.dpages).any fun p => tinvCovers v p.1)
  || s.ext.any (fun r => r.dom = d && 32 ≤ r.link && r.id < mark && r.lines.any fun l => va l.2.1)
  || s.hamp.any (fun q => q.id < mark && q.pages.any (fun p => tinvCovers v p.1) && (match q.thr with
    | some (.hart c 1) => (s.dom d).dies.getLsbD (c / 32)
    | some _ => false
    | none => s.ext.any fun r => q.door = some r.id && r.dom = d))

/-- TINV_COMPLETE: BUSY falls once no cache holds a covered translation and the accesses made through one are performed. -/
def execTinvComplete (d : Nat) (s : State) : Out :=
  let dm := s.dom d
  if !dm.tinv.getLsbD 0 || tinvOpen s d dm.tinv dm.tinvMark then .next s
  else .next ((tinvRemove d dm.tinv s).setDom d { dm with tinv := dm.tinv &&& ~~~(1 : W64) })

/-- TINV_PAGE: a TINV write with MODE 0. -/
def execTinvPage (d : Nat) (v : BitVec 64) (s : State) : Out := .next (tinvWrite d (v &&& 0x3FFF_FFFF_FFFF_FFFF) s)
/-- TINV_LARGE_PAGE: a TINV write with MODE 1. -/
def execTinvLargePage (d : Nat) (v : BitVec 64) (s : State) : Out :=
  .next (tinvWrite d ((v &&& 0x3FFF_FFFF_FFFF_FFFF) ||| 0x4000_0000_0000_0000) s)
/-- TINV_DOMAIN: a TINV write with MODE 2. -/
def execTinvDomain (d : Nat) (v : BitVec 64) (s : State) : Out :=
  .next (tinvWrite d ((v &&& 0x3FFF_FFFF_FFFF_FFFF) ||| 0x8000_0000_0000_0000) s)

end Sys2Proof.Machine
end

