-- ==== Sys2Proof/Machine/EvRegs.lean ====
section
/-! DEFINITION. The register aperture (R15, R24, R61, R506): every control register as it reads and as it is written; and accesses to
the I/O apertures as they complete (R79, R478, R479). -/
namespace Sys2Proof.Machine

/-! ### Places (R24, R61, R506) -/

/-- A place of the register aperture: the control block of a domain or of a core, and an offset. -/
inductive RegPlace where
  | dom (n off : Nat)
  | core (c off : Nat)
  | none
  deriving DecidableEq, Repr

/-- Base of the register aperture and of the attestation mailbox (R15, R482). -/
def regBase : Nat := 0xA_0000_0000_0000
def mailbox : Nat := 0xA_0000_F000_0000

/-- The place of an address. -/
def regPlace (pa : Nat) : RegPlace :=
  let o := pa - regBase
  if pa < regBase then .none
  else if o < 0x8_0000 then .dom (o / 0x1_0000) (o % 0x1_0000)
  else if 0x100_0000 ≤ o && o < 0x200_0000 then .core ((o - 0x100_0000) / 0x1_0000) (o % 0x1_0000)
  else .none

/-- Width of the register that begins at an offset of a domain's block, in bytes; 0: no register begins there. -/
def domWidth (off : Nat) : Nat :=
  if off < 0x100 then (if off % 4 = 0 then 4 else 0)
  else if off % 8 ≠ 0 then 0
  else if off ≤ 0x120 then 8
  else if 0x200 ≤ off && off < 0x400 then (if off % 0x20 < 0x18 then 8 else 0)
  else if 0x400 ≤ off && off < 0x630 then 8
  else 0

/-- Width of the register that begins at an offset of a core's block. -/
def coreWidth (off : Nat) : Nat :=
  if off = 0 then 4
  else if [0x8, 0x10, 0x20, 0x28, 0x30, 0x38, 0x40, 0x48, 0x50, 0x80, 0x88, 0x90, 0x98, 0xA0, 0x300, 0x308, 0x310, 0x318].contains off then 8
  else if 0x100 ≤ off && off < 0x200 && off % 8 = 0 && off % 0x20 < 0x18 then 8
  else 0

/-! ### Reads -/

/-- A register of a domain's block. -/
def domRead (s : State) (n off : Nat) : W64 :=
  let dm := s.dom n
  if off < 0x100 then BitVec.ofNat 64 (tget dm.rat (off / 4) 2)
  else if 0x200 ≤ off && off < 0x400 then
    let i := (off - 0x200) / 0x20
    match off % 0x20 with
    | 0 => tget dm.fws i 0
    | 8 => tget dm.fwn i 0
    | _ => tget dm.fwl i 0
  else if 0x400 ≤ off && off < 0x600 then tget dm.doors ((off - 0x400) / 8) 0
  else match off with
    | 0x100 => dm.dptb
    | 0x108 => dm.tinv
    | 0x110 => dm.dies.setWidth 64
    | 0x118 => dm.dunp
    | 0x120 => if dm.dies = 0 then 3 else dm.dstart
    | 0x600 => dm.rpctl
    | 0x608 => dm.rpbase
    | 0x610 => dm.rpstat
    | 0x618 => dm.rpcmd
    | 0x620 => dm.rptgt0
    | 0x628 => dm.rptgt1
    | _ => 0

/-- A register of a core's block. -/
def coreRead (s : State) (c off : Nat) : W64 :=
  let co := s.core c
  if 0x100 ≤ off && off < 0x200 then
    match tfind co.grants ((off - 0x100) / 0x20) with
    | none => 0
    | some g => match off % 0x20 with
      | 0 => grantWord ((off - 0x100) / 0x20) g
      | 8 => g.mask.extractLsb' 0 64
      | _ => g.mask.extractLsb' 64 64
  else if 0x20 ≤ off && off < 0x40 then tget co.bfail ((off - 0x20) / 8) 0
  else match off with
    | 0 => co.bcut.setWidth 64
    | 0x8 => co.good.extractLsb' 0 64
    | 0x10 => co.good.extractLsb' 64 64
    | 0x40 => co.becc
    | 0x48 => co.buce
    | 0x50 => co.bstat
    | 0x80 => co.necc
    | 0x88 => co.nuce
    | 0x90 => co.dsmis
    | 0x98 => co.cecc
    | 0xA0 => co.cret
    | 0x300 => co.bast.ctl
    | 0x308 => co.bast.base
    | 0x310 => BitVec.ofNat 64 co.bast.wr
    | 0x318 => BitVec.ofNat 64 co.bast.rd
    | _ => 0

/-- The bytes that a read of n bytes of the aperture returns: a register in one aligned access of its own width, the report of the
attestation mailbox, and zero elsewhere. -/
def regRead (s : State) (pa n : Nat) : List W8 :=
  if mailbox ≤ pa && pa < mailbox + 704 then (List.range n).map fun j => s.report.getD (pa - mailbox + j) 0
  else match regPlace pa with
    | .dom d off => if domWidth off = n then leBytes (domRead s d off).toNat n else List.replicate n 0
    | .core c off => if coreWidth off = n then leBytes (coreRead s c off).toNat n else List.replicate n 0
    | .none => List.replicate n 0

/-! ### Writes -/

/-- A write to a domain's block. -/
def domWrite (n off : Nat) (v : W64) (s : State) : State :=
  let dm := s.dom n
  if off < 0x100 then s.setDom n { dm with rat := tset dm.rat (off / 4) (v.toNat % 4) }
  else if 0x200 ≤ off && off < 0x400 then
    let i := (off - 0x200) / 0x20
    match off % 0x20 with
    | 0 => fwWrite n i false v s
    | 8 => fwWrite n i true v s
    | _ => fwlWrite n i v s
  else if 0x400 ≤ off && off < 0x600 then
    s.setDom n { dm with doors := tset dm.doors ((off - 0x400) / 8) (v &&& 0x800F_FFFF_FFFF_FF80) }
  else match off with
    | 0x100 => s.setDom n { dm with dptb := v &&& 0xF_FFFF_FFFF_0001 }
    | 0x108 => tinvWrite n v s
    | 0x600 => rpctlWrite n v s
    | 0x608 => s.setDom n { dm with rpbase := v &&& 0xF_FFFF_C000_001F }
    | 0x610 => s.setDom n { dm with rpstat := dm.rpstat &&& ~~~(v &&& 0x8000_0000) }
    | 0x618 => rpcmdWrite n v s
    | 0x620 => s.setDom n { dm with rptgt0 := v &&& 0x3FFF_FFFF }
    | 0x628 => s.setDom n { dm with rptgt1 := v }
    | _ => s

/-- Bits written 1 are cleared. -/
def w1c (old bits v : W64) : W64 := old &&& ~~~(v &&& bits)

/-- A write to a core's block. -/
def coreWrite (c off : Nat) (v : W64) (s : State) : State :=
  let all : W64 := BitVec.allOnes 64
  if 0x20 ≤ off && off < 0x40 then bfailWrite c ((off - 0x20) / 8) v s
  else match off with
    | 0x8 => bgoodWrite c false v s
    | 0x10 => bgoodWrite c true v s
    | 0x40 => s.onCore c fun co => { co with becc := w1c co.becc all v }
    | 0x48 => s.onCore c fun co => { co with buce := w1c co.buce 0xC000_0000_0000_0000 v }
    | 0x50 => s.onCore c fun co => { co with bstat := w1c co.bstat 3 v }
    | 0x80 => s.onCore c fun co => { co with necc := w1c co.necc 0xFFFF_FFFF v }
    | 0x88 => s.onCore c fun co => { co with nuce := w1c co.nuce 0xC000_0000_0000_0000 v }
    | 0x90 => s.onCore c fun co => { co with dsmis := w1c co.dsmis all v }
    | 0x98 => s.onCore c fun co => { co with cecc := w1c co.cecc all v }
    | 0xA0 => cretWrite c v s
    | 0x300 => btctlWrite c v s
    | 0x308 => btbaseWrite c v s
    | 0x318 => btrdWrite c v s
    | _ => s

/-- A write of n bytes to the aperture: a register in one aligned access of its own width, a nonce of 64 bytes to the mailbox;
anything else changes nothing. -/
def regWrite (pa n v : Nat) (s : State) : State :=
  if pa = mailbox && n = 64 then { s with attest := s.attest ++ [BitVec.ofNat 512 v] }
  else match regPlace pa with
    | .dom d off => if domWidth off = n then domWrite d off (BitVec.ofNat 64 v) s else s
    | .core c off => if coreWidth off = n then coreWrite c off (BitVec.ofNat 64 v) s else s
    | .none => s

/-- REGISTER_WRITE: a write of n bytes at an address of the register aperture. -/
def execRegisterWrite (pa n : Nat) (v : BitVec 64) (s : State) : Out := .next (regWrite pa n v.toNat s)

/-! ### Accesses to the I/O apertures (R79, R478, R479) -/

/-- The receive doors (R479): domain and door of an address. -/
def doorOf (pa : Nat) : Option (Nat × Nat) :=
  let o := pa - 0x9_0000_0000_0000
  if pa < 0x9_0000_0000_0000 || 0x8_0000 ≤ o || 0x4000 ≤ o % 0x1_0000 then none
  else some (o / 0x1_0000, o % 0x1_0000 / 0x100)

/-- One part of an access served at its aperture: the bytes a load binds and the state after it. Registers are read and written
here; a door takes accesses of 64 bytes only, so that these are Unsupported, and a load gets all ones; a device answers `v`. -/
def apertureServe (a : Acc) (p : Part) (v : W64) (s : State) : State × List W8 :=
  let ld := a.kind = .load
  if regBase ≤ p.pa then
    if ld then (s, regRead s p.pa p.n) else (regWrite p.pa p.n (leNat p.data) s, [])
  else if (doorOf p.pa).isSome then (s, if ld then List.replicate p.n 0xFF else [])
  else (s, if ld then leBytes v.toNat p.n else [])

/-- IO_APERTURE_COMPLETION: the access with number n, in its thread's order, is served by its aperture or acknowledged. One that
went out on a link waits for its completion there. -/
def execIoApertureCompletion (n : Nat) (v : BitVec 64) (s : State) : Out :=
  match s.accOf n with
  | none => .next s
  | some (c, a) =>
    if a.space ≠ .io || a.sent || !(s.core c).inTurn a || a.parts.any (fun p => fabricAperture p.pa) then .next s else
    let (t, got) := a.parts.foldl (fun (x : State × List (Nat × Nat × W8)) p =>
      let y := apertureServe a p v x.1
      (y.1, x.2 ++ y.2.zipIdx.map fun e => (p.lane, p.off + e.2, e.1))) (s, [])
    .next (reap c (settle c (eventDone c a got none t)))

end Sys2Proof.Machine
end

