-- ==== Sys2Proof/Machine/Links.lean ====
section
/-! DEFINITION. Requests from outside the package: link agents (R105, R128, R155, R471 to R473, R477) and PCI Express routes (R475 to
R477), as they stand in the package, send their messages to the homes, and are answered; and messages that leave on a link. -/
namespace Sys2Proof

/-! ### Headers (R471) -/

def FabHdr.dpkg (h : FabHdr) : Nat := (h.w0.extractLsb' 52 12).toNat
def FabHdr.spkg (h : FabHdr) : Nat := (h.w0.extractLsb' 40 12).toNat
def FabHdr.sagent (h : FabHdr) : Nat := (h.w0.extractLsb' 31 9).toNat
def FabHdr.len (h : FabHdr) : Nat := (h.w0.extractLsb' 20 8).toNat
def FabHdr.ns (h : FabHdr) : Bool := h.w0.getLsbD 19
def FabHdr.ord (h : FabHdr) : Nat := (h.w0.extractLsb' 16 2).toNat
def FabHdr.kind (h : FabHdr) : Nat := (h.w0.extractLsb' 12 4).toNat
def FabHdr.tag (h : FabHdr) : Nat := (h.w0.extractLsb' 0 12).toNat
def FabHdr.pa (h : FabHdr) : Nat := (h.w1.extractLsb' 0 52).toNat

/-- A reserved KIND, or a reserved bit that is not zero. -/
def FabHdr.reserved (h : FabHdr) : Bool := 5 ≤ h.kind || h.w0.extractLsb' 28 3 ≠ 0 || h.w1.extractLsb' 52 12 ≠ 0

/-- Bytes that an RD or WR names. -/
def FabHdr.bytes (h : FabHdr) : Nat := 4 * (h.len + 1)

/-- The agent that sent a flit. -/
def FabHdr.from_ (h : FabHdr) : Node := .agent h.spkg h.sagent

end Sys2Proof

namespace Sys2Proof.Machine

/-- Number of a message kind, in the order of R109. -/
def msgNumber : MsgKind → Nat
  | .reg => 0 | .grant => 1 | .revoke => 2 | .rvack => 3 | .ld => 4 | .ldata => 5 | .fwd => 6 | .fdata => 7 | .wb => 8 | .wback => 9
  | .recall => 10 | .xreg => 11 | .push => 12 | .hwr => 13 | .hwack => 14

/-- Bytes of a line named by a byte mask, in ascending order. -/
def maskedBytes (bm : BitVec 128) (data : List W32) : List W8 :=
  ((List.range 128).filter fun i => bm.getLsbD i).map fun i => wordByte (data.getD (i / 4) 0) (i % 4)

/-- The byte mask of n bytes from byte i of a line. -/
def byteRun (i n : Nat) : BitVec 128 :=
  (List.range 128).foldl (fun m j => if i ≤ j && j < i + n then m ||| ((1 : BitVec 128) <<< j) else m) 0

/-- The 32 words of a line with bytes at an offset, the others zero. -/
def wordsWith (first : Nat) (bs : List W8) : List W32 :=
  (List.range 32).map fun w => BitVec.ofNat 32 (leNat ((List.range 4).map fun j =>
    if first ≤ 4 * w + j then bs.getD (4 * w + j - first) 0 else 0))

/-! ### Records for a domain (R475, R477) -/

/-- The lowest-numbered core of a domain. -/
def lowestCore (s : State) (d : Nat) : Option Nat := (s.coresOfDom d).head?

/-- A record of RKIND 1 with HANDLE 0xFF for hart 0 of the domain's lowest-numbered core. -/
def domainRecord (d : Nat) (cause : Nat) (addr info : W64) (s : State) : State := match lowestCore s d with
  | some c => pushRec c (mkRecord 1 0xFF 0 false (causeWord cause {}) 0 0 addr info s.tick (c % 256 * 2 ^ 56 + d % 8 * 2 ^ 48) 0) s
  | none => s

/-! ### Completions -/

/-- A completion of a request leaves on the link it came by, or by its port. Header of a port: the status, and the request's address. -/
def complete (r : ExtReq) (status : Nat) (data : List W8) (s : State) : State :=
  let h : FabHdr := match r.node with
    | .agent p _ => fabHdr p s.pkg.toNat (match homeOf (r.pa / 128) with | .home c => c | _ => 0) status false false r.ord
        (if r.wr then 3 else 2) r.hdr.tag r.pa
    | _ => ⟨BitVec.ofNat 64 status, r.hdr.w1⟩
  { s with ext := s.ext.filter (·.id ≠ r.id), sent := s.sent ++ [{ link := r.link, hdr := h, data := data, poison := r.poison }] }

/-- The data of a read, gathered from its lines. -/
def ExtReq.gathered (r : ExtReq) : List W8 := r.lines.flatMap fun l => maskedBytes l.2.2.1 l.2.2.2

/-- A request whose messages have all been answered completes once its link is up; a posted write of a route just ends, and so does an
agent's own message, whose answer has gone to it. -/
def tryComplete (r : ExtReq) (s : State) : State :=
  if !r.go || r.out ≠ [] then s
  else if r.msg.isSome then { s with ext := s.ext.filter (·.id ≠ r.id) }
  else if r.link < 32 && !s.linksUp.getLsbD r.link then s
  else match r.node, r.wr with
    | .route _ _, true => { s with ext := s.ext.filter (·.id ≠ r.id) }
    | _, true => complete r (if r.refused then 1 else r.status) [] s
    | _, false => complete r r.status (if r.status = 0 then r.gathered else []) s

/-! ### Sending (R155, R156, R476) -/

/-- A request may send its messages: those of one link or route wait for earlier ones as their order asks. -/
def mayGo (s : State) (r : ExtReq) : Bool :=
  let earlier := s.ext.takeWhile (·.id ≠ r.id)
  match r.node with
  | .route _ _ => if r.wr && r.ord = 0 then true else !(earlier.any fun x => x.node = r.node && x.wr)
  | _ => match r.ord with
    | 0 => true
    | 3 => !(earlier.any fun x => x.link = r.link)
    | _ => !(earlier.any fun x => x.link = r.link && x.ord ≠ 0)

/-- Send one line of a request: an HWR, or an LD that is strong unless the agent asked plain. A request by physical address carries no
region (log 33). -/
def sendLine (r : ExtReq) (l : Nat × W64 × BitVec 128 × List W32) (s : State) : ExtReq × State :=
  let (id, s) := s.fresh
  let s := (tagFor l.1 id s).getD s
  let m := { msg0 (if r.wr then .hwr else .ld) r.node (homeOf l.1) l.1 with mask := wordMask l.2.2.1, dom := r.dom, tag := id }
  let m := if r.wr then { m with bmask := l.2.2.1, data := l.2.2.2 }
    else { m with strong := (match r.node with | .route _ _ => true | _ => r.ord ≠ 0) }
  ({ r with out := r.out ++ [id] }, send m s)

/-- A hamper bound to a door, with its ring's frames as the domain's root maps them, A and D set (R22, R358, R479). The first answer
waits, for words that an agent holds. -/
def doorChan (d n : Nat) (s : State) : State ⊕ (State × Option Chan) :=
  let v := tget (s.dom d).doors n 0
  let pa := (v.extractLsb' 7 45).toNat * 128
  if !v.getLsbD 63 || !(nearPopulated pa || inPool pa) then .inr (s, none) else
  match fetchHome [pa / 128] s with
  | some s => .inl s
  | none => match ringOf (s.curBytes pa 128) with
    | none => .inr (s, none)
    | some (cap, ring, vas) => match storePages d .host vas s with
      | .inl s => .inl s
      | .inr (s, pas) =>
        if pas.any (·.isNone) then .inr (s, none)
        else .inr (s, some ⟨0, false, pa, cap, ring, (vas.zip pas).map fun e => (vpnOf e.1, e.2.getD 0 / 65536), inPool pa⟩)

/-- A hamper request through a door; it is answered by the request from outside that asked. -/
def askDoor (ch : Chan) (enq : Bool) (item : BitVec 512) (door : Nat) (s : State) : State :=
  let (id, s) := s.fresh
  { s with hamp := s.hamp ++ [{ id := id, enq := enq, desc := ch.desc, cap := ch.cap, ring := ch.ring, pages := ch.pages, item := item,
                                door := some door }] }

/-- An address in the non-prefetchable aperture (R15). -/
def inDoors (pa : Nat) : Bool := 0x9_0000_0000_0000 ≤ pa && pa < 0x9_0100_0000_0000

/-- A request's data, as words of its only line, in place. -/
def ExtReq.withData (r : ExtReq) (bs : List W8) : ExtReq :=
  { r with lines := r.lines.map fun l => (l.1, l.2.1, l.2.2.1, wordsWith (r.pa % 128) bs) }

/-- First byte and number of bytes that a byte mask names. -/
def maskRun (bm : BitVec 128) : Nat × Nat :=
  let l := (List.range 128).filter fun i => bm.getLsbD i
  (l.headD 0, l.length)

/-- One line of a request: memory is reached at its home, a register is read or written at once; of other I/O addresses an agent reads
free bytes (log 7), a device's read is Unsupported, and a write is taken by the aperture; elsewhere there is nothing. -/
def goLine (r : ExtReq) (l : Nat × W64 × BitVec 128 × List W32) (s : State) : ExtReq × State :=
  let (o, n) := maskRun l.2.2.1
  let pa := 128 * l.1 + o
  let dev := match r.node with | .route _ _ => true | _ => false
  let got := fun (bs : List W8) => { r with lines := r.lines.map fun x => if x.1 = l.1 then (x.1, x.2.1, x.2.2.1, wordsWith o bs) else x }
  if nearPopulated pa || (dev && inPool pa) then sendLine r l s
  else if regBase ≤ pa && pa < regBase + 2 ^ 32 then
    if r.wr then (r, regWrite pa n (leNat (maskedBytes l.2.2.1 l.2.2.2)) s) else (got (regRead s pa n), s)
  else if inDoors pa && ((doorOf pa).isSome || !r.wr) then ({ r with status := 3 }, s)
  else if inIo pa then
    if r.wr then (r, s)
    else if dev then ({ r with status := 3 }, s)
    else (got ((List.range n).map fun j => Config.freeByte (s.freeCtr + j)), { s with freeCtr := s.freeCtr + n })
  else ({ r with status := 2 }, s)

/-- The door that a request of 64 aligned bytes names (R479): a load must be no-speculate, and none comes from a device (R478). -/
def ExtReq.door (r : ExtReq) : Option (Nat × Nat) :=
  let dev := match r.node with | .route _ _ => true | _ => false
  if r.n = 64 && r.pa % 0x100 % 64 = 0 && (r.wr || (!dev && r.hdr.ns)) then doorOf r.pa else none

/-- A request whose turn has come goes: an agent's message to its home, a door's to its hamper, anything else line by line. -/
def goExt (r : ExtReq) (s : State) : State :=
  let put := fun (r : ExtReq) (s : State) => { s with ext := s.ext.map fun x => if x.id = r.id then r else x }
  let r1 := { r with go := true }
  let byLine := fun (s : State) =>
    let x := r.lines.foldl (fun (x : ExtReq × State) l => goLine x.1 l x.2) (r1, s)
    tryComplete x.1 (put x.1 x.2)
  match r.msg, r.door with
  | some m, _ =>
    let (id, s) := s.fresh
    send { m with tag := id } (put { r1 with out := [id] } s)
  | none, some (d, i) => match doorChan d i s with
    | .inl s => s
    | .inr (s, some ch) => askDoor ch r.wr (ofBytes512 r.gathered) r.id (put { r1 with out := [0] } s)
    | .inr (s, none) => byLine s
  | none, none => byLine s

/-- After anything that may let requests from outside proceed: those answered complete, and what can go, goes, in order. -/
def settleExt (s : State) : State :=
  let s := s.ext.foldl (fun s r => tryComplete r s) s
  s.ext.foldl (fun s r => if !r.go && mayGo s r then goExt r s else s) s

/-! ### Answers -/

/-- The request of a node that waits for a tag. -/
def State.extOf (s : State) (n : Node) (tag : Nat) : Option ExtReq := s.ext.find? fun r => r.node = n && r.out.contains tag

/-- The race verdict of a reply to an agent acts as log (R125): RACE_WW of a GRANT, RACE_RW of an FDATA, with the address of the first
word that raced. An agent has no core; the record goes to the lowest core of the request's domain (log 33). -/
def extRace (d : Nat) (m : Msg) (s : State) : State :=
  if m.act = 0 then s else match lowestCore s d with
    | some c => pushRec c (mkRecord 2 0xFF m.region false (causeWord (if m.kind = .grant then 11 else 12) {}) 0 0
        (BitVec.ofNat 64 (128 * m.line + 4 * (wordsOf m.sr).headD 0)) 0 s.tick (c % 256 * 2 ^ 56 + d % 8 * 2 ^ 48) 0) s
    | none => s

/-- A home or an owner answers one message of a request. -/
def extAnswer (r : ExtReq) (m : Msg) (s : State) : State :=
  let s := freeTag m.tag s
  let va := match r.lines.find? fun l => l.1 = m.line with | some l => l.2.1 | none => 0
  let r' := { r with
    out := r.out.filter (· ≠ m.tag)
    refused := r.refused || (r.wr && m.flag)
    poison := r.poison || (!r.wr && r.lines.any fun l => l.1 = m.line && m.poison &&& wordMask l.2.2.1 ≠ 0)
    lines := if r.wr then r.lines else r.lines.map fun l => if l.1 = m.line then (l.1, l.2.1, l.2.2.1, m.data) else l }
  let s := { s with ext := s.ext.map fun x => if x.id = r.id then r' else x }
  let s := if m.kind = .fdata then extRace r.dom m s else s
  let s := match r.node with
    | .route _ _ => if r.wr && m.flag then domainRecord r.dom Cause.rowPinnedWrite.code va 0 s else s
    | _ => s
  settleExt s

/-! ### Messages that leave on a link (R471, R472) -/

/-- The tag of an agent's WB apart from the package's request numbers: link and tag in one number. -/
def agentTag (k tag : Nat) : Nat := 2 ^ 60 + 4096 * k + tag

/-- The link and tag of a message to an agent: a reply goes back by the link its request came by; a home's own request takes a free
tag. `none`: it waits. -/
def outLink (m : Msg) (s : State) : Option (Nat × Nat × State) :=
  match m.kind with
  | .revoke | .recall | .fwd => (takeTag m.line m.tag s).map fun s =>
      let t := (s.linkTags.getLast?).getD ⟨0, 0, 0, 0⟩
      (t.link, t.tag, s)
  | _ =>
    if 2 ^ 60 ≤ m.tag then
      let k := (m.tag - 2 ^ 60) / 4096
      if s.linksUp.getLsbD k then some (k, m.tag % 4096, s) else none
    else match s.extOf m.dst m.tag with
      | some r => if s.linksUp.getLsbD r.link then some (r.link, r.hdr.tag, s) else none
      | none => (s.linkFor m.line).map fun k => (k, 0, s)

/-- A message to a link agent leaves with its fields (R109); one that finds no link or no tag stays in flight. -/
def toAgent (m : Msg) (p : Nat) (s : State) : State :=
  match outLink m s with
  | none => s
  | some (k, tag, s) =>
    let h := fabHdr p s.pkg.toNat (match homeOf m.line with | .home c => c | _ => 0) (msgNumber m.kind) false false 0 4 tag (128 * m.line)
    { s with net := s.net.erase m
             sent := s.sent ++ [{ link := k, hdr := h, data := m.data.flatMap (fun w => leBytes w.toNat 4),
                                  poison := decide (m.poison ≠ 0), msg := some { m with tag := tag } }] }

/-- The answer to an agent's own message: it leaves for the agent, with its verdict logged. -/
def msgAnswer (r : ExtReq) (m : Msg) (p : Nat) (s : State) : State :=
  if !s.linksUp.getLsbD r.link then s else
  let s := toAgent m p s
  settleExt (extRace m.dom m { s with ext := s.ext.filter (·.id ≠ r.id) })

/-- A message that reaches an endpoint outside the package: the answer to a request, or a message for the agent itself. -/
def toOutside (m : Msg) (s : State) : State := match s.extOf m.dst m.tag, m.dst with
  | some r, .agent p _ => if r.msg.isSome then msgAnswer r m p s else extAnswer r m { s with net := s.net.erase m }
  | some r, _ => extAnswer r m { s with net := s.net.erase m }
  | none, .agent p _ => toAgent m p s
  | none, _ => { s with net := s.net.erase m }

end Sys2Proof.Machine
end

