-- ==== Sys2Proof/Machine/EvCoherence.lean ====
section
/-! DEFINITION. The fifteen messages of registration as they arrive (R109, R113 to R117, R122 to R127, R430, R473). -/
namespace Sys2Proof.Machine

/-! ### At a home -/

/-- A request arrives at its home. -/
def atHome (m : Msg) (s : State) : Out := .next (homeArrive m { s with net := s.net.erase m })

/-- REG (R115). -/
def execMsgReg (m : Msg) (s : State) : Out := atHome m s
/-- LD (R115, R116). -/
def execMsgLd (m : Msg) (s : State) : Out := atHome m s
/-- XREG (R115, R123). -/
def execMsgXreg (m : Msg) (s : State) : Out := atHome m s
/-- HWR (R115, R477). -/
def execMsgHwr (m : Msg) (s : State) : Out := atHome m s

/-- RVACK: the home takes the words, and the last answer lets the request's event happen (R115). -/
def execMsgRvack (m : Msg) (s : State) : Out := .next (settleExt (homeAnswer m { s with net := s.net.erase m }))

/-- WB: words given up by replacement, or the answer to a RECALL; either is answered by WBACK (R115). -/
def execMsgWb (m : Msg) (s : State) : Out :=
  if m.flag then
    let s := send { msg0 .wback m.dst m.src m.line with tag := m.tag } { s with net := s.net.erase m }
    .next (settleExt (homeAnswer m s))
  else atHome m s

/-! ### At an L1 -/

/-- What a message finds at the core it reaches; one for a party outside the package leaves it. -/
def atCore (m : Msg) (s : State) (go : Nat → State → Out) : Out := match m.dst with
  | .core c => go c (wakeCore c { s with net := s.net.erase m })
  | _ => .next (toOutside m s)

/-- The same for a message that installs words: it waits while every way of its set holds a line that must stay (R121; log 41). -/
def atL1 (m : Msg) (s : State) (go : Nat → State → Out) : Out := match m.dst with
  | .core c => if (s.core c).room m.line then atCore m s go else .next s
  | _ => atCore m s go

/-- A core that is out of service gives up what a message brings it, and its retirement goes on (R424). -/
def afterInstall (c : Nat) (s : State) : State :=
  if (s.core c).inService then reap c (settle c s) else retireFinish c (writeBackAll c s)

/-- The words that an owner holds, from its L1 or its write-back buffer: value, SR and poison of each; `none`: it does not hold
one of them. -/
def heldWords (co : Core) (line : Nat) (mask : W32) : Option (List (Nat × W32 × Bool × Bool)) :=
  (wordsOf mask).foldr (fun i acc => match acc with
    | none => none
    | some l =>
      let w := co.l1word line i
      if w.st = .registered then some ((i, w.val, w.sr, w.poison) :: l)
      else match co.wbWord line i with
        | some e => some ((i, e.data.getD i 0, false, e.poison.getLsbD i) :: l)
        | none => none) (some [])

/-- The 32 words of a line, those held filled in. -/
def heldData (l : List (Nat × W32 × Bool × Bool)) : List W32 := (List.range 32).map fun i => match l.find? fun e => e.1 = i with
  | some e => e.2.1
  | none => 0

/-- Mask of the held words that pass a test. -/
def heldMask (l : List (Nat × W32 × Bool × Bool)) (p : Bool × Bool → Bool) : W32 :=
  l.foldl (fun m e => if p e.2.2 then m ||| wbit e.1 else m) 0

/-- Words leave the write-back buffer: nothing further is sent for them (R117). -/
def leaveWb (line : Nat) (mask : W32) (co : Core) : Core :=
  { co with wb := co.wb.map fun e => if e.line = line then { e with mask := e.mask &&& ~~~mask } else e }

/-- An owner gives up words: RVACK, or WB after which the L1 keeps Valid copies. -/
def giveUp (m : Msg) (back : Bool) (s : State) : Out :=
  atCore m s fun c s =>
    match heldWords (s.core c) m.line m.mask with
    | none => .fault .protocol
    | some l =>
      let s := breakResv c m.line m.mask none s
      let s := s.onCore c fun co => leaveWb m.line m.mask (l.foldl (fun co e =>
        if (co.l1word m.line e.1).st = .registered then
          (co.setL1word m.line e.1 (if back then handedBack s.nextId (co.l1word m.line e.1) else {})).staleLoads m.line (wbit e.1)
        else co) co)
      .next (send { msg0 (if back then .wb else .rvack) (.core c) m.src m.line with
        mask := m.mask, data := heldData l, sr := heldMask l (·.1), poison := heldMask l (·.2), tag := m.tag, flag := back
        region := m.region, dom := m.dom } { s with nextId := s.nextId + 1 })

/-- REVOKE (R117): RVACK with data and SR; the words become Invalid. -/
def execMsgRevoke (m : Msg) (s : State) : Out := giveUp m false s
/-- RECALL (R117): WB; the words become Valid. -/
def execMsgRecall (m : Msg) (s : State) : Out := giveUp m true s

/-- FWD (R117, R125): FDATA to the reader, with the race action when SR is 1 for a needed word. -/
def execMsgFwd (m : Msg) (s : State) : Out :=
  atCore m s fun c s =>
    match heldWords (s.core c) m.line m.mask with
    | none => .fault .protocol
    | some l => .next (send { msg0 .fdata (.core c) m.party m.line with
        mask := m.mask, data := heldData l, poison := heldMask l (·.2), act := if heldMask l (·.1) = 0 then 0 else m.act, sr := heldMask l (·.1), tag := m.tag
        region := m.region, dom := m.dom } s)

/-- Words become Registered in a core's L1 with the values a message carries; SR is 0. -/
def installWords (c : Nat) (m : Msg) (mask : W32) (s : State) : State :=
  (ensureLine c m.line m.region s).onCore c fun co => (wordsOf mask).foldl (fun co i =>
    co.setL1word m.line i { st := .registered, val := m.data.getD i 0, poison := m.poison.getLsbD i }) co

/-- GRANT (R117): the words are Registered, the store or atomic is performed on them, and its race verdict is taken. The words of
a store that was discarded stay Registered to the core (R421). -/
def execMsgGrant (m : Msg) (s : State) : Out :=
  atL1 m s fun c s =>
    let s := freeTag m.tag s
    let s := installWords c m (m.bmask.setWidth 32) s
    match (s.core c).stores.find? (·.id = m.tag) with
    | some a => .next (afterInstall c (performStore c a (raceVerdict c a 11 m.act m.sr s)))
    | none => .next (afterInstall c s)

/-- PUSH (R117, R123): a consumer's L1 installs the words of a copy, which have then arrived. -/
def execMsgPush (m : Msg) (s : State) : Out :=
  atL1 m s fun c s =>
    let s := freeTag m.tag s
    let s := breakResv c m.line m.mask none s
    .next (afterInstall c (copyArrived m.tag (installWords c m m.mask s)))

/-- The fill of a reply: Invalid and Valid words take its data; poisoned words are not copied (R113, R117, R430). -/
def fillFrom (c : Nat) (a : Acc) (m : Msg) (s : State) : State :=
  if a.noInstall then s else fillLine c m.line a.region s.nextId (m.mask &&& ~~~m.poison) m.data { s with nextId := s.nextId + 1 }

/-- The load will send its LD again (R150). -/
def askLd (c : Nat) (a : Acc) (s : State) : State :=
  s.onCore c fun co => { co with loads := co.loads.map fun x => if x.id = a.id then { x with sent := false, stale := false } else x }

/-- A reply reaches the load that asked: it binds its bytes from the store buffer, the L1's own words and the reply, or consumes a
poisoned word; then the L1 is filled. -/
def deliverLoad (c : Nat) (a : Acc) (m : Msg) (s : State) : State :=
  let bad := (wordsOf (a.words &&& m.poison)).find? ((s.core c).fromReply a m.mask)
  if a.prefetch then eventDone c a [] none (fillFrom c a m s)
  else match bad with
  | some i => eventDone c a [] (some (128 * m.line + 4 * i)) s
  | none =>
    let own := ((wordsOf a.words).find? fun i => let w := (s.core c).l1word a.line i
      w.poison && w.st = .registered && !(s.core c).fromReply a m.mask i).map fun i => 128 * m.line + 4 * i
    match replyBytes (s.core c) a m.mask m.data with
    | some b => eventDone c a b own (fillFrom c a m s)
    | none => askLd c a (fillFrom c a m s)

/-- LDATA and FDATA at a reader; a load that has lost a word of its own meanwhile discards the reply (R150). -/
def replyLoad (m : Msg) (verdict : Nat) (s : State) : Out :=
  atCore m s fun c s =>
    let s := freeTag m.tag s
    match (s.core c).loads.find? (·.id = m.tag) with
    | some a => .next (reap c (settle c (if a.stale && !a.prefetch then askLd c a s
        else deliverLoad c a m (raceVerdict c a 12 verdict m.sr s))))
    | none => .next s

/-- LDATA (R113, R117). -/
def execMsgLdata (m : Msg) (s : State) : Out := replyLoad m 0 s
/-- FDATA (R113, R117, R125). -/
def execMsgFdata (m : Msg) (s : State) : Out := replyLoad m m.act s

/-- WBACK (R117): the write-back entry is released. -/
def execMsgWback (m : Msg) (s : State) : Out :=
  atCore m s fun c s =>
    let s := freeTag m.tag s
    .next (retireFinish c (s.onCore c fun co => { co with wb := co.wb.filter (·.id ≠ m.tag) }))

/-- HWACK (R115): a home write is acknowledged, of a copy or of a hart's store. -/
def execMsgHwack (m : Msg) (s : State) : Out :=
  atCore m s fun c s =>
    let s := freeTag m.tag s
    match (s.core c).stores.find? (·.id = m.tag) with
    | some a => .next (reap c (settle c (eventDone c a [] none s)))
    | none => .next (copyArrived m.tag s)

end Sys2Proof.Machine
end

