-- ==== Sys2Proof/Machine/EvHamper.lean ====
section
/-! DEFINITION. A hamper's events at its home (R190, R207, R359 to R362, R400, R479). -/
namespace Sys2Proof.Machine

/-- A pool hamper is reached over a link (R470). -/
def hampReach (s : State) (q : HampReq) : Bool := q.desc < 2 ^ 41 || s.linksUp ≠ 0

/-- Saved gangs whose wake condition is now met ask for restore (R207). -/
def wakeAll (s : State) : State := (List.range 8).foldl (fun s d => wakeGangs d s) s

/-- A request through a door is answered (R479). -/
def answerDoor (id : Nat) (data : List W8) (s : State) : State :=
  settleExt { s with ext := s.ext.map fun r => if r.id = id then
    (if r.wr then { r with out := [] } else { r.withData data with out := [] }) else r }

/-- The enqueue has been performed: the word that asked completes. -/
def enqueueDone (q : HampReq) (s : State) : State :=
  let s := match q.thr with
    | some (.fib k) => s.onFib k fun f => if f.phase = 3 then { f.retire with stall := if f.st = .parked then f.stall else 0 } else f
    | some (.hart c h) => if (s.hart c h).phase = 4 then s.setHart c h { s.hart c h with phase := 9 } else s
    | none => s
  match q.door with
  | some id => answerDoor id [] s
  | none => s

/-- What the chrecv that asked would store: its checked parts (R361). Other parties take an item at any time. -/
def HampReq.takes (q : HampReq) (item : BitVec 512) (s : State) : Option (List Checked) := match q.thr with
  | some (.fib k) => match s.fib? k with
    | some f => if f.phase = 7 then recvParts s k f item else none
    | none => none
  | _ => some []

/-- The item goes to whoever asked: a chrecv stores it, a door's load returns it. -/
def dequeueDone (q : HampReq) (item : BitVec 512) (l : List Checked) (s : State) : State :=
  let s := match q.thr with
    | some (.fib k) => match s.fib? k with
      | some f => match f.wait with
        | .chan c => receive k f c item l s
        | _ => s
      | none => s
    | _ => s
  match q.door with
  | some id => answerDoor id (bytesOf512 item) s
  | none => s

/-- A request is performed at its turn, once no agent outside the package holds a pointer and the words it touches are in place;
otherwise it is held. -/
def atHamper (q : HampReq) (s : State) (go : State → Out) : Out :=
  match fetchHome [q.desc / 128] s with
  | some s => .next s
  | none =>
    if !(s.hampReady q && hampReach s q) then .next s
    else match hampTakes q s with
      | some s => .next s
      | none => go s

/-- HAMPER_ENQUEUE: request n is performed if its hamper has room and it is first; otherwise it is held. -/
def execHamperEnqueue (n : Nat) (s : State) : Out :=
  match s.hamp.find? (fun q => q.id = n ∧ q.enq) with
  | none => .next s
  | some q => atHamper q s fun s => .next (wakeAll (enqueueDone q (doEnqueue q s)))

/-- HAMPER_DEQUEUE: request n takes the oldest item if there is one, it is first and its word can take it; otherwise it is held. A
door's load of an empty hamper returns 64 bytes of 0xFF and takes nothing. -/
def execHamperDequeue (n : Nat) (s : State) : Out :=
  match s.hamp.find? (fun q => q.id = n ∧ !q.enq) with
  | none => .next s
  | some q => match q.door with
    | some id =>
      if (fetchHome [q.desc / 128] s).isNone && s.hampCount q.desc = 0 then
        .next (answerDoor id (List.replicate 64 0xFF) { s with hamp := s.hamp.filter (·.id ≠ n) })
      else atHamper q s fun s =>
        let r := doDequeue q s
        .next (dequeueDone q r.1 [] r.2)
    | none => atHamper q s fun s =>
        let r := doDequeue q s
        match q.takes r.1 s with
        | some l => .next (dequeueDone q r.1 l r.2)
        | none => .next s

end Sys2Proof.Machine
end

