-- ==== Sys2Proof/Machine/EvHost.lean ====
section
/-! DEFINITION. Events of the host links, the ports and the management controller (R469 to R482): requests and completions of the
fabric, doors, links that go down and come up, agents that are retired, PCI Express, attestation, and module reset. -/
namespace Sys2Proof.Machine

/-! ### Requests of link agents (R128, R155, R471, R477 to R479) -/

/-- A flit arrives only on a link that is up; a reserved one is dropped and counted (R471). -/
def onFlit (k : Nat) (h : FabHdr) (s : State) (go : State → Out) : Out :=
  if !s.linksUp.getLsbD k then .next s
  else if h.reserved then .next { s with linkErr := s.linkErr + 1 }
  else go s

/-- FABRIC_RESERVED_FLIT: a flit with a reserved KIND or a reserved bit is dropped, and the link error count rises. -/
def execFabricReservedFlit (k : Nat) (h : FabHdr) (s : State) : Out := onFlit k h s fun s => .next s

/-- The request joins those that stand, and goes when its order lets it. -/
def joinExt (r : ExtReq) (s : State) : State := settleExt { s with ext := s.ext ++ [r] }

/-- The request that a header names; one that leaves its line is no request, and counts as an error of the link (R471). Its address is
physical (R471) and its region 0; its domain is its door's, else that of its home's core. DEDUCED (log 33). -/
def agentReq (k : Nat) (h : FabHdr) (wr : Bool) (bs : List W8) (s : State) : Out :=
  if 31 < h.len || 128 < h.pa % 128 + h.bytes then .next { s with linkErr := s.linkErr + 1 } else
  let (id, s) := s.fresh
  let d := match doorOf h.pa, homeOf (h.pa / 128) with | some x, _ => x.1 | none, .home c => (s.domOfCore c).getD 0 | none, _ => 0
  .next (joinExt { id := id, node := h.from_, link := k, hdr := h, wr := wr, pa := h.pa, n := h.bytes, dom := d
                   ord := if wr && (doorOf h.pa).isSome then 3 else h.ord
                   lines := [(h.pa / 128, BitVec.ofNat 64 h.pa, byteRun (h.pa % 128) h.bytes, wordsWith (h.pa % 128) bs)] } s)

/-- FABRIC_RD: an agent's read. -/
def execFabricRd (k : Nat) (h : FabHdr) (s : State) : Out :=
  onFlit k h s fun s => if h.kind ≠ 0 then .next s else agentReq k h false [] s

/-- FABRIC_WR: an agent's write; the home refuses a line of a live grant, and a door's enqueue is released at sys scope. -/
def execFabricWr (k : Nat) (h : FabHdr) (v : BitVec 1024) (s : State) : Out :=
  onFlit k h s fun s => if h.kind ≠ 1 then .next s else agentReq k h true (leBytes v.toNat h.bytes) s

/-! ### Completions and messages (R471 to R474) -/

/-- The package's request that holds a tag of a link. -/
def State.tagHolder (s : State) (k tag : Nat) : Option LinkTag := s.linkTags.find? fun t => t.link = k ∧ t.tag = tag

/-- Bytes that a completed read binds: its data; all ones when it is Unsupported; free bytes for any other failure. -/
def boundBytes (a : Acc) (status : Nat) (v : BitVec 1024) (s : State) : List (Nat × Nat × W8) :=
  a.parts.flatMap fun p => (List.range p.n).map fun j =>
    (p.lane, p.off + j, if status = 0 then BitVec.ofNat 8 (v.toNat / 256 ^ j) else if status = 3 then 0xFF
      else Config.freeByte (s.freeCtr + j))

/-- FABRIC_RD_COMPLETION: the tag is free, and the load that left on the link binds its data. -/
def execFabricRdCompletion (k : Nat) (h : FabHdr) (v : BitVec 1024) (s : State) : Out :=
  onFlit k h s fun s =>
    match (if h.kind = 2 then s.tagHolder k h.tag else none) with
    | none => .next s
    | some t =>
      let s := freeTag t.id s
      match s.accOf t.id with
      | some (c, a) =>
        if a.kind ≠ .load || a.space ≠ .io then .next s
        else .next (wakeAll (reap c (settle c (eventDone c a (boundBytes a h.len v s) none { s with freeCtr := s.freeCtr + 128 }))))
      | none => .next s

/-- FABRIC_WR_COMPLETION: the tag is free, and the store that left on the link is acknowledged. -/
def execFabricWrCompletion (k : Nat) (h : FabHdr) (s : State) : Out :=
  onFlit k h s fun s =>
    match (if h.kind = 3 then s.tagHolder k h.tag else none) with
    | none => .next s
    | some t =>
      let s := freeTag t.id s
      match s.accOf t.id with
      | some (c, a) => if a.kind ≠ .load && a.space = .io then .next (reap c (settle c (eventDone c a [] none s))) else .next s
      | none => .next s

/-- FABRIC_MSG: a registration message of an agent. An answer joins the messages in flight and frees the tag that its request held. The
agent's own request takes its place among the link's requests (R155), and its answer returns by its link and tag. -/
def execFabricMsg (k : Nat) (h : FabHdr) (m : Msg) (s : State) : Out :=
  onFlit k h s fun s =>
    let line := h.pa / 128
    if h.kind ≠ 4 || h.len ≠ msgNumber m.kind || !nearPopulated (128 * line) then .next s else
    let own := { m with src := h.from_, line := line, dst := homeOf line, tag := agentTag k h.tag }
    match m.kind with
    | .reg | .ld | .hwr =>
      let (id, s) := s.fresh
      .next (joinExt { id := id, node := h.from_, link := k, hdr := h, lines := [], wr := m.kind ≠ .ld, ord := h.ord, pa := 128 * line
                       dom := m.dom, msg := some { own with party := h.from_, strong := decide (h.ord ≠ 0) } } s)
    | .wb => if m.flag then match s.tagHolder k h.tag with
        | some t => .next (send { own with tag := t.id } (freeTag t.id s))
        | none => .next s
      else .next (send own s)
    | .rvack => match s.tagHolder k h.tag with
        | some t => .next (send { own with tag := t.id } (freeTag t.id s))
        | none => .next s
    | .fdata => match s.tagHolder k h.tag with
        | some t => .next (send { own with tag := t.id, dst := m.dst } (freeTag t.id s))
        | none => .next s
    | _ => .next s

/-! ### Doors (R479) -/

/-- The header that stands for a requester that the event does not name. -/
def noHeader : FabHdr := ⟨0, 0⟩

/-- A request of a requester that the event does not name joins the hamper of a door; an unbound door has no effect, and while an agent
holds words that the door's translation reads, the request is not taken in (log 62). -/
def atDoor (d n : Nat) (enq : Bool) (item : BitVec 512) (s : State) : State := match doorChan d n s with
  | .inl s => s
  | .inr (s, none) => s
  | .inr (s, some ch) =>
    let (id, s) := s.fresh
    let r : ExtReq := { id := id, node := .route 2 0, link := 34, hdr := noHeader, lines := [(0, 0, byteRun 0 64, [])], wr := enq,
                        ord := 2, go := true, out := [0], n := 64, dom := d }
    askDoor ch enq item id { s with ext := s.ext ++ [r] }

/-- DOOR_ENQUEUE: a 64-byte store to door n of domain d enqueues its item; an unbound door has no effect. -/
def execDoorEnqueue (d n : Nat) (item : BitVec 512) (s : State) : Out := .next (atDoor d n true item s)

/-- DOOR_DEQUEUE: a 64-byte no-speculate load of door n of domain d dequeues; its item leaves as link 34. -/
def execDoorDequeue (d n : Nat) (s : State) : Out := .next (atDoor d n false 0 s)

/-! ### Links (R470, R473) -/

/-- A load that waited on a link that went down takes poisoned data: its consumer takes UNCORRECTABLE. -/
def loseLoad (c : Nat) (a : Acc) (s : State) : State :=
  let pa := match a.parts.head? with | some p => p.pa | none => 128 * a.line
  reap c (settle c (eventDone c a [] (if a.prefetch then none else some pa) s))

/-- A store that waited on a link that went down is unperformed, and its thread's gang is killed. -/
def loseStore (c : Nat) (a : Acc) (s : State) : State :=
  let s := s.onCore c fun co => { co with
    stores := co.stores.filter (·.id ≠ a.id), insts := co.insts.filter (·.id ≠ a.inst) }
  let s := { s with net := s.net.filter fun m => !(m.kind = .reg && m.src = .core c && m.tag = a.id) }
  match s.gangOf a.thr with
  | some g => killGang g false s
  | none => settle c s

/-- What held a tag of the link that went down is answered: loads are poisoned; stores and the writes of copies kill their gang; words
on their way home take a tag of another link. -/
def loseTag (t : LinkTag) (s : State) : State :=
  match s.accOf t.id with
  | some (c, a) => let s := freeTag t.id s
    if a.kind = .load then loseLoad c a s else loseStore c a s
  | none => match s.copyOf t.id with
    | some (y, _) => let s := freeTag t.id s
      (match s.gangOf (.fib y.k) with
      | some g => killGang g false s
      | none => s)
    | none =>
      if s.cores.any fun e => e.2.wb.any fun w => w.id = t.id then
        let s := freeTag t.id s
        (takeTag t.line t.id s).getD s
      else s

/-- LINK_DOWN: a link that has made no progress for 1 ms is down (R469), and what waited on it is answered. -/
def execLinkDown (k : Nat) (s : State) : Out :=
  if 32 ≤ k || !s.linksUp.getLsbD k then .next s
  else
    let s := { s with linksUp := s.linksUp &&& ~~~((1 : W32) <<< k) }
    .next (((s.linkTags.filter fun t => t.link = k).foldl (fun s t => loseTag t s) s))

/-- LINK_UP: both ends see the link up; requests that waited for a link go on. -/
def execLinkUp (k : Nat) (s : State) : Out :=
  if 32 ≤ k || s.linksUp.getLsbD k then .next s
  else
    let s := { s with linksUp := s.linksUp ||| ((1 : W32) <<< k) }
    .next (settleExt ((s.cores.map (·.1)).foldl (fun s c => reap c (settle c s)) s))

/-- A core's loads that an agent was to answer ask their home again. -/
def askAgain (lines : List Nat) (s : State) : State :=
  let s := { s with cores := s.cores.map fun (e : Nat × Core) => (e.1, { e.2 with
    loads := e.2.loads.map fun (a : Acc) => if a.sent && lines.contains a.line && a.space ≠ Space.io then { a with sent := false } else a }) }
  (s.cores.map (·.1)).foldl (fun s c => settle c s) s

/-- AGENT_RETIRE: every word Registered to the agent is Valid at its home with the value last written back, and poisoned; what waited
for its answers goes on; its own requests are gone (R473). -/
def execAgentRetire (p a : Nat) (s : State) : Out :=
  let n := Node.agent p a
  let mine := s.owners.filter fun e => e.2 = n
  let lines := (mine.map fun e => e.1 / 32).eraseDups
  -- what homes ask of it is answered with the words as the home last had them, poisoned
  let asked := s.acts.filterMap fun x => (x.wait.find? fun w => w.1 = n).map fun w => (x, w.2)
  let s := { s with
    ext := s.ext.filter fun r => r.node ≠ n
    homeQ := s.homeQ.filter fun m => m.src ≠ n
    net := s.net.filter fun m => m.src ≠ n && m.dst ≠ n
    acts := s.acts.map fun x => if x.msg.src = n then { x with msg := { x.msg with kind := .recall, src := homeOf x.msg.line } } else x }
  let s := asked.foldl (fun s x => homeAnswer { msg0 .rvack n (homeOf x.1.msg.line) x.1.msg.line with
    mask := x.2, data := s.homeLine x.1.msg.line, poison := x.2, tag := x.1.id } s) s
  let s := (s.owners.filter fun e => e.2 = n).foldl (fun (s : State) e =>
    { s with
      owners := tdel s.owners e.1
      poison := if s.poison.contains e.1 then s.poison else s.poison ++ [e.1] }) s
  .next (settleExt (askAgain lines s))

/-! ### PCI Express (R475 to R478) -/

/-- The translation of an inbound page: its address, or the cause and address of a failure. -/
def inboundPage (s : State) (d : Nat) (u : Use) (va : W64) : Except (Nat × W64) Nat :=
  if !canonical va then .error (Cause.page.code, 0) else
  match walk s d va with
  | .fault c lv pa => .error (c, BitVec.ofNat 64 (lv * 2 ^ 62 + pa))
  | .leaf e _ large =>
    let pa := pteFrame e + (if large then va.toNat % 2 ^ 29 else va.toNat % 2 ^ 16)
    if !leafGrants 256 e pa u .host then .error (Cause.protection.code, 0) else .ok pa

/-- Every page of an inbound range: the pieces with their physical addresses, or the first failure, its address and INFO. -/
def inbound (s : State) (d : Nat) (u : Use) (va : W64) (n : Nat) : Except (Nat × W64 × W64) (List (W64 × Nat × Nat)) :=
  (pageChunks va n).foldl (fun r c => match r with
    | .error e => .error e
    | .ok l => match inboundPage s d u c.1 with
      | .ok pa => .ok (l ++ [(c.1, pa, c.2)])
      | .error (ca, i) => .error (ca, c.1, i)) (.ok [])

/-- A device's request is translated, and its pages take A, and D for a write (R22); until the words that this needs are home, the port
does not take the request in. DESIGN CHOICE (log 62). -/
def translated (d : Nat) (u : Use) (va : W64) (n : Nat) (s : State)
    (go : Except (Nat × W64 × W64) (List (W64 × Nat × Nat)) → State → State) : State :=
  let vas := (pageChunks va n).map (·.1)
  match fetchHome (vas.flatMap (walkLines s d)).eraseDups s with
  | some s => s
  | none => match inbound s d u va n with
    | .error e => go (.error e) s
    | .ok ps => match touchPages d u .host vas s with
      | .inl s => s
      | .inr (s, _) => go (.ok ps) s

/-- Lines of a piece: line, virtual address, bytes of the line, and the offset of its first byte in the piece. -/
def pieceLines (va : W64) (pa n : Nat) : List (Nat × W64 × BitVec 128 × Nat) :=
  let first := min n (128 - pa % 128)
  (pa / 128, va, byteRun (pa % 128) first, 0) :: (List.range ((n - first + 127) / 128)).map fun i =>
    let o := first + 128 * i
    ((pa + o) / 128, va + BitVec.ofNat 64 o, byteRun 0 (min 128 (n - o)), o)

/-- The request of a route, with the lines of its pieces. -/
def routeReq (port rid : Nat) (wr : Bool) (ord d : Nat) (va : W64) (n : Nat) (pieces : List (W64 × Nat × Nat)) (bs : List W8) (s : State) :
    ExtReq × State :=
  let (id, s) := s.fresh
  let lines := pieces.flatMap fun p => (pieceLines p.1 p.2.1 p.2.2).map fun l =>
    (l.1, l.2.1, l.2.2.1, wordsWith ((p.2.1 + l.2.2.2) % 128) (bs.drop ((p.1 - va).toNat + l.2.2.2)))
  ({ id := id, node := .route port rid, link := 32 + port, hdr := ⟨0, va⟩, lines := lines, wr := wr, ord := ord, n := n, dom := d,
     pa := match pieces.head? with | some p => p.2.1 | none => 0 }, s)

/-- PCIE_POSTED_WRITE: a write of a port's device is translated through the domain the port is bound to and split into the HWRs of its
lines; with Relaxed Ordering clear it is held as a release head. One that fails its check is dropped, with a record. -/
def execPciePostedWrite (port rid : Nat) (va : BitVec 64) (data : List (BitVec 8)) (ro : Bool) (s : State) : Out :=
  match tfind s.ports port with
  | none => .next s
  | some d =>
    if data = [] || 512 < data.length then .next s else
    .next (translated d .store va data.length s fun x s => match x with
      | .error (c, a, i) => domainRecord d c a i s
      | .ok ps =>
        let (r, s) := routeReq port rid true (if ro then 0 else 3) d va data.length ps data s
        joinExt r s)

/-- PCIE_MEMORY_READ: a read waits for the earlier posted writes of its route, and is served at the homes by strong loads; one that
fails its check is an Unsupported Request, with a record. -/
def execPcieMemoryRead (port rid : Nat) (va : BitVec 64) (n : Nat) (s : State) : Out :=
  match tfind s.ports port with
  | none => .next s
  | some d =>
    if n = 0 || 4096 < n then .next s else
    .next (translated d .load va n s fun x s => match x with
      | .error (c, a, i) =>
        let (r, s) := routeReq port rid false 1 d va n [] [] s
        complete r 3 [] (domainRecord d c a i s)
      | .ok ps =>
        let (r, s) := routeReq port rid false 1 d va n ps [] s
        joinExt r s)

/-! ### Attestation and reset (R480 to R482) -/

/-- ATTESTATION_REQUEST: a nonce waits its turn. -/
def execAttestationRequest (nonce : BitVec 512) (s : State) : Out := .next { s with attest := s.attest ++ [nonce] }

/-- ATTESTATION_REPORT: the oldest nonce is served: MR0 to MR7, the configuration block's digest, the nonce, and the signature. -/
def execAttestationReport (s : State) : Out := match s.attest with
  | [] => .next s
  | n :: rest =>
    let body := s.mr.flatMap bytesOf512 ++ bytesOf512 s.cfgDigest ++ bytesOf512 n
    .next { s with attest := rest, report := body ++ bytesOf512 (Config.ed25519 body) }

/-- Measure the firmware stages into MR0 to MR7 (R480). -/
def measure (stages : List (BitVec 512)) : List (BitVec 512) :=
  (List.range 8).map fun i => match stages[i]? with
    | some d => Config.sha512 (bytesOf512 0 ++ bytesOf512 d)
    | none => 0

/-- The configuration block takes effect (R481): PKG, the domains, the ports, the doors and the power limit. -/
def configure (b : BootInput) (s : State) : State :=
  let s := { s with pkg := b.pkg, ports := b.ports, powerLimit := b.powerLimit, cfgOk := true }
  let s := b.domains.foldl (fun s e => s.setDom e.1 { s.dom e.1 with dies := e.2.1, recAddr := e.2.2 }) s
  b.doors.foldl (fun s e => s.setDom e.1 { s.dom e.1 with doors := tset (s.dom e.1).doors e.2.1 e.2.2 }) s

/-- MODULE_RESET: every register and structure as after reset; the stages are measured, and the configuration block takes effect if all
verify. The contents of near memory and the pool stand (log 17). -/
def execModuleReset (b : BootInput) (s : State) : Out :=
  let r := { State.reset with
    mem := s.mem.filter fun e => e.1 < 0x8_0000_0000_0000
    mr := measure b.stages, cfgDigest := b.configDigest, agenda := s.agenda, freeCtr := s.freeCtr, nextId := s.nextId }
  let r := b.selfTest.foldl (fun s e => s.onCore e.1 fun co => { co with good := e.2 }) r
  .next (if b.stagesOk && b.configOk then configure b r else r)

end Sys2Proof.Machine
end

