-- ==== Sys2Proof/Machine/LaneInt.lean ====
section
/-! DEFINITION. Integer lane words: majors 0x01 to 0x17 (R297 to R303). -/
namespace Sys2Proof.Machine

/-! ### Element by element -/

/-- The nearer end of a format's range, or the wrapped value (R215, R298): the w bits and whether it was clamped. -/
def narrowInt (fmt : Nat) (sat : Bool) (x : Int) : Nat × Bool :=
  let w := subWidth fmt
  let lo : Int := if isSigned fmt then -(2 ^ (w - 1) : Nat) else 0
  let hi : Int := if isSigned fmt then (2 ^ (w - 1) : Nat) - 1 else (2 ^ w : Nat) - 1
  if sat && x < lo then (wrapTo w lo, true)
  else if sat && hi < x then (wrapTo w hi, true)
  else (wrapTo w x, false)

/-- One element: every sub-element's exact result, narrowed. -/
def elemInt (fmt : Nat) (sat : Bool) (f : Nat → Nat → Nat → Int) (a b c : Nat) : Nat × Bool :=
  let w := subWidth fmt
  let rs := (List.range (subCount fmt)).map fun j => narrowInt fmt sat (f (subVal w j a) (subVal w j b) (subVal w j c))
  (packSubs w (rs.map (·.1)), rs.any (·.2))

/-- Results of every lane from three element lists. -/
def zip3 (f : Nat → Nat → Nat → Nat × Bool) : List Nat → List Nat → List Nat → List (Nat × Bool)
  | a :: as, b :: bs, c :: cs => f a b c :: zip3 f as bs cs
  | _, _, _ => []

/-- Write an element result to VD, with SAT for active lanes that clamped (R215, R234). -/
def finishInt (c : LaneCtx) (w : LaneWord) (long : Bool) (rs : List (Nat × Bool)) (s : State) : Out :=
  let fmt := w.fmt.toNat
  let sat := (rs.zipIdx.any fun e => e.1.2 && c.mask.getLsbD e.2)
  let s := orFlags c.k (if sat then flagSat else 0) s
  let vals := elemRegs fmt w.vd.toNat (rs.map (·.1))
  let tags := singleTags fmt w.vd.toNat
  if long then laneLong c w vals tags s else laneDone c w vals tags s

/-- An integer word of two or three operands (R297, R298). `md`: the MOD bits it accepts. -/
def intWord (w : LaneWord) (md : BitVec 6) (useC long : Bool) (f : Nat → Nat → Nat → Nat → Int) (s : State) : Out :=
  laneWord w false s fun c =>
    let fmt := w.fmt.toNat
    let legal := isInt fmt && w.fn.toNat ≤ 1 && w.mdIn md && w.bOk && (useC || w.vc == 0)
    let regs := [result fmt w.vd.toNat, single fmt w.va.toNat (some fmt)] ++ regsB w fmt (some fmt)
      ++ (if useC then [single fmt w.vc.toNat (some fmt)] else [])
    laneChecked c w legal true regs s fun s =>
      let as := elems s c.k fmt w.va.toNat
      let bs := operandB s c w fmt
      let cs := if useC then elems s c.k fmt w.vc.toNat else splat 0
      finishInt c w long (zip3 (elemInt fmt w.sat (f fmt)) as bs cs) s

/-- The integer division of R299 and R266 at a format's width, exact. -/
def divInt (fmt a b : Nat) : Int :=
  let x := intOf fmt a
  let y := intOf fmt b
  if y = 0 then (if isSigned fmt then -1 else (2 ^ subWidth fmt : Nat) - 1) else x.tdiv y
/-- The remainder of R299. -/
def remInt (fmt a b : Nat) : Int :=
  let x := intOf fmt a
  let y := intOf fmt b
  if y = 0 then x else x.tmod y

/-- vadd (R298). -/
def execVadd (w : LaneWord) (s : State) : Out := intWord w 12 false false (fun m a b _ => intOf m a + intOf m b) s
/-- vsub (R298). -/
def execVsub (w : LaneWord) (s : State) : Out := intWord w 12 false false (fun m a b _ => intOf m a - intOf m b) s
/-- vmul (R298). -/
def execVmul (w : LaneWord) (s : State) : Out := intWord w 12 false false (fun m a b _ => intOf m a * intOf m b) s
/-- vmulh (R298): bits [2w−1:w] of the product. -/
def execVmulh (w : LaneWord) (s : State) : Out :=
  intWord w 8 false false (fun m a b _ => (intOf m a * intOf m b) / (2 ^ subWidth m : Nat)) s
/-- vmad (R298). -/
def execVmad (w : LaneWord) (s : State) : Out := intWord w 12 true false (fun m a b c => intOf m a * intOf m b + intOf m c) s
/-- vdiv (R299): long. -/
def execVdiv (w : LaneWord) (s : State) : Out := intWord w 12 false true (fun m a b _ => divInt m a b) s
/-- vrem (R299): long. -/
def execVrem (w : LaneWord) (s : State) : Out := intWord w 8 false true (fun m a b _ => remInt m a b) s
/-- vshl (R298). -/
def execVshl (w : LaneWord) (s : State) : Out := intWord w 8 false false (fun m a b _ => ((a * 2 ^ (b % subWidth m) : Nat) : Int)) s
/-- vshr (R298). -/
def execVshr (w : LaneWord) (s : State) : Out := intWord w 8 false false (fun m a b _ => ((a / 2 ^ (b % subWidth m) : Nat) : Int)) s
/-- vsar (R298). -/
def execVsar (w : LaneWord) (s : State) : Out :=
  intWord w 8 false false (fun m a b _ => toSigned (subWidth m) a / (2 ^ (b % subWidth m) : Nat)) s
/-- vmin (R298). -/
def execVmin (w : LaneWord) (s : State) : Out := intWord w 8 false false (fun m a b _ => min (intOf m a) (intOf m b)) s
/-- vmax (R298). -/
def execVmax (w : LaneWord) (s : State) : Out := intWord w 8 false false (fun m a b _ => max (intOf m a) (intOf m b)) s

/-! ### Bitwise -/

/-- Operand b of a word that accepts every format: the immediate of an f64 word is stated nowhere, and is a free value
(R297; log 14). -/
def operandBits (s : State) (c : LaneCtx) (w : LaneWord) (fmt : Nat) : List Nat × State :=
  if w.imm1 && fmt = 7 then
    ((List.range 96).map fun L => (Config.freeWord s.freeCtr 0 L).toNat + 2 ^ 32 * (Config.freeWord s.freeCtr 1 L).toNat,
     { s with freeCtr := s.freeCtr + 1 })
  else (operandB s c w fmt, s)

/-- A bitwise word (R298): all bits of the element, any tag. -/
def bitWord (w : LaneWord) (f : Nat → Nat → Nat → Nat) (s : State) : Out :=
  laneWord w false s fun c =>
    let fmt := w.fmt.toNat
    let legal := fmt ≤ 12 && w.fn.toNat ≤ 1 && w.mdIn 8 && w.bOk && w.vc == 0
    let regs := [result fmt w.vd.toNat, single fmt w.va.toNat none] ++ regsB w fmt none
    laneChecked c w legal true regs s fun s =>
      let (bs, s) := operandBits s c w fmt
      let all := if is64 fmt then 2 ^ 64 - 1 else 2 ^ 32 - 1
      finishInt c w false (((elems s c.k fmt w.va.toNat).zip bs).map fun e => (f all e.1 e.2, false)) s

/-- vand (R298). -/
def execVand (w : LaneWord) (s : State) : Out := bitWord w (fun _ a b => a &&& b) s
/-- vor (R298). -/
def execVor (w : LaneWord) (s : State) : Out := bitWord w (fun _ a b => a ||| b) s
/-- vxor (R298). -/
def execVxor (w : LaneWord) (s : State) : Out := bitWord w (fun _ a b => a ^^^ b) s
/-- vandn (R298). -/
def execVandn (w : LaneWord) (s : State) : Out := bitWord w (fun m a b => a &&& (m ^^^ b)) s

/-! ### One operand (R300) -/

/-- A word of one operand. -/
def unaryWord (w : LaneWord) (fmts : Nat → Bool) (fns : Nat) (md : BitVec 6) (f : Nat → Nat → Int) (s : State) : Out :=
  laneWord w false s fun c =>
    let fmt := w.fmt.toNat
    let legal := fmts fmt && w.fn.toNat ≤ fns && w.mdIn md && w.vb == 0 && w.vc == 0 && w.imm == 0
    laneChecked c w legal true [result fmt w.vd.toNat, single fmt w.va.toNat (some fmt)] s fun s =>
      finishInt c w false ((elems s c.k fmt w.va.toNat).map fun a => elemInt fmt w.sat (fun x _ _ => f fmt x) a 0 0) s

/-- vabs (R300). -/
def execVabs (w : LaneWord) (s : State) : Out := unaryWord w (fun m => isInt m && isSigned m) 0 4 (fun m a => (intOf m a).natAbs) s
/-- vneg (R300). -/
def execVneg (w : LaneWord) (s : State) : Out := unaryWord w isInt 0 4 (fun m a => -intOf m a) s

/-- 1 bits among the low n bits of a number. -/
def onesNat (x : Nat) : Nat → Nat
  | 0 => 0
  | n + 1 => (if x.testBit n then 1 else 0) + onesNat x n
/-- Zeros above the highest 1 bit. -/
def clzNat (x : Nat) : Nat → Nat
  | 0 => 0
  | n + 1 => if x.testBit n then 0 else 1 + clzNat x n
/-- The bits of an n-bit number in reverse. -/
def revNat (x : Nat) : Nat → Nat
  | 0 => 0
  | n + 1 => (if x.testBit 0 then 2 ^ n else 0) + revNat (x / 2) n
/-- Zeros below the lowest 1 bit, from the reversed number. -/
def ctzNat (x w : Nat) : Nat := clzNat (revNat x w) w

/-- vbit (R300): popc, clz, ctz, brev. -/
def execVbit (w : LaneWord) (s : State) : Out :=
  unaryWord w isInt 3 0 (fun m a =>
    let n := subWidth m
    match w.fn.toNat with
    | 0 => onesNat a n
    | 1 => clzNat a n
    | 2 => ctzNat a n
    | _ => revNat a n) s

/-! ### Moves (R301) -/

/-- vsel (R301). -/
def execVsel (w : LaneWord) (s : State) : Out :=
  laneWord w false s fun c =>
    let fmt := w.fmt.toNat
    let legal := fmt ≤ 12 && w.fn == 0 && w.md == 0 && w.imm == 0
    let regs := [result fmt w.vd.toNat, single fmt w.va.toNat none, single fmt w.vb.toNat none, single fmt w.vc.toNat none]
    laneChecked c w legal true regs s fun s =>
      let all := if is64 fmt then 2 ^ 64 - 1 else 2 ^ 32 - 1
      finishInt c w false (zip3 (fun a b m => ((a &&& m) ||| (b &&& (all ^^^ m)), false)) (elems s c.k fmt w.va.toNat)
        (elems s c.k fmt w.vb.toNat) (elems s c.k fmt w.vc.toNat)) s

/-- Tags of a register, or a pair, carried to another. -/
def copiedTags (s : State) (k : FKey) (fmt src dst : Nat) : List (Nat × Nat) :=
  if is64 fmt then [(dst, s.vtag k src), (dst + 1, s.vtag k (src + 1))] else [(dst, s.vtag k src)]

/-- vmov (R301): the register form copies tags; the scalar and immediate forms tag VD with FMT. -/
def execVmov (w : LaneWord) (s : State) : Out :=
  laneWord w false s fun c =>
    let fmt := w.fmt.toNat
    let b := w.S || w.imm1
    let legal := fmt ≤ 12 && w.fn.toNat ≤ 1 && w.mdIn 8 && w.bOk && w.vc == 0 && (if b then w.va == 0 else w.vb == 0)
    let regs := result fmt w.vd.toNat :: (if b then [] else [single fmt w.va.toNat none])
    laneChecked c w legal true regs s fun s =>
      if b then
        let (bs, s) := operandBits s c w fmt
        finishInt c w false (bs.map fun x => (x, false)) s
      else laneDone c w (elemRegs fmt w.vd.toNat (elems s c.k fmt w.va.toNat)) (copiedTags s c.k fmt w.va.toNat w.vd.toNat) s

/-! ### Comparison and index (R302, R303) -/

/-- The condition of vcmp: 0 eq, 1 ne, 2 lt, 3 le, 4 gt, 5 ge. -/
def condHolds (cd : Nat) (a b : Int) : Bool :=
  match cd with
  | 0 => a = b | 1 => a ≠ b | 2 => a < b | 3 => a ≤ b | 4 => b < a | _ => b ≤ a

/-- vcmp (R302). -/
def execVcmp (w : LaneWord) (s : State) : Out :=
  laneWord w false s fun c =>
    let fmt := w.fmt.toNat
    let fn := w.fn.toNat
    let cd := fn / 8
    let vec := w.fn.getLsbD 2
    let legal := isInt fmt && cd ≤ 5 && !w.fn.getLsbD 1 && w.mdIn 8 && w.bOk && w.vc == 0
      && (vec || (1 ≤ w.vd.toNat && w.vd.toNat ≤ 189))
    let regs := (if vec then [result fmt w.vd.toNat] else []) ++ single fmt w.va.toNat (some fmt) :: regsB w fmt (some fmt)
    laneChecked c w legal true regs s fun s =>
      let n := subWidth fmt
      let es := (elems s c.k fmt w.va.toNat).zip (operandB s c w fmt)
      if vec then
        finishInt c w false (es.map fun e => elemInt fmt false
          (fun a b _ => if condHolds cd (intOf fmt a) (intOf fmt b) then (2 ^ n - 1 : Nat) else 0) e.1 e.2 0) s
      else
        let m := maskOf fun L => match es[L]? with
          | some e => condHolds cd (intOf fmt (subVal n 0 e.1)) (intOf fmt (subVal n 0 e.2))
          | none => false
        laneDone c w [] [] (setTriple c.k w.vd.toNat (m &&& c.mask) s)

/-- vidx (R303). -/
def execVidx (w : LaneWord) (s : State) : Out :=
  laneWord w false s fun c =>
    let fmt := w.fmt.toNat
    let legal := fmt ≤ 1 && w.fn.toNat ≤ 1 && w.md == 0 && w.va == 0 && w.vb == 0 && w.vc == 0
    laneChecked c w legal true [result fmt w.vd.toNat] s fun s =>
      let base := (if w.fn = 1 then 96 * c.f.fid else 0) + w.imm.toNat
      finishInt c w false ((List.range 96).map fun L => ((base + L) % 2 ^ 32, false)) s

end Sys2Proof.Machine
end

