-- ==== Sys2Proof/Machine/Reals.lean ====
section
/-! DEFINITION. Exact real results before rounding: rationals, square roots, and irrational values given by approximations to any
number of bits (R218, R315, R326). Every loop is bounded by fuel that no operand of the formats exhausts. -/
namespace Sys2Proof.Machine

/-! ### Fixed-point functions: a natural number x at K bits stands for x ÷ 2^K -/

/-- Floor of x × 2^s. -/
def shiftInt (x : Int) (s : Int) : Int := if 0 ≤ s then x * 2 ^ s.toNat else x / 2 ^ (-s).toNat

/-- Sum of t ÷ n over odd n from `n`, t falling by the factor `x2`; `alt` alternates signs. -/
def oddSeries (x2 : Nat) (alt : Bool) : Nat → Nat → Nat → Int
  | 0, _, _ => 0
  | fuel + 1, t, n => if t = 0 then 0 else
    let rest := oddSeries x2 alt fuel (t / x2) (n + 2)
    (t / n : Nat) + (if alt then -rest else rest)

/-- ln 2 at K bits, by 2 artanh(1 ÷ 3). -/
def ln2Fix (k : Nat) : Int := (2 * oddSeries 9 false (k + 16) (2 ^ (k + 16) / 3) 1) / 2 ^ 16
/-- π at K bits, by 16 arctan(1 ÷ 5) − 4 arctan(1 ÷ 239). -/
def piFix (k : Nat) : Int :=
  (16 * oddSeries 25 true (k + 16) (2 ^ (k + 16) / 5) 1 - 4 * oddSeries 57121 true (k + 16) (2 ^ (k + 16) / 239) 1) / 2 ^ 16
/-- π ÷ 2 at K bits. -/
def halfPiFix (k : Nat) : Int := piFix k / 2
/-- 1 ÷ ln 2 at K bits. -/
def rln2Fix (k : Nat) : Int := 2 ^ (2 * k + 16) / ln2Fix (k + 16)

/-- Taylor series: terms t × x^step ÷ (n (n + 1) …), from index n; `alt` alternates signs. -/
def taylor (k : Nat) (x : Int) (two alt : Bool) : Nat → Int → Nat → Int
  | 0, _, _ => 0
  | fuel + 1, t, n => if t = 0 || t = -1 then 0 else
    let u := t * x / 2 ^ k
    let next := if two then u / (((n + 1) * (n + 2) : Nat) : Int) else u / ((n + 1 : Nat) : Int)
    let rest := taylor k x two alt fuel next (if two then n + 2 else n + 1)
    t + (if alt then -rest else rest)

/-- e^y at K bits, 0 ≤ y < 1. -/
def expFix (k : Nat) (y : Int) : Int := taylor k y false false (k + 8) (2 ^ k) 0
/-- sin r at K bits, |r| < 1. -/
def sinFix (k : Nat) (r : Int) : Int := taylor k (r * r / 2 ^ k) true true (k + 8) r 1
/-- cos r at K bits, |r| < 1. -/
def cosFix (k : Nat) (r : Int) : Int := taylor k (r * r / 2 ^ k) true true (k + 8) (2 ^ k) 0

/-- Powers of z by z2 over odd n: 2 artanh z at K bits is twice this. -/
def artanhSeries (k : Nat) (z2 : Int) : Nat → Int → Nat → Int
  | 0, _, _ => 0
  | fuel + 1, z, n => if z = 0 then 0 else z / (n : Int) + artanhSeries k z2 fuel (z * z2 / 2 ^ k) (n + 2)

/-- ln of m ÷ 2^K for 1 ≤ m ÷ 2^K < 2, at K bits. -/
def lnFix (k : Nat) (m : Int) : Int :=
  let z := (m - 2 ^ k) * 2 ^ k / (m + 2 ^ k)
  2 * artanhSeries k (z * z / 2 ^ k) (k + 8) z 1

/-- An approximation at a natural number of bits, read at any number of bits. -/
def atBits (f : Nat → Int) (k : Int) : Int := if 0 ≤ k then f k.toNat else f 0 / 2 ^ (-k).toNat

/-- log₂(m × 2^e), m > 0, at k bits. -/
def log2At (m : Nat) (e : Int) (k : Nat) : Int :=
  let l := m.log2
  let kk := k + 64 + l
  let mm : Int := (m : Int) * 2 ^ (kk - l)
  (((l : Int) + e) * 2 ^ kk + lnFix kk mm * 2 ^ kk / ln2Fix kk) / 2 ^ (kk - k)

/-- 2^x for x = n × 2^e, |x| at most 5000, at k bits. -/
def exp2At (n : Int) (e : Int) (k : Nat) : Int :=
  let whole := shiftInt n e
  let kk := k + 64 + whole.toNat
  let fr := shiftInt n (e + kk) - whole * 2 ^ kk
  shiftInt (expFix kk (fr * ln2Fix kk / 2 ^ kk)) (whole + k - kk)

/-- sin or cos of m × 2^e + q × π ÷ 2, at k bits. -/
def sinCosAt (quad : Nat) (m : Nat) (e : Int) (k : Nat) : Int :=
  let kk := k + 64
  let kp := kk + 8 + ((m.log2 : Int) + e).toNat
  let half := halfPiFix kp
  let a := shiftInt m (e + kp)
  let q := (2 * a + half) / (2 * half)
  let r := (a - q * half) / 2 ^ (kp - kk)
  let v := match ((q + quad) % 4).toNat with
    | 0 => sinFix kk r
    | 1 => cosFix kk r
    | 2 => -sinFix kk r
    | _ => -cosFix kk r
  v / 2 ^ 64

/-- tanh of m × 2^e below 64, at k bits. -/
def tanhAt (m : Nat) (e : Int) (k : Nat) : Int :=
  let kk := k + 64
  let y := shiftInt m (e + 1 + kk)
  let l := ln2Fix kk
  let n := y / l
  let ex := expFix kk (y - n * l) * 2 ^ n.toNat
  (2 ^ kk - 2 * 2 ^ (2 * kk) / (ex + 2 ^ kk)) / 2 ^ 64

/-- Integer square root by Newton steps from above. -/
def sqrtLoop (n : Nat) : Nat → Nat → Nat
  | 0, x => x
  | fuel + 1, x => let y := (x + n / x) / 2; if y < x then sqrtLoop n fuel y else x
/-- Floor of the square root. -/
def isqrt (n : Nat) : Nat := if n = 0 then 0 else sqrtLoop n (n.log2 + 8) (2 ^ (n.log2 / 2 + 1))

/-- 2^(f ÷ 4) at k bits. -/
def root4At (f k : Nat) : Int := ((isqrt (isqrt (2 ^ (f + 4 * (k + 8)))) : Nat) : Int) / 2 ^ 8

/-! ### Magnitudes -/

/-- A positive magnitude as rounding sees it: floor of its log₂, and its floor at a unit 2^u with what lies above:
0 nothing, 1 less than half a unit, 2 half a unit, 3 more than half. -/
structure Mag where
  lg : Int
  fl : Int → Nat × Nat

/-- Compare a remainder with half of its divisor. -/
def remClass (r d : Nat) : Nat := if r = 0 then 0 else if 2 * r < d then 1 else if 2 * r = d then 2 else 3

/-- floor(log₂(n ÷ d)). -/
def lgRatio (n d : Nat) : Int :=
  let t : Int := (n.log2 : Int) - d.log2
  let less := if 0 ≤ t then n < d * 2 ^ t.toNat else n * 2 ^ (-t).toNat < d
  if less then t - 1 else t

/-- n ÷ d × 2^e. -/
def magRat (n d : Nat) (e : Int) : Mag where
  lg := lgRatio n d + e
  fl u :=
    let s := e - u
    let n' := if 0 ≤ s then n * 2 ^ s.toNat else n
    let d' := if 0 ≤ s then d else d * 2 ^ (-s).toNat
    (n' / d', remClass (n' % d') d')

/-- √(n ÷ d) × 2^e. -/
def magRoot (n d : Nat) (e : Int) : Mag where
  lg := lgRatio n d / 2 + e
  fl u :=
    let s := 2 * (e - u)
    let n' := if 0 ≤ s then n * 2 ^ s.toNat else n
    let d' := if 0 ≤ s then d else d * 2 ^ (-s).toNat
    let q := isqrt (n' / d')
    let h := (2 * q + 1) * (2 * q + 1) * d'
    (q, if q * q * d' = n' then 0 else if 4 * n' < h then 1 else if 4 * n' = h then 2 else 3)

/-- Sign and floor(log₂) of an irrational value from approximations within 16 units of the last bit. -/
def irrLg (ap : Int → Int) : Nat → Int → Bool × Int
  | 0, _ => (false, 0)
  | fuel + 1, k =>
    let a := ap k
    let n := a.natAbs
    if 2 ^ 40 ≤ n && (n - 16).log2 = (n + 16).log2 then (a < 0, (n.log2 : Int) - k) else irrLg ap fuel (2 * k)

/-- Floor of an irrational magnitude at a unit, with its half bit. -/
def irrFl (ap : Int → Int) (neg : Bool) (u : Int) : Nat → Nat → Nat × Nat
  | 0, _ => (0, 1)
  | fuel + 1, g =>
    let a0 := ap (g - u)
    let a := if neg then -a0 else a0
    let h := (a - 16) / 2 ^ (g - 1)
    if 0 ≤ h && h = (a + 16) / 2 ^ (g - 1) then (h.toNat / 2, if h.toNat % 2 = 1 then 3 else 1)
    else irrFl ap neg u fuel (2 * g)

/-- The magnitude of an irrational value, with its sign. -/
def magIrr (ap : Int → Int) : Bool × Mag :=
  let r := irrLg ap 12 64
  (r.1, { lg := r.2, fl := fun u => irrFl ap r.1 u 12 64 })

end Sys2Proof.Machine
end

