-- ==== Sys2Proof/Machine/Flags.lean ====
section
/-! DEFINITION. Floating formats, exact arithmetic on their values, the one rounding step and the floating flags (R216 to
R222, R224, R234, R315). -/
namespace Sys2Proof.Machine

/-! ### Flags (R219, R220): one number of five bits, NV DZ OF UF NX -/

def flagNV : Nat := 16
def flagDZ : Nat := 8
def flagOF : Nat := 4
def flagUF : Nat := 2
def flagNX : Nat := 1

/-! ### Formats (R216) -/

/-- A binary floating format: its precision with the hidden bit, and the width of its exponent. -/
structure FpFmt where
  p : Nat
  ew : Nat
  deriving DecidableEq, Repr

/-- The format of an FMT code 6 to 9. -/
def fpFmt (fmt : Nat) : FpFmt := match fmt with
  | 7 => ⟨53, 11⟩ | 8 => ⟨8, 8⟩ | 9 => ⟨11, 5⟩ | _ => ⟨24, 8⟩

def FpFmt.width (F : FpFmt) : Nat := F.p + F.ew
def FpFmt.bias (F : FpFmt) : Nat := 2 ^ (F.ew - 1) - 1
/-- Exponent of the smallest normal. -/
def FpFmt.emin (F : FpFmt) : Int := 1 - (F.bias : Int)
/-- Exponent of the smallest subnormal. -/
def FpFmt.umin (F : FpFmt) : Int := F.emin - (F.p - 1 : Nat)
def FpFmt.signBit (F : FpFmt) : Nat := 2 ^ (F.width - 1)
def FpFmt.infBits (F : FpFmt) (neg : Bool) : Nat := (2 ^ F.ew - 1) * 2 ^ (F.p - 1) + (if neg then F.signBit else 0)
/-- The canonical NaN (R217). -/
def FpFmt.nanBits (F : FpFmt) : Nat := (2 ^ F.ew - 1) * 2 ^ (F.p - 1) + 2 ^ (F.p - 2)
def FpFmt.zeroBits (F : FpFmt) (neg : Bool) : Nat := if neg then F.signBit else 0
def FpFmt.maxBits (F : FpFmt) (neg : Bool) : Nat := F.infBits neg - 1
/-- 1.0. -/
def FpFmt.oneBits (F : FpFmt) (neg : Bool) : Nat := F.bias * 2 ^ (F.p - 1) + (if neg then F.signBit else 0)

/-- A value of a format, or an exact sum or product of such values: (−1)^neg × m × 2^e. -/
inductive FVal where
  | nan (signalling : Bool)
  | inf (neg : Bool)
  | fin (neg : Bool) (m : Nat) (e : Int)
  deriving DecidableEq, Repr, Inhabited

/-- The value of the bits of a format (R216). -/
def unpackF (F : FpFmt) (x : Nat) : FVal :=
  let neg := x / F.signBit % 2 = 1
  let ex := x / 2 ^ (F.p - 1) % 2 ^ F.ew
  let fr := x % 2 ^ (F.p - 1)
  if ex = 2 ^ F.ew - 1 then (if fr = 0 then .inf neg else .nan (fr < 2 ^ (F.p - 2)))
  else if ex = 0 then .fin neg fr F.umin
  else .fin neg (fr + 2 ^ (F.p - 1)) (F.umin + (ex - 1 : Nat))

/-! ### Exact arithmetic of one formula (R315); every operation answers its value and NV or DZ -/

def FVal.isNan : FVal → Bool
  | .nan _ => true
  | _ => false
def FVal.sig : FVal → Bool
  | .nan g => g
  | _ => false
def FVal.isZero : FVal → Bool
  | .fin _ m _ => m = 0
  | _ => false
def FVal.sign : FVal → Bool
  | .nan _ => false
  | .inf n => n
  | .fin n _ _ => n
def FVal.negate : FVal → FVal
  | .nan g => .nan g
  | .inf n => .inf !n
  | .fin n m e => .fin (!n) m e
/-- The signed significand of a finite value. -/
def FVal.int : FVal → Int
  | .fin n m _ => if n then -(m : Int) else m
  | _ => 0
def FVal.exp : FVal → Int
  | .fin _ _ e => e
  | _ => 0
/-- An integer over a power of two, as a value. -/
def dyad (x : Int) (e : Int) : FVal := .fin (x < 0) x.natAbs e

/-- A value with the flags of its formation. -/
abbrev Ev := FVal × Nat

/-- NV for a signalling operand. -/
def nvIf (b : Bool) : Nat := if b then flagNV else 0

/-- The exact product. -/
def mulV (x y : FVal) : Ev :=
  if x.isNan || y.isNan then (.nan false, nvIf (x.sig || y.sig))
  else match x, y with
    | .fin a m e, .fin b n f => (.fin (a != b) (m * n) (e + f), 0)
    | _, _ => if x.isZero || y.isZero then (.nan false, flagNV) else (.inf (x.sign != y.sign), 0)

/-- Flags of a list of terms together. -/
def evFlags (l : List Ev) : Nat := l.foldl (fun r e => r ||| e.2) 0

/-- The exact sum of terms, with the sign rule of an exact zero (R218). -/
def sumV (rdn : Bool) (l : List Ev) : Ev :=
  let vs := l.map (·.1)
  let fl := evFlags l
  let infs := vs.filter fun v => match v with | .inf _ => true | _ => false
  let both := infs.any FVal.sign && infs.any fun v => !v.sign
  if vs.any FVal.isNan || both then (.nan false, fl ||| nvIf (both || vs.any FVal.sig))
  else
    if infs ≠ [] then (.inf (infs.any FVal.sign), fl)
    else
      let e0 := vs.foldl (fun (r : Int) v => if v.isZero then r else min r v.exp) 5000
      let total := vs.foldl (fun (r : Int) v => if v.isZero then r else r + v.int * 2 ^ (v.exp - e0).toNat) 0
      if total = 0 then
        (.fin (if vs.all FVal.isZero && (vs.all FVal.sign || vs.all fun v => !v.sign) then vs.all FVal.sign && vs ≠ [] else rdn) 0 0, fl)
      else (dyad total e0, fl)

/-- Negate each term. -/
def negEv (e : Ev) : Ev := (e.1.negate, e.2)
/-- An integer multiple of a value. -/
def scaleV (n : Int) (x : FVal) : Ev := mulV (dyad n 0) x

/-! ### Results before rounding -/

/-- An exact result: NaN, an infinity, a signed zero, or a non-zero magnitude with its sign. -/
inductive Ex where
  | nan
  | inf (neg : Bool)
  | zero (neg : Bool)
  | mag (neg : Bool) (m : Mag)

/-- An irrational result given by approximations. -/
def Ex.irr (ap : Int → Int) : Ex := let r := magIrr ap; .mag r.1 r.2

/-- A value as a result. -/
def FVal.toEx : FVal → Ex
  | .nan _ => .nan
  | .inf n => .inf n
  | .fin n m e => if m = 0 then .zero n else .mag n (magRat m 1 e)

/-- The quotient of two exact values (R219, R315). -/
def divV (x y : Ev) : Ex × Nat :=
  let fl := x.2 ||| y.2
  let sg := x.1.sign != y.1.sign
  if x.1.isNan || y.1.isNan then (.nan, fl ||| nvIf (x.1.sig || y.1.sig))
  else match x.1, y.1 with
    | .inf _, .inf _ => (.nan, fl ||| flagNV)
    | .inf _, _ => (.inf sg, fl)
    | _, .inf _ => (.zero sg, fl)
    | .fin _ m e, .fin _ n f =>
      if n = 0 then (if m = 0 then (.nan, fl ||| flagNV) else (.inf sg, fl ||| flagDZ))
      else if m = 0 then (.zero sg, fl)
      else (.mag sg (magRat m n (e - f)), fl)
    | _, _ => (.nan, fl)

/-! ### Rounding (R218, R219) -/

/-- Rounding modes; RO is round to odd, and RMM, to nearest with ties away from zero, is a valet hart's (RISC-V). -/
inductive Rnd where
  | rne | rz | rdn | rup | ro | rmm
  deriving DecidableEq, Repr, Inhabited

/-- The mode a rounding field selects (R218, R221). -/
def rndOf (field : Nat) (rmode : W64) : Rnd := match field % 4 with
  | 1 => .rne
  | 2 => .rz
  | 3 => .ro
  | _ => match (rmode.extractLsb' 0 2).toNat with | 0 => .rne | 1 => .rz | 2 => .rdn | _ => .rup

/-- A truncated magnitude rounded, from the class of what lies above. -/
def roundUnit (md : Rnd) (neg : Bool) (q cls : Nat) : Nat :=
  if cls = 0 then q else match md with
    | .rne => if cls = 3 || (cls = 2 && q % 2 = 1) then q + 1 else q
    | .rz => q
    | .rdn => if neg then q + 1 else q
    | .rup => if neg then q else q + 1
    | .ro => if q % 2 = 1 then q else q + 1
    | .rmm => if 2 ≤ cls then q + 1 else q

/-- One rounding of an exact result: the bits of the format and OF, UF and NX. -/
def roundEx (F : FpFmt) (md : Rnd) (x : Ex) : Nat × Nat := match x with
  | .nan => (F.nanBits, 0)
  | .inf n => (F.infBits n, 0)
  | .zero n => (F.zeroBits n, 0)
  | .mag neg m =>
    let u0 := m.lg - (F.p - 1 : Nat)
    let r0 := m.fl u0
    let q0 := roundUnit md neg r0.1 r0.2
    let top := if 2 ^ F.p ≤ q0 then m.lg + 1 else m.lg
    let u := max u0 F.umin
    let r := m.fl u
    let q := roundUnit md neg r.1 r.2
    if (F.bias : Int) < top then
      let toInf := match md with | .rne | .rmm => true | .rdn => neg | .rup => !neg | _ => false
      ((if toInf then F.infBits neg else F.maxBits neg), flagOF + flagNX)
    else
      ((u - F.umin).toNat * 2 ^ (F.p - 1) + q + (if neg then F.signBit else 0),
       if r.2 = 0 then 0 else if top < F.emin then flagUF + flagNX else flagNX)

/-- An exact value rounded, with the flags of its formation. -/
def roundEv (F : FpFmt) (md : Rnd) (x : Ev) : Nat × Nat := let r := roundEx F md x.1.toEx; (r.1, r.2 ||| x.2)
/-- An exact result rounded, with the flags of its formation. -/
def roundOut (F : FpFmt) (md : Rnd) (x : Ex × Nat) : Nat × Nat := let r := roundEx F md x.1; (r.1, r.2 ||| x.2)

/-! ### Conversions to and from integers (R219, R321, R336) -/

/-- A magnitude rounded to an integer, and whether it was inexact. RO acts as RZ. -/
def roundInt (md : Rnd) (neg : Bool) (m : Nat) (e : Int) : Nat × Bool :=
  if m = 0 then (0, false) else
  let r := (magRat m 1 e).fl 0
  (roundUnit (if md = .ro then .rz else md) neg r.1 r.2, r.2 ≠ 0)

/-- Floating to integer between two ends: the value, and its flags. -/
def toIntF (md : Rnd) (lo hi : Int) (x : FVal) : Int × Nat := match x with
  | .nan _ => (0, flagNV)
  | .inf n => (if n then lo else hi, flagNV)
  | .fin n m e =>
    if m = 0 then (0, 0)
    else if 80 < (m.log2 : Int) + e then (if n then lo else hi, flagNV)
    else
      let r := roundInt md n m e
      let v : Int := if n then -(r.1 : Int) else r.1
      if v < lo then (lo, flagNV) else if hi < v then (hi, flagNV) else (v, if r.2 then flagNX else 0)

/-- frnd (R321): an integral value in the same format. -/
def integralF (F : FpFmt) (md : Rnd) (x : Nat) : Nat × Nat := match unpackF F x with
  | .nan g => (F.nanBits, nvIf g)
  | .inf n => (F.infBits n, 0)
  | .fin n m e =>
    if 0 ≤ e || m = 0 then (x % 2 ^ F.width, 0)
    else
      let r := (roundInt md n m e).1
      if r = 0 then (F.zeroBits n, 0) else ((roundEx F .rz (.mag n (magRat r 1 0))).1, 0)

/-- One floating format to another (R336): NaNs become canonical. -/
def convF (F G : FpFmt) (md : Rnd) (x : Nat) : Nat × Nat :=
  let v := unpackF F x
  roundOut G md (v.toEx, nvIf v.sig)

/-! ### l6 (R223 to R225) -/

/-- The product P of two l6 elements, worth P × 2⁻²² (R225); `none` for NaL. -/
def l6Product (a b : Nat) : Option Int :=
  if a = 32 || b = 32 then none
  else
    let ma := a % 32
    let mb := b % 32
    if ma = 0 || mb = 0 then some 0
    else
      let e : Int := (ma : Int) + mb - 32
      let t := [16384, 19484, 23170, 27554].getD (e % 4).toNat 0
      let p : Int := (t * 2 ^ (e / 4 + 8).toNat : Nat)
      some (if a / 32 = b / 32 then p else -p)

/-- A value converted to an l6 code, with its flags (R224). -/
def toL6 (x : FVal) : Nat × Nat := match x with
  | .nan _ => (32, flagNV)
  | .inf _ => (32, flagNV)
  | .fin n m e =>
    if m = 0 then (0, 0)
    else if 8 < (m.log2 : Int) + e then ((if n then 32 else 0) + 31, flagOF + flagNX)
    else if (m.log2 : Int) + e < -8 then (0, flagUF + flagNX)
    else
      let ge := fun (v : Nat) (s t : Int) => if s ≥ t then (v * 2 ^ (s - t).toNat) ≥ 1 else v ≥ 2 ^ (t - s).toNat
      let x8 := m ^ 8
      let code := ((List.range 32).filter fun (j : Nat) => ge x8 (8 * e) (2 * (j : Int) - 31)).length
      if code = 0 then (0, flagUF + flagNX)
      else if code = 32 then ((if n then 32 else 0) + 31, flagOF + flagNX)
      else
        let s : Int := 4 * e - ((code : Int) - 16)
        let exact := if s ≥ 0 then m ^ 4 * 2 ^ s.toNat = 1 else m ^ 4 = 2 ^ (-s).toNat
        ((if n then 32 else 0) + code, if exact then 0 else flagNX)

/-- The value of a sum of dyadic multiples of 2^(f ÷ 4), f = 0 to 3: rational when only f = 0 counts. -/
def quarterSum (rdn : Bool) (t : List FVal) : Ex :=
  let rest := (t.drop 1).filter fun v => !v.isZero
  if rest = [] then ((sumV rdn [(t.getD 0 (.fin false 0 0), 0)]).1.toEx)
  else
    let hi := (t.foldl (fun (r : Int) v => match v with | .fin _ m e => if m = 0 then r else max r ((m.log2 : Int) + e) | _ => r) 0).toNat
    .irr (atBits fun k =>
      let kk := k + 24 + hi
      ((t.zipIdx.foldl (fun (r : Int) v => r + shiftInt (v.1.int * (if v.2 = 0 then 2 ^ kk else root4At v.2 kk)) v.1.exp) 0)) / 2 ^ (kk - k))

/-- The value of an l6 code, (−1)^s × 2^((m − 16) ÷ 4), as multiples of 2^(f ÷ 4); NaL is no value. -/
def l6Value (c : Nat) : List FVal :=
  let m := c % 32
  (List.range 4).map fun f =>
    if m ≠ 0 && m % 4 = f then .fin (32 ≤ c % 64) 1 ((m / 4 : Nat) - 4 : Int) else .fin false 0 0

/-! ### Traps and flags of a floating lane word (R222, R234) -/

/-- JFLAGS bits of the flags of each coefficient. -/
def jflagBits (fl : List Nat) : W64 := fl.zipIdx.foldl (fun r e => r ||| BitVec.ofNat 64 (e.1 * 2 ^ (5 * e.2))) 0

/-- The flags of the active lanes, each a list by coefficient: the FP trap of the lowest lane that would set an enabled
flag, at its lowest such coefficient; or the flags set and the word going on. -/
def floatFlags (c : LaneCtx) (fl : List (List Nat)) (s : State) (go : State → Out) : Out :=
  let ten := (c.f.rmode.extractLsb' 8 5).toNat
  let hit := fl.zipIdx.findSome? fun e =>
    if c.mask.getLsbD e.2 then (e.1.zipIdx.findSome? fun g => if g.1 &&& ten ≠ 0 then some (e.2, g.2, g.1) else none) else none
  match hit with
  | some (lane, coef, flags) => trapLane c.k .fp { lane := lane, coef := coef, flags := flags } s
  | none =>
    let all := fl.zipIdx.foldl (fun r e => if c.mask.getLsbD e.2 then r ||| jflagBits e.1 else r) (0 : W64)
    go (orFlags c.k all s)

end Sys2Proof.Machine
end

