-- ==== Sys2Proof/Machine/Floats.lean ====
section
/-! DEFINITION. Values of the floating and jet words for one sub-element of one lane: series of bits with the flags of each
coefficient (R315 to R329, R334). A series is a list, coefficient 0 first. -/
namespace Sys2Proof.Machine

/-- Coefficient i of a series. -/
def FVal.zeroV : FVal := .fin false 0 0
def at_ (l : List FVal) (i : Nat) : FVal := l.getD i FVal.zeroV
/-- Coefficients delivered in ascending order, each seeing the values delivered before it (R315). -/
def series (F : FpFmt) (n : Nat) (form : Nat → List FVal → Nat × Nat) : List (Nat × Nat) :=
  (List.range n).foldl (fun acc i => acc ++ [form i (acc.map fun e => unpackF F e.1)]) []

/-- Terms for j from 1 to n. -/
def termsTo (n : Nat) (f : Nat → Ev) : List Ev := (List.range n).map fun j => f (j + 1)
/-- Terms a_j × b_(i−j) for j from 0 to i. -/
def cauchy (a b : List FVal) (i : Nat) : List Ev := (List.range (i + 1)).map fun j => mulV (at_ a j) (at_ b (i - j))
/-- A product of an exact value with its flags and a value. -/
def mulE (x : Ev) (y : FVal) : Ev := let r := mulV x.1 y; (r.1, r.2 ||| x.2)

/-- The mode rounds toward −∞, for the sign of exact zero sums. -/
def Rnd.isRdn (md : Rnd) : Bool := md = .rdn

/-! ### Arithmetic (R317, R318, R319, R320) -/

def seriesAdd (F : FpFmt) (md : Rnd) (sub : Bool) (a b : List FVal) (n : Nat) : List (Nat × Nat) :=
  series F n fun i _ => roundEv F md (sumV md.isRdn [(at_ a i, 0), (if sub then (at_ b i).negate else at_ b i, 0)])
def seriesMul (F : FpFmt) (md : Rnd) (a b : List FVal) (n : Nat) : List (Nat × Nat) :=
  series F n fun i _ => roundEv F md (sumV md.isRdn (cauchy a b i))
def seriesFma (F : FpFmt) (md : Rnd) (a b c : List FVal) (n : Nat) : List (Nat × Nat) :=
  series F n fun i _ => roundEv F md (sumV md.isRdn (cauchy a b i ++ [(at_ c i, 0)]))

/-- Order of the bits of numbers of a format: −0 and +0 are equal (R322). -/
def keyF (F : FpFmt) (x : Nat) : Int :=
  let m := x % 2 ^ (F.width - 1)
  if x / F.signBit % 2 = 1 then -(m : Int) else m

/-- A value delivered unrounded by a word that does not merely move bits: a NaN is the canonical one (R217, R315). -/
def canonF (F : FpFmt) (x : Nat) : Nat := if (unpackF F x).isNan then F.nanBits else x

/-- fmin and fmax (R318): the whole series of the chosen operand. -/
def seriesPick (F : FpFmt) (big : Bool) (a b : List Nat) : List (Nat × Nat) :=
  let a0 := a.getD 0 0
  let b0 := b.getD 0 0
  let va := unpackF F a0
  let vb := unpackF F b0
  let fl := nvIf (va.sig || vb.sig)
  let put := fun (l : List Nat) => match l with
    | [] => []
    | x :: r => (canonF F x, fl) :: r.map fun y => (canonF F y, 0)
  if va.isNan && vb.isNan then put (a.map fun _ => F.nanBits)
  else if va.isNan then put b
  else if vb.isNan then put a
  else
    let ka := keyF F a0
    let kb := keyF F b0
    if ka = kb then
      (if ka ≠ 0 then put a else if (va.sign && !big) || (!va.sign && big) then put a else put b)
    else if (ka < kb && !big) || (kb < ka && big) then put a else put b

/-- fsgn (R319). -/
def seriesSign (F : FpFmt) (fn : Nat) (a : List Nat) (b : Nat) : List (Nat × Nat) :=
  let sa := (a.getD 0 0) / F.signBit % 2
  let sb := b / F.signBit % 2
  let sg := match fn with | 0 => sb | 1 => 1 - sb | _ => (sa + sb) % 2
  a.map fun x => (if sg = sa then x else x ^^^ F.signBit, 0)

/-- fscale (R320); a power beyond every format's range acts as ±5000. -/
def seriesScale (F : FpFmt) (md : Rnd) (a : List FVal) (n : Int) : List (Nat × Nat) :=
  a.map fun x => roundEv F md (mulV x (dyad 1 (max (-5000) (min 5000 n))))

/-- jderiv (R334). -/
def seriesDeriv (F : FpFmt) (md : Rnd) (a : List FVal) (k : Nat) : List (Nat × Nat) :=
  (List.range k).map (fun (i : Nat) => roundEv F md (scaleV ((i : Int) + 1) (at_ a (i + 1)))) ++ [(0, 0)]

/-! ### Division family (R324, R327) -/

def seriesDiv (F : FpFmt) (md : Rnd) (a b : List FVal) (n : Nat) : List (Nat × Nat) :=
  series F n fun i y => roundOut F md (divV
    (sumV md.isRdn ((at_ a i, 0) :: termsTo i fun j => negEv (mulV (at_ b j) (at_ y (i - j))))) (at_ b 0, 0))

def seriesRcp (F : FpFmt) (md : Rnd) (a : List FVal) (n : Nat) : List (Nat × Nat) :=
  series F n fun i y => roundOut F md (divV
    (if i = 0 then (dyad 1 0, 0) else negEv (sumV md.isRdn (termsTo i fun j => mulV (at_ a j) (at_ y (i - j))))) (at_ a 0, 0))

/-- The square root of a value. -/
def sqrtV (x : FVal) : Ex × Nat := match x with
  | .nan g => (.nan, nvIf g)
  | .inf n => if n then (.nan, flagNV) else (.inf false, 0)
  | .fin n m e =>
    if m = 0 then (.zero n, 0) else if n then (.nan, flagNV)
    else (.mag false (if e % 2 = 0 then magRoot m 1 (e / 2) else magRoot (2 * m) 1 ((e - 1) / 2)), 0)

def seriesSqrt (F : FpFmt) (md : Rnd) (a : List FVal) (n : Nat) : List (Nat × Nat) :=
  series F n fun i y =>
    if i = 0 then roundOut F md (sqrtV (at_ a 0))
    else roundOut F md (divV (sumV md.isRdn ((at_ a i, 0) :: termsTo (i - 1) fun j => negEv (mulV (at_ y j) (at_ y (i - j)))))
      (scaleV 2 (at_ y 0)))

/-- The reciprocal square root of a value. -/
def rsqV (x : FVal) : Ex × Nat := match x with
  | .nan g => (.nan, nvIf g)
  | .inf n => if n then (.nan, flagNV) else (.zero false, 0)
  | .fin n m e =>
    if m = 0 then (.inf n, flagDZ) else if n then (.nan, flagNV)
    else (.mag false (if e % 2 = 0 then magRoot 1 m (-(e / 2)) else magRoot 1 (2 * m) (-((e - 1) / 2))), 0)

def seriesRsq (F : FpFmt) (md : Rnd) (a : List FVal) (n : Nat) : List (Nat × Nat) :=
  series F n fun i y =>
    if i = 0 then roundOut F .rne (rsqV (at_ a 0))
    else roundOut F md (divV
      (sumV md.isRdn (termsTo i fun j => mulE (mulV (dyad ((j : Int) - 2 * i) (-1)) (at_ a j)) (at_ y (i - j))))
      (scaleV i (at_ a 0)))

/-! ### Linear forms (P × C + Q) ÷ D over a constant C (R315, R325, R328) -/

/-- Approximations of (P × C + Q) ÷ D for finite P, Q and D, D not zero. -/
def linAt (con : Nat → Int) (p q d : FVal) (k : Nat) : Int :=
  let mg : Int := match p, d with
    | .fin _ m e, .fin _ n f => (m.log2 : Int) + e - n.log2 - f + 1
    | _, _ => 0
  let kk := k + 64 + mg.toNat
  let e0 := min p.exp q.exp
  let num : Int := p.int * 2 ^ (p.exp - e0).toNat * con kk + q.int * 2 ^ (q.exp - e0).toNat * 2 ^ kk
  let sh := e0 + k - kk - d.exp
  if 0 ≤ sh then num * 2 ^ sh.toNat / d.int else num / (d.int * 2 ^ (-sh).toNat)

/-- (P × C + Q) ÷ D with P finite and not zero, Q finite: never a rational number unless D stops it. -/
def linEx (con : Nat → Int) (p q : FVal) (d : Ev) (fl : Nat) : Ex × Nat :=
  let fl := fl ||| d.2
  let sg := fun (_ : Unit) => (magIrr (atBits (linAt con p q (dyad 1 0)))).1 != d.1.sign
  match d.1 with
  | .nan g => (.nan, fl ||| nvIf g)
  | .inf _ => (.zero (sg ()), fl)
  | .fin _ m _ => if m = 0 then (.inf (sg ()), fl ||| flagDZ) else (.irr (atBits (linAt con p q d.1)), fl)

/-- A finite value that is not zero. -/
def FVal.solid : FVal → Bool
  | .fin _ m _ => m ≠ 0
  | _ => false
def FVal.finite : FVal → Bool
  | .fin _ _ _ => true
  | _ => false

/-! ### Special functions (R325 to R329) -/

/-- 2^x (R327). -/
def exp2V (x : FVal) : Ex × Nat := match x with
  | .nan g => (.nan, nvIf g)
  | .inf n => (if n then .zero false else .inf false, 0)
  | .fin n m e =>
    if m = 0 then (.mag false (magRat 1 1 0), 0)
    else if 12 < (m.log2 : Int) + e then (.mag false (magRat 1 1 (if n then -5000 else 5000)), 0)
    else
      let x : Int := if n then -(m : Int) else m
      if 0 ≤ e || m % 2 ^ (-e).toNat = 0 then (.mag false (magRat 1 1 (max (-5000) (min 5000 (shiftInt x e)))), 0)
      else if 11 < (m.log2 : Int) + e then (.mag false (magRat 1 1 (if n then -5000 else 5000)), 0)
      else (.irr (atBits (exp2At x e)), 0)

/-- log₂ x (R327). -/
def log2V (x : FVal) : Ex × Nat := match x with
  | .nan g => (.nan, nvIf g)
  | .inf n => if n then (.nan, flagNV) else (.inf false, 0)
  | .fin n m e =>
    if m = 0 then (.inf true, flagDZ) else if n then (.nan, flagNV)
    else if m = 2 ^ m.log2 then ((dyad ((m.log2 : Int) + e) 0).toEx, 0)
    else (.irr (atBits (log2At m e)), 0)

/-- tanh x (R327). -/
def tanhV (x : FVal) : Ex × Nat := match x with
  | .nan g => (.nan, nvIf g)
  | .inf n => (.mag n (magRat 1 1 0), 0)
  | .fin n m e =>
    if m = 0 then (.zero n, 0)
    else if 5 < (m.log2 : Int) + e then (.mag n (magRat (2 ^ 80 - 1) (2 ^ 80) 0), 0)
    else (.mag n (magIrr (atBits (tanhAt m e))).2, 0)

/-- sin (`cosine` false) or cos of x + Q × π ÷ 2 (R327, R329). -/
def sinCosV (cosine : Bool) (quad : Nat) (x : FVal) : Ex × Nat :=
  let q := (quad + (if cosine then 1 else 0)) % 4
  let ng := 2 ≤ q
  match x with
  | .nan g => (.nan, nvIf g)
  | .inf _ => (.nan, flagNV)
  | .fin n m e =>
    if q % 2 = 0 then
      (if m = 0 then (.zero (n != ng), 0)
       else let r := magIrr (atBits (sinCosAt 0 m e)); (.mag ((r.1 != n) != ng) r.2, 0))
    else
      (if m = 0 then (.mag ng (magRat 1 1 0), 0)
       else let r := magIrr (atBits (sinCosAt 1 m e)); (.mag (r.1 != ng) r.2, 0))

def seriesExp2 (F : FpFmt) (md : Rnd) (a : List FVal) (n : Nat) : List (Nat × Nat) :=
  series F n fun i y =>
    if i = 0 then roundOut F .rne (exp2V (at_ a 0))
    else
      let sm := sumV md.isRdn (termsTo i fun j => mulE (scaleV j (at_ a j)) (at_ y (i - j)))
      if sm.1.solid then roundOut F md (linEx ln2Fix sm.1 FVal.zeroV (dyad i 0, 0) sm.2) else roundEv F md sm

def seriesLog2 (F : FpFmt) (md : Rnd) (a : List FVal) (n : Nat) : List (Nat × Nat) :=
  series F n fun i y =>
    if i = 0 then roundOut F .rne (log2V (at_ a 0))
    else
      let t0 := scaleV i (at_ a i)
      let rest := termsTo (i - 1) fun j => negEv (mulE (scaleV j (at_ y j)) (at_ a (i - j)))
      let d := scaleV i (at_ a 0)
      if t0.1.solid && rest.all (·.1.finite) then
        let q := sumV md.isRdn rest
        roundOut F md (linEx rln2Fix t0.1 q.1 d (t0.2 ||| q.2))
      else roundOut F md (divV (sumV md.isRdn (t0 :: rest)) d)

def seriesTanh (F : FpFmt) (md : Rnd) (a : List FVal) (n : Nat) : List (Nat × Nat) :=
  series F n fun i y =>
    if i = 0 then roundOut F .rne (tanhV (at_ a 0))
    else
      let z := fun m => if m = 0 then sumV md.isRdn [(dyad 1 0, 0), negEv (mulV (at_ y 0) (at_ y 0))]
        else negEv (sumV md.isRdn (cauchy y y m))
      roundOut F md (divV
        (sumV md.isRdn (termsTo i fun j => let r := z (i - j); let p := mulE (scaleV j (at_ a j)) r.1; (p.1, p.2 ||| r.2)))
        (dyad i 0, 0))

/-- The exact terms of S_i (`cosine` false) or C_i over i of R329, from the series C or S. -/
def sinCosTerm (rdn cosine : Bool) (a other : List FVal) (i : Nat) : Ex × Nat :=
  let sm := sumV rdn (termsTo i fun j => mulE (scaleV j (at_ a j)) (at_ other (i - j)))
  divV (if cosine then negEv sm else sm) (dyad i 0, 0)

/-- The internal series S and C up to coefficient n − 1, rounded RNE, with no flag. -/
def sinCosInner (F : FpFmt) (a : List FVal) : Nat → List FVal × List FVal
  | 0 => ([], [])
  | i + 1 =>
    let r := sinCosInner F a i
    let put := fun (x : Ex × Nat) => unpackF F (roundEx F .rne x.1).1
    if i = 0 then ([put (sinCosV false 0 (at_ a 0))], [put (sinCosV true 0 (at_ a 0))])
    else (r.1 ++ [put (sinCosTerm false false a r.2 i)], r.2 ++ [put (sinCosTerm false true a r.1 i)])

def Ex.negate : Ex → Ex
  | .nan => .nan
  | .inf n => .inf !n
  | .zero n => .zero !n
  | .mag n m => .mag (!n) m

/-- fsin and fcos (R329). -/
def seriesSinCos (F : FpFmt) (md : Rnd) (cosine : Bool) (quad : Nat) (a : List FVal) (n : Nat) : List (Nat × Nat) :=
  let q := (quad + (if cosine then 1 else 0)) % 4
  let inner := sinCosInner F a n
  (List.range n).map fun i =>
    if i = 0 then roundOut F .rne (sinCosV cosine quad (at_ a 0))
    else
      let x := if q % 2 = 0 then sinCosTerm md.isRdn false a inner.2 i else sinCosTerm md.isRdn true a inner.1 i
      roundOut F md (if 2 ≤ q then x.1.negate else x.1, x.2)

/-- Approximations of m × 2^e × 2 ÷ π. -/
def twoOverPiAt (m : Nat) (e : Int) (k : Nat) : Int :=
  let kp := k + 64 + ((m.log2 : Int) + e).toNat
  shiftInt m (e + kp) * 2 ^ (kp + 1) / piFix kp / 2 ^ (kp - k)

/-- frred of a_0 (R328): d_0 and q mod 4. -/
def reduceV (F : FpFmt) (md : Rnd) (x : FVal) : (Nat × Nat) × Nat := match x with
  | .nan g => ((F.nanBits, nvIf g), 0)
  | .inf _ => ((F.nanBits, flagNV), 0)
  | .fin n m e =>
    if m = 0 then ((F.zeroBits n, 0), 0)
    else
      let r := (magIrr (atBits (twoOverPiAt m e))).2.fl 0
      let q : Int := (roundUnit .rne false r.1 r.2 : Nat)
      let q := if n then -q else q
      ((if q = 0 then roundEv F md (x, 0) else roundOut F md (linEx halfPiFix (dyad (-q) 0) x (dyad 1 0, 0) 0)), (q % 4).toNat)

end Sys2Proof.Machine
end

