-- ==== Sys2Proof/Machine/LaneFloat.lean ====
section
/-! DEFINITION. Floating lane words: majors 0x30 to 0x45 (R314 to R329). -/
namespace Sys2Proof.Machine

/-! ### Operands of the floating majors (R314) -/

/-- An f32 widened exactly to f64. -/
def widenF32 (x : Nat) : Nat :=
  if x / 2 ^ 23 % 256 = 255 then x / 2 ^ 31 * 2 ^ 63 + 2047 * 2 ^ 52 + x % 2 ^ 23 * 2 ^ 29 else (convF ⟨24, 8⟩ ⟨53, 11⟩ .rne x).1

/-- The element a scalar or immediate b gives every lane. -/
def constElem (c : LaneCtx) (w : LaneWord) (fmt : Nat) : Nat :=
  if w.S then (if is64 fmt then (c.sreg w.vb.toNat).toNat else spread fmt (c.sreg w.vb.toNat).toNat)
  else if is64 fmt then widenF32 w.imm.toNat else spread fmt w.imm.toNat

/-- The immediate of a packed format leaves IMM[31:16] zero. -/
def immFits (w : LaneWord) (fmt : Nat) : Bool := !(w.imm1 && (fmt = 8 || fmt = 9)) || w.imm.toNat < 65536

/-- Elements of coefficients 0 to k of a group. -/
def groupElems (s : State) (k : FKey) (fmt order v : Nat) : List (List Nat) :=
  (List.range (order + 1)).map fun i => elems s k fmt (coefReg fmt v i)

/-- One lane's sub-element j of each coefficient. -/
def subSeries (fmt : Nat) (xs : List (List Nat)) (L j : Nat) : List Nat := xs.map fun x => subVal (subWidth fmt) j (x.getD L 0)

/-- Operand b as a series of elements: a group, a single register, or a constant jet. -/
def seriesB (s : State) (c : LaneCtx) (w : LaneWord) (fmt order : Nat) (imm single : Bool) : List (List Nat) :=
  if w.S || (imm && w.imm1) then splat (constElem c w fmt) :: (if single then [] else List.replicate order (splat 0))
  else if single then [elems s c.k fmt w.vb.toNat]
  else groupElems s c.k fmt order w.vb.toNat

/-- Results of the active lanes, sub-element by sub-element: elements and flags by coefficient. -/
def eachLane (c : LaneCtx) (fmt : Nat) (value : Nat → Nat → List (Nat × Nat)) : List (List (Nat × Nat)) :=
  (List.range 96).map fun L =>
    if c.mask.getLsbD L then
      let subs := (List.range (subCount fmt)).map (value L)
      (List.range (subs.headD []).length).map fun i =>
        (packSubs (subWidth fmt) (subs.map fun r => (r.getD i (0, 0)).1), subs.foldl (fun r x => r ||| (x.getD i (0, 0)).2) 0)
    else []

/-- A group's result: flags or the FP trap, then coefficients 0 to n − 1 of VD. `more` holds other registers and tags. -/
def finishFloat (c : LaneCtx) (w : LaneWord) (long : Bool) (fmt order : Nat) (rs : List (List (Nat × Nat)))
    (more : List (Nat × List W32) × List (Nat × Nat)) (s : State) : Out :=
  floatFlags c (rs.map fun r => r.map (·.2)) s fun s =>
    let vals := ((List.range (order + 1)).flatMap fun i =>
      elemRegs fmt (coefReg fmt w.vd.toNat i) (rs.map fun r => (r.getD i (0, 0)).1)) ++ more.1
    let tags := groupTags fmt order w.vd.toNat ++ more.2
    if long then laneLong c w vals tags s else laneDone c w vals tags s

/-- How a word takes operand b. -/
inductive BKind where
  | none | jet | one
  deriving DecidableEq, Repr

/-- A floating word of a jet group VD, a group VA, an operand b and perhaps a group VC (R314, R315). `fns`: its largest FN;
`imm`: FN[0] selects the immediate. -/
def floatWord (w : LaneWord) (md : BitVec 6) (fns : Nat) (imm : Bool) (bk : BKind) (useC long : Bool) (s : State)
    (value : FpFmt → Rnd → Nat → List Nat → List Nat → List Nat → List (Nat × Nat)) : Out :=
  laneWord w false s fun c =>
    let fmt := w.fmt.toNat
    let order := c.f.jord % 8
    let bOk := match bk with
      | .none => w.vb == 0 && w.imm == 0 && !w.S
      | _ => if imm then w.bOk && immFits w fmt else w.imm == 0
    let legal := isFloat fmt && w.fn.toNat ≤ fns && w.mdIn md && bOk && (useC || w.vc == 0)
    let vecB := !(w.S || (imm && w.imm1))
    let bRegs := match bk with
      | .none => []
      | .jet => if vecB then [group fmt order w.vb.toNat true] else []
      | .one => if vecB then [single fmt w.vb.toNat (some fmt)] else []
    let regs := [group fmt order w.vd.toNat false, group fmt order w.va.toNat true] ++ bRegs
      ++ (if useC then [group fmt order w.vc.toNat true] else [])
    laneChecked c w legal true regs s fun s =>
      let as := groupElems s c.k fmt order w.va.toNat
      let bs := match bk with
        | .none => []
        | .jet => seriesB s c w fmt order imm false
        | .one => seriesB s c w fmt order imm true
      let cs := if useC then groupElems s c.k fmt order w.vc.toNat else []
      let F := fpFmt fmt
      let rnd := rndOf w.md.toNat c.f.rmode
      finishFloat c w long fmt order
        (eachLane c fmt fun L j => value F rnd (order + 1) (subSeries fmt as L j) (subSeries fmt bs L j) (subSeries fmt cs L j)) ([], []) s

/-- The values of a series of bits. -/
def vals (F : FpFmt) (l : List Nat) : List FVal := l.map (unpackF F)

/-- fadd (R317). -/
def execFadd (w : LaneWord) (s : State) : Out :=
  floatWord w 11 1 true .jet false false s fun F md n a b _ => seriesAdd F md false (vals F a) (vals F b) n
/-- fsub (R317). -/
def execFsub (w : LaneWord) (s : State) : Out :=
  floatWord w 11 1 true .jet false false s fun F md n a b _ => seriesAdd F md true (vals F a) (vals F b) n
/-- fmul (R317). -/
def execFmul (w : LaneWord) (s : State) : Out :=
  floatWord w 11 1 true .jet false false s fun F md n a b _ => seriesMul F md (vals F a) (vals F b) n
/-- ffma (R317). -/
def execFfma (w : LaneWord) (s : State) : Out :=
  floatWord w 11 1 true .jet true false s fun F md n a b c => seriesFma F md (vals F a) (vals F b) (vals F c) n
/-- fmin (R318). -/
def execFmin (w : LaneWord) (s : State) : Out := floatWord w 11 1 true .jet false false s fun F _ _ a b _ => seriesPick F false a b
/-- fmax (R318). -/
def execFmax (w : LaneWord) (s : State) : Out := floatWord w 11 1 true .jet false false s fun F _ _ a b _ => seriesPick F true a b

/-- fsgn and its variants (R319). -/
def signWord (w : LaneWord) (s : State) : Out :=
  floatWord w 11 2 false .one false false s fun F _ _ a b _ => seriesSign F w.fn.toNat a (b.getD 0 0)
/-- fsgn (R319): the sign of b; FN 3 to 63 trap ILLEGAL. -/
def execFsgn (w : LaneWord) (s : State) : Out := signWord w s
/-- fsgnn (R319): the inverse of b's sign. -/
def execFsgnn (w : LaneWord) (s : State) : Out := signWord w s
/-- fsgnx (R319): the exclusive or of the signs. -/
def execFsgnx (w : LaneWord) (s : State) : Out := signWord w s

/-- fdiv (R324): long. -/
def execFdiv (w : LaneWord) (s : State) : Out :=
  floatWord w 11 1 true .jet false true s fun F md n a b _ => seriesDiv F md (vals F a) (vals F b) n
/-- fsqrt (R324): long. -/
def execFsqrt (w : LaneWord) (s : State) : Out :=
  floatWord w 3 0 false .none false true s fun F md n a _ _ => seriesSqrt F md (vals F a) n
/-- frcp (R324): long. -/
def execFrcp (w : LaneWord) (s : State) : Out :=
  floatWord w 3 0 false .none false true s fun F md n a _ _ => seriesRcp F md (vals F a) n
/-- frsq (R324, R326): long. -/
def execFrsq (w : LaneWord) (s : State) : Out :=
  floatWord w 3 0 false .none false true s fun F md n a _ _ => seriesRsq F md (vals F a) n
/-- fexp2 (R325, R326): long. -/
def execFexp2 (w : LaneWord) (s : State) : Out :=
  floatWord w 3 0 false .none false true s fun F md n a _ _ => seriesExp2 F md (vals F a) n
/-- flog2 (R325, R326): long. -/
def execFlog2 (w : LaneWord) (s : State) : Out :=
  floatWord w 3 0 false .none false true s fun F md n a _ _ => seriesLog2 F md (vals F a) n
/-- ftanh (R325, R326): long. -/
def execFtanh (w : LaneWord) (s : State) : Out :=
  floatWord w 3 0 false .none false true s fun F md n a _ _ => seriesTanh F md (vals F a) n

/-- frnd (R321): FN 0 rounds in RMODE, 1 RNE, 2 RZ, 3 RDN, 4 RUP. -/
def execFrnd (w : LaneWord) (s : State) : Out :=
  floatWord w 0 4 false .none false false s fun F md n a _ _ =>
    let m := match w.fn.toNat with | 0 => md | 1 => .rne | 2 => .rz | 3 => .rdn | _ => .rup
    integralF F m (a.getD 0 0) :: List.replicate (n - 1) (0, 0)

/-! ### Comparison and class (R322, R323) -/

/-- The conditions of fcmp: eq, ne, lt, le, gt, ge, un, or; and whether NV is set. -/
def fcmpHolds (F : FpFmt) (cd : Nat) (a b : Nat) : Bool × Nat :=
  let va := unpackF F a
  let vb := unpackF F b
  if va.isNan || vb.isNan then
    (cd = 1 || cd = 6, nvIf ((2 ≤ cd && cd ≤ 5) || va.sig || vb.sig))
  else
    let ka := keyF F a
    let kb := keyF F b
    (match cd with
      | 0 => ka = kb | 1 => ka ≠ kb | 2 => ka < kb | 3 => ka ≤ kb | 4 => kb < ka | 5 => kb ≤ ka | 6 => false | _ => true, 0)

/-- The integer format of the vector result of fcmp: i32, i16x2 or i64 (R322). -/
def cmpFmt (fmt : Nat) : Nat := if fmt = 7 then 11 else if fmt = 6 then 0 else 2

/-- fcmp (R322). -/
def execFcmp (w : LaneWord) (s : State) : Out :=
  laneWord w false s fun c =>
    let fmt := w.fmt.toNat
    let cd := w.fn.toNat / 8
    let vec := w.fn.getLsbD 2
    let legal := isFloat fmt && !w.fn.getLsbD 1 && w.mdIn 11 && w.bOk && immFits w fmt && w.vc == 0
      && (vec || (1 ≤ w.vd.toNat && w.vd.toNat ≤ 189))
    let regs := (if vec then [result fmt w.vd.toNat] else []) ++ single fmt w.va.toNat (some fmt)
      :: (if w.S || w.imm1 then [] else [single fmt w.vb.toNat (some fmt)])
    laneChecked c w legal true regs s fun s =>
      let F := fpFmt fmt
      let as := [elems s c.k fmt w.va.toNat]
      let bs := seriesB s c w fmt 0 true true
      let one := fun L j => fcmpHolds F cd ((subSeries fmt as L j).headD 0) ((subSeries fmt bs L j).headD 0)
      if vec then
        let rs := eachLane c fmt fun L j => let r := one L j; [(if r.1 then 2 ^ subWidth fmt - 1 else 0, r.2)]
        floatFlags c (rs.map fun r => r.map (·.2)) s fun s =>
          laneDone c w (elemRegs fmt w.vd.toNat (rs.map fun r => (r.headD (0, 0)).1)) (singleTags (cmpFmt fmt) w.vd.toNat) s
      else
        let rs := (List.range 96).map fun L => if c.mask.getLsbD L then some (one L 0) else none
        floatFlags c (rs.map fun r => match r with | some x => [x.2] | none => []) s fun s =>
          laneDone c w [] [] (setTriple c.k w.vd.toNat
            (maskOf fun L => match rs.getD L none with | some x => x.1 | none => false) s)

/-- The class mask of R323. -/
def classMask (F : FpFmt) (x : Nat) : Nat := match unpackF F x with
  | .nan g => if g then 256 else 512
  | .inf n => if n then 1 else 128
  | .fin n m _ =>
    if m = 0 then (if n then 8 else 16)
    else if m < 2 ^ (F.p - 1) then (if n then 4 else 32)
    else if n then 2 else 64

/-- fclass (R323). -/
def execFclass (w : LaneWord) (s : State) : Out :=
  laneWord w false s fun c =>
    let fmt := w.fmt.toNat
    let out := if fmt = 8 || fmt = 9 then 2 else 0
    let legal := isFloat fmt && w.fn == 0 && w.mdIn 3 && w.vb == 0 && w.vc == 0 && w.imm == 0
    laneChecked c w legal true [result 0 w.vd.toNat, single fmt w.va.toNat (some fmt)] s fun s =>
      let F := fpFmt fmt
      let as := [elems s c.k fmt w.va.toNat]
      let rs := eachLane c fmt fun L j => [(classMask F ((subSeries fmt as L j).headD 0), 0)]
      laneDone c w (elemRegs 0 w.vd.toNat (rs.map fun r => (r.headD (0, 0)).1)) (singleTags out w.vd.toNat) s

/-! ### Words with a quadrant or a power (R314, R320, R328, R329) -/

/-- The integer operand's tag: i32 for f32 and f64, i16x2 for the packed formats. -/
def intTag (fmt : Nat) : Nat := if fmt = 8 || fmt = 9 then 2 else 0

/-- The integer a lane's sub-element takes from VB, S[VB] or the immediate. -/
def intOperand (s : State) (c : LaneCtx) (w : LaneWord) (fmt : Nat) (L j : Nat) : Int :=
  let t := intTag fmt
  let x := if w.S then (if t = 2 then spread 2 (c.sreg w.vb.toNat).toNat else (c.sreg w.vb.toNat).toNat)
    else if w.imm1 then (if t = 2 then spread 2 w.imm.toNat else w.imm.toNat)
    else ((readV s c.k w.vb.toNat).getD L 0).toNat
  if t = 2 then toSigned 16 (subVal 16 j x) else toSigned 32 x

/-- A word of a group VD, a group VA and an integer operand (fscale, fsin, fcos). -/
def floatIntWord (w : LaneWord) (long : Bool) (legalImm : Nat → Bool) (s : State)
    (value : FpFmt → Rnd → Nat → List FVal → Int → List (Nat × Nat)) : Out :=
  laneWord w false s fun c =>
    let fmt := w.fmt.toNat
    let order := c.f.jord % 8
    let legal := isFloat fmt && w.fn.toNat ≤ 1 && w.mdIn 11 && w.bOk && legalImm fmt && w.vc == 0
    let regs := [group fmt order w.vd.toNat false, group fmt order w.va.toNat true]
      ++ (if w.S || w.imm1 then [] else [single 0 w.vb.toNat (some (intTag fmt))])
    laneChecked c w legal true regs s fun s =>
      let as := groupElems s c.k fmt order w.va.toNat
      let F := fpFmt fmt
      let rnd := rndOf w.md.toNat c.f.rmode
      finishFloat c w long fmt order
        (eachLane c fmt fun L j => value F rnd (order + 1) (vals F (subSeries fmt as L j)) (intOperand s c w fmt L j)) ([], []) s

/-- fscale (R320). -/
def execFscale (w : LaneWord) (s : State) : Out :=
  floatIntWord w false (immFits w) s fun F md _ a n => seriesScale F md a n
/-- fsin (R329): long. -/
def execFsin (w : LaneWord) (s : State) : Out :=
  floatIntWord w true (fun _ => !w.imm1 || w.imm.toNat < 4) s fun F md n a q => seriesSinCos F md false (q % 4).toNat a n
/-- fcos (R329): long. -/
def execFcos (w : LaneWord) (s : State) : Out :=
  floatIntWord w true (fun _ => !w.imm1 || w.imm.toNat < 4) s fun F md n a q => seriesSinCos F md true (q % 4).toNat a n

/-- frred (R328): long; VC, which lies outside VD's group (R315), receives q mod 4. A coefficient above 0 that is a signalling NaN raises
NV and becomes the canonical NaN (R217, R315). DEDUCED (log 61). -/
def execFrred (w : LaneWord) (s : State) : Out :=
  laneWord w false s fun c =>
    let fmt := w.fmt.toNat
    let order := c.f.jord % 8
    let size := groupSize order * (if is64 fmt then 2 else 1)
    let apart := w.vc.toNat < w.vd.toNat || w.vd.toNat + size ≤ w.vc.toNat
    let legal := isFloat fmt && w.fn == 0 && w.mdIn 3 && w.vb == 0 && w.imm == 0 && apart
    laneChecked c w legal true [group fmt order w.vd.toNat false, group fmt order w.va.toNat true, single 0 w.vc.toNat none] s fun s =>
      let as := groupElems s c.k fmt order w.va.toNat
      let F := fpFmt fmt
      let rnd := rndOf w.md.toNat c.f.rmode
      let rs := eachLane c fmt fun L j =>
        let a := subSeries fmt as L j
        let r := reduceV F rnd (unpackF F (a.headD 0))
        r.1 :: ((a.drop 1).map fun x => (canonF F x, nvIf (unpackF F x).sig)) ++ [(r.2, 0)]
      let q := rs.map fun r => BitVec.ofNat 32 (r.getD (order + 1) (0, 0)).1
      finishFloat c w true fmt order (rs.map fun r => r.take (order + 1)) ([(w.vc.toNat, q)], [(w.vc.toNat, intTag fmt)]) s

/-- fdot2 (R317): packed groups VA and VB, f32 groups VC and VD. -/
def execFdot2 (w : LaneWord) (s : State) : Out :=
  laneWord w false s fun c =>
    let fmt := w.fmt.toNat
    let order := c.f.jord % 8
    let legal := (fmt = 8 || fmt = 9) && w.fn == 0 && w.mdIn 3 && w.imm == 0
    let regs := [group 6 order w.vd.toNat false, group fmt order w.va.toNat true, group fmt order w.vb.toNat true,
      group 6 order w.vc.toNat true]
    laneChecked c w legal true regs s fun s =>
      let G := fpFmt fmt
      let F := fpFmt 6
      let rnd := rndOf w.md.toNat c.f.rmode
      let as := groupElems s c.k fmt order w.va.toNat
      let bs := groupElems s c.k fmt order w.vb.toNat
      let cs := groupElems s c.k 6 order w.vc.toNat
      let rs := eachLane c 6 fun L _ =>
        let half := fun h => (vals G (subSeries fmt as L h), vals G (subSeries fmt bs L h))
        let cv := vals F (subSeries 6 cs L 0)
        series F (order + 1) fun i _ => roundEv F rnd (sumV rnd.isRdn
          (cauchy (half 0).1 (half 0).2 i ++ cauchy (half 1).1 (half 1).2 i ++ [(at_ cv i, 0)]))
      finishFloat c w false 6 order rs ([], []) s

end Sys2Proof.Machine
end

