-- ==== Sys2Proof/Machine/LaneJet.lean ====
section
/-! DEFINITION. Jet words: majors 0x60 to 0x65 (R331 to R335). -/
namespace Sys2Proof.Machine

/-- A word's jet group, of which only coefficient i is touched (R333). -/
def oneOfGroup (fmt order v i : Nat) (check : Bool) : Regs :=
  let g := group fmt order v check
  { g with regs := (group fmt i v check).regs.drop ((if is64 fmt then 2 else 1) * i) }

/-- Registers of a group from the elements of each coefficient. -/
def groupRegs (fmt v : Nat) (xs : List (List Nat)) : List (Nat × List W32) :=
  xs.zipIdx.flatMap fun e => elemRegs fmt (coefReg fmt v e.2) e.1

/-- jseed (R332): the value, a unit or given seed, zeros. -/
def execJseed (w : LaneWord) (s : State) : Out :=
  laneWord w false s fun c =>
    let fmt := w.fmt.toNat
    let order := c.f.jord % 8
    let seed := w.fn == 1
    let legal := isFloat fmt && w.fn.toNat ≤ 1 && w.mdIn (if seed then 8 else 0) && w.vc == 0 && w.imm == 0
      && (seed || w.vb == 0)
    let regs := [group fmt order w.vd.toNat false, single fmt w.va.toNat (some fmt)]
      ++ (if seed && !w.S then [single fmt w.vb.toNat (some fmt)] else [])
    laneChecked c w legal (order ≠ 0) regs s fun s =>
      let one := splat (spread fmt ((fpFmt fmt).oneBits false))
      let one := if is64 fmt then splat ((fpFmt 7).oneBits false) else one
      let b := if !seed then one else if w.S then splat (constElem c w fmt) else elems s c.k fmt w.vb.toNat
      let xs := elems s c.k fmt w.va.toNat :: b :: List.replicate (order - 1) (splat 0)
      laneDone c w (groupRegs fmt w.vd.toNat xs) (groupTags fmt order w.vd.toNat) s

/-- jconst (R332): the value and zeros. -/
def execJconst (w : LaneWord) (s : State) : Out :=
  laneWord w false s fun c =>
    let fmt := w.fmt.toNat
    let order := c.f.jord % 8
    let legal := isFloat fmt && w.fn == 0 && w.md == 0 && w.vb == 0 && w.vc == 0 && w.imm == 0
    laneChecked c w legal true [group fmt order w.vd.toNat false, single fmt w.va.toNat (some fmt)] s fun s =>
      laneDone c w (groupRegs fmt w.vd.toNat (elems s c.k fmt w.va.toNat :: List.replicate order (splat 0)))
        (groupTags fmt order w.vd.toNat) s

/-- jget (R333): coefficient i to a plain register. -/
def execJget (w : LaneWord) (s : State) : Out :=
  laneWord w false s fun c =>
    let fmt := w.fmt.toNat
    let order := c.f.jord % 8
    let i := w.imm.toNat
    let legal := isFloat fmt && w.fn == 0 && w.md == 0 && w.vb == 0 && w.vc == 0 && i < 8
    laneChecked c w legal (i ≤ order) [result fmt w.vd.toNat, oneOfGroup fmt order w.va.toNat i true] s fun s =>
      laneDone c w (elemRegs fmt w.vd.toNat (elems s c.k fmt (coefReg fmt w.va.toNat i))) (singleTags fmt w.vd.toNat) s

/-- jput (R333): a plain register to coefficient i. -/
def execJput (w : LaneWord) (s : State) : Out :=
  laneWord w false s fun c =>
    let fmt := w.fmt.toNat
    let order := c.f.jord % 8
    let i := w.imm.toNat
    let legal := isFloat fmt && w.fn == 0 && w.md == 0 && w.vb == 0 && w.vc == 0 && i < 8
    laneChecked c w legal (i ≤ order) [oneOfGroup fmt order w.vd.toNat i false, single fmt w.va.toNat (some fmt)] s fun s =>
      laneDone c w (elemRegs fmt (coefReg fmt w.vd.toNat i) (elems s c.k fmt w.va.toNat))
        ((groupTags fmt i w.vd.toNat).drop ((if is64 fmt then 2 else 1) * i)) s

/-- jderiv (R334). -/
def execJderiv (w : LaneWord) (s : State) : Out :=
  laneWord w false s fun c =>
    let fmt := w.fmt.toNat
    let order := c.f.jord % 8
    let legal := isFloat fmt && w.fn == 0 && w.mdIn 3 && w.vb == 0 && w.vc == 0 && w.imm == 0
    laneChecked c w legal (order ≠ 0) [group fmt order w.vd.toNat false, group fmt order w.va.toNat true] s fun s =>
      let as := groupElems s c.k fmt order w.va.toNat
      let F := fpFmt fmt
      finishFloat c w false fmt order
        (eachLane c fmt fun L j => seriesDeriv F (rndOf w.md.toNat c.f.rmode) (vals F (subSeries fmt as L j)) order) ([], []) s

/-- jtrunc (R335). -/
def execJtrunc (w : LaneWord) (s : State) : Out :=
  laneWord w false s fun c =>
    let fmt := w.fmt.toNat
    let order := c.f.jord % 8
    let m := w.imm.toNat
    let legal := isFloat fmt && w.fn == 0 && w.md == 0 && w.vb == 0 && w.vc == 0 && m < 8
    laneChecked c w legal true [group fmt order w.vd.toNat false, group fmt order w.va.toNat true] s fun s =>
      let as := groupElems s c.k fmt order w.va.toNat
      let xs := (List.range (order + 1)).map fun i => if i ≤ m then as.getD i (splat 0) else splat 0
      laneDone c w (groupRegs fmt w.vd.toNat xs) (groupTags fmt order w.vd.toNat) s

end Sys2Proof.Machine
end

