-- ==== Sys2Proof/Machine/LaneConvert.lean ====
section
/-! DEFINITION. Conversions: majors 0x68 to 0x6B (R224, R227, R336 to R340). -/
namespace Sys2Proof.Machine

/-! ### fcvt (R336) -/

/-- A format code that fcvt accepts: 0 to 9, 11, 12. -/
def cvtFmt (fmt : Nat) : Bool := fmt ≤ 9 || fmt = 11 || fmt = 12

/-- One element converted: its bits, its floating flags, and whether it was clamped. -/
def convElem (src dst : Nat) (md : Rnd) (sat : Bool) (x : Nat) : Nat × Nat × Bool :=
  if isFloat src then
    if isFloat dst then let r := convF (fpFmt src) (fpFmt dst) md x; (r.1, r.2, false)
    else
      let w := subWidth dst
      let lo : Int := if isSigned dst then -(2 ^ (w - 1) : Nat) else 0
      let hi : Int := if isSigned dst then (2 ^ (w - 1) : Nat) - 1 else (2 ^ w : Nat) - 1
      let r := toIntF md lo hi (unpackF (fpFmt src) x)
      (wrapTo w r.1, r.2, false)
  else if isFloat dst then
    let v := intOf src x
    let r := roundEv (fpFmt dst) md (dyad v 0, 0)
    (r.1, r.2, false)
  else let r := narrowInt dst sat (intOf src x); (r.1, 0, r.2)

/-- fcvt (R336). -/
def execFcvt (w : LaneWord) (s : State) : Out :=
  laneWord w false s fun c =>
    let src := w.fmt.toNat
    let dst := w.fn.toNat % 16
    let order := c.f.jord % 8
    let ns := subCount src
    let nd := subCount dst
    let legal := cvtFmt src && cvtFmt dst && w.fn.toNat < 16 && w.mdIn (if isFloat dst then 3 else 7) && w.vb == 0 && w.vc == 0
      && (if nd < ns then w.imm.toNat < ns / nd else w.imm == 0)
    let ff := isFloat src && isFloat dst && ns = nd
    let fi := isFloat src && !isFloat dst && nd ≤ ns
    let toF := !isFloat src && isFloat dst && ns = nd
    let step := if is64 src then 2 else 1
    let count := if nd > ns then nd / ns else 1
    let jd := if ff || toF then order else 0
    let regsD := if order ≠ 0 && (ff || toF) then [group dst order w.vd.toNat false] else [result dst w.vd.toNat]
    let regsS := if order = 0 || toF then
        (List.range count).map fun q => single src (w.va.toNat + step * q) (some src)
      else if ff then [group src order w.va.toNat true] else [oneOfGroup src order w.va.toNat 0 true]
    laneChecked c w legal (order = 0 || ff || fi || toF) (regsD ++ regsS) s fun s =>
      let md := rndOf w.md.toNat c.f.rmode
      let ws := subWidth src
      let coef := fun (i : Nat) =>
        let xs := (List.range count).map fun q => elems s c.k src (w.va.toNat + step * (i + q))
        (List.range 96).map fun L =>
          if c.mask.getLsbD L then
            let rs := (List.range nd).map fun e =>
              let reg := if nd > ns then e / ns else 0
              let sub := if nd > ns then e % ns else if nd < ns then w.imm.toNat * nd + e else e
              convElem src dst md w.sat (subVal ws sub ((xs.getD reg []).getD L 0))
            (packSubs (subWidth dst) (rs.map (·.1)), rs.foldl (fun r x => r ||| x.2.1) 0, rs.any (·.2.2))
          else (0, 0, false)
      let zero := (List.range 96).map fun _ => (0, 0, false)
      let cols := (List.range (jd + 1)).map fun i => if i = 0 || ff then coef i else zero
      let rs := (List.range 96).map fun L => cols.map fun col => let e := col.getD L (0, 0, false); (e.1, e.2.1)
      let clamped := (cols.headD []).zipIdx.any fun e => e.1.2.2 && c.mask.getLsbD e.2
      let vals := (List.range (jd + 1)).flatMap fun i =>
        elemRegs dst (coefReg dst w.vd.toNat i) (rs.map fun r => (r.getD i (0, 0)).1)
      floatFlags c (rs.map fun r => r.map (·.2)) s fun s =>
        laneDone c w vals (groupTags dst jd w.vd.toNat) (orFlags c.k (if clamped then flagSat else 0) s)

/-! ### l6 blocks in registers (R337) -/

/-- Register of element e's bit of plane j. -/
def planeReg (v j e : Nat) : Nat := v + 2 * j + e / 32

/-- The code of element e of a block group in a lane. -/
def l6Code (s : State) (k : FKey) (v e L : Nat) : Nat :=
  (List.range 6).foldl (fun r j => r + if ((readV s k (planeReg v j e)).getD L 0).getLsbD (e % 32) then 2 ^ j else 0) 0

/-- The twelve registers of a block group with code `x` put at element e. -/
def putCode (e x : Nat) (regs : List W32) : List W32 :=
  regs.zipIdx.map fun r =>
    if r.2 % 2 = e / 32 then
      let bit : W32 := 1 <<< (e % 32)
      if x.testBit (r.2 / 2) then r.1 ||| bit else r.1 &&& ~~~bit
    else r.1

/-- l6pack (R338). -/
def execL6pack (w : LaneWord) (s : State) : Out :=
  laneWord w false s fun c =>
    let fmt := w.fmt.toNat
    let e := w.imm.toNat
    let fresh := w.fn == 1
    let packed := fmt = 8 || fmt = 9
    let legal := isFloat fmt && w.fn.toNat ≤ 1 && w.md == 0 && w.vb == 0 && w.vc == 0 && e < 64 && (!packed || e % 2 = 0)
    laneChecked c w legal true [blockGroup w.vd.toNat (!fresh), single fmt w.va.toNat (some fmt)] s fun s =>
      let xs := elems s c.k fmt w.va.toNat
      let olds := (List.range 12).map fun r => readV s c.k (w.vd.toNat + r)
      let rs := (List.range 96).map fun L =>
        let cs := (List.range (subCount fmt)).map fun j => toL6 (unpackF (fpFmt fmt) (subVal (subWidth fmt) j (xs.getD L 0)))
        let old := if fresh then List.replicate 12 0 else olds.map fun o => o.getD L 0
        (cs.zipIdx.foldl (fun regs z => putCode (e + z.2) z.1.1 regs) old, cs.foldl (fun r z => r ||| z.2) 0)
      let vals := (List.range 12).map fun r => (w.vd.toNat + r, rs.map fun x => x.1.getD r 0)
      floatFlags c (rs.map fun r => [r.2]) s fun s =>
        laneDone c w vals ((List.range 12).map fun r => (w.vd.toNat + r, 10)) s

/-- l6unpack (R339): of a packed format elements e and e + 1, so that e is at most 62. DEDUCED (log 55). -/
def execL6unpack (w : LaneWord) (s : State) : Out :=
  laneWord w false s fun c =>
    let fmt := w.fmt.toNat
    let e := w.imm.toNat
    let packed := fmt = 8 || fmt = 9
    let legal := isFloat fmt && w.fn == 0 && w.mdIn 3 && w.vb == 0 && w.vc == 0 && e < 64 && (!packed || e < 63)
    laneChecked c w legal true [result fmt w.vd.toNat, blockGroup w.va.toNat true] s fun s =>
      let md := rndOf w.md.toNat c.f.rmode
      let rs := eachLane c fmt fun L j =>
        let x := l6Code s c.k w.va.toNat (e + j) L
        [if x = 32 then ((fpFmt fmt).nanBits, flagNV) else roundEx (fpFmt fmt) md (quarterSum false (l6Value x))]
      finishFloat c w false fmt 0 rs ([], []) s

/-- The planes of a block as a read of n planes gives them (R227, R354): the missing planes' highest holds 1 for an element
whose fetched bits of m are not all 0, and such a zero element loses its sign. -/
def truncPlanes (n : Nat) (planes : List Nat) : List Nat :=
  let any := ((planes.drop (6 - n)).take (n - 1)).foldl (· ||| ·) 0
  planes.zipIdx.map fun p =>
    if p.2 = 5 then p.1 &&& any
    else if p.2 + n < 5 then 0
    else if p.2 + n = 5 then any
    else p.1

/-- l6plane (R340): at n planes a NaL becomes zero, whatever n (log 16). -/
def execL6plane (w : LaneWord) (s : State) : Out :=
  laneWord w false s fun c =>
    let n := w.imm.toNat
    let legal := w.fmt == 10 && w.fn == 0 && w.md == 0 && w.vb == 0 && w.vc == 0 && 2 ≤ n && n ≤ 6
    laneChecked c w legal true [blockGroup w.vd.toNat false, blockGroup w.va.toNat true] s fun s =>
      let half := fun h =>
        let regs := (List.range 6).map fun j => (readV s c.k (w.va.toNat + 2 * j + h)).map BitVec.toNat
        let lanes := (List.range 96).map fun L => truncPlanes n (regs.map fun r => r.getD L 0)
        (List.range 6).map fun j => (w.vd.toNat + 2 * j + h, lanes.map fun l => BitVec.ofNat 32 (l.getD j 0))
      laneDone c w (half 0 ++ half 1) ((List.range 12).map fun r => (w.vd.toNat + r, 10)) s

/-- l6plane.code (R340): element e's code in a plain register. -/
def execL6planeCode (w : LaneWord) (s : State) : Out :=
  laneWord w false s fun c =>
    let e := w.imm.toNat
    let legal := w.fmt == 10 && w.fn == 1 && w.md == 0 && w.vb == 0 && w.vc == 0 && e < 64
    laneChecked c w legal true [result 0 w.vd.toNat, blockGroup w.va.toNat true] s fun s =>
      laneDone c w [(w.vd.toNat, (List.range 96).map fun L => BitVec.ofNat 32 (l6Code s c.k w.va.toNat e L))]
        (singleTags 0 w.vd.toNat) s

end Sys2Proof.Machine
end

