-- ==== Sys2Proof/Machine/LaneMem.lean ====
section
/-! DEFINITION. Lane loads, stores and atomics, l6 blocks and prefetch: majors 0x70 to 0x79 (R342 to R345, R350 to R356), and
the hem check of a store (R167, R168, R385). -/
namespace Sys2Proof.Machine

/-! ### Hem checks (R385) -/

/-- A hem bound as an element of the format: widened exactly for 64-bit elements. -/
def hemBound (fmt : Nat) (b : W32) : Nat := match fmt with
  | 7 => widenF32 b.toNat
  | 11 => (b.signExtend 64).toNat
  | _ => b.toNat

/-- x ≤ y in the element's class; never with a NaN. -/
def hemLe (fmt x y : Nat) : Bool :=
  if isFloat fmt then (fcmpHolds (fpFmt fmt) 3 x y).1 else intOf fmt x ≤ intOf fmt y

/-- An element checked: in bounds, and the value that a clamp leaves. -/
def hemCheck (fmt : Nat) (m : Hem) (x : Nat) : Bool × Nat :=
  if m.act = 0 then (true, x) else
  let lo := hemBound fmt m.lo
  let hi := hemBound fmt m.hi
  if !hemLe fmt lo x then (false, lo) else if !hemLe fmt x hi then (false, hi) else (true, x)

/-- Formats a hem check accepts. -/
def hemFmt (fmt : Nat) : Bool := fmt ≤ 1 || fmt = 6 || fmt = 7 || fmt = 11 || fmt = 12

/-! ### Addresses (R343, R344) -/

/-- The addressing mode, FN[5:4], and the scale factor, FN[3:2]. -/
def memMode (w : LaneWord) : Nat := w.fn.toNat / 16
def memScale (w : LaneWord) : Nat := w.fn.toNat / 4 % 4
/-- The access width in bytes. -/
def memWidth (w : LaneWord) : Nat := match w.fn.toNat % 4 with
  | 1 => 1 | 2 => 2 | _ => if is64 w.fmt.toNat then 8 else 4
/-- A narrow access: 1 or 2 bytes. -/
def memNarrow (w : LaneWord) : Nat := if w.fn.toNat % 4 = 0 then 0 else 1

/-- The address fields of a lane access: S set, the mode's VA and scale. -/
def addrOk (w : LaneWord) : Bool := w.S && (match memMode w with
  | 2 => memScale w = 0 && w.va.toNat % 2 = 0
  | 3 => memScale w = 0 && w.va == 0
  | _ => true)
/-- The width fields: narrow only for i32 and n32. -/
def widthOk (w : LaneWord) : Bool := match w.fn.toNat % 4 with | 0 => true | 3 => false | _ => w.fmt.toNat ≤ 1
/-- Registers the address reads, whatever their tags. -/
def addrRegs (w : LaneWord) : List Regs := match memMode w with
  | 2 => [{ regs := [(w.va.toNat, none), (w.va.toNat + 1, none)] }]
  | 3 => []
  | _ => [single 0 w.va.toNat none]

/-- Address of lane L; `n` is the step of mode 3. -/
def laneAddr (s : State) (c : LaneCtx) (w : LaneWord) (n L : Nat) : W64 :=
  let base := c.sreg w.vb.toNat + w.imm.signExtend 64
  let lo := (readV s c.k w.va.toNat).getD L 0
  match memMode w with
  | 0 => base + (lo.signExtend 64 <<< memScale w)
  | 1 => base + (lo.setWidth 64 <<< memScale w)
  | 2 => base + (((readV s c.k (w.va.toNat + 1)).getD L 0).setWidth 64 <<< 32) + lo.setWidth 64
  | _ => base + BitVec.ofNat 64 (n * L)

/-- The accesses of the active lanes. -/
def laneReqs (c : LaneCtx) (n : Nat) (addr : Nat → W64) (data cmp : Nat → List W8) : List LaneReq :=
  (activeLanes c.mask).map fun L => { lane := L, addr := addr L, n := n, data := data L, cmp := cmp L }

/-! ### Checks and issue (R34 to R36, R132, R159, R176) -/

/-- Lane misses take slots: the fibre issues nothing on either stream, and the pipe may hop (R34, R36). -/
def missLane (k : FKey) (w : LaneWord) (l : List (Nat × Bool)) (s : State) : Out :=
  laneStall k w 13 ((l.foldl (fun s e => addSlot k.core e.1 e.2 s) s).onFib k fun f => { f with susp := 2 })

/-- A lane word whose checks have passed waits. -/
def laneHold (k : FKey) (w : LaneWord) (r : Nat) (s : State) : Out :=
  laneStall k w r (s.onFib k fun f => { f with susp := if f.susp = 2 then 0 else f.susp })

/-- The check of a lane word's accesses, before any is performed. -/
def laneCheck (c : LaneCtx) (w : LaneWord) (sh : Shape) (u : Use) (ld st : Bool) (rs : List LaneReq) (s : State)
    (go : List Checked → State → Out) : Out :=
  let k := c.k
  match memStall s k c.f ld st with
  | some r => laneStall k w r s
  | none =>
    match checkAll s k.core c.f.gang w.scr sh u .fibre rs with
    | .miss l => missLane k w l s
    | .fault e L a i => trapLane k e { lane := L, addr := a, info := i } (if w.scr then s else usedPages k.core rs s)
    | .ok l =>
      let s := if w.scr then s else usedPages k.core rs s
      if boardHit s l u.writes then laneHold k w 15 s else go l s

/-- A lane word's release at a scope, before the word is performed (R136, R350, R352). -/
def laneRelease (c : LaneCtx) (w : LaneWord) (scope : Nat) (s : State) (go : State → Out) : Out :=
  consuming c.k c.f releaseCovers s <|
    let mark := if c.f.markL = 0 then s.nextId else c.f.markL
    if releaseWaits s c.k.core (.fib c.k) scope (c.f.oneCore s) mark then
      laneHold c.k w 21 (s.onFib c.k fun f => { f with markL := mark })
    else go (clearSr c.k.core mark s)

/-- A lane word retires and its accesses start. A word that brings results is long: they stand pending until every active
lane has its value (R252, R351). -/
def startLane (c : LaneCtx) (w : LaneWord) (fin : Fin) (regs : List Nat) (kind : AccKind) (strong : Bool) (op : Nat)
    (ld st : Bool) (acq : Option W64) (sys whole : Bool) (l : List Checked) (s : State) : Out :=
  let k := c.k
  let s := laneRetire k w (disturbRegs k regs [] s)
  let r : LongRes := { id := s.nextId, pc := c.pc, mask := c.mask, vals := [], tags := [], la := gateOf w true,
                       at_ := c.f.nlane, mem := true, regs := regs }
  let s := if ld then s.onFib k fun f => { markClash c.mask regs f with longs := (markClash c.mask regs f).longs ++ [r] } else s
  .next (reap k.core (issueAccs k.core (.fib k) c.pc fin c.mask kind strong op c.f.dom ld st acq sys l s whole))

/-- Bytes of a lane's element in a register or pair. -/
def elemBytes (s : State) (k : FKey) (fmt v n : Nat) : Nat → List W8 :=
  let xs := elems s k fmt v
  fun L => leBytes (xs.getD L 0) n

/-! ### Loads and stores (R350) -/

/-- The fields of a lane load or store: formats 0 to 12 but l6. -/
def loadFmt (w : LaneWord) : Bool := w.fmt.toNat ≤ 12 && w.fmt != 10

/-- A lane load; `order` and `scope` of vlds, none for vld. At blk scope by a block on one core vlds is served as a plain load (log 58). -/
def laneLoad (w : LaneWord) (vcOk strong acq : Bool) (scope : Nat) (s : State) : Out :=
  laneWord w false s fun c =>
    let fmt := w.fmt.toNat
    let n := memWidth w
    let legal := loadFmt w && w.mdIn 0x28 && addrOk w && widthOk w && vcOk
    laneChecked c w legal true (result fmt w.vd.toNat :: addrRegs w) s fun s =>
      let own := scope = 0 && c.f.oneCore s
      laneCheck c w (if strong then .strong else .plain) .load true false
        (laneReqs c n (laneAddr s c w n) (fun _ => []) (fun _ => [])) s fun l s =>
          startLane c w (.vreg w.vd.toNat fmt n (memNarrow w)) ((single fmt w.vd.toNat none).regs.map (·.1)) .load
            (strong && !own) 0 true false (if acq then some (acqMask c.f scope s) else none) (strong && scope = 3) false l s

/-- A lane store. -/
def laneStore (w : LaneWord) (md : BitVec 6) (vcOk strong rel : Bool) (scope : Nat) (s : State) : Out :=
  laneWord w false s fun c =>
    let fmt := w.fmt.toNat
    let n := memWidth w
    let legal := loadFmt w && w.mdIn md && addrOk w && widthOk w && vcOk && (!w.hem || hemFmt fmt)
    laneChecked c w legal true (single fmt w.vd.toNat none :: addrRegs w) s fun s =>
      let xs := elems s c.k fmt w.vd.toNat
      let m := if w.hem then hemOf s c.f.dom c.f.bid (w.vc.toNat % 32) else {}
      let addr := laneAddr s c w n
      match (if m.act = 2 then (activeLanes c.mask).find? fun L => !(hemCheck fmt m (xs.getD L 0)).1 else none) with
      | some L => trapLane c.k .hemBound { lane := L, addr := addr L, aux := w.vc.toNat % 32 } s
      | none =>
        let data := fun L => leBytes (hemCheck fmt m (xs.getD L 0)).2 n
        laneCheck c w (if strong then .strong else .plain) .store false true (laneReqs c n addr data (fun _ => [])) s fun l s =>
          let go := fun s => startLane c w .none [] .store strong 0 false true none (strong && scope = 3) false l s
          if rel then laneRelease c w scope s go else go s

/-- vld (R350): long. -/
def execVld (w : LaneWord) (s : State) : Out := laneLoad w (w.vc == 0) false false 0 s
/-- vst (R350), with an optional hem check (R168). -/
def execVst (w : LaneWord) (s : State) : Out :=
  laneStore w 0x38 (if w.hem then w.vc.toNat < 32 else w.vc == 0) false false 0 s
/-- vlds (R350): a strong load, relaxed or acquire. -/
def execVlds (w : LaneWord) (s : State) : Out :=
  laneLoad w (w.vc.toNat % 16 = 0 && w.vc.toNat / 64 ≤ 1) true (w.vc.toNat / 64 = 1) (w.vc.toNat / 16 % 4) s
/-- vsts (R350): a strong store, relaxed or release. -/
def execVsts (w : LaneWord) (s : State) : Out :=
  laneStore w 0x28 (w.vc.toNat % 16 = 0 && w.vc.toNat / 64 % 2 = 0) true (w.vc.toNat / 64 = 2) (w.vc.toNat / 16 % 4) s

/-! ### Atomics (R352, R353) -/

/-- Formats of lane atomics. -/
def atomFmt (w : LaneWord) : Bool := w.fmt.toNat ≤ 1 || w.fmt == 11 || w.fmt == 12

/-- A lane atomic: order and scope in VC, the release part before the first beat and the acquire part after the last. -/
def laneAtomic (w : LaneWord) (legal : Bool) (op : Nat) (whole : Bool) (addrR regs : List Regs)
    (addr : LaneCtx → Nat → W64) (new old : LaneCtx → Nat → List W8) (s : State) : Out :=
  laneWord w false s fun c =>
    let fmt := w.fmt.toNat
    let n := if is64 fmt then 8 else 4
    let order := w.vc.toNat / 64
    let scope := w.vc.toNat / 16 % 4
    laneChecked c w (atomFmt w && w.mdIn 0x28 && w.S && legal) true (regs ++ addrR) s fun s =>
      laneCheck c w .strong .atomic true true (laneReqs c n (addr c) (new c) (old c)) s fun l s =>
        let acq := if order % 2 = 1 then some (acqMask c.f scope s) else none
        let go := fun s => startLane c w (.vreg w.vd.toNat fmt n 0) ((single fmt w.vd.toNat none).regs.map (·.1)) .atomic true op
          true true acq (scope = 3) whole l s
        if 2 ≤ order then laneRelease c w scope s go else go s

/-- vatom (R352): long. -/
def execVatom (w : LaneWord) (s : State) : Out :=
  let fmt := w.fmt.toNat
  let n := if is64 fmt then 8 else 4
  laneAtomic w (addrOk w && w.fn.toNat % 4 = 0 && w.vc.toNat % 16 ≤ 8) (w.vc.toNat % 16) false (addrRegs w)
    [single fmt w.vd.toNat none] (fun c => laneAddr s c w n) (fun c => elemBytes s c.k fmt w.vd.toNat n) (fun _ _ => []) s

/-- vatoms (R353): one address, one event across the three beats. -/
def execVatoms (w : LaneWord) (s : State) : Out :=
  let fmt := w.fmt.toNat
  let n := if is64 fmt then 8 else 4
  laneAtomic w (w.va == 0 && w.fn == 0 && w.vc.toNat % 16 ≤ 8) (w.vc.toNat % 16) true []
    [single fmt w.vd.toNat none] (fun c _ => c.sreg w.vb.toNat + w.imm.signExtend 64)
    (fun c => elemBytes s c.k fmt w.vd.toNat n) (fun _ _ => []) s

/-- vcas (R352): VD holds the expected values and receives the old ones; the register, or pair, above it the new. -/
def execVcas (w : LaneWord) (s : State) : Out :=
  let fmt := w.fmt.toNat
  let n := if is64 fmt then 8 else 4
  let step := if is64 fmt then 2 else 1
  laneAtomic w (addrOk w && w.fn.toNat % 4 = 0 && w.vc.toNat % 16 = 0 && w.vd.toNat % (2 * step) = 0) 9 false (addrRegs w)
    [single fmt w.vd.toNat none, single fmt (w.vd.toNat + step) none] (fun c => laneAddr s c w n)
    (fun c => elemBytes s c.k fmt (w.vd.toNat + step) n) (fun c => elemBytes s c.k fmt w.vd.toNat n) s

/-! ### l6 blocks (R354, R355) -/

/-- A checked part without the bytes of its access below `lo`. -/
def trimPart (lo : Nat) (e : Checked) : Option Checked :=
  let p := e.part
  if p.off + p.n ≤ lo then none
  else if lo ≤ p.off then some e
  else
    let o := lo - p.off
    some { e with part := { p with off := lo, n := p.n - o, pa := p.pa + o, va := p.va + BitVec.ofNat 64 o } }

/-- vldb (R354): long; n planes of each block are fetched, though all 48 bytes are checked. -/
def execVldb (w : LaneWord) (s : State) : Out :=
  laneWord w false s fun c =>
    let n := w.vc.toNat
    let legal := w.fmt == 10 && w.mdIn 0x28 && addrOk w && w.fn.toNat % 4 = 0 && 2 ≤ n && n ≤ 6
    laneChecked c w legal true (blockGroup w.vd.toNat false :: addrRegs w) s fun s =>
      laneCheck c w .block .load true false (laneReqs c 48 (laneAddr s c w 48) (fun _ => []) (fun _ => [])) s fun l s =>
        startLane c w (.planes w.vd.toNat n) ((List.range 12).map (w.vd.toNat + ·)) .load false 0 true false none false false
          (l.filterMap (trimPart (8 * (6 - n)))) s

/-- vstb (R355). -/
def execVstb (w : LaneWord) (s : State) : Out :=
  laneWord w false s fun c =>
    let legal := w.fmt == 10 && w.mdIn 0x28 && addrOk w && w.fn.toNat % 4 = 0 && w.vc == 0
    laneChecked c w legal true ({ blockGroup w.vd.toNat false with read := true } :: addrRegs w) s fun s =>
      let regs := (List.range 12).map fun r => readV s c.k (w.vd.toNat + r)
      let data := fun L => regs.flatMap fun r => leBytes (r.getD L 0).toNat 4
      laneCheck c w .block .store false true (laneReqs c 48 (laneAddr s c w 48) data (fun _ => [])) s fun l s =>
        startLane c w .none [] .store false 0 false true none false false l s

/-! ### Prefetch (R356, R37) -/

/-- Fill the line of a byte as Valid, unless the L1 already holds its word. -/
def prefetchByte (c : LaneCtx) (L : Nat) (va : W64) (pa region : Nat) (sp : Space) (s : State) : State :=
  let core := c.k.core
  let line := pa / 128
  if ((s.core core).l1word line (pa / 4 % 32)).st ≠ .invalid || ((s.core core).loads.any fun a => a.prefetch && a.line = line) then s
  else
    let (id, s) := s.fresh
    let a : Acc := { id := id, inst := 0, thr := .fib c.k, kind := .load, space := sp, line := line,
                     parts := [{ lane := L, off := 0, n := 1, pa := pa, va := va }], region := region, dom := c.f.dom, pc := c.pc,
                     prefetch := true, since := id, tick := s.tick }
    sendLd core a (s.onCore core fun co => { co with loads := co.loads ++ [a] })

/-- vpf (R356): it never faults after its legality checks, binds nothing and raises no counter. -/
def execVpf (w : LaneWord) (s : State) : Out :=
  laneWord w false s fun c =>
    let n := memWidth w
    let legal := w.fmt.toNat ≤ 12 && w.mdIn 8 && addrOk w && widthOk w && w.vc == 0 && w.vd == 0
    laneChecked c w legal true (addrRegs w) s fun s =>
      let addr := laneAddr s c w n
      let rs := (activeLanes c.mask).map fun L => (L, addr L, checkVa s c.k.core .load .fibre (addr L))
      let misses := rs.filterMap fun r => match r.2.2 with | .miss v wr => some (v, wr) | _ => none
      if misses ≠ [] then missLane c.k w misses s
      else
        let s := usedPages c.k.core (rs.map fun r => { lane := r.1, addr := r.2.1, n := 1 }) s
        let s := rs.foldl (fun s r => match r.2.2 with
          | .ok .near pa rg => prefetchByte c r.1 r.2.1 pa rg .near s
          | .ok .pool pa rg => prefetchByte c r.1 r.2.1 pa rg .pool s
          | _ => s) s
        .next (laneRetire c.k w s)

end Sys2Proof.Machine
end

