-- ==== Sys2Proof/Machine/Tiles.lean ====
section
/-! DEFINITION. What a press operation computes (R225 to R230, R368 to R377, R385): its operands as lists of elements, and
each output with its flags. -/
namespace Sys2Proof.Machine

/-! ### Operands (R226, R368, R369, R374) -/

/-- Depth K of a product. -/
def pressDepth (fmt : Nat) : Nat := if fmt = 10 then 128 else if fmt = 4 || fmt = 5 then 64 else 32

/-- Full width W of a product. -/
def pressWidth (fmt : Nat) : Nat := if fmt = 10 then 32 else 48

/-- The column extent an IMM field names: 0 is the full width. -/
def pressCols (full imm : Nat) : Nat := if imm % 64 = 0 then full else imm % 64

/-- The code of element e of a 48-byte block (R226). -/
def blockCode (b : List W8) (e : Nat) : Nat :=
  (List.range 6).foldl (fun r j => r + if (b.getD (8 * j + e / 8) 0).getLsbD (e % 8) then 2 ^ j else 0) 0

/-- The elements of a row of A, or of a column of B, from its bytes. -/
def byteElems (fmt : Nat) (b : List W8) : List Nat :=
  if fmt = 10 then
    let lo := b.take 48
    let hi := (b.drop 48).take 48
    (List.range 64).map (blockCode lo) ++ (List.range 64).map (blockCode hi)
  else if fmt = 4 || fmt = 5 then (b.take 64).map BitVec.toNat
  else (List.range 32).map fun k => leNat ((b.drop (2 * k)).take 2)

/-- Bytes of a row of A, and of a column of B. -/
def pressRowBytes (fmt : Nat) : Nat := if fmt = 10 then 96 else 64

/-- Columns 0 to n − 1 of B. -/
def pressB (fmt n : Nat) (b : List W8) : List (List Nat) :=
  (List.range n).map fun c => byteElems fmt ((b.drop (pressRowBytes fmt * c)).take (pressRowBytes fmt))

/-- Row L of A from registers; `step` is 2 and `coef` 0 or 1 at JORD 1. -/
def pressA (fmt va step coef : Nat) (reg : Nat → Nat) : List Nat :=
  if fmt = 10 then (List.range 128).map fun k =>
    let e := k % 64
    (List.range 6).foldl (fun r j => r + if (reg (va + 12 * (k / 64) + 2 * j + e / 32)).testBit (e % 32) then 2 ^ j else 0) 0
  else
    let per := if fmt = 4 || fmt = 5 then 4 else 2
    (List.range (pressDepth fmt)).map fun k => subVal (32 / per) (k % per) (reg (va + step * (k / per) + coef))

/-! ### Outputs (R229, R370, R372) -/

/-- binary32. -/
def f32 : FpFmt := fpFmt 6

/-- One floating output: the accumulator plus exact products, rounded once. -/
def floatOut (fmt acc : Nat) (terms : List (List Nat × List Nat)) : Nat × Nat :=
  let F := fpFmt fmt
  roundEv f32 .rne (sumV false ((unpackF f32 acc, 0) :: terms.flatMap fun t =>
    (t.1.zip t.2).map fun e => mulV (unpackF F e.1) (unpackF F e.2)))

/-- One integer output, and whether it saturated. -/
def intOut (aSigned bSigned sat : Bool) (acc : Nat) (a b : List Nat) : Nat × Bool :=
  let rd := fun (sg : Bool) (x : Nat) => if sg then toSigned 8 x else ((x % 256 : Nat) : Int)
  let sum := (a.zip b).foldl (fun r e => r + rd aSigned e.1 * rd bSigned e.2) (toSigned 32 acc)
  if sat then
    if sum < -(2 ^ 31) then (2 ^ 31, true) else if (2 ^ 31 : Int) ≤ sum then (2 ^ 31 - 1, true) else (wrapTo 32 sum, false)
  else (wrapTo 32 sum, false)

/-! ### l6 products (R228, R371) -/

/-- A rounded result as the operand of the next step. -/
def again (x : Nat × Nat) : Ev := (unpackF f32 x.1, x.2)

/-- The partial product p_k of BLOCKWISE mode, with the flags of its steps. -/
def blockPart (sa sb : Nat) (a b : List Nat) : Ev :=
  let s := roundEv f32 .rne (mulV (unpackF f32 sa) (unpackF f32 sb))
  let ps := (a.zip b).map fun e => l6Product e.1 e.2
  if ps.any Option.isNone then (.nan false, s.2 ||| flagNV)
  else
    let d := ps.foldl (fun (r : Int) p => r + p.getD 0) 0
    let p := roundEv f32 .rne (mulV (dyad d (-22)) (unpackF f32 s.1))
    (unpackF f32 p.1, s.2 ||| p.2)

/-- One output in BLOCKWISE mode. -/
def blockOut (acc : Nat) (sa sb : Nat → Nat) (a b : List Nat) : Nat × Nat :=
  let p := fun k => blockPart (sa k) (sb k) ((a.drop (64 * k)).take 64) ((b.drop (64 * k)).take 64)
  roundEv f32 .rne (sumV false [(unpackF f32 acc, 0), p 0, p 1])

/-- A value that stands for an l6 code where only its sign and class count. -/
def l6Class (c : Nat) : FVal := .fin (c % 32 ≠ 0 && 32 ≤ c % 64) (if c % 32 = 0 then 0 else 1) 0

/-- a′ of COLUMNWISE mode: the code's value times its block's scale, rounded. -/
def scaledCode (sa c : Nat) : Nat × Nat :=
  let x := unpackF f32 sa
  let k := mulV (l6Class c) x
  match k.1 with
  | .fin neg m _ => if m = 0 then (f32.zeroBits neg, k.2)
      else roundEx f32 .rne (quarterSum false ((l6Value c).map fun v => (mulV v x).1))
  | v => ((roundEx f32 .rne v.toEx).1, k.2)

/-- Sums by quarter power: entry f is the sum of a′ × 2^(i) over the elements whose value is 2^(i + f ÷ 4). -/
def quarterTerms (a : List FVal) (b : List Nat) : List FVal :=
  (List.range 4).map fun f => (sumV false ((a.zip b).map fun e =>
    (match e.1 with | .fin _ _ _ => (mulV e.1 ((l6Value e.2).getD f (.fin false 0 0))).1 | _ => .fin false 0 0, 0))).1

/-- Q of COLUMNWISE mode times the column's scale: the exact result before its rounding, and the flags of its formation. -/
def columnQ (sb : FVal) (a : List FVal) (b : List Nat) : Ex × Nat :=
  let cls := sumV false ((a.zip b).map fun e => match e.1 with
    | .fin n m x => (.fin (n != (l6Class e.2).sign) (if (l6Class e.2).isZero then 0 else m) x, 0)
    | v => mulV v (l6Class e.2))
  match cls.1 with
  | .fin _ _ _ =>
    let ts := quarterTerms a b
    if ts.all FVal.isZero then
      -- an exact zero: minus only when every term is minus zero
      let zs := (a.zip b).map fun e => (mulV e.1 (l6Class e.2)).1
      let q := FVal.fin (zs ≠ [] && zs.all FVal.isZero && zs.all FVal.sign) 0 0
      let r := mulV q sb
      (r.1.toEx, cls.2 ||| r.2)
    else
      let neg := match quarterSum false ts with | .mag n _ => n | .zero n => n | _ => false
      let r := mulV (.fin neg 1 0) sb
      match r.1 with
      | .fin n m _ => if m = 0 then (.zero n, cls.2) else (quarterSum false (ts.map fun t => (mulV t sb).1), cls.2)
      | v => (v.toEx, cls.2 ||| r.2)
  | v => let r := mulV v sb
    (r.1.toEx, cls.2 ||| r.2)

/-- One output in COLUMNWISE mode, from the row's scaled elements. -/
def columnOut (acc sb : Nat) (nal : Bool) (a : List FVal) (b : List Nat) : Nat × Nat :=
  if nal || b.contains 32 then (f32.nanBits, flagNV)
  else
    let p := roundOut f32 .rne (columnQ (unpackF f32 sb) a b)
    roundEv f32 .rne (sumV false [(unpackF f32 acc, 0), again p])

end Sys2Proof.Machine
end

