-- ==== Sys2Proof/Machine/Press.lean ====
section
/-! DEFINITION. Press words: majors 0x90 to 0x98 (R163 to R166, R365 to R382). A word checks its operands and enqueues one press
operation; the press performs it by the events PRESS_OP_START and PRESS_OP_COMPLETE (EvPress). -/
namespace Sys2Proof.Machine

/-! ### Fields and tiles (R365 to R367) -/

/-- Tiles named: one, or two for the f32 forms at JORD 1. -/
def tileRegs (l : Launch) (a count : Nat) : Regs := { regs := [], rangeOk := a + count ≤ l.acct, jetOk := count = 1 || a % 2 = 0 }

/-- The tag ATAG of a tile. -/
def State.atag (s : State) (k : FKey) (a : Nat) : Nat := (tget (s.spool k).tiles a {}).tag

/-- A tile of the fibre's spool changed. -/
def onTile (k : FKey) (a : Nat) (f : Tile → Tile) (s : State) : State :=
  let sp := s.spool k
  s.setSpool k { sp with tiles := tset sp.tiles a (f (tget sp.tiles a {})) }

/-- The tag and the mismatch record of tiles written, as at the issue of the word that sets them. -/
def setAtag (k : FKey) (a count tag : Nat) (s : State) : State :=
  (List.range count).foldl (fun s i => onTile k (a + i) (fun t => { t with tag := tag }) s) s

/-- Tiles whose tag is not the one a word needs. -/
def tagBad (s : State) (k : FKey) (a count tag : Nat) : Bool := (List.range count).any fun i => s.atag k (a + i) != tag

/-- A press word hops only when PR is full (R367): for every other stall it carries no hop prefix. -/
def noHop (w : LaneWord) : LaneWord := { w with h := false }

/-! ### Issue (R159, R163, R165, R166) -/

/-- A mofence stands and what it waits for has not happened: a lane result not written, or a scratch store not
acknowledged. -/
def fenceWaits (s : State) (k : FKey) (f : Fib) : Bool :=
  f.fence.any fun id => f.longs.any (·.id = id) || (s.core k.core).insts.any (·.id = id)

/-- A press word whose checks have passed: the fence stalls it with reason 2, a full PR with reason 4; else its operation
joins the press's queue and PR rises. -/
def enqueuePress (c : LaneCtx) (w : LaneWord) (o : PressOp) (u : PressUse) (s : State) (fx : State → State) : Out :=
  let k := c.k
  if fenceWaits s k c.f then laneHold k (noHop w) 2 s
  else if c.f.pr ≥ 63 then laneHold k w 4 s
  else
    let co := s.core k.core
    let born := match c.f.stitches with | t :: _ => t.born | [] => 0
    let after := (co.rowOps.filter fun r => r.kind = 1 && r.k.sub / 4 = k.sub / 4 && u.latch.contains r.latch && r.id < born).map (·.id)
    let (id, s) := s.fresh
    let o := { o with id := id, k := k, w := w, pc := c.pc, mask := c.mask, jord := c.f.jord % 8, mode := c.f.mode, afterRow := after }
    let s := s.onCore k.core fun co => { co with press := tset co.press (k.sub / 4) (tget co.press (k.sub / 4) [] ++ [o]) }
    let s := s.onFib k fun f => { f with
      prq := f.prq ++ [(id, false)], fence := [], unwaited := f.unwaited ++ [{ u with id := id, mask := c.mask }] }
    .next (fx (laneRetire k w s))

/-- An operation with nothing of its own. -/
def pressOp0 (c : LaneCtx) (w : LaneWord) (op : Nat) : PressOp := { id := 0, k := c.k, op := op, w := w, pc := c.pc, mask := c.mask }

/-! ### mma and mmag (R368 to R374) -/

/-- The access rows of a scratch operand in order, each 32 bytes; the first that fails SCRATCH_RANGE is named (R51, R407). -/
def scratchLines (s : State) (g : GKey) (a : W32) (n lane : Nat) : Except W32 (List (Nat × Nat × W64)) :=
  ((List.range (n / 32)).map fun i => a + BitVec.ofNat 32 (32 * i)).foldl (fun r a => match r, scratchAt s g a 32 with
    | .ok l, some (_, pa) => .ok (l ++ [(pa, lane, a.setWidth 64)])
    | .ok _, none => .error a
    | .error e, _ => .error e) (.ok [])

/-- Fields of mma and mmag in common: formats, unsigned B, saturation, column count, scales. -/
def productOk (w : LaneWord) : Bool :=
  let fmt := w.fmt.toNat
  let i8 := fmt = 4 || fmt = 5
  (i8 || fmt = 8 || fmt = 9 || fmt = 10) && w.vd.toNat < 16 && w.fn.toNat < 16 && (i8 || !w.fn.getLsbD 2)
    && w.mdIn (if i8 then 0x0C else 8) && (fmt = 10 || w.vc == 0) && w.imm.toNat < 64 && w.imm.toNat ≤ pressWidth fmt

/-- The scale registers of an l6 product. -/
def scaleRegs (w : LaneWord) : List Regs :=
  if w.fmt = 10 then
    [{ regs := (List.range 3).map fun i => (w.vc.toNat + i, some 6), fmtOk := w.vc.toNat % 4 = 0, read := false }]
  else []

/-- A registers of mma, with tags and base alignment (R368). -/
def productA (w : LaneWord) (jet : Bool) : List Regs :=
  let v := w.va.toNat
  let fmt := w.fmt.toNat
  if fmt = 10 then [{ blockGroup v true with read := false }, { blockGroup (v + 12) true with read := false }]
  else if jet then
    [{ regs := (List.range 32).map fun i => (v + i, some (if i % 2 = 0 then fmt else 14)), fmtOk := v % 32 = 0, read := false }]
  else [{ regs := (List.range 16).map fun i => (v + i, some fmt), fmtOk := v % 16 = 0, read := false }]

/-- mma (R370 to R372). -/
def execMma (w : LaneWord) (s : State) : Out :=
  pressFrame (noHop w) false s fun c =>
    let fmt := w.fmt.toNat
    let i8 := fmt = 4 || fmt = 5
    let src := w.fn.toNat % 4
    let bt := w.fn.getLsbD 3
    let order := c.f.jord % 8
    let jet := order = 1 && !i8
    let count := if jet then 2 else 1
    let a := w.vd.toNat
    let legal := productOk w && src ≠ 3 && (w.S == (src = 2)) && (w.S || w.vb == 0) && (!bt || (order = 1 && (fmt = 8 || fmt = 9)))
    let regs := productA w jet ++ scaleRegs w
    laneChecked c w legal (order = 0 || (order = 1 && fmt ≠ 10)) (tileRegs (s.launch c.f.dom) a count :: regs) s fun s =>
      if tagBad s c.k a count (if i8 then 0 else 6) then trapLane c.k .format {} s else
      let base := (c.sreg w.vb.toNat).setWidth 32
      if src = 2 && base.toNat % 32 ≠ 0 then trapLane c.k .align { addr := base.setWidth 64 } s else
      match (if src = 2 then scratchLines s c.f.gang base (if bt then 6144 else 3072) scalarLane else .ok []) with
      | .error a => trapLane c.k .scratchRange { addr := a.setWidth 64 } s
      | .ok rows =>
        enqueuePress c w { pressOp0 c w 0x90 with lines := rows }
          { id := 0, mask := c.mask, tiles := (List.range count).map (a + ·), n := pressCols (pressWidth fmt) w.imm.toNat,
            src := regs.flatMap fun r => r.regs.map (·.1), rows := rows.map fun r => r.1 / 32, latch := latchesOf w } s id

/-- The access rows of a lane's row of A that an index names (R374). -/
def gatherLane (s : State) (g : GKey) (fmt : Nat) (base idx : W32) (L : Nat) :
    Except (Cause × Nat × W32) (List (Nat × Nat × W64)) :=
  let n := pressRowBytes fmt
  let a := base + idx * BitVec.ofNat 32 n
  if a.toNat % 32 ≠ 0 then .error (.align, L, a)
  else match scratchLines s g a n L with
    | .error x => .error (.scratchRange, L, x)
    | .ok x => .ok x

/-- The rows of A that mmag gathers (R374): each active lane's, in ascending order; the first that fails stops the word. -/
def gatherRows (s : State) (c : LaneCtx) (w : LaneWord) : Except (Cause × Nat × W32) (List (Nat × Nat × W64)) :=
  let idx := readV s c.k w.va.toNat
  (activeLanes c.mask).foldl (fun (r : Except (Cause × Nat × W32) (List (Nat × Nat × W64))) L =>
    match r, gatherLane s c.f.gang w.fmt.toNat ((c.sreg w.vb.toNat).setWidth 32) (idx.getD L 0) L with
    | .ok l, .ok x => .ok (l ++ x)
    | .ok _, .error e => .error e
    | .error e, _ => .error e) (.ok [])

/-- The rows of A of an mmag by the index vector that it reads after its issue (R164); a row that would not have passed the check at
issue is the one that passed. DESIGN CHOICE (log 52). -/
def regather (s : State) (o : PressOp) (idx : List W32) : List (Nat × Nat × W64) :=
  match s.fib? o.k with
  | none => o.lines
  | some f => (activeLanes o.mask).flatMap fun L =>
      match gatherLane s f.gang o.w.fmt.toNat (o.base.setWidth 32) (idx.getD L 0) L with
      | .ok x => x
      | .error _ => o.lines.filter fun l => l.2.1 = L

/-- mmag (R374). -/
def execMmag (w : LaneWord) (s : State) : Out :=
  pressFrame (noHop w) false s fun c =>
    let fmt := w.fmt.toNat
    let i8 := fmt = 4 || fmt = 5
    let a := w.vd.toNat
    let v := w.va.toNat
    let legal := productOk w && w.fn.toNat % 4 < 2 && w.fn.toNat < 8 && w.S
    let regs := single 0 v none :: scaleRegs w
    laneChecked c w legal (c.f.jord % 8 = 0) (tileRegs (s.launch c.f.dom) a 1 :: regs) s fun s =>
      if (!w.t && 1 < s.vtag c.k v) || tagBad s c.k a 1 (if i8 then 0 else 6) then trapLane c.k .format {} s else
      match gatherRows s c w with
      | .error (e, L, x) => trapLane c.k e { lane := L, addr := x.setWidth 64 } s
      | .ok rows =>
        enqueuePress c w { pressOp0 c w 0x91 with lines := rows, base := c.sreg w.vb.toNat }
          { id := 0, mask := c.mask, tiles := [a], n := pressCols (pressWidth fmt) w.imm.toNat,
            src := regs.flatMap fun r => r.regs.map (·.1), rows := rows.map fun r => r.1 / 32, latch := latchesOf w } s id

/-! ### mzero, mldacc, mdrain (R375 to R377) -/

/-- Tiles of an f32 form: a pair at JORD 1. -/
def tilePair (w : LaneWord) (order : Nat) : Nat := if w.fmt = 6 && order = 1 then 2 else 1

/-- The column extent of mldacc and mdrain: n and c0, and its legality (R367). -/
def extent (w : LaneWord) : Nat × Nat × Bool :=
  let n := pressCols 48 w.imm.toNat
  let c0 := w.imm.toNat / 64 % 64
  (n, c0, w.imm.toNat < 4096 && c0 + n ≤ 48)

/-- mzero (R375). -/
def execMzero (w : LaneWord) (s : State) : Out :=
  pressFrame (noHop w) false s fun c =>
    let order := c.f.jord % 8
    let count := tilePair w order
    let a := w.vd.toNat
    let legal := (w.fmt = 0 || w.fmt = 6) && a < 16 && w.va == 0 && w.vb == 0 && w.vc == 0 && w.fn == 0 && w.md == 0 && w.imm == 0
    laneChecked c w legal (order ≤ 1) [tileRegs (s.launch c.f.dom) a count] s fun s =>
      enqueuePress c w (pressOp0 c w 0x92) { id := 0, mask := c.mask, tiles := (List.range count).map (a + ·) } s
        (setAtag c.k a count w.fmt.toNat)

/-- mldacc (R376). -/
def execMldacc (w : LaneWord) (s : State) : Out :=
  pressFrame (noHop w) false s fun c =>
    let order := c.f.jord % 8
    let count := tilePair w order
    let a := w.vd.toNat
    let v := w.va.toNat
    let (n, c0, ok) := extent w
    let legal := (w.fmt = 0 || w.fmt = 6) && a < 16 && w.vb == 0 && w.vc == 0 && w.fn == 0 && w.md == 0 && ok
    let regs := (List.range (count * n)).map fun i => (v + i, some (if count = 2 && i % 2 = 1 then 14 else w.fmt.toNat))
    laneChecked c w legal (order ≤ 1) [tileRegs (s.launch c.f.dom) a count, { regs := regs, jetOk := count = 1 || v % 2 = 0, read := false }] s
      fun s =>
      enqueuePress c w (pressOp0 c w 0x93)
        { id := 0, mask := c.mask, tiles := (List.range count).map (a + ·), c0 := c0, n := n, src := regs.map (·.1) } s
        (setAtag c.k a count w.fmt.toNat)

/-- mdrain (R377, R169). -/
def execMdrain (w : LaneWord) (s : State) : Out :=
  pressFrame (noHop w) false s fun c =>
    let order := c.f.jord % 8
    let count := tilePair w order
    let a := w.va.toNat
    let v := w.vd.toNat
    let (n, _, ok) := extent w
    let legal := (w.fmt = 0 || w.fmt = 6) && a < 16 && w.vb == 0 && w.fn == 0 && w.mdIn 0x10
      && (if w.hem then w.vc.toNat < 32 else w.vc == 0) && ok
    let regs := (List.range (count * n)).map fun i => (v + i, none)
    laneChecked c w legal (order ≤ 1) [tileRegs (s.launch c.f.dom) a count, { regs := regs, jetOk := count = 1 || v % 2 = 0, read := false }] s
      fun s =>
      if tagBad s c.k a count w.fmt.toNat then trapLane c.k .format {} s else
      enqueuePress c w { pressOp0 c w 0x94 with hem := if w.hem then hemOf s c.f.dom c.f.bid w.vc.toNat else {} }
        { id := 0, mask := c.mask, dst := regs.map (·.1) } s id

/-! ### mofence and mmode (R165, R378) -/

/-- mofence (R165): performed whatever the mask; the fibre's next press operation waits for what issued before. -/
def execMofence (w : LaneWord) (s : State) : Out :=
  laneWord (noHop w) true s fun c =>
    let legal := w.vd == 0 && w.va == 0 && w.vb == 0 && w.vc == 0 && w.fmt == 0 && w.fn == 0 && w.md == 0 && w.imm == 0
    laneChecked c w legal true [] s fun s =>
      let co := s.core c.k.core
      let scr := ((co.stores.filter fun a => a.thr = .fib c.k && (match a.space with | .scratch _ => true | _ => false)).map (·.inst)).eraseDups
      .next (laneRetire c.k w (s.onFib c.k fun f => { f with fence := f.longs.map (·.id) ++ scr }))

/-- mmode with FN 0 (R378): the mode word takes IMM[1:0] at issue. -/
def execMmodeSet (w : LaneWord) (s : State) : Out :=
  pressFrame (noHop w) true s fun c =>
    let legal := w.vd == 0 && w.va == 0 && w.vb == 0 && w.vc == 0 && w.fmt == 0 && w.fn == 0 && w.md == 0 && w.imm.toNat < 4
    laneChecked c w legal (c.f.jord % 8 ≤ 1) [] s fun s =>
      enqueuePress c w (pressOp0 c w 0x98) { id := 0, mask := c.mask } s fun s => s.onFib c.k fun f => { f with mode := w.imm.toNat % 4 }

/-- mmode with FN 1 (R378): S[VD] takes the mode word. -/
def execMmodeRead (w : LaneWord) (s : State) : Out :=
  pressFrame (noHop w) true s fun c =>
    let legal := w.vd.toNat < 192 && w.va == 0 && w.vb == 0 && w.vc == 0 && w.fmt == 0 && w.fn == 1 && w.md == 0 && w.imm == 0
    laneChecked c w legal (c.f.jord % 8 ≤ 1) [] s fun s =>
      enqueuePress c w (pressOp0 c w 0x98) { id := 0, mask := c.mask } s
        (laneSetSreg c.k w.vd.toNat (BitVec.ofNat 64 (c.f.mode % 4)))

/-! ### msave and mresume (R380, R381) -/

/-- Bytes of an image. -/
def imageBytes : Nat := 18560

/-- Fields of msave and mresume. -/
def imageOk (w : LaneWord) : Bool :=
  w.vd.toNat < 16 && w.va == 0 && w.vc == 0 && w.fmt == 0 && w.fn == 0 && w.mdIn 8 && w.S

/-- The check of an image's bytes at issue: its lines, as physical address, region and virtual address. -/
def imageCheck (c : LaneCtx) (w : LaneWord) (u : Use) (s : State) (go : List (Nat × Nat × W64) → State → Out) : Out :=
  let addr := c.sreg w.vb.toNat + w.imm.signExtend 64
  if addr.toNat % 128 ≠ 0 then trapLane c.k .align { addr := addr } s else
  let rs : List LaneReq := (List.range (imageBytes / 128)).map fun i =>
    { lane := scalarLane, addr := addr + BitVec.ofNat 64 (128 * i), n := 128 }
  match checkAll s c.k.core c.f.gang false .plain u .fibre rs with
  | .miss l => missLane c.k (noHop w) l s
  | .fault e L a i => trapLane c.k e { lane := L, addr := a, info := i } (usedPages c.k.core rs s)
  | .ok l => go ((l.filter fun e => e.part.off = 0).map fun e => (e.part.pa, e.region, e.part.va)) (usedPages c.k.core rs s)

/-- msave (R380). -/
def execMsave (w : LaneWord) (s : State) : Out :=
  pressFrame (noHop w) false s fun c =>
    laneChecked c w (imageOk w) (c.f.jord % 8 ≤ 1) [tileRegs (s.launch c.f.dom) w.vd.toNat 1] s fun s =>
      if acqPending s c.k.core (.fib c.k) then laneStall c.k (noHop w) 3 s else
      imageCheck c w .store s fun l s =>
        enqueuePress c w { pressOp0 c w 0x96 with lines := l, atag := s.atag c.k w.vd.toNat } { id := 0, mask := c.mask } s id

/-- The header of an image is one that mresume takes (R381). -/
def headerOk (h : List W8) : Bool :=
  let f := fun (o n : Nat) => leNat ((h.drop o).take n)
  let mis : W32 := BitVec.ofNat 32 (f 8 4)
  let cnt : W64 := BitVec.ofNat 64 (f 16 8)
  f 0 4 = 1 && [0, 6, 15].contains (f 4 4)
    && mis &&& 0x7FFF_80C0 == 0 && f 12 4 = 0 && cnt &&& 0xFFFF_FE00_FFC0_FF80 == 0 && leNat (h.drop 24) = 0
    && cnt.extractLsb' 16 6 == 48 && cnt.extractLsb' 0 7 == 96 && [0, 32, 64, 128].contains (cnt.extractLsb' 32 9).toNat

/-- Line j of an image in parts as a plain access takes it. -/
def imageParts (j : Nat) (l : Nat × Nat × W64) (data : List W8) : List Checked :=
  let sp : Space := if nearPopulated l.1 then .near else if inPool l.1 then .pool else .io
  (List.range 16).map fun i =>
    ⟨{ lane := scalarLane, off := 128 * j + 8 * i, n := 8, pa := l.1 + 8 * i, va := l.2.2 + BitVec.ofNat 64 (8 * i),
       data := (data.drop (8 * i)).take 8 }, sp, l.2.1⟩

/-- mresume (R381): the header is a plain load at issue; the elements are loaded by the press. -/
def execMresume (w : LaneWord) (s : State) : Out :=
  pressFrame (noHop w) false s fun c =>
    let k := c.k
    let a := w.vd.toNat
    laneChecked c w (imageOk w) (c.f.jord % 8 ≤ 1) [tileRegs (s.launch c.f.dom) a 1] s fun s =>
      if acqPending s k.core (.fib k) then laneStall k (noHop w) 3 s else
      imageCheck c w .load s fun l s =>
        match (s.core k.core).insts.find? (fun i => c.f.markL ≠ 0 && i.id = c.f.markL) with
        | none =>
          if c.f.markL ≠ 0 then laneStall k (noHop w) 3 (s.onFib k fun f => { f with markL := 0 }) else
          let s := s.onFib k fun f => { f with markL := s.nextId, susp := 2, stallL := 3 }
          .next (reap k.core (issueAccs k.core (.fib k) c.pc .hold 0 .load false 0 c.f.dom false false none false
            ((l.take 1).flatMap fun x => imageParts 0 x []) s))
        | some i =>
          if i.left ≠ 0 then .next (s.onFib k fun f => { f with stallL := 3, susp := 2 }) else
          let h := gotBytes i.got scalarLane 128
          let free := fun (s : State) => s.onCore k.core fun co => { co with insts := co.insts.filter (·.id ≠ i.id) }
          if !headerOk h then trapLane k .pressState { addr := c.sreg w.vb.toNat + w.imm.signExtend 64 } (free s) else
          enqueuePress c w { pressOp0 c w 0x97 with lines := l, snapB := h } { id := 0, mask := c.mask, tiles := [a], image := l.map fun x => x.1 / 128 }
            s fun s => setAtag k a 1 (leNat ((h.drop 4).take 4)) (free s)

end Sys2Proof.Machine
end

