-- ==== Sys2Proof/Machine/EvPress.lean ====
section
/-! DEFINITION. The press's own events: PRESS_OP_START and PRESS_OP_COMPLETE (R101, R163 to R166, R171, R230, R370 to R381,
R427). -/
namespace Sys2Proof.Machine

/-! ### Operands as they stand -/

/-- A latch as an operation reads it (R101). -/
def PressOp.latchOf (o : PressOp) (co : Core) (p x : Nat) : Latch :=
  (tfind o.latchWas x).getD (tget co.latches (2 * p + x) {})

/-- The bytes of the latches that an operation reads. -/
def PressOp.latchBytes (o : PressOp) (co : Core) (p : Nat) : List W8 :=
  o.latches.flatMap fun x => let l := o.latchOf co p x
    if l.data = [] then List.replicate 3072 0 else l.data

/-- An element read at an unspecified moment between two (R164). -/
def either {α : Type} [DecidableEq α] (i : Nat) (x y : α) : α := if x = y then x else if Config.freeBool i then x else y

/-- Registers as the operation reads them: each element at its start or now; those of a disturbed operation as they were (R166). -/
def readRegs (s : State) (o : PressOp) : List (Nat × List Nat) :=
  o.snapV.zipIdx.map fun e =>
    (e.1.1, (e.1.2.zip (if o.tainted then e.1.2 else s.vreg o.k e.1.1)).zipIdx.map fun x =>
      (either (s.freeCtr + 96 * e.2 + x.2) x.1.1 x.1.2).toNat)

/-- Scratch bytes as the operation reads them: each access row at its start or now; a row that its index vector names only now, now.
`lines` pairs the rows of the start with those of now. -/
def readRows (mem : List Host.Cell) (tainted : Bool) (i : Nat) : List ((Nat × Nat × W64) × (Nat × Nat × W64)) → List W8 → List W8
  | [], _ => []
  | (a, b) :: r, x =>
    let now := Memory.readBytes mem b.1 32
    (if tainted then x.take 32 else if a = b then either i (x.take 32) now else now) ++ readRows mem tainted (i + 1) r (x.drop 32)

/-! ### The start (R101, R163 to R165, R171, R176) -/

/-- The oldest operation of a press. -/
def pressHead (s : State) (c p : Nat) : Option PressOp := (tget (s.core c).press p []).head?

/-- Does the operation write a tile pair. -/
def PressOp.pair (o : PressOp) : Bool :=
  o.jord = 1 && (if o.op = 0x90 then o.w.fmt = 8 || o.w.fmt = 9 else o.op ≠ 0x91 && o.w.fmt = 6)

/-- Column extent of a product. -/
def PressOp.cols (o : PressOp) : Nat := pressCols (pressWidth o.w.fmt.toNat) o.w.imm.toNat

/-- Tiles whose rows an operation reads at its start, by the rows of a mask: those of a product, the ones that mdrain drains, and the one
that msave saves (R164). -/
def PressOp.reads (o : PressOp) : Mask × List Nat :=
  let pair := fun (a : Nat) => if o.pair then [a, a + 1] else [a]
  match o.op with
  | 0x90 => (o.mask, pair o.w.vd.toNat)
  | 0x91 => (o.mask, pair o.w.vd.toNat)
  | 0x94 => (o.mask, pair o.w.va.toNat)
  | 0x96 => (maskFull, [o.w.vd.toNat])
  | _ => (0, [])

/-- What an operation writes of the bolt at its completion: columns of rows of tiles, and registers (R55). -/
def PressOp.rewrite (o : PressOp) (s : State) : State × Option Nat :=
  let pair := fun (a : Nat) => if o.pair then [a, a + 1] else [a]
  let (n, c0, _) := extent o.w
  match o.op with
  | 0x90 => writeTileRows o.k o.mask (pair o.w.vd.toNat) 0 o.cols s
  | 0x91 => writeTileRows o.k o.mask (pair o.w.vd.toNat) 0 o.cols s
  | 0x92 => writeTileRows o.k o.mask (pair o.w.vd.toNat) 0 48 s
  | 0x93 => writeTileRows o.k o.mask (pair o.w.vd.toNat) c0 n s
  | 0x94 => writeRegRows o.k o.mask ((List.range ((pair 0).length * n)).map (o.w.vd.toNat + ·)) s
  | 0x97 => writeTileRows o.k maskFull [o.w.vd.toNat] 0 48 s
  | _ => (s, none)

/-- PRESS_OP_START: the oldest operation starts once the rowcons before it have transferred and the range scoreboard lets
its rows be read. A poisoned latch or an uncorrectable access row kills the gang (R58, R103). -/
def execPressOpStart (c p : Nat) (s : State) : Out :=
  match pressHead s c p with
  | none => .next s
  | some o =>
    let co := s.core c
    let scr := o.op = 0x90 || o.op = 0x91
    let o := if o.op = 0x91 && !o.tainted then { o with lines := regather s o (s.vreg o.k o.w.va.toNat) } else o
    let held := boardHit s (o.lines.map fun l => ⟨{ lane := 0, off := 0, n := 32, pa := l.1, va := l.2.2 },
      .scratch (boltRowOf l.1).1, 0⟩) false
    if o.started || o.afterRow.any (fun i => co.rowOps.any (·.id = i)) || (scr && held) then .next s else
    let (s, bad) := if scr then o.lines.foldl (fun (sb : State × Option Nat) l =>
        let x := readBolt l.1 32 sb.1
        (x.1, sb.2 <|> x.2.2)) (s, none)
      else (s, none)
    let (s, badR) := readRegRows o.k ((s.pressSrc o).map (·.1)) s
    let (s, badT) := readTileRows o.k o.reads.1 o.reads.2 s
    let pois := (o.latches.map (o.latchOf co p)).find? (·.poison)
    match bad <|> badR <|> badT, pois with
    | some a, _ => .next (consumeBad c (.fib o.k) 0 a false s)
    | none, some l => .next (consumeBad c (.fib o.k) 1 l.h false s)
    | none, none =>
      let s := onPressOp o.k o.id (fun x => { x with
        started := true
        lines := o.lines
        snapV := if o.tainted then x.snapV else s.pressSrc o
        snapB := if o.tainted || o.op = 0x97 then x.snapB else o.rowBytes s.mem
        inst := s.nextId }) s
      if o.op = 0x97 then
        let d := match s.fib? o.k with | some f => f.dom | none => 0
        let l := ((o.lines.zipIdx.drop 1).flatMap fun e => imageParts e.2 e.1 [])
        .next (reap c (issueAccs c (.fib o.k) o.pc .hold 0 .load false 0 d false false none false l s))
      else .next s

/-! ### Products (R370 to R374, R379) -/

/-- One output row of a product: the new rows of the value and tangent tiles, and the flags of each. -/
structure RowOut where
  lane : Nat
  rows : List (List W32)
  fl : List Nat
  sat : Bool

/-- The rows of a product's active lanes. -/
def productRows (o : PressOp) (vals : List (Nat × List Nat)) (bytes : List W8) (t0 t1 : Tile) : List RowOut :=
  let fmt := o.w.fmt.toNat
  let n := o.cols
  let nscr := 32 * o.lines.length
  let scr := bytes.take nscr
  let inScr := o.op = 0x90 && o.w.S
  let bsrc := if inScr then scr else bytes.drop nscr
  let b0 := pressB fmt n (bsrc.take 3072)
  let b1 := if o.w.fn.getLsbD 3 then pressB fmt n (bsrc.drop 3072) else []
  let reg := fun (v L : Nat) => (tget vals v []).getD L 0
  let rowBytes := fun (L : Nat) =>
    (o.lines.zipIdx.filter fun e => e.1.2.1 = L).flatMap fun e => (scr.drop (32 * e.2)).take 32
  let va := o.w.va.toNat
  let vc := o.w.vc.toNat
  let pair := o.pair
  (activeLanes o.mask).map fun L =>
    let a0 := if o.op = 0x91 then byteElems fmt (rowBytes L) else pressA fmt va (if pair then 2 else 1) 0 fun v => reg v L
    let a1 := if pair then pressA fmt va 2 1 fun v => reg v L else []
    let acc := fun (t : Tile) (c : Nat) => ((t.row L).getD c 0).toNat
    let asRow := fun (t : Tile) (xs : List Nat) => xs.map (BitVec.ofNat 32) ++ (t.row L).drop n
    if fmt = 4 || fmt = 5 then
      let xs := b0.zipIdx.map fun e => intOut (fmt = 4) (!o.w.fn.getLsbD 2) o.w.sat (acc t0 e.2) a0 e.1
      { lane := L, rows := [asRow t0 (xs.map (·.1))], fl := [0], sat := xs.any (·.2) }
    else if fmt = 10 then
      let sa := fun k => reg (vc + k) L
      if o.mode / 2 % 2 = 0 then
        let xs := b0.zipIdx.map fun e => blockOut (acc t0 e.2) sa (fun k => reg (vc + 2) (2 * e.2 + k)) a0 e.1
        { lane := L, rows := [asRow t0 (xs.map (·.1))], fl := [xs.foldl (fun r x => r ||| x.2) 0], sat := false }
      else
        let sc := a0.zipIdx.map fun e => scaledCode (sa (e.2 / 64)) e.1
        let av := sc.map fun x => unpackF f32 x.1
        let xs := b0.zipIdx.map fun e => columnOut (acc t0 e.2) (reg (vc + 2) e.2) (a0.contains 32) av e.1
        { lane := L, rows := [asRow t0 (xs.map (·.1))], fl := [(sc ++ xs).foldl (fun r x => r ||| x.2) 0], sat := false }
    else
      let xs := b0.zipIdx.map fun e => floatOut fmt (acc t0 e.2) [(a0, e.1)]
      let ys := if pair then b0.zipIdx.map fun e =>
          floatOut fmt (acc t1 e.2) ([(a1, e.1)] ++ (match b1[e.2]? with | some b => [(a0, b)] | none => []))
        else []
      { lane := L, rows := asRow t0 (xs.map (·.1)) :: (if pair then [asRow t1 (ys.map (·.1))] else [])
        fl := xs.foldl (fun r x => r ||| x.2) 0 :: (if pair then [ys.foldl (fun r x => r ||| x.2) 0] else []), sat := false }

/-- Write rows of a tile. -/
def putRows (t : Tile) (l : List (Nat × List W32)) : Tile := { t with rows := l.foldl (fun r e => tset r e.1 e.2) t.rows }

/-- Doublestitch comparisons that differed, as row, column, and whether the first result is the wrong one (R379, R427): the mismatch
record of the tile and the count of the press; the operation writes the first result, of which a wrong one may be any value. -/
def mismatch (k : FKey) (p tile : Nat) (l : List (Nat × Nat × Bool)) (s : State) : State :=
  match l with
  | [] => s
  | x :: _ =>
    let low := l.foldl (fun (m : Nat × Nat) e => if e.1 * 64 + e.2.1 < m.1 * 64 + m.2 then (e.1, e.2.1) else m) (x.1, x.2.1)
    let s := onTile k tile (fun t => { t with mis := t.mis <|> some low }) s
    let s := (l.filter (·.2.2)).foldl (fun s e => freeTile k (1 <<< e.1) tile e.2.1 1 s) s
    s.onCore k.core fun co => { co with dsmis := bumpCount co.dsmis p }

/-- The product written. -/
def finishProduct (c p : Nat) (o : PressOp) (s : State) : State :=
  let a := o.w.vd.toNat
  let tile := fun i => tget (s.spool o.k).tiles (a + i) {}
  let nv := 96 * o.snapV.length
  let vals := readRegs s o
  let lines := if o.op = 0x91 && !o.tainted then regather s o ((tget vals o.w.va.toNat []).map (BitVec.ofNat 32)) else o.lines
  let bytes := readRows s.mem o.tainted (s.freeCtr + nv) (o.lines.zip lines) o.snapB ++ o.latchBytes (s.core c) p
  let rs := productRows o vals bytes (tile 0) (tile 1)
  let s := { s with freeCtr := s.freeCtr + nv + o.snapB.length / 32 }
  let put := fun (i : Nat) (s : State) => onTile o.k (a + i) (fun t =>
    { putRows t (rs.map fun r => (r.lane, r.rows.getD i [])) with
      depth := pressDepth o.w.fmt.toNat, cols := 48, rowsDone := 96 }) s
  let s := put 0 s
  let s := if o.pair then put 1 s else s
  let fl := jflagBits ((List.range 2).map fun i => rs.foldl (fun r x => r ||| x.fl.getD i 0) 0)
  let s := orFlags o.k (fl ||| (if rs.any (·.sat) then flagSat else 0)) s
  if o.mode % 2 = 0 then s else
    let hits := (s.core c).faulty.filter fun e => e.1 = p && o.mask.getLsbD (e.2.1 % 96) && e.2.2.1 < o.cols
      && (e.2.1 < 96 || (o.pair && e.2.1 < 192))
    let s := s.onCore c fun co => { co with faulty := co.faulty.filter fun e => !hits.contains e }
    let at_ := fun (i : Nat) => (hits.filter fun e => e.2.1 / 96 = i).map fun e => (e.2.1 % 96, e.2.2.1, e.2.2.2)
    mismatch o.k p (a + 1) (at_ 1) (mismatch o.k p a (at_ 0) s)

/-! ### Tiles and registers (R375 to R377, R169, R379) -/

/-- mzero: rows of active lanes read zero, and the mismatch record is clear. -/
def finishZero (o : PressOp) (s : State) : State :=
  (List.range (if o.pair then 2 else 1)).foldl (fun s i => onTile o.k (o.w.vd.toNat + i) (fun t =>
    { putRows t ((activeLanes o.mask).map fun L => (L, List.replicate 48 0)) with mis := none }) s) s

/-- mldacc. -/
def finishLoad (o : PressOp) (s : State) : State :=
  let (n, c0, _) := extent o.w
  let step := if o.pair then 2 else 1
  let vals := readRegs s o
  let s := { s with freeCtr := s.freeCtr + 96 * o.snapV.length }
  (List.range step).foldl (fun s i => onTile o.k (o.w.vd.toNat + i) (fun t =>
    { putRows t ((activeLanes o.mask).map fun L => (L, (t.row L).zipIdx.map fun e =>
        if c0 ≤ e.2 && e.2 < c0 + n then
          BitVec.ofNat 32 ((tget vals (o.w.va.toNat + step * (e.2 - c0) + i) []).getD L 0)
        else e.1)) with mis := none }) s) s

/-- A held report of a press operation, delivered at the wait on PR that covers it (R160). -/
def pressReport (o : PressOp) (cause lane aux : Nat) (row col : Nat) (s : State) : State :=
  s.onFib o.k fun f => { f with reports := f.reports ++ [⟨o.id, 3, 0, cause, BitVec.ofNat 64 (row * 256 + col), lane, aux, o.pc, true⟩] }

/-- mdrain: a mismatch of its tiles, or a hem trap, writes nothing and is reported. -/
def finishDrain (o : PressOp) (s : State) : State :=
  let (n, c0, _) := extent o.w
  let step := if o.pair then 2 else 1
  let a := o.w.va.toNat
  let fmt := o.w.fmt.toNat
  let ts := (List.range step).map fun i => (a + i, tget (s.spool o.k).tiles (a + i) ({} : Tile))
  match ts.find? (fun t => t.2.mis.isSome) with
  | some t => let m := t.2.mis.getD (0, 0)
    pressReport o Cause.tileMismatch.code scalarLane t.1 m.1 m.2 s
  | none =>
    let cols := (List.range n).map (c0 + ·)
    let elem := fun (t : Nat × Tile) (L c : Nat) => hemCheck fmt o.hem ((t.2.row L).getD c 0).toNat
    let fails := if o.hem.act = 2 then (activeLanes o.mask).findSome? fun L =>
        (cols.find? fun c => ts.any fun t => !(elem t L c).1).map fun c => (L, c) else none
    match fails with
    | some (L, c) => pressReport o Cause.hemBound.code L (o.w.vc.toNat % 32) L c s
    | none =>
      let vals := cols.flatMap fun c => ts.zipIdx.map fun t =>
        (o.w.vd.toNat + step * (c - c0) + t.2, (List.range 96).map fun L => BitVec.ofNat 32 (elem t.1 L c).2)
      let tags := (List.range (step * n)).map fun i => (o.w.vd.toNat + i, if step = 2 && i % 2 = 1 then 14 else fmt)
      writeVals o.k o.mask (vals, tags) s

/-! ### Images (R380, R381) -/

/-- The bytes of a tile's image. -/
def imageOf (tag : Nat) (t : Tile) : List W8 :=
  let mis := match t.mis with | some (r, c) => 2 ^ 31 + r * 256 + c | none => 0
  leBytes 1 4 ++ leBytes (tag % 16) 4 ++ leBytes mis 4 ++ leBytes 0 4
    ++ leBytes (t.depth * 2 ^ 32 + t.cols * 65536 + t.rowsDone) 8 ++ List.replicate 104 0
    ++ (List.range 96).flatMap fun r => (t.row r).flatMap fun x => leBytes x.toNat 4

/-- msave: the image's lines are stored as plain stores of the issuing thread; PR falls when they are performed. -/
def finishSave (c : Nat) (o : PressOp) (s : State) : State :=
  let t := tget (s.spool o.k).tiles o.w.vd.toNat {}
  let im := imageOf o.atag t
  let d := match s.fib? o.k with | some f => f.dom | none => 0
  let l := o.lines.zipIdx.flatMap fun e => imageParts e.2 e.1 ((im.drop (128 * e.2)).take 128)
  reap c (issueAccs c (.fib o.k) o.pc (.press o.id) 0 .store false 0 d false false none false l s)

/-- mresume: the elements loaded, and the mismatch record and counters of the header. -/
def finishResume (c : Nat) (o : PressOp) (s : State) : State :=
  match (s.core c).insts.find? (·.id = o.inst) with
  | none => s
  | some i =>
    let s := s.onCore c fun co => { co with insts := co.insts.filter (·.id ≠ i.id) }
    let h := fun (a n : Nat) => leNat ((o.snapB.drop a).take n)
    let mis := h 8 4
    let elem := fun (r col : Nat) =>
      if o.hit.contains (r, col) then Config.freeWord s.freeCtr r col
      else BitVec.ofNat 32 (leNat ((List.range 4).map fun j =>
        match i.got.find? (fun e => e.2.1 = 128 + 192 * r + 4 * col + j) with | some e => e.2.2 | none => 0))
    let rows := (List.range 96).map fun r => (r, (List.range 48).map (elem r))
    let s := onTile o.k o.w.vd.toNat (fun t => { putRows t rows with
      mis := if mis.testBit 31 then some (mis / 256 % 128, mis % 64) else none
      depth := h 20 2 % 512, cols := 48, rowsDone := 96 }) s
    { s with freeCtr := s.freeCtr + 1 }

/-! ### The completion (R163, R164, R230) -/

/-- What the operation must still wait for: the loads of an mresume. -/
def pressWaits (s : State) (c : Nat) (o : PressOp) : Bool :=
  o.op = 0x97 && (s.core c).insts.any fun i => i.id = o.inst && i.left ≠ 0

/-- PRESS_OP_COMPLETE: the oldest operation writes what it writes, leaves the press, and PR falls. What a program did against
R166 makes its rows, or an mdrain's registers, undefined. -/
def execPressOpComplete (c p : Nat) (s : State) : Out :=
  match pressHead s c p with
  | none => .next s
  | some o =>
    if !o.started || pressWaits s c o then .next s else
    let s := s.onCore c fun co => { co with press := tset co.press p ((tget co.press p []).drop 1) }
    match o.rewrite s with
    | (s, some a) => .next (consumeBad c (.fib o.k) 0 a true s)
    | (s, none) =>
    let s := match o.op with
      | 0x90 => finishProduct c p o s
      | 0x91 => finishProduct c p o s
      | 0x92 => finishZero o s
      | 0x93 => finishLoad o s
      | 0x94 => finishDrain o s
      | 0x96 => finishSave c o s
      | 0x97 => finishResume c o s
      | _ => s
    let u := match s.fib? o.k with | some f => f.unwaited.find? (·.id = o.id) | none => none
    let s := match o.tainted, u with
      | true, some u => disturbOp o.k u s
      | _, _ => s
    if o.op = 0x96 then .next s else .next (s.onFib o.k fun f => { f with prq := markDone f.prq o.id })

end Sys2Proof.Machine
end

