-- ==== Sys2Proof/Machine/EvRows.lean ====
section
/-! DEFINITION. Events of the stack and the slices: fills (R75, R87, R106, R122), performance of row instructions (R95 to R103),
twait slots (R211), the refresh calendar (R87 to R93), grants that become live (R86), and scrubbing (R59, R103). -/
namespace Sys2Proof.Machine

/-! ### Slices (R75, R87, R106, R122) -/

/-- Set of a line in its slice (R75): the low 11 bits of PA[32:7] XOR PA[32:20]. -/
def sliceSet (line : Nat) : Nat := ((line % 2 ^ 26) ^^^ (line % 2 ^ 26 / 2 ^ 13)) % 2048

/-- The ordinary path may activate the bank at tick t: never while it refreshes, and for a bank of a live grant only in the
borrowed part of its slot (R87, R92). -/
def ordinaryMay (co : Core) (b t : Nat) : Bool :=
  300 ≤ sigma b t && (!(co.grants.any fun g => g.2.live && g.2.mask.getLsbD b) || sigma b t < 420)

/-- A line leaves the stack over the ordinary path (R103): an uncorrectable line reaches the slice poisoned. -/
def readOrdinary (core line : Nat) (s : State) : State :=
  let (h, j) := rowOf (line * 128)
  let (s, bad) := readRowLines core 1 h [j / 128] s
  if bad then
    { s with poison := s.poison ++ ((List.range 32).map (32 * line + ·)).filter fun wa => !s.poison.contains wa }
  else s

/-- The ordinary path has used its 4 activates in the 38 ticks that end now (R94). -/
def ordinaryFull (co : Core) (t : Nat) : Bool := 4 ≤ (co.ordActs.filter fun a => t < a + 38).length

/-- The place of a line in a slice: its core and its set. -/
def slicePlace (line : Nat) : Node × Nat := (homeOf line, sliceSet line)

/-- The lines of one place that wait for their fill, in arrival order (R122). -/
def State.fillsOf (s : State) (line : Nat) : List Nat := s.fills.filter fun l => slicePlace l = slicePlace line

/-- SLICE_FILL: the first line that waits for its set joins its slice; a full set gives up its least recently used line with no
Registered and no busy word; with none, the Registered words of its least recently used non-busy line are recalled, one line at a
time, and that line leaves when it is all Valid (R122). The fill is one activate, and the ordinary path leaves the bank Idle in the
same event. DESIGN CHOICE (log 50). -/
def execSliceFill (line : Nat) (s : State) : Out :=
  match homeOf line with
  | .home c =>
    let co := s.core c
    let b := (rowOf (line * 128)).1 % 128
    if (s.fillsOf line).head? ≠ some line || !ordinaryMay co b s.tick || ordinaryFull co s.tick then .next s else
    let set := co.slice.filter fun l => sliceSet l = sliceSet line
    let busy := fun (l : Nat) => s.acts.any fun a => a.msg.line = l
    let owned := fun (l : Nat) => s.owners.any fun e => e.1 / 32 = l
    let leaving := s.acts.any fun a => a.msg.kind = .recall && a.msg.flag && slicePlace a.msg.line = slicePlace line
    let victim := (set.reverse).find? fun l => !busy l && !owned l
    let join := fun (s : State) =>
      let s := readOrdinary c line { s with fills := s.fills.erase line }
      runHome line (s.onCore c fun co => { co with
        slice := line :: co.slice, ordActs := (co.ordActs.filter fun a => s.tick < a + 38) ++ [s.tick] })
    if set.length < 16 then .next (join s)
    else match victim with
      | some v => .next (join (s.onCore c fun co => { co with slice := co.slice.filter (· ≠ v) }))
      | none => match (set.reverse).find? (fun l => !busy l), leaving with
        | some v, false => .next (recallFor true v s)
        | _, _ => .next s
  | _ => .next s

/-! ### Row instructions (R95, R97, R99, R100) -/

/-- Row instructions in the order of R95. -/
def rowBefore (a b : RowOp) : Bool :=
  let key := fun (o : RowOp) => ((o.t * 16 + o.k.sub) * 4 + o.k.slot) * 4 + o.k.pos
  key a ≤ key b

/-- The row instruction that is performed next: due, and first in the order of R95. -/
def rowDue (s : State) (c : Nat) : Option RowOp :=
  (sortBy rowBefore ((s.core c).rowOps.filter fun o => o.t ≤ s.tick)).head?

/-- The word of a rowstat sampled at tick t (R99). -/
def rowstatWord (co : Core) (f : Fib) (sel : Nat) (h : W64) (t : Nat) : W64 :=
  let g := (co.liveGrant f.dom f.bid).map (·.2)
  match sel with
  | 0 =>
    let b := h.toNat % 128
    let x := co.bank b t
    let st := match x.st with | .idle => 0 | .opened => 1 | .precharging => 2 | .refresh => 3
    let row := if x.st = .opened then x.orow else 0
    let granted := match g with | some r => r.mask.getLsbD b | none => false
    BitVec.ofNat 64 (st * 2 ^ 62 + row % 16384 * 2 ^ 48 + waitFor x b 0 row t * 2 ^ 28 + waitFor x b 1 row t * 2 ^ 16
      + waitFor x b 2 row t * 2 ^ 4 + (if granted then 1 else 0))
  | 1 => match g with | some r => r.mask.extractLsb' 0 64 | none => 0
  | 2 => match g with | some r => r.mask.extractLsb' 64 64 | none => 0
  | _ => match g with
    | some r => BitVec.ofNat 64 (r.share * 256 + recentActs r t % 32)
    | none => 0

/-- ROW_PERFORMANCE: the next due row instruction is checked in its performance tick and acts on its bank, or stops its fibre
(R97); a rowcon that stops takes its RW back (R100). -/
def execRowPerformance (c : Nat) (s : State) : Out :=
  match rowDue s c with
  | none => .next s
  | some o =>
    let s := s.onCore c fun co => { co with rowOps := co.rowOps.filter (·.id ≠ o.id) }
    match s.fib? o.k with
    | none => .next s
    | some f =>
      let co := s.core c
      if o.kind = 3 then
        let v := rowstatWord co f o.latch o.h o.t
        .next ((logRead o.k f o.count o.pc v s).onFib o.k fun f => f.setSreg o.d v)
      else match rowCheck co f.dom f.bid o.kind o.h o.t with
        | .error e =>
          let s := s.onFib o.k fun f => { f with rwq := f.rwq.filter fun r => r.1 ≠ o.id }
          trapScalar o.k e { addr := o.h, info := BitVec.ofNat 64 o.t } s
        | .ok (n, b, x) =>
          let s := s.onCore c fun co => { co.setBank b x with
            grants := if o.kind = 0 then co.grants.map fun (g : Nat × RowGrant) =>
                if g.1 = n then (g.1, { g.2 with acts := (g.2.acts.filter fun a => o.t < a + 38) ++ [o.t] }) else g
              else co.grants }
          let s := if o.kind = 1 then
              (transferRow c (o.k.sub / 4) o.latch (o.h.toNat % 2 ^ 21) o.id s).onFib o.k fun f =>
                { f with rwq := markDone f.rwq o.id }
            else s
          .next (s.onFib o.k Fib.retire)

/-- ROWWAIT_COMPLETE: a stalled rowwait completes at a tick from which the awaited instruction would pass, or never will
(R98). -/
def execRowwaitComplete (k : FKey) (s : State) : Out :=
  match s.fib? k with
  | none => .next s
  | some f => match f.keep with
    | [kd, h] =>
      if f.stall = 6 && f.phase = 0 && (f.st = .running || f.st = .saving || f.st = .restoring)
          && rowwaitDone s k f kd.toNat h then done k s
      else .next s
    | _ => .next s

/-! ### twait slots (R211) -/

/-- The fibres of a sub-core that wait in twait, with their times: none that is frozen or parked. -/
def twaiters (s : State) (c u : Nat) : List (FKey × Nat) :=
  s.fibs.filterMap fun e => match e.2.keep with
    | [t] => if e.1.core = c && e.1.sub = u && e.2.stall = 18 && (e.2.st = .running || e.2.st = .saving || e.2.st = .restoring)
        then some (e.1, t.toNat) else none
    | _ => none

/-- The time of the slot that is due on a sub-core's port, if none is open. -/
def slotDue (s : State) (c u : Nat) : Option Nat :=
  let ts := ((twaiters s c u).map (·.2)).filter (· ≤ s.tick)
  if ((s.core c).sub u).slotF ≠ [] then none
  else match ts with
    | [] => none
    | t :: r => some (r.foldl min t)

/-- TWAIT_SLOT: a slot opens; the released fibres, in ascending spool and fibre order, take their ticks and issue in it. -/
def execTwaitSlot (c u : Nat) (s : State) : Out :=
  match slotDue s c u with
  | none => .next s
  | some t =>
    let rel := sortBy (fun a b => rotation a ≤ rotation b) (((twaiters s c u).filter fun e => e.2 = t).map (·.1))
    let s := rel.zipIdx.foldl (fun (s : State) e =>
      s.onFib e.1 fun f => { f.retire with tslot := some (t + e.2 * 1200 / (s.core c).mhz) }) s
    .next (s.onCore c fun co => { co.setSub u { co.sub u with slotT := t, slotClk := 0, slotF := rel } with gated := false })
where
  /-- Position in the order of R211. -/
  rotation (k : FKey) : Nat := 4 * k.slot + k.pos

/-! ### The calendar (R87, R88, R91 to R93, R103) -/

/-- The row of bank b that the scrub of the slot at tick t reads (R103): the rows in ascending order, counted in the slots since TICK 0,
the first of which reads row 0. The spec gives no first row. DESIGN CHOICE (log 51). -/
def scrubRow (b t : Nat) : Nat := ((t + 4680 - 36 * b % 4680) / 4680) % 16384 * 128 + b

/-- The scrub of a refresh slot: corrected lines are rewritten (R103). -/
def scrubBank (c b : Nat) (s : State) : State :=
  let h := scrubRow b s.tick
  let lines := ((s.core c).rowErr.filter fun e => e.1 = h).map (·.2.1)
  ((readRowLines c 2 h lines s).1).onCore c fun co => { co with rowErr := co.rowErr.filter fun e => !(e.1 = h && e.2.2 ≤ 1) }

/-- REFRESH_SLOT_START: at phase 0 a bank enters Refresh, and its scrub runs. -/
def execRefreshSlotStart (c b : Nat) (s : State) : Out :=
  let x := (s.core c).bank b s.tick
  let listed := (tfind (s.core c).banks b).isSome
  if 420 ≤ sigma b s.tick || (listed && x.st = .refresh) then .next s
  else .next (scrubBank c b (s.onCore c fun co => co.setBank b { x with st := .refresh, borrowed := false }))

/-- REFRESH_BORROW_START: from phase 300 the ordinary path may use a bank of a live grant (R87). -/
def execRefreshBorrowStart (c b : Nat) (s : State) : Out :=
  let x := (s.core c).bank b s.tick
  if x.st = .refresh && 300 ≤ sigma b s.tick && sigma b s.tick < 420 then
    .next (s.onCore c fun co => co.setBank b { x with borrowed := true })
  else .next s

/-- REFRESH_SLOT_END: at phase 420 the bank leaves Refresh as Idle. -/
def execRefreshSlotEnd (c b : Nat) (s : State) : Out :=
  let x := (s.core c).bank b s.tick
  if x.st = .refresh && 420 ≤ sigma b s.tick then
    .next (s.onCore c fun co => co.setBank b { x with st := .idle, borrowed := false })
  else .next s

/-- An Open bank is precharged by the controller. -/
def prechargeNow (c b : Nat) (s : State) : State :=
  s.onCore c fun co => co.setBank b { co.bank b s.tick with st := .precharging, tp := some s.tick }

/-- CONTROLLER_PRECHARGE (R93): a bank still Open at phase 4,662, on which no rowpre is performed in that tick. -/
def execControllerPrecharge (c b : Nat) (s : State) : Out :=
  if ((s.core c).bank b s.tick).st = .opened && sigma b s.tick = 4662
      && !((s.core c).rowOps.any fun o => o.kind = 2 && o.t = s.tick && o.h.toNat % 128 = b) then
    .next (prechargeNow c b s)
  else .next s

/-- BANK_IDLE (R91): a Precharging bank at TP + 18. -/
def execBankIdle (c b : Nat) (s : State) : Out :=
  match tfind (s.core c).banks b with
  | some x => if x.st = .precharging && x.tp.getD 0 + 18 ≤ s.tick then
      .next (s.onCore c fun co => co.setBank b { x with st := .idle }) else .next s
  | none => .next s

/-- The controller may precharge an open bank that no live grant holds (R88). -/
def grantEndDue (co : Core) (b t : Nat) (x : Bank) : Bool :=
  x.st = .opened && !(co.grants.any fun g => g.2.live && g.2.mask.getLsbD b) && x.ta.getD 0 + 40 ≤ t
    && (match x.tc with | some c => decide (c + 2 ≤ t) | none => true)

/-- GRANT_END_PRECHARGE (R88): after a grant ends, at the earliest legal tick. -/
def execGrantEndPrecharge (c b : Nat) (s : State) : Out :=
  match tfind (s.core c).banks b with
  | some x => if grantEndDue (s.core c) b s.tick x then .next (prechargeNow c b s) else .next s
  | none => .next s

/-! ### A grant becomes live (R86) -/

/-- GRANT_LIVE: once every earlier write is performed, every Registered word is home and every bank of the mask is Idle or in
Refresh, the grant is live and hx.rgrant may complete. -/
def execGrantLive (c g : Nat) (s : State) : Out :=
  match tfind (s.core c).grants g with
  | none => .next s
  | some r =>
    if r.live || writesPending c r s then .next s else
    match homeTakes (grantLines c r s) s with
    | some s => .next s
    | none =>
    let ready := (List.range 128).all fun b => !r.mask.getLsbD b || (match ((s.core c).bank b s.tick).st with
      | .idle | .refresh => true
      | _ => false)
    if !ready then .next s else
    let s := s.onCore c fun co => { co with grants := tset co.grants g { r with live := true } }
    let h := s.hart c 0
    .next (if h.phase = 5 && h.mark = g then s.setHart c 0 { h with phase := 6 } else s)

/-! ### The bolt's scrubber (R59) -/

/-- The first access row of a good granule at or after a row of a quadrant, wrapping. -/
def nextScrubRow (good : BitVec 128) (q row : Nat) : Option Nat :=
  let gs := (List.range 32).map fun i => (row / 2048 + i) % 32
  match gs.find? fun g => good.getLsbD (32 * q + g) with
  | none => none
  | some g => some (if g = row / 2048 then row else g * 2048)

/-- The access row that the scrubber of a quadrant reads now, if it is due. Its first read is of row 0, 1,024 clk after the core is first
touched; the spec gives neither. DESIGN CHOICE (log 54). -/
def scrubDue (co : Core) (q : Nat) : Option Nat :=
  let (row, at_) := tget co.scrub q (0, 1024)
  if co.gated || !co.inService || 4 ≤ q || co.clk < at_ then none else nextScrubRow co.good q row

/-- BOLT_SCRUB: every 1,024 clk the scrubber of a quadrant reads its next access row, and writes a corrected row back. -/
def execBoltScrub (c q : Nat) (s : State) : Out :=
  let at_ := (tget (s.core c).scrub q (0, 1024)).2
  match scrubDue (s.core c) q with
  | none => .next s
  | some r =>
    let marks := markedBanks (s.core c) q
    let (s, bad) := readBoltRow c q r s
    let fixed := !bad && ((s.core c).rowErrors q r).any fun e => !marks.contains e.1
    .next (s.onCore c fun co => { co with
      scrub := tset co.scrub q ((r + 1) % 65536, at_ + 1024)
      boltErr := if fixed then (co.setRowErrors q r []).boltErr else co.boltErr })

end Sys2Proof.Machine
end

