-- ==== Sys2Proof/Machine/LaneCross.lean ====
section
/-! DEFINITION. Cross-lane words: majors 0x20 to 0x29 (R304 to R312). -/
namespace Sys2Proof.Machine

/-- A source element from a lane: 0 when the lane is inactive or is no lane (R304). -/
def pull (c : LaneCtx) (xs : List Nat) (q : Nat) : Nat := if c.mask.getLsbD q then xs.getD q 0 else 0

/-- The index of a lane: the vector VB, or the scalar S[VB] (R304, R305). -/
def laneIndex (s : State) (c : LaneCtx) (w : LaneWord) : Nat → Nat :=
  if w.S then fun _ => (c.sreg w.vb.toNat).toNat
  else
    let xs := (readV s c.k w.vb.toNat).map BitVec.toNat
    fun L => xs.getD L 0

/-- The index vector's register, tagged 0 or 1 (R304). -/
def indexRegs (s : State) (k : FKey) (v : Nat) : Regs := single 0 v (some (if s.vtag k v = 1 then 1 else 0))

/-- A word that moves elements of VA to VD with VA's tags (R304). -/
def moveWord (w : LaneWord) (legal : Bool) (extra : LaneCtx → List Regs) (s : State)
    (f : LaneCtx → List Nat → List Nat) : Out :=
  laneWord w false s fun c =>
    let fmt := w.fmt.toNat
    laneChecked c w (fmt ≤ 12 && w.vc == 0 && legal) true
      ([result fmt w.vd.toNat, single fmt w.va.toNat none] ++ extra c) s fun s =>
      laneDone c w (elemRegs fmt w.vd.toNat (f c (elems s c.k fmt w.va.toNat))) (copiedTags s c.k fmt w.va.toNat w.vd.toNat) s

/-- vshfl (R305). -/
def execVshfl (w : LaneWord) (s : State) : Out :=
  let fn := w.fn.toNat
  let imm := w.imm.toNat
  let legal := fn ≤ 4 && (if fn = 0 then w.mdIn 8 && imm = 0 else w.md == 0 && w.vb == 0 && imm ≤ 95)
  moveWord w legal (fun c => if fn = 0 && !w.S then [indexRegs s c.k w.vb.toNat] else []) s fun c xs =>
    let idx := laneIndex s c w
    (List.range 96).map fun L => match fn with
      | 0 => pull c xs (idx L)
      | 1 => pull c xs ((L + imm) % 96)
      | 2 => pull c xs (L ^^^ imm)
      | 3 => pull c xs (L + imm)
      | _ => if L < imm then 0 else pull c xs (L - imm)

/-- vpush (R306): the highest-numbered lane wins; a lane that receives nothing keeps its value. -/
def execVpush (w : LaneWord) (s : State) : Out :=
  laneWord w false s fun c =>
    let fmt := w.fmt.toNat
    let legal := fmt ≤ 12 && w.fn == 0 && w.mdIn 8 && w.vc == 0 && w.imm == 0
    let regs := [result fmt w.vd.toNat, single fmt w.va.toNat none] ++ (if w.S then [] else [indexRegs s c.k w.vb.toNat])
    laneChecked c w legal true regs s fun s =>
      let xs := elems s c.k fmt w.va.toNat
      let idx := laneIndex s c w
      let old := elems s c.k fmt w.vd.toNat
      let new := (activeLanes c.mask).foldl (fun r L => if idx L < 96 then r.set (idx L) (xs.getD L 0) else r) old
      laneDone { c with mask := maskFull } w (elemRegs fmt w.vd.toNat new) (copiedTags s c.k fmt w.va.toNat w.vd.toNat) s

/-- An element with the sign of each of its floating sub-elements inverted (R307). -/
def negElem (fmt x : Nat) : Nat := match fmt with
  | 7 => x ^^^ 2 ^ 63
  | 6 => x ^^^ 2 ^ 31
  | _ => x ^^^ (2 ^ 31 + 2 ^ 15)

/-- vswap (R307). -/
def execVswap (w : LaneWord) (s : State) : Out :=
  let fn := w.fn.toNat
  let imm := w.imm.toNat
  let legal := fn ≤ 1 && w.md == 0 && w.vb == 0 && 1 ≤ imm && imm ≤ 127 && (fn = 0 || isFloat w.fmt.toNat)
  moveWord w legal (fun _ => []) s fun c xs => (List.range 96).map fun L =>
    let p := L ^^^ imm
    let x := pull c xs p
    if fn = 1 && L < p then negElem w.fmt.toNat x else x

/-- The source lane of vbcast and vtos (R308). -/
def sourceLane (c : LaneCtx) (w : LaneWord) : Nat := if w.S then (c.sreg w.vb.toNat).toNat else w.imm.toNat

/-- The fields of the source lane. -/
def sourceLegal (w : LaneWord) : Bool := if w.S then w.imm == 0 else w.vb == 0 && w.imm.toNat ≤ 95

/-- vbcast (R308). -/
def execVbcast (w : LaneWord) (s : State) : Out :=
  moveWord w (w.fn == 0 && w.mdIn 8 && sourceLegal w) (fun _ => []) s fun c xs => splat (pull c xs (sourceLane c w))

/-- The reduction of sub-elements by the operation of R309, from the lowest lane up: 0 add, 1 and, 2 or, 3 xor, 4 min,
5 max. `none` for no lane. -/
def reduce (op fmt : Nat) (sat : Bool) (xs : List Nat) : Option (Nat × Bool) :=
  match xs with
  | [] => none
  | x :: r => some (match op with
    | 0 => narrowInt fmt sat (r.foldl (fun a y => a + intOf fmt y) (intOf fmt x))
    | 1 => (r.foldl (· &&& ·) x, false)
    | 2 => (r.foldl (· ||| ·) x, false)
    | 3 => (r.foldl (· ^^^ ·) x, false)
    | 4 => (r.foldl (fun a y => if intOf fmt y < intOf fmt a then y else a) x, false)
    | _ => (r.foldl (fun a y => if intOf fmt a < intOf fmt y then y else a) x, false))

/-- The identity an exclusive scan's first lane receives (R310). -/
def scanIdentity (op fmt : Nat) : Nat :=
  let w := subWidth fmt
  match op with
  | 1 => 2 ^ w - 1
  | 4 => if isSigned fmt then 2 ^ (w - 1) - 1 else 2 ^ w - 1
  | 5 => if isSigned fmt then 2 ^ (w - 1) else 0
  | _ => 0

/-- An element to a scalar register: i32 sign-extends, 64-bit formats whole, others zero-extended (R308, R309). -/
def toScalar (fmt x : Nat) : W64 := if fmt = 0 then (BitVec.ofNat 32 x).signExtend 64 else BitVec.ofNat 64 x

/-- vred (R309). -/
def execVred (w : LaneWord) (s : State) : Out :=
  laneWord w false s fun c =>
    let fmt := w.fmt.toNat
    let op := w.fn.toNat
    let legal := isInt fmt && op ≤ 5 && w.mdIn (if op = 0 then 4 else 0) && w.vb == 0 && w.vc == 0 && w.imm == 0
      && w.vd.toNat < 192
    laneChecked c w legal true [single fmt w.va.toNat (some fmt)] s fun s =>
      let n := subWidth fmt
      let xs := elems s c.k fmt w.va.toNat
      let rs := (List.range (subCount fmt)).map fun j =>
        (reduce op fmt w.sat ((activeLanes c.mask).map fun L => subVal n j (xs.getD L 0))).getD (0, false)
      let s := orFlags c.k (if rs.any (·.2) then flagSat else 0) s
      laneDone c w [] [] (laneSetSreg c.k w.vd.toNat (toScalar fmt (packSubs n (rs.map (·.1)))) s)

/-- vscan (R310). -/
def execVscan (w : LaneWord) (s : State) : Out :=
  laneWord w false s fun c =>
    let fmt := w.fmt.toNat
    let op := w.fn.toNat % 8
    let excl := w.fn.getLsbD 3
    let legal := isInt fmt && op ≤ 5 && w.fn.toNat < 16 && w.mdIn (if op = 0 then 4 else 0) && w.vb == 0 && w.vc == 0
      && w.imm == 0
    laneChecked c w legal true [result fmt w.vd.toNat, single fmt w.va.toNat (some fmt)] s fun s =>
      let n := subWidth fmt
      let xs := elems s c.k fmt w.va.toNat
      let act := activeLanes c.mask
      finishInt c w false ((List.range 96).map fun L =>
        let below := act.filter fun q => if excl then q < L else q ≤ L
        let rs := (List.range (subCount fmt)).map fun j =>
          (reduce op fmt w.sat (below.map fun q => subVal n j (xs.getD q 0))).getD (scanIdentity op fmt, false)
        (packSubs n (rs.map (·.1)), rs.any (·.2))) s

/-- vballot (R311). -/
def execVballot (w : LaneWord) (s : State) : Out :=
  laneWord w false s fun c =>
    let fmt := w.fmt.toNat
    let cnt := w.fn = 1
    let legal := fmt ≤ 12 && w.fn.toNat ≤ 1 && w.md == 0 && w.vb == 0 && w.vc == 0
      && w.imm.toNat ≤ (if is64 fmt then 63 else 31)
      && (if cnt then w.vd.toNat < 192 else 1 ≤ w.vd.toNat && w.vd.toNat ≤ 189)
    laneChecked c w legal true [single fmt w.va.toNat none] s fun s =>
      let xs := elems s c.k fmt w.va.toNat
      let m := maskOf (fun L => (xs.getD L 0).testBit w.imm.toNat) &&& c.mask
      if cnt then laneDone c w [] [] (laneSetSreg c.k w.vd.toNat (BitVec.ofNat 64 (activeLanes m).length) s)
      else laneDone c w [] [] (setTriple c.k w.vd.toNat m s)

/-- vfirst (R311). -/
def execVfirst (w : LaneWord) (s : State) : Out :=
  laneWord w false s fun c =>
    let legal := w.fmt == 0 && w.fn.toNat ≤ 1 && w.md == 0 && w.va == 0 && w.vb == 0 && w.vc == 0 && w.imm == 0
      && w.vd.toNat < 192
    laneChecked c w legal true [] s fun s =>
      let act := activeLanes c.mask
      let L := if w.fn = 0 then act.headD 0 else act.getLastD 0
      laneDone c w [] [] (laneSetSreg c.k w.vd.toNat (BitVec.ofNat 64 L) s)

/-- vtos (R308). -/
def execVtos (w : LaneWord) (s : State) : Out :=
  laneWord w false s fun c =>
    let fmt := w.fmt.toNat
    let legal := fmt ≤ 12 && w.fn == 0 && w.mdIn 8 && w.vc == 0 && sourceLegal w && w.vd.toNat < 192
    laneChecked c w legal true [single fmt w.va.toNat none] s fun s =>
      let x := pull c (elems s c.k fmt w.va.toNat) (sourceLane c w)
      laneDone c w [] [] (laneSetSreg c.k w.vd.toNat (toScalar fmt x) s)

/-- vtag (R312): reads a tag. -/
def execVtag (w : LaneWord) (s : State) : Out :=
  laneWord w false s fun c =>
    let legal := w.fmt == 0 && w.fn == 0 && w.md == 0 && w.vb == 0 && w.vc == 0 && w.imm == 0 && w.vd.toNat < 192
    laneChecked c w legal true [single 0 w.va.toNat none] s fun s =>
      laneDone c w [] [] (laneSetSreg c.k w.vd.toNat (BitVec.ofNat 64 (s.vtag c.k w.va.toNat)) s)

/-- vtag.set (R312): writes a tag. -/
def execVtagSet (w : LaneWord) (s : State) : Out :=
  laneWord w false s fun c =>
    let legal := w.fmt == 0 && w.fn == 1 && w.md == 0 && w.va == 0 && w.vb == 0 && w.vc == 0 && w.imm.toNat < 16
    laneChecked c w legal true [result 0 w.vd.toNat] s fun s =>
      laneDone c w [] [(w.vd.toNat, w.imm.toNat)] s

end Sys2Proof.Machine
end

