-- ==== Sys2Proof/Machine/ScalarAlu.lean ====
section
/-! DEFINITION. Scalar arithmetic, majors 0x01 to 0x0E (R264 to R271). -/
namespace Sys2Proof.Machine

/-- A two-operand scalar word: S[d] := f S[a] S[b] (R264). -/
def alu2 (d a b : BitVec 8) (op : W64 → W64 → W64) (s : State) : Out :=
  scalarWord [a.toNat, b.toNat] [d.toNat] s fun k f => doneSreg k d.toNat (op (f.sreg a.toNat) (f.sreg b.toNat)) s

/-- A one-operand scalar word: S[d] := f S[a] (R267 to R270). -/
def alu1 (d a : BitVec 8) (op : W64 → W64) (s : State) : Out :=
  scalarWord [a.toNat] [d.toNat] s fun k f => doneSreg k d.toNat (op (f.sreg a.toNat)) s

/-- A comparison's 1 or 0. -/
def bool64 (b : Bool) : W64 := if b then 1 else 0

/-- The high half of a product of integers (R265). -/
def mulHigh (x y : Int) : W64 := BitVec.ofInt 64 (x * y / 2 ^ 64)

/-- Quotient and remainder of R266, signed. -/
def divSigned (a b : W64) : W64 × W64 :=
  if b = 0 then (BitVec.allOnes 64, a)
  else if a = BitVec.intMin 64 && b = BitVec.allOnes 64 then (BitVec.intMin 64, 0)
  else (BitVec.ofInt 64 (a.toInt.tdiv b.toInt), BitVec.ofInt 64 (a.toInt.tmod b.toInt))

/-- Quotient and remainder of R266, unsigned. -/
def divUnsigned (a b : W64) : W64 × W64 :=
  if b = 0 then (BitVec.allOnes 64, a) else (BitVec.ofNat 64 (a.toNat / b.toNat), BitVec.ofNat 64 (a.toNat % b.toNat))

/-- A division issues: until it completes the fibre issues no further scalar word (R263); the word retires at its issue and
its result is written by SCALAR_DIVIDE_COMPLETE. -/
def divWord (d a b : BitVec 8) (op : W64 → W64 → W64) (s : State) : Out :=
  scalarWord [a.toNat, b.toNat] [d.toNat] s fun k f =>
    .next (s.onFib k fun g => { g.retire with div := some (d.toNat, op (f.sreg a.toNat) (f.sreg b.toNat)) })

/-- The number of 1 bits among the low n bits. -/
def popCount (v : W64) : Nat → Nat
  | 0 => 0
  | n + 1 => (if v.getLsbD n then 1 else 0) + popCount v n

/-- Zero bits above the highest 1 bit among the low n bits (R267). -/
def leadZeros (v : W64) : Nat → Nat
  | 0 => 0
  | n + 1 => if v.getLsbD n then 0 else 1 + leadZeros v n

/-- Zero bits below the lowest 1 bit, from bit 64 − n up (R267). -/
def trailZeros (v : W64) : Nat → Nat
  | 0 => 0
  | n + 1 => if v.getLsbD (63 - n) then 0 else 1 + trailZeros v n

/-- The width of sext and zext: x gives 8, 16 or 32 bits (R267). -/
def extWidth (w : BitVec 2) : Nat := 8 * 2 ^ w.toNat

/-- add (R264). -/
def execAdd (d a b : BitVec 8) (s : State) : Out := alu2 d a b (fun a b => a + b) s
/-- sub (R264). -/
def execSub (d a b : BitVec 8) (s : State) : Out := alu2 d a b (fun a b => a - b) s
/-- and (R264). -/
def execAnd (d a b : BitVec 8) (s : State) : Out := alu2 d a b (fun a b => a &&& b) s
/-- or (R264). -/
def execOr (d a b : BitVec 8) (s : State) : Out := alu2 d a b (fun a b => a ||| b) s
/-- xor (R264). -/
def execXor (d a b : BitVec 8) (s : State) : Out := alu2 d a b (fun a b => a ^^^ b) s
/-- andn (R264). -/
def execAndn (d a b : BitVec 8) (s : State) : Out := alu2 d a b (fun a b => a &&& ~~~b) s
/-- shl (R264). -/
def execShl (d a b : BitVec 8) (s : State) : Out := alu2 d a b (fun a b => a <<< (b.toNat % 64)) s
/-- shr (R264). -/
def execShr (d a b : BitVec 8) (s : State) : Out := alu2 d a b (fun a b => a >>> (b.toNat % 64)) s
/-- sar (R264). -/
def execSar (d a b : BitVec 8) (s : State) : Out := alu2 d a b (fun a b => a.sshiftRight (b.toNat % 64)) s
/-- min (R264). -/
def execMin (d a b : BitVec 8) (s : State) : Out := alu2 d a b (fun a b => if a.sle b then a else b) s
/-- max (R264). -/
def execMax (d a b : BitVec 8) (s : State) : Out := alu2 d a b (fun a b => if a.sle b then b else a) s
/-- minn (R264). -/
def execMinn (d a b : BitVec 8) (s : State) : Out := alu2 d a b (fun a b => if a.ule b then a else b) s
/-- maxn (R264). -/
def execMaxn (d a b : BitVec 8) (s : State) : Out := alu2 d a b (fun a b => if a.ule b then b else a) s
/-- slt (R264). -/
def execSlt (d a b : BitVec 8) (s : State) : Out := alu2 d a b (fun a b => bool64 (a.slt b)) s
/-- sltn (R264). -/
def execSltn (d a b : BitVec 8) (s : State) : Out := alu2 d a b (fun a b => bool64 (a.ult b)) s
/-- seq (R264). -/
def execSeq (d a b : BitVec 8) (s : State) : Out := alu2 d a b (fun a b => bool64 (a == b)) s
/-- mul (R265). -/
def execMul (d a b : BitVec 8) (s : State) : Out := alu2 d a b (fun a b => a * b) s
/-- mulh (R265). -/
def execMulh (d a b : BitVec 8) (s : State) : Out := alu2 d a b (fun a b => mulHigh a.toInt b.toInt) s
/-- mulhn (R265). -/
def execMulhn (d a b : BitVec 8) (s : State) : Out := alu2 d a b (fun a b => mulHigh a.toNat b.toNat) s
/-- div (R266). -/
def execDiv (d a b : BitVec 8) (s : State) : Out := divWord d a b (fun a b => (divSigned a b).1) s
/-- divn (R266). -/
def execDivn (d a b : BitVec 8) (s : State) : Out := divWord d a b (fun a b => (divUnsigned a b).1) s
/-- rem (R266). -/
def execRem (d a b : BitVec 8) (s : State) : Out := divWord d a b (fun a b => (divSigned a b).2) s
/-- remn (R266). -/
def execRemn (d a b : BitVec 8) (s : State) : Out := divWord d a b (fun a b => (divUnsigned a b).2) s
/-- popc (R267). -/
def execPopc (d a : BitVec 8) (s : State) : Out := alu1 d a (fun a => BitVec.ofNat 64 (popCount a 64)) s
/-- clz (R267). -/
def execClz (d a : BitVec 8) (s : State) : Out := alu1 d a (fun a => BitVec.ofNat 64 (leadZeros a 64)) s
/-- ctz (R267). -/
def execCtz (d a : BitVec 8) (s : State) : Out := alu1 d a (fun a => BitVec.ofNat 64 (trailZeros a 64)) s
/-- sext (R267). -/
def execSext (d a : BitVec 8) (w : BitVec 2) (s : State) : Out := alu1 d a (fun a => (a.setWidth (extWidth w)).signExtend 64) s
/-- zext (R267). -/
def execZext (d a : BitVec 8) (w : BitVec 2) (s : State) : Out := alu1 d a (fun a => (a.setWidth (extWidth w)).setWidth 64) s
/-- addi (R268). -/
def execAddi (d a : BitVec 8) (i : BitVec 10) (s : State) : Out := alu1 d a (fun a => a + i.signExtend 64) s
/-- andi (R268). -/
def execAndi (d a : BitVec 8) (i : BitVec 10) (s : State) : Out := alu1 d a (fun a => a &&& i.signExtend 64) s
/-- ori (R268). -/
def execOri (d a : BitVec 8) (i : BitVec 10) (s : State) : Out := alu1 d a (fun a => a ||| i.signExtend 64) s
/-- xori (R268). -/
def execXori (d a : BitVec 8) (i : BitVec 10) (s : State) : Out := alu1 d a (fun a => a ^^^ i.signExtend 64) s
/-- shli (R269). -/
def execShli (d a : BitVec 8) (n : BitVec 6) (s : State) : Out := alu1 d a (fun a => a <<< n.toNat) s
/-- shri (R269). -/
def execShri (d a : BitVec 8) (n : BitVec 6) (s : State) : Out := alu1 d a (fun a => a >>> n.toNat) s
/-- sari (R269). -/
def execSari (d a : BitVec 8) (n : BitVec 6) (s : State) : Out := alu1 d a (fun a => a.sshiftRight n.toNat) s
/-- slti (R270). -/
def execSlti (d a : BitVec 8) (i : BitVec 9) (s : State) : Out := alu1 d a (fun a => bool64 (a.slt (i.signExtend 64))) s
/-- sltni (R270). -/
def execSltni (d a : BitVec 8) (i : BitVec 9) (s : State) : Out := alu1 d a (fun a => bool64 (a.ult (i.setWidth 64))) s
/-- li (R271). -/
def execLi (d : BitVec 8) (i : BitVec 18) (s : State) : Out :=
  scalarWord [] [d.toNat] s fun k _ => doneSreg k d.toNat (i.signExtend 64) s

end Sys2Proof.Machine
end

