-- ==== Sys2Proof/Machine/Dispatch.lean ====
section
/-! DEFINITION. One arm for each row of the opcode table. -/
namespace Sys2Proof.Machine

/-- The meaning of each instruction and event. -/
def exec (i : Instr) (s : State) : Host.Outcome State Fault Refusal :=
  match i with
  | .add d a b => Sys2Proof.Machine.execAdd d a b s
  | .sub d a b => Sys2Proof.Machine.execSub d a b s
  | .and d a b => Sys2Proof.Machine.execAnd d a b s
  | .or d a b => Sys2Proof.Machine.execOr d a b s
  | .xor d a b => Sys2Proof.Machine.execXor d a b s
  | .andn d a b => Sys2Proof.Machine.execAndn d a b s
  | .shl d a b => Sys2Proof.Machine.execShl d a b s
  | .shr d a b => Sys2Proof.Machine.execShr d a b s
  | .sar d a b => Sys2Proof.Machine.execSar d a b s
  | .min d a b => Sys2Proof.Machine.execMin d a b s
  | .max d a b => Sys2Proof.Machine.execMax d a b s
  | .minn d a b => Sys2Proof.Machine.execMinn d a b s
  | .maxn d a b => Sys2Proof.Machine.execMaxn d a b s
  | .slt d a b => Sys2Proof.Machine.execSlt d a b s
  | .sltn d a b => Sys2Proof.Machine.execSltn d a b s
  | .seq d a b => Sys2Proof.Machine.execSeq d a b s
  | .mul d a b => Sys2Proof.Machine.execMul d a b s
  | .mulh d a b => Sys2Proof.Machine.execMulh d a b s
  | .mulhn d a b => Sys2Proof.Machine.execMulhn d a b s
  | .div d a b => Sys2Proof.Machine.execDiv d a b s
  | .divn d a b => Sys2Proof.Machine.execDivn d a b s
  | .rem d a b => Sys2Proof.Machine.execRem d a b s
  | .remn d a b => Sys2Proof.Machine.execRemn d a b s
  | .popc d a => Sys2Proof.Machine.execPopc d a s
  | .clz d a => Sys2Proof.Machine.execClz d a s
  | .ctz d a => Sys2Proof.Machine.execCtz d a s
  | .sext d a w => Sys2Proof.Machine.execSext d a w s
  | .zext d a w => Sys2Proof.Machine.execZext d a w s
  | .addi d a im => Sys2Proof.Machine.execAddi d a im s
  | .andi d a im => Sys2Proof.Machine.execAndi d a im s
  | .ori d a im => Sys2Proof.Machine.execOri d a im s
  | .xori d a im => Sys2Proof.Machine.execXori d a im s
  | .shli d a n => Sys2Proof.Machine.execShli d a n s
  | .shri d a n => Sys2Proof.Machine.execShri d a n s
  | .sari d a n => Sys2Proof.Machine.execSari d a n s
  | .slti d a im => Sys2Proof.Machine.execSlti d a im s
  | .sltni d a im => Sys2Proof.Machine.execSltni d a im s
  | .li d im => Sys2Proof.Machine.execLi d im s
  | .ldlit d n => Sys2Proof.Machine.execLdlit d n s
  | .br a c o => Sys2Proof.Machine.execBr a c o s
  | .jmp o => Sys2Proof.Machine.execJmp o s
  | .call o => Sys2Proof.Machine.execCall o s
  | .jr a => Sys2Proof.Machine.execJr a s
  | .callr a => Sys2Proof.Machine.execCallr a s
  | .ret => Sys2Proof.Machine.execRet s
  | .lrun o => Sys2Proof.Machine.execLrun o s
  | .lrunr a => Sys2Proof.Machine.execLrunr a s
  | .swait n c => Sys2Proof.Machine.execSwait n c s
  | .yield => Sys2Proof.Machine.execYield s
  | .twait a => Sys2Proof.Machine.execTwait a s
  | .bar => Sys2Proof.Machine.execBar s
  | .fbar => Sys2Proof.Machine.execFbar s
  | .cbar c => Sys2Proof.Machine.execCbar c s
  | .gbar => Sys2Proof.Machine.execGbar s
  | .cjoin c => Sys2Proof.Machine.execCjoin c s
  | .cleave c => Sys2Proof.Machine.execCleave c s
  | .sget d n => Sys2Proof.Machine.execSget d n s
  | .sset n a => Sys2Proof.Machine.execSset n a s
  | .xacq => Sys2Proof.Machine.execXacq s
  | .xrel => Sys2Proof.Machine.execXrel s
  | .sld8 d a p o => Sys2Proof.Machine.execSld8 d a p o s
  | .sld16 d a p o => Sys2Proof.Machine.execSld16 d a p o s
  | .sld32 d a p o => Sys2Proof.Machine.execSld32 d a p o s
  | .sld64 d a p o => Sys2Proof.Machine.execSld64 d a p o s
  | .sst8 d a p o => Sys2Proof.Machine.execSst8 d a p o s
  | .sst16 d a p o => Sys2Proof.Machine.execSst16 d a p o s
  | .sst32 d a p o => Sys2Proof.Machine.execSst32 d a p o s
  | .sst64 d a p o => Sys2Proof.Machine.execSst64 d a p o s
  | .acq sc a => Sys2Proof.Machine.execAcq sc a s
  | .rel sc => Sys2Proof.Machine.execRel sc s
  | .fence sc a => Sys2Proof.Machine.execFence sc a s
  | .rinse a => Sys2Proof.Machine.execRinse a s
  | .sldStrong sc o d a w => Sys2Proof.Machine.execSldStrong sc o d a w s
  | .sstStrong sc o d a w => Sys2Proof.Machine.execSstStrong sc o d a w s
  | .satom o sc z d a x => Sys2Proof.Machine.execSatom o sc z d a x s
  | .scas o sc z d a => Sys2Proof.Machine.execScas o sc z d a s
  | .chsend c a p => Sys2Proof.Machine.execChsend c a p s
  | .chrecv c d a p => Sys2Proof.Machine.execChrecv c d a p s
  | .chpoll c d => Sys2Proof.Machine.execChpoll c d s
  | .satCopy a => Sys2Proof.Machine.execSatCopy a s
  | .satBatch a n => Sys2Proof.Machine.execSatBatch a n s
  | .satCancel a => Sys2Proof.Machine.execSatCancel a s
  | .bwait d a => Sys2Proof.Machine.execBwait d a s
  | .rowact a => Sys2Proof.Machine.execRowact a s
  | .rowcon a b => Sys2Proof.Machine.execRowcon a b s
  | .rowpre a => Sys2Proof.Machine.execRowpre a s
  | .rowwait a k => Sys2Proof.Machine.execRowwait a k s
  | .rowstat d a k => Sys2Proof.Machine.execRowstat d a k s
  | .hemset h a t => Sys2Proof.Machine.execHemset h a t s
  | .hemget d h => Sys2Proof.Machine.execHemget d h s
  | .trap c => Sys2Proof.Machine.execTrap c s
  | .tret => Sys2Proof.Machine.execTret s
  | .brk c => Sys2Proof.Machine.execBrk c s
  | .hidget d n => Sys2Proof.Machine.execHidget d n s
  | .hidput a n => Sys2Proof.Machine.execHidput a n s
  | .exit => Sys2Proof.Machine.execExit s
  | .vadd w => Sys2Proof.Machine.execVadd w s
  | .vsub w => Sys2Proof.Machine.execVsub w s
  | .vmul w => Sys2Proof.Machine.execVmul w s
  | .vmulh w => Sys2Proof.Machine.execVmulh w s
  | .vmad w => Sys2Proof.Machine.execVmad w s
  | .vdiv w => Sys2Proof.Machine.execVdiv w s
  | .vrem w => Sys2Proof.Machine.execVrem w s
  | .vand w => Sys2Proof.Machine.execVand w s
  | .vor w => Sys2Proof.Machine.execVor w s
  | .vxor w => Sys2Proof.Machine.execVxor w s
  | .vandn w => Sys2Proof.Machine.execVandn w s
  | .vshl w => Sys2Proof.Machine.execVshl w s
  | .vshr w => Sys2Proof.Machine.execVshr w s
  | .vsar w => Sys2Proof.Machine.execVsar w s
  | .vmin w => Sys2Proof.Machine.execVmin w s
  | .vmax w => Sys2Proof.Machine.execVmax w s
  | .vabs w => Sys2Proof.Machine.execVabs w s
  | .vneg w => Sys2Proof.Machine.execVneg w s
  | .vbit w => Sys2Proof.Machine.execVbit w s
  | .vsel w => Sys2Proof.Machine.execVsel w s
  | .vmov w => Sys2Proof.Machine.execVmov w s
  | .vcmp w => Sys2Proof.Machine.execVcmp w s
  | .vidx w => Sys2Proof.Machine.execVidx w s
  | .vshfl w => Sys2Proof.Machine.execVshfl w s
  | .vpush w => Sys2Proof.Machine.execVpush w s
  | .vswap w => Sys2Proof.Machine.execVswap w s
  | .vbcast w => Sys2Proof.Machine.execVbcast w s
  | .vred w => Sys2Proof.Machine.execVred w s
  | .vscan w => Sys2Proof.Machine.execVscan w s
  | .vballot w => Sys2Proof.Machine.execVballot w s
  | .vfirst w => Sys2Proof.Machine.execVfirst w s
  | .vtos w => Sys2Proof.Machine.execVtos w s
  | .vtag w => Sys2Proof.Machine.execVtag w s
  | .vtagSet w => Sys2Proof.Machine.execVtagSet w s
  | .fadd w => Sys2Proof.Machine.execFadd w s
  | .fsub w => Sys2Proof.Machine.execFsub w s
  | .fmul w => Sys2Proof.Machine.execFmul w s
  | .ffma w => Sys2Proof.Machine.execFfma w s
  | .fmin w => Sys2Proof.Machine.execFmin w s
  | .fmax w => Sys2Proof.Machine.execFmax w s
  | .fsgn w => Sys2Proof.Machine.execFsgn w s
  | .fsgnn w => Sys2Proof.Machine.execFsgnn w s
  | .fsgnx w => Sys2Proof.Machine.execFsgnx w s
  | .fdiv w => Sys2Proof.Machine.execFdiv w s
  | .fsqrt w => Sys2Proof.Machine.execFsqrt w s
  | .frcp w => Sys2Proof.Machine.execFrcp w s
  | .frsq w => Sys2Proof.Machine.execFrsq w s
  | .fcmp w => Sys2Proof.Machine.execFcmp w s
  | .fclass w => Sys2Proof.Machine.execFclass w s
  | .frnd w => Sys2Proof.Machine.execFrnd w s
  | .fexp2 w => Sys2Proof.Machine.execFexp2 w s
  | .flog2 w => Sys2Proof.Machine.execFlog2 w s
  | .fsin w => Sys2Proof.Machine.execFsin w s
  | .fcos w => Sys2Proof.Machine.execFcos w s
  | .frred w => Sys2Proof.Machine.execFrred w s
  | .ftanh w => Sys2Proof.Machine.execFtanh w s
  | .fscale w => Sys2Proof.Machine.execFscale w s
  | .fdot2 w => Sys2Proof.Machine.execFdot2 w s
  | .jseed w => Sys2Proof.Machine.execJseed w s
  | .jconst w => Sys2Proof.Machine.execJconst w s
  | .jget w => Sys2Proof.Machine.execJget w s
  | .jput w => Sys2Proof.Machine.execJput w s
  | .jderiv w => Sys2Proof.Machine.execJderiv w s
  | .jtrunc w => Sys2Proof.Machine.execJtrunc w s
  | .fcvt w => Sys2Proof.Machine.execFcvt w s
  | .l6pack w => Sys2Proof.Machine.execL6pack w s
  | .l6unpack w => Sys2Proof.Machine.execL6unpack w s
  | .l6plane w => Sys2Proof.Machine.execL6plane w s
  | .l6planeCode w => Sys2Proof.Machine.execL6planeCode w s
  | .vld w => Sys2Proof.Machine.execVld w s
  | .vst w => Sys2Proof.Machine.execVst w s
  | .vlds w => Sys2Proof.Machine.execVlds w s
  | .vsts w => Sys2Proof.Machine.execVsts w s
  | .vatom w => Sys2Proof.Machine.execVatom w s
  | .vatoms w => Sys2Proof.Machine.execVatoms w s
  | .vcas w => Sys2Proof.Machine.execVcas w s
  | .vldb w => Sys2Proof.Machine.execVldb w s
  | .vstb w => Sys2Proof.Machine.execVstb w s
  | .vpf w => Sys2Proof.Machine.execVpf w s
  | .mma w => Sys2Proof.Machine.execMma w s
  | .mmag w => Sys2Proof.Machine.execMmag w s
  | .mzero w => Sys2Proof.Machine.execMzero w s
  | .mldacc w => Sys2Proof.Machine.execMldacc w s
  | .mdrain w => Sys2Proof.Machine.execMdrain w s
  | .mofence w => Sys2Proof.Machine.execMofence w s
  | .msave w => Sys2Proof.Machine.execMsave w s
  | .mresume w => Sys2Proof.Machine.execMresume w s
  | .mmodeSet w => Sys2Proof.Machine.execMmodeSet w s
  | .mmodeRead w => Sys2Proof.Machine.execMmodeRead w s
  | .hxAcq sc a => Sys2Proof.Machine.execHxAcq sc a s
  | .hxRel sc => Sys2Proof.Machine.execHxRel sc s
  | .hxFence sc a => Sys2Proof.Machine.execHxFence sc a s
  | .hxRinse a => Sys2Proof.Machine.execHxRinse a s
  | .hxTick d => Sys2Proof.Machine.execHxTick d s
  | .hxHsend b a d => Sys2Proof.Machine.execHxHsend b a d s
  | .hxHrecv b a d => Sys2Proof.Machine.execHxHrecv b a d s
  | .hxPark a d => Sys2Proof.Machine.execHxPark a d s
  | .hxUnpark a d => Sys2Proof.Machine.execHxUnpark a d s
  | .hxFget a d => Sys2Proof.Machine.execHxFget a d s
  | .hxFput b a d => Sys2Proof.Machine.execHxFput b a d s
  | .hxFpop a d => Sys2Proof.Machine.execHxFpop a d s
  | .hxRgrant a d => Sys2Proof.Machine.execHxRgrant a d s
  | .hxRrevoke a d => Sys2Proof.Machine.execHxRrevoke a d s
  | .hxFstat a d => Sys2Proof.Machine.execHxFstat a d s
  | .hxFenter a d => Sys2Proof.Machine.execHxFenter a d s
  | .hxGkill a d => Sys2Proof.Machine.execHxGkill a d s
  | .hxGrelaunch a d => Sys2Proof.Machine.execHxGrelaunch a d s
  | .valetLoad f a d im => Sys2Proof.Machine.execValetLoad f a d im s
  | .valetStore f a b im => Sys2Proof.Machine.execValetStore f a b im s
  | .valetLr z q l a d => Sys2Proof.Machine.execValetLr z q l a d s
  | .valetSc z q l b a d => Sys2Proof.Machine.execValetSc z q l b a d s
  | .valetAmo f z q l b a d => Sys2Proof.Machine.execValetAmo f z q l b a d s
  | .valetFence m p q => Sys2Proof.Machine.execValetFence m p q s
  | .valetFenceI => Sys2Proof.Machine.execValetFenceI s
  | .msgReg m => Sys2Proof.Machine.execMsgReg m s
  | .msgGrant m => Sys2Proof.Machine.execMsgGrant m s
  | .msgRevoke m => Sys2Proof.Machine.execMsgRevoke m s
  | .msgRvack m => Sys2Proof.Machine.execMsgRvack m s
  | .msgLd m => Sys2Proof.Machine.execMsgLd m s
  | .msgLdata m => Sys2Proof.Machine.execMsgLdata m s
  | .msgFwd m => Sys2Proof.Machine.execMsgFwd m s
  | .msgFdata m => Sys2Proof.Machine.execMsgFdata m s
  | .msgWb m => Sys2Proof.Machine.execMsgWb m s
  | .msgWback m => Sys2Proof.Machine.execMsgWback m s
  | .msgRecall m => Sys2Proof.Machine.execMsgRecall m s
  | .msgXreg m => Sys2Proof.Machine.execMsgXreg m s
  | .msgPush m => Sys2Proof.Machine.execMsgPush m s
  | .msgHwr m => Sys2Proof.Machine.execMsgHwr m s
  | .msgHwack m => Sys2Proof.Machine.execMsgHwack m s
  | .sliceFill line => Sys2Proof.Machine.execSliceFill line s
  | .pageWalk c slot => Sys2Proof.Machine.execPageWalk c slot s
  | .rowPerformance c => Sys2Proof.Machine.execRowPerformance c s
  | .twaitSlot c u => Sys2Proof.Machine.execTwaitSlot c u s
  | .refreshSlotStart c b => Sys2Proof.Machine.execRefreshSlotStart c b s
  | .refreshSlotEnd c b => Sys2Proof.Machine.execRefreshSlotEnd c b s
  | .controllerPrecharge c b => Sys2Proof.Machine.execControllerPrecharge c b s
  | .bankIdle c b => Sys2Proof.Machine.execBankIdle c b s
  | .boltScrub c q => Sys2Proof.Machine.execBoltScrub c q s
  | .grantLive c g => Sys2Proof.Machine.execGrantLive c g s
  | .pressOpStart c p => Sys2Proof.Machine.execPressOpStart c p s
  | .pressOpComplete c p => Sys2Proof.Machine.execPressOpComplete c p s
  | .satchelStart n => Sys2Proof.Machine.execSatchelStart n s
  | .satchelLineCopy n => Sys2Proof.Machine.execSatchelLineCopy n s
  | .hamperEnqueue n => Sys2Proof.Machine.execHamperEnqueue n s
  | .hamperDequeue n => Sys2Proof.Machine.execHamperDequeue n s
  | .remoteLoadTimeout k => Sys2Proof.Machine.execRemoteLoadTimeout k s
  | .evictionChoice d => Sys2Proof.Machine.execEvictionChoice d s
  | .gangSaveComplete g => Sys2Proof.Machine.execGangSaveComplete g s
  | .placement d => Sys2Proof.Machine.execPlacement d s
  | .placementBoundExpiry d => Sys2Proof.Machine.execPlacementBoundExpiry d s
  | .hotFlag c => Sys2Proof.Machine.execHotFlag c s
  | .hotResidencyExpiry g => Sys2Proof.Machine.execHotResidencyExpiry g s
  | .hotFlagClear c => Sys2Proof.Machine.execHotFlagClear c s
  | .tinvPage d v => Sys2Proof.Machine.execTinvPage d v s
  | .tinvLargePage d v => Sys2Proof.Machine.execTinvLargePage d v s
  | .tinvDomain d v => Sys2Proof.Machine.execTinvDomain d v s
  | .tinvComplete d => Sys2Proof.Machine.execTinvComplete d s
  | .granuleRetire c hi v => Sys2Proof.Machine.execGranuleRetire c hi v s
  | .bankMark c q v => Sys2Proof.Machine.execBankMark c q v s
  | .coreRetire c v => Sys2Proof.Machine.execCoreRetire c v s
  | .forwardEntryEnable d n v => Sys2Proof.Machine.execForwardEntryEnable d n v s
  | .forwardEntryFree d n v => Sys2Proof.Machine.execForwardEntryFree d n v s
  | .traceEnable c v => Sys2Proof.Machine.execTraceEnable c v s
  | .bastingReadAdvance c v => Sys2Proof.Machine.execBastingReadAdvance c v s
  | .bastingLineDrain c => Sys2Proof.Machine.execBastingLineDrain c s
  | .bastingPad c => Sys2Proof.Machine.execBastingPad c s
  | .pcSample c => Sys2Proof.Machine.execPcSample c s
  | .tracePeriodicSync c => Sys2Proof.Machine.execTracePeriodicSync c s
  | .traceResync c => Sys2Proof.Machine.execTraceResync c s
  | .recordingEnable d v => Sys2Proof.Machine.execRecordingEnable d v s
  | .checkpoint d => Sys2Proof.Machine.execCheckpoint d s
  | .replayStart d v => Sys2Proof.Machine.execReplayStart d v s
  | .registerWrite pa n v => Sys2Proof.Machine.execRegisterWrite pa n v s
  | .attestationRequest nonce => Sys2Proof.Machine.execAttestationRequest nonce s
  | .attestationReport => Sys2Proof.Machine.execAttestationReport s
  | .doorEnqueue d n item => Sys2Proof.Machine.execDoorEnqueue d n item s
  | .doorDequeue d n => Sys2Proof.Machine.execDoorDequeue d n s
  | .fabricRd k h => Sys2Proof.Machine.execFabricRd k h s
  | .fabricWr k h v => Sys2Proof.Machine.execFabricWr k h v s
  | .fabricRdCompletion k h v => Sys2Proof.Machine.execFabricRdCompletion k h v s
  | .fabricWrCompletion k h => Sys2Proof.Machine.execFabricWrCompletion k h s
  | .fabricMsg k h m => Sys2Proof.Machine.execFabricMsg k h m s
  | .linkDown k => Sys2Proof.Machine.execLinkDown k s
  | .linkUp k => Sys2Proof.Machine.execLinkUp k s
  | .agentRetire p a => Sys2Proof.Machine.execAgentRetire p a s
  | .pciePostedWrite port rid va data ro => Sys2Proof.Machine.execPciePostedWrite port rid va data ro s
  | .pcieMemoryRead port rid va n => Sys2Proof.Machine.execPcieMemoryRead port rid va n s
  | .clockStep c mhz => Sys2Proof.Machine.execClockStep c mhz s
  | .clockGate c => Sys2Proof.Machine.execClockGate c s
  | .moduleReset b => Sys2Proof.Machine.execModuleReset b s
  | .domainStart d => Sys2Proof.Machine.execDomainStart d s
  | .longResultWriteback k => Sys2Proof.Machine.execLongResultWriteback k s
  | .scalarDivideComplete k => Sys2Proof.Machine.execScalarDivideComplete k s
  | .scratchAccessPerformed n => Sys2Proof.Machine.execScratchAccessPerformed n s
  | .ioApertureCompletion n v => Sys2Proof.Machine.execIoApertureCompletion n v s
  | .l2TlbHit c slot => Sys2Proof.Machine.execL2TlbHit c slot s
  | .refreshBorrowStart c b => Sys2Proof.Machine.execRefreshBorrowStart c b s
  | .grantEndPrecharge c b => Sys2Proof.Machine.execGrantEndPrecharge c b s
  | .rowwaitComplete k => Sys2Proof.Machine.execRowwaitComplete k s
  | .clockUngate c => Sys2Proof.Machine.execClockUngate c s
  | .fabricReservedFlit k h => Sys2Proof.Machine.execFabricReservedFlit k h s

end Sys2Proof.Machine
end

