-- ==== Sys2Proof/Machine/RvCompressed.lean ====
section
/-! DEFINITION. RISC-V's compressed words: the 32-bit word that each of RV64C's 16-bit words stands for. The spec names RV64GC (R397) and
does not describe it; PRESUMED from RISC-V (log 3). -/
namespace Sys2Proof.Machine

/-! ### 32-bit words from their fields -/

def rvR (f7 rs2 rs1 f3 rd op : Nat) : W32 := BitVec.ofNat 32 (f7 * 2 ^ 25 + rs2 * 2 ^ 20 + rs1 * 2 ^ 15 + f3 * 2 ^ 12 + rd * 2 ^ 7 + op)
def rvI (imm rs1 f3 rd op : Nat) : W32 := BitVec.ofNat 32 (imm % 4096 * 2 ^ 20 + rs1 * 2 ^ 15 + f3 * 2 ^ 12 + rd * 2 ^ 7 + op)
def rvS (imm rs2 rs1 f3 op : Nat) : W32 :=
  BitVec.ofNat 32 (imm / 32 % 128 * 2 ^ 25 + rs2 * 2 ^ 20 + rs1 * 2 ^ 15 + f3 * 2 ^ 12 + imm % 32 * 2 ^ 7 + op)
def rvU (imm rd op : Nat) : W32 := BitVec.ofNat 32 (imm % 2 ^ 20 * 2 ^ 12 + rd * 2 ^ 7 + op)
/-- A branch of an offset of 13 bits. -/
def rvB (off rs2 rs1 f3 : Nat) : W32 :=
  BitVec.ofNat 32 (off / 4096 % 2 * 2 ^ 31 + off / 32 % 64 * 2 ^ 25 + rs2 * 2 ^ 20 + rs1 * 2 ^ 15 + f3 * 2 ^ 12 + off / 2 % 16 * 2 ^ 8
    + off / 2048 % 2 * 2 ^ 7 + 0x63)
/-- A JAL of an offset of 21 bits. -/
def rvJ (off rd : Nat) : W32 :=
  BitVec.ofNat 32 (off / 2 ^ 20 % 2 * 2 ^ 31 + off / 2 % 1024 * 2 ^ 21 + off / 2048 % 2 * 2 ^ 20 + off / 4096 % 256 * 2 ^ 12 + rd * 2 ^ 7 + 0x6F)

/-- A field of n bits, sign-extended to w bits. -/
def rvSext (n w v : Nat) : Nat := if v / 2 ^ (n - 1) % 2 = 1 then v + (2 ^ w - 2 ^ n) else v

/-! ### Fields of a compressed word -/

/-- Bits i to i + n − 1. -/
def cBits (c : Nat) (i n : Nat) : Nat := c / 2 ^ i % 2 ^ n
/-- The six-bit immediate of bits 12 and 6 to 2. -/
def cImm6 (c : Nat) : Nat := cBits c 12 1 * 32 + cBits c 2 5
/-- Offsets of a doubleword and of a word from a register. -/
def cOffD (c : Nat) : Nat := cBits c 10 3 * 8 + cBits c 5 2 * 64
def cOffW (c : Nat) : Nat := cBits c 10 3 * 8 + cBits c 6 1 * 4 + cBits c 5 1 * 64
/-- Offsets of loads and stores from the stack pointer. -/
def cSpLoadD (c : Nat) : Nat := cBits c 12 1 * 32 + cBits c 5 2 * 8 + cBits c 2 3 * 64
def cSpLoadW (c : Nat) : Nat := cBits c 12 1 * 32 + cBits c 4 3 * 4 + cBits c 2 2 * 64
def cSpStoreD (c : Nat) : Nat := cBits c 10 3 * 8 + cBits c 7 3 * 64
def cSpStoreW (c : Nat) : Nat := cBits c 9 4 * 4 + cBits c 7 2 * 64
/-- The offset of a jump. -/
def cOffJ (c : Nat) : Nat := rvSext 12 21 (cBits c 12 1 * 2048 + cBits c 11 1 * 16 + cBits c 9 2 * 256 + cBits c 8 1 * 1024 + cBits c 7 1 * 64
  + cBits c 6 1 * 128 + cBits c 3 3 * 2 + cBits c 2 1 * 32)
/-- The offset of a branch. -/
def cOffB (c : Nat) : Nat := rvSext 9 13 (cBits c 12 1 * 256 + cBits c 10 2 * 8 + cBits c 5 2 * 64 + cBits c 3 2 * 2 + cBits c 2 1 * 32)

/-! ### The three quadrants -/

/-- Quadrant 0. -/
def rvExpand0 (c : Nat) : Option W32 :=
  let r1 := 8 + cBits c 7 3
  let r2 := 8 + cBits c 2 3
  match cBits c 13 3 with
  | 0 =>
    let imm := cBits c 11 2 * 16 + cBits c 7 4 * 64 + cBits c 6 1 * 4 + cBits c 5 1 * 8
    if imm = 0 then none else some (rvI imm 2 0 r2 0x13)
  | 1 => some (rvI (cOffD c) r1 3 r2 0x07)
  | 2 => some (rvI (cOffW c) r1 2 r2 0x03)
  | 3 => some (rvI (cOffD c) r1 3 r2 0x03)
  | 5 => some (rvS (cOffD c) r2 r1 3 0x27)
  | 6 => some (rvS (cOffW c) r2 r1 2 0x23)
  | 7 => some (rvS (cOffD c) r2 r1 3 0x23)
  | _ => none

/-- Quadrant 1. -/
def rvExpand1 (c : Nat) : Option W32 :=
  let rd := cBits c 7 5
  let r1 := 8 + cBits c 7 3
  let r2 := 8 + cBits c 2 3
  let imm := rvSext 6 12 (cImm6 c)
  match cBits c 13 3 with
  | 0 => some (rvI imm rd 0 rd 0x13)
  | 1 => if rd = 0 then none else some (rvI imm rd 0 rd 0x1B)
  | 2 => some (rvI imm 0 0 rd 0x13)
  | 3 =>
    if rd = 2 then
      let o := cBits c 12 1 * 512 + cBits c 6 1 * 16 + cBits c 5 1 * 64 + cBits c 3 2 * 128 + cBits c 2 1 * 32
      if o = 0 then none else some (rvI (rvSext 10 12 o) 2 0 2 0x13)
    else if cImm6 c = 0 then none else some (rvU (rvSext 6 20 (cImm6 c)) rd 0x37)
  | 4 => match cBits c 10 2 with
    | 0 => some (rvI (cImm6 c) r1 5 r1 0x13)
    | 1 => some (rvI (0x400 + cImm6 c) r1 5 r1 0x13)
    | 2 => some (rvI imm r1 7 r1 0x13)
    | _ => match cBits c 12 1, cBits c 5 2 with
      | 0, 0 => some (rvR 0x20 r2 r1 0 r1 0x33)
      | 0, 1 => some (rvR 0 r2 r1 4 r1 0x33)
      | 0, 2 => some (rvR 0 r2 r1 6 r1 0x33)
      | 0, _ => some (rvR 0 r2 r1 7 r1 0x33)
      | _, 0 => some (rvR 0x20 r2 r1 0 r1 0x3B)
      | _, 1 => some (rvR 0 r2 r1 0 r1 0x3B)
      | _, _ => none
  | 5 => some (rvJ (cOffJ c) 0)
  | 6 => some (rvB (cOffB c) 0 r1 0)
  | _ => some (rvB (cOffB c) 0 r1 1)

/-- Quadrant 2. -/
def rvExpand2 (c : Nat) : Option W32 :=
  let rd := cBits c 7 5
  let rs2 := cBits c 2 5
  match cBits c 13 3 with
  | 0 => some (rvI (cImm6 c) rd 1 rd 0x13)
  | 1 => some (rvI (cSpLoadD c) 2 3 rd 0x07)
  | 2 => if rd = 0 then none else some (rvI (cSpLoadW c) 2 2 rd 0x03)
  | 3 => if rd = 0 then none else some (rvI (cSpLoadD c) 2 3 rd 0x03)
  | 4 =>
    if cBits c 12 1 = 0 then
      (if rs2 = 0 then (if rd = 0 then none else some (rvI 0 rd 0 0 0x67)) else some (rvR 0 rs2 0 0 rd 0x33))
    else if rs2 = 0 then (if rd = 0 then some (rvI 1 0 0 0 0x73) else some (rvI 0 rd 0 1 0x67))
    else some (rvR 0 rs2 rd 0 rd 0x33)
  | 5 => some (rvS (cSpStoreD c) rs2 2 3 0x27)
  | 6 => some (rvS (cSpStoreW c) rs2 2 2 0x23)
  | _ => some (rvS (cSpStoreD c) rs2 2 3 0x23)

/-- The 32-bit word that a compressed word stands for; `none`: reserved, an illegal instruction. -/
def rvExpand (w : BitVec 16) : Option W32 :=
  let c := w.toNat
  match c % 4 with
  | 0 => rvExpand0 c
  | 1 => rvExpand1 c
  | 2 => rvExpand2 c
  | _ => none

end Sys2Proof.Machine
end

