-- ==== Sys2Proof/Machine/RvFloat.lean ====
section
/-! DEFINITION. RISC-V's F and D extensions on a valet hart: registers with boxed singles, rounding modes, flags in fcsr, and the loads,
stores and arithmetic words. The spec names RV64GC (R397) and does not describe these words; PRESUMED from RISC-V (log 3). -/
namespace Sys2Proof.Machine

/-! ### Registers, rounding and flags -/

/-- Floating format of a word's fmt field: single or double. -/
def rvFmt (x : Nat) : Option FpFmt := match x with | 0 => some ⟨24, 8⟩ | 1 => some ⟨53, 11⟩ | _ => none

/-- Bytes of a format. -/
def FpFmt.bytes (F : FpFmt) : Nat := F.width / 8

/-- The bits of floating register r: a single that is not boxed reads as the canonical NaN. -/
def Hart.freg (h : Hart) (F : FpFmt) (r : Nat) : Nat :=
  let v := (h.f.getD r 0).toNat
  if F.width = 64 then v else if v / 2 ^ 32 = 0xFFFF_FFFF then v % 2 ^ 32 else F.nanBits

/-- mstatus.FS is Off: the floating words are illegal. -/
def Hart.fpOff (h : Hart) : Bool := (h.csrOf 0x300).extractLsb' 13 2 == 0

/-- fcsr: flags in [4:0], frm in [7:5]. -/
def Hart.fcsr (h : Hart) : W64 := h.csrOf 3

/-- Accrued flags take new ones. -/
def Hart.raise (h : Hart) (fl : Nat) : Hart :=
  if fl = 0 then h
  else { h with csr := tset (tset h.csr 3 (h.fcsr ||| BitVec.ofNat 64 fl)) 0x300 (h.csrOf 0x300 ||| 0x6000) }

/-- The mode of a rounding field; 7 is frm. `none`: reserved. -/
def Hart.rounding (h : Hart) (rm : Nat) : Option Rnd :=
  match (if rm = 7 then (h.fcsr.extractLsb' 5 3).toNat else rm) with
  | 0 => some .rne | 1 => some .rz | 2 => some .rdn | 3 => some .rup | 4 => some .rmm | _ => none

/-- A word gives a floating register a value, with flags. -/
def doneFreg (c h d : Nat) (F : FpFmt) (r : Nat × Nat) (s : State) : Out :=
  .next (s.setHart c h (((s.hart c h).raise r.2).setFreg d F.bytes r.1).retire)

/-- A word gives an integer register a value, with flags. -/
def doneXreg (c h d : Nat) (r : W64 × Nat) (s : State) : Out :=
  .next (s.setHart c h (((s.hart c h).raise r.2).setReg d r.1).retire)

/-! ### Values -/

/-- FEQ, FLT and FLE by funct3 2, 1 and 0: the result, with its flags. -/
def rvCompare (F : FpFmt) (f3 a b : Nat) : W64 × Nat :=
  let x := unpackF F a
  let y := unpackF F b
  if x.isNan || y.isNan then (0, nvIf (f3 ≠ 2 || x.sig || y.sig))
  else
    let ka := keyF F a
    let kb := keyF F b
    (if (f3 = 2 && ka = kb) || (f3 = 1 && ka < kb) || (f3 = 0 && ka ≤ kb) then 1 else 0, 0)

/-- FCLASS: one of ten bits. -/
def rvClass (F : FpFmt) (a : Nat) : W64 :=
  let b := match unpackF F a with
    | .nan g => if g then 8 else 9
    | .inf n => if n then 0 else 7
    | .fin n m _ => if m = 0 then (if n then 3 else 4) else if m < 2 ^ (F.p - 1) then (if n then 2 else 5) else if n then 1 else 6
  (1 : W64) <<< b

/-- Ends of the integer type of a conversion: W, WU, L, LU. -/
def rvEnds (t : Nat) : Int × Int := match t with
  | 0 => (-2 ^ 31, 2 ^ 31 - 1) | 1 => (0, 2 ^ 32 - 1) | 2 => (-2 ^ 63, 2 ^ 63 - 1) | _ => (0, 2 ^ 64 - 1)

/-- A conversion to an integer: a NaN gives the largest; 32-bit results are sign-extended. -/
def rvToInt (F : FpFmt) (md : Rnd) (t a : Nat) : W64 × Nat :=
  let x := unpackF F a
  let (lo, hi) := rvEnds t
  let r := if x.isNan then (hi, flagNV) else toIntF md lo hi x
  (if t < 2 then (BitVec.ofInt 32 r.1 : W32).signExtend 64 else BitVec.ofInt 64 r.1, r.2)

/-- An integer register as the integer of a type. -/
def rvInt (t : Nat) (x : W64) : Int := match t with
  | 0 => (x.setWidth 32).toInt | 1 => (x.setWidth 32).toNat | 2 => x.toInt | _ => x.toNat

/-! ### Words -/

/-- FMADD, FMSUB, FNMSUB, FNMADD by opcode. -/
def rvFma (F : FpFmt) (md : Rnd) (op a b z : Nat) : Nat × Nat :=
  let x := unpackF F a
  let y := unpackF F z
  roundEv F md (sumV md.isRdn [mulV (if 0x4B ≤ op then x.negate else x) (unpackF F b), (if op = 0x47 || op = 0x4F then y.negate else y, 0)])

/-- Arithmetic of two operands, or a square root: operation codes 0 to 3 and 0x0B of OP-FP. -/
def rvArith (F : FpFmt) (md : Rnd) (op a b : Nat) : Nat × Nat :=
  let x := unpackF F a
  let y := unpackF F b
  match op with
  | 0 => roundEv F md (sumV md.isRdn [(x, 0), (y, 0)])
  | 1 => roundEv F md (sumV md.isRdn [(x, 0), (y.negate, 0)])
  | 2 => roundEv F md (mulV x y)
  | 3 => roundOut F md (divV (x, 0) (y, 0))
  | _ => roundOut F md (sqrtV x)

/-- The only pair of a list of one. -/
def onlyPair (l : List (Nat × Nat)) : Nat × Nat := l.headD (0, 0)

/-- A word of OP-FP, or of the four fused opcodes; `ill`: it is an illegal instruction. -/
def rvFloat (c h : Nat) (w : W32) (ill : Out) (s : State) : Out :=
  let hs := s.hart c h
  let op := (w.extractLsb' 0 7).toNat
  let rd := (w.extractLsb' 7 5).toNat
  let f3 := (w.extractLsb' 12 3).toNat
  let rs1 := (w.extractLsb' 15 5).toNat
  let rs2 := (w.extractLsb' 20 5).toNat
  let fn := (w.extractLsb' 27 5).toNat
  match rvFmt (w.extractLsb' 25 2).toNat with
  | none => ill
  | some F =>
    let a := hs.freg F rs1
    let b := hs.freg F rs2
    let rounded := fun (go : Rnd → Out) => match hs.rounding f3 with | some md => go md | none => ill
    if hs.fpOff then ill
    else if op ≠ 0x53 then rounded fun md => doneFreg c h rd F (rvFma F md op a b (hs.freg F fn)) s
    else if fn < 4 || (fn = 0x0B && rs2 = 0) then rounded fun md => doneFreg c h rd F (rvArith F md fn a b) s
    else match fn with
      | 4 => if 2 < f3 then ill else doneFreg c h rd F (onlyPair (seriesSign F f3 [a] b)) s
      | 5 => if 1 < f3 then ill else doneFreg c h rd F (onlyPair (seriesPick F (f3 = 1) [a] [b])) s
      | 0x08 => match rvFmt rs2 with
        | some G => if F = G then ill else rounded fun md => doneFreg c h rd F (convF G F md (hs.freg G rs1)) s
        | none => ill
      | 0x14 => if 2 < f3 then ill else doneXreg c h rd (rvCompare F f3 a b) s
      | 0x18 => if 3 < rs2 then ill else rounded fun md => doneXreg c h rd (rvToInt F md rs2 a) s
      | 0x1A => if 3 < rs2 then ill
        else rounded fun md => doneFreg c h rd F (roundEv F md (dyad (rvInt rs2 (hs.reg rs1)) 0, 0)) s
      | 0x1C =>
        let v := hs.f.getD rs1 0
        if rs2 ≠ 0 || 1 < f3 then ill
        else if f3 = 1 then doneXreg c h rd (rvClass F a, 0) s
        else doneXreg c h rd (if F.width = 32 then (v.setWidth 32).signExtend 64 else v, 0) s
      | 0x1E => if rs2 ≠ 0 || f3 ≠ 0 then ill else doneFreg c h rd F ((hs.reg rs1).toNat % 2 ^ F.width, 0) s
      | _ => ill

/-- FLW, FLD, FSW and FSD: plain accesses of a hart. -/
def rvFloatMem (c h : Nat) (w : W32) (ill : Out) (s : State) : Out :=
  let hs := s.hart c h
  let f3 := (w.extractLsb' 12 3).toNat
  let n := 2 ^ f3
  let x := hs.reg (w.extractLsb' 15 5).toNat
  if hs.fpOff || (f3 ≠ 2 && f3 ≠ 3) then ill
  else if w.getLsbD 5 then
    hartPut c h (x + (w.extractLsb' 25 7 ++ w.extractLsb' 7 5).signExtend 64) n (hs.f.getD (w.extractLsb' 20 5).toNat 0) s
  else
    let d := (w.extractLsb' 7 5).toNat
    hartLoad c h (x + (w.extractLsb' 20 12).signExtend 64) n (.freg d n) (fun bs y => y.setFreg d n (leNat bs)) s

end Sys2Proof.Machine
end

