-- ==== Sys2Proof/Machine/RvBase.lean ====
section
/-! DEFINITION. RISC-V's own words of a valet hart: RV64I, M, Zicsr and the privileged words; F and D are in RvFloat, C in RvCompressed.
The spec names the architecture (R397) and does not describe these words; they are PRESUMED from RISC-V (log 3). -/
namespace Sys2Proof.Machine

/-! ### CSRs -/

/-- Bits of mstatus that sstatus shows. -/
def sstatusMask : W64 := 0x8000_0003_000D_E762

/-- CSRs that hold what was written. -/
def plainCsrs : List Nat := [0x300, 0x302, 0x303, 0x304, 0x305, 0x306, 0x340, 0x341, 0x342, 0x343, 0x105, 0x106, 0x140, 0x141, 0x142,
  0x143, 0x180, 0x320]

/-- Interrupts pending at a hart: hart 0 sees interrupt 16 while records are queued (R404). -/
def pendingIrq (s : State) (c h : Nat) : W64 := if h = 0 && (s.core c).recs ≠ [] then 1 <<< 16 else 0

/-- mstatus with SD, which says that FS is dirty. -/
def statusOf (hs : Hart) : W64 :=
  let v := hs.csrOf 0x300 &&& ~~~((1 : W64) <<< 63)
  if v.extractLsb' 13 2 = 3 then v ||| (1 <<< 63) else v

/-- A CSR's value; `none`: no such CSR. The time CSR reads TICK (R397). -/
def csrRead (s : State) (c h : Nat) (hs : Hart) (n : Nat) : Option W64 :=
  if n = 0xC01 then some (BitVec.ofNat 64 s.tick)
  else if n = 0xF14 then some (BitVec.ofNat 64 h)
  else if n = 0x344 then some (hs.csrOf 0x344 ||| pendingIrq s c h)
  else if n = 0x144 then some ((hs.csrOf 0x344 ||| pendingIrq s c h) &&& hs.csrOf 0x303)
  else if n = 0x104 then some (hs.csrOf 0x304 &&& hs.csrOf 0x303)
  else if n = 0x300 then some (statusOf hs)
  else if n = 0x100 then some (statusOf hs &&& sstatusMask)
  else if 1 ≤ n && n ≤ 3 then (if hs.fpOff then none else
    some (if n = 1 then hs.fcsr &&& 31 else if n = 2 then (hs.fcsr >>> 5) &&& 7 else hs.fcsr &&& 0xFF))
  else if n = 0x301 then some 0x8000_0000_0014_112D
  else if n = 0xF11 || n = 0xF12 || n = 0xF13 then some 0
  else if plainCsrs.contains n then some (hs.csrOf n)
  else none

/-- A CSR written; misa keeps its value. -/
def csrWrite (n : Nat) (v : W64) (hs : Hart) : Hart :=
  let fp := fun (x : W64) => (hs.setCsr 3 x).setCsr 0x300 (hs.csrOf 0x300 ||| 0x6000)
  if n = 0x301 then hs
  else if n = 1 then fp ((hs.fcsr &&& 0xE0) ||| (v &&& 31))
  else if n = 2 then fp ((hs.fcsr &&& 31) ||| ((v &&& 7) <<< 5))
  else if n = 3 then fp (v &&& 0xFF)
  else if n = 0x100 then hs.setCsr 0x300 ((hs.csrOf 0x300 &&& ~~~sstatusMask) ||| (v &&& sstatusMask))
  else if n = 0x104 then hs.setCsr 0x304 ((hs.csrOf 0x304 &&& ~~~(hs.csrOf 0x303)) ||| (v &&& hs.csrOf 0x303))
  else if n = 0x144 then hs.setCsr 0x344 ((hs.csrOf 0x344 &&& ~~~(2 : W64)) ||| (v &&& 2))
  else if n = 0x341 || n = 0x141 then hs.setCsr n (v &&& ~~~(1 : W64))
  else hs.setCsr n v

/-- CSR words by funct3: swap, set, clear, with a register or an immediate. -/
def csrWord (c h : Nat) (hs : Hart) (f3 n rd rs1 : Nat) (s : State) : Out :=
  let src : W64 := if 4 ≤ f3 then BitVec.ofNat 64 rs1 else hs.reg rs1
  let writes := f3 % 4 = 1 || rs1 ≠ 0
  match csrRead s c h hs n with
  | none => hartTrap c h excIllegal 0 s
  | some old =>
    if hs.mode < n / 256 % 4 || (writes && n / 1024 = 3) then hartTrap c h excIllegal 0 s
    else
      let new := match f3 % 4 with | 1 => src | 2 => old ||| src | _ => old &&& ~~~src
      let hs := if writes then csrWrite n new hs else hs
      .next (s.setHart c h ((hs.setReg rd old).retire))

/-! ### Integer words -/

/-- OP and OP-IMM by funct3; `alt`: SUB or SRA. -/
def rvAlu (f3 : Nat) (alt : Bool) (x y : W64) : W64 :=
  let sh := y.toNat % 64
  match f3 with
  | 0 => if alt then x - y else x + y
  | 1 => x <<< sh
  | 2 => if x.slt y then 1 else 0
  | 3 => if x.toNat < y.toNat then 1 else 0
  | 4 => x ^^^ y
  | 5 => if alt then x.sshiftRight sh else x >>> sh
  | 6 => x ||| y
  | _ => x &&& y

/-- OP-32 and OP-IMM-32. -/
def rvAluW (f3 : Nat) (alt : Bool) (x y : W64) : W64 :=
  let a := x.setWidth 32
  let b := y.setWidth 32
  let sh := b.toNat % 32
  let r : W32 := match f3 with
    | 0 => if alt then a - b else a + b
    | 1 => a <<< sh
    | _ => if alt then a.sshiftRight sh else a >>> sh
  r.signExtend 64

/-- The M extension at a width. -/
def rvMul (w : Nat) (f3 : Nat) (x y : BitVec w) : BitVec w :=
  let m : Int := 2 ^ w
  match f3 with
  | 0 => x * y
  | 1 => BitVec.ofInt w (x.toInt * y.toInt / m)
  | 2 => BitVec.ofInt w (x.toInt * y.toNat / m)
  | 3 => BitVec.ofNat w (x.toNat * y.toNat / 2 ^ w)
  | 4 => if y = 0 then BitVec.allOnes w else BitVec.ofInt w (x.toInt.tdiv y.toInt)
  | 5 => if y = 0 then BitVec.allOnes w else BitVec.ofNat w (x.toNat / y.toNat)
  | 6 => if y = 0 then x else BitVec.ofInt w (x.toInt.tmod y.toInt)
  | _ => if y = 0 then x else BitVec.ofNat w (x.toNat % y.toNat)

/-- Branch conditions by funct3. -/
def rvBranch (f3 : Nat) (x y : W64) : Bool :=
  match f3 with
  | 0 => x == y
  | 1 => x != y
  | 4 => x.slt y
  | 5 => !x.slt y
  | 6 => x.toNat < y.toNat
  | _ => y.toNat ≤ x.toNat

/-! ### Privileged words -/

/-- MRET. -/
def doMret (hs : Hart) : Hart :=
  let st := hs.csrOf 0x300
  let mpie := st.extractLsb' 7 1
  let st' := (st &&& ~~~(0x1888 : W64)) ||| (mpie.setWidth 64 <<< 3) ||| 0x80
  { hs.setCsr 0x300 st' with mode := (st.extractLsb' 11 2).toNat, pc := hs.csrOf 0x341, phase := 0, mark := 0, keep := [] }

/-- SRET. -/
def doSret (hs : Hart) : Hart :=
  let st := hs.csrOf 0x300
  let spie := st.extractLsb' 5 1
  let st' := (st &&& ~~~(0x122 : W64)) ||| (spie.setWidth 64 <<< 1) ||| 0x20
  { hs.setCsr 0x300 st' with mode := (st.extractLsb' 8 1).toNat, pc := hs.csrOf 0x141, phase := 0, mark := 0, keep := [] }

/-- An interrupt that hart 0 takes now (R404): enabled in mie, and the hart below M or with MIE set. -/
def takesIrq (s : State) (c h : Nat) : Bool :=
  let hs := s.hart c h
  (pendingIrq s c h &&& hs.csrOf 0x304) ≠ 0 && (hs.mode < 3 || (hs.csrOf 0x300).getLsbD 3) && hs.phase = 0

/-- Interrupt 16 taken in M-mode. -/
def takeIrq (c h : Nat) (s : State) : State :=
  let hs := takeExc 64 0 (s.hart c h)
  s.setHart c h { hs.setCsr 0x342 (BitVec.ofNat 64 (2 ^ 63 + 16)) with
    pc := if (hs.csrOf 0x305).getLsbD 0 then (hs.csrOf 0x305 &&& ~~~(3 : W64)) + 64 else hs.csrOf 0x305 &&& ~~~(3 : W64) }

/-- A word of a hart that this spec's tables do not list. -/
def rvBase (c h : Nat) (w : W32) (s : State) : Out :=
  let hs := s.hart c h
  let op := (w.extractLsb' 0 7).toNat
  let rd := (w.extractLsb' 7 5).toNat
  let f3 := (w.extractLsb' 12 3).toNat
  let rs1 := (w.extractLsb' 15 5).toNat
  let rs2 := (w.extractLsb' 20 5).toNat
  let f7 := (w.extractLsb' 25 7).toNat
  let x := hs.reg rs1
  let y := hs.reg rs2
  let immI : W64 := (w.extractLsb' 20 12).signExtend 64
  let ill := hartTrap c h excIllegal (w.setWidth 64) s
  match op with
  | 0x37 => doneHart c h rd ((w.extractLsb' 12 20 ++ (0 : BitVec 12)).signExtend 64) s
  | 0x17 => doneHart c h rd (hs.pc + (w.extractLsb' 12 20 ++ (0 : BitVec 12)).signExtend 64) s
  | 0x6F =>
    let o : W64 := (w.extractLsb' 31 1 ++ w.extractLsb' 12 8 ++ w.extractLsb' 20 1 ++ w.extractLsb' 21 10 ++ (0 : BitVec 1)).signExtend 64
    .next (s.setHart c h { (hs.setReg rd hs.nextPc).retire with pc := hs.pc + o })
  | 0x67 =>
    if f3 ≠ 0 then ill
    else .next (s.setHart c h { (hs.setReg rd hs.nextPc).retire with pc := (x + immI) &&& ~~~(1 : W64) })
  | 0x63 =>
    let o : W64 := (w.extractLsb' 31 1 ++ w.extractLsb' 7 1 ++ w.extractLsb' 25 6 ++ w.extractLsb' 8 4 ++ (0 : BitVec 1)).signExtend 64
    if f3 = 2 || f3 = 3 then ill
    else .next (s.setHart c h { hs.retire with pc := if rvBranch f3 x y then hs.pc + o else hs.nextPc })
  | 0x13 =>
    if (f3 = 1 && f7 / 2 ≠ 0) || (f3 = 5 && f7 / 2 ≠ 0 && f7 / 2 ≠ 0x10) then ill
    else doneHart c h rd (rvAlu f3 (f3 = 5 && f7 / 2 = 0x10) x immI) s
  | 0x1B =>
    if (f3 = 1 && f7 ≠ 0) || (f3 = 5 && f7 ≠ 0 && f7 ≠ 0x20) || (f3 ≠ 0 && f3 ≠ 1 && f3 ≠ 5) then ill
    else doneHart c h rd (rvAluW f3 (f3 = 5 && f7 = 0x20) x immI) s
  | 0x33 =>
    if f7 = 1 then doneHart c h rd (rvMul 64 f3 x y) s
    else if f7 = 0 || (f7 = 0x20 && (f3 = 0 || f3 = 5)) then doneHart c h rd (rvAlu f3 (f7 = 0x20) x y) s
    else ill
  | 0x3B =>
    if f7 = 1 && (f3 = 0 || 4 ≤ f3) then
      doneHart c h rd ((rvMul 32 f3 (x.setWidth 32) (y.setWidth 32)).signExtend 64) s
    else if (f7 = 0 && (f3 = 0 || f3 = 1 || f3 = 5)) || (f7 = 0x20 && (f3 = 0 || f3 = 5)) then
      doneHart c h rd (rvAluW f3 (f7 = 0x20) x y) s
    else ill
  | 0x73 =>
    if f3 = 0 then
      match w.extractLsb' 20 12 |>.toNat with
      | 0 => hartTrap c h (8 + hs.mode) 0 s
      | 1 => hartTrap c h 3 hs.pc s
      | 0x302 => if hs.mode = 3 then .next (s.setHart c h (doMret hs)) else ill
      | 0x102 => if 1 ≤ hs.mode then .next (s.setHart c h (doSret hs)) else ill
      | 0x105 => retireHart c h s
      | _ => if f7 = 9 then (if 1 ≤ hs.mode then retireHart c h s else ill) else ill
    else if f3 = 4 then ill
    else csrWord c h hs f3 (w.extractLsb' 20 12).toNat rd rs1 s
  | 0x07 | 0x27 => rvFloatMem c h w ill s
  | 0x43 | 0x47 | 0x4B | 0x4F | 0x53 => rvFloat c h w ill s
  | _ => ill

end Sys2Proof.Machine
end

