-- ==== Sys2Proof/Machine/Ports.lean ====
section
/-! DEFINITION. The turns of the machine: the scalar ports, the lane pipes, the valet harts, the calendar's due events
and the delivery of messages; each fetches and decodes its word and runs its meaning. -/
namespace Sys2Proof.Machine

/-- The answer with nobody holding the turn. -/
def release (o : Out) : Out :=
  match o with
  | .next s => .next { s with cur := .hw }
  | x => x

/-! ### The scalar port (R194, R211) -/

/-- The scalar stream takes part in the port's choice: the fibre runs and no lane word's checks stand open (R409). -/
def Fib.issues (f : Fib) : Bool := f.runs && f.susp ≠ 2

/-- A row instruction of the fibre waits for its performance tick, and the fibre fetches nothing (R83). -/
def rowOpen (s : State) (k : FKey) (f : Fib) : Bool :=
  f.phase = 1 && (s.core k.core).rowOps.any fun o => o.k = k && o.kind ≠ 3 && o.id = f.mark

/-- The fetch check of a word that was the target of a transfer has passed (R409). -/
def Fib.fetched (f : Fib) : Fib := if f.susp = 1 then { f with susp := 0 } else f

/-- Run the scalar word at a fibre's PC (R234 to R243, R276): fetch it, decode it, and run its meaning. A word that is
no instruction stops with the cause its fate names. -/
def runScalar (k : FKey) (s : State) : Out :=
  match s.fib? k with
  | none => .next s
  | some f =>
    if f.st = .saving && f.hkind ≠ 2 then saveTurn k f s
    else if f.div.isSome then stall k 17 s
    else if rowOpen s k f then stall k 6 s
    else
    let pc := redirect s f.dom f.pc
    let s := if pc = f.pc then s else redirected k false f.pc pc s
    match fetchVa { s with cur := .scalar k } k.core .fibre pc 4 with
    | .miss s => stall k 13 s
    | .fault c a i s => trapScalar k c { addr := a, info := i } s
    | .bytes b s =>
      let s := s.onFib k Fib.fetched
      match decodeScalar (BitVec.ofNat 32 (leNat b)) with
      | .ok i => exec i s
      | .illegal => trapScalar k .illegal {} s
      | .reservedMajor => trapScalar k .reservedMajor {} s
      | .privileged => trapScalar k .privileged {} s

/-- A fibre that was Blocked over a remote load and whose word has completed runs (R203). -/
def waitEnded (k : FKey) (before : State) (o : Out) : Out := match o, before.fib? k with
  | .next s, some f => .next (s.onFib k fun g => match g.wait with
    | .remote _ => if g.st = .blocked && g.pc ≠ f.pc then { g with st := .running, wait := .none } else g
    | _ => g)
  | o, _ => o

/-- A scalar word in its place in the log of a replay (R466, R467). -/
def scalarStep (k : FKey) (s : State) : Out :=
  match beforeWord k s with
  | some s => .next s
  | none => waitEnded k s (afterWord k s (runScalar k s))

/-- The word of a fibre issued, or stopped it, or began its checks; otherwise it stalled. -/
def issued (k : FKey) (s : State) (o : Out) : Bool :=
  match o with
  | .next s' => match s'.fib? k with
    | some f => f.stall = 0 || !f.issues
      || (f.susp = 1 && (match s.fib? k with | some f0 => f0.susp != 1 | none => true))
    | none => true
  | _ => true

/-- Candidates of a port in the order of R194: one that has just yielded last (R280), PRIO highest first, then least recently issued. -/
def scalarOrder (s : State) (c u : Nat) : List FKey :=
  let l := s.fibs.filter fun e => e.1.core = c && e.1.sub = u && e.2.issues && !s.holds e.2
  let before := fun (a b : FKey × Fib) =>
    if a.2.yielded != b.2.yielded then b.2.yielded
    else a.2.prio > b.2.prio || (a.2.prio == b.2.prio && a.2.stamp ≤ b.2.stamp)
  (sortBy before l).map (·.1)

/-- Fibres that were not tried show why: reason 17 when their word could have issued, else the reason it stalls with (R194, R455). -/
def notChosen (l : List FKey) (s : State) : State :=
  l.foldl (fun s k =>
    let o := release (scalarStep k s)
    let r := if issued k s o then 17 else match o with
      | .next s' => (match s'.fib? k with | some f => f.stall | none => 0)
      | _ => 0
    s.onFib k fun f => { f with stall := r, yielded := false }) s

/-- A fibre's word has issued on the port: it is the latest issuer, and the clk after a yield has passed (R194, R280). -/
def stamped (k : FKey) (s : State) : State :=
  { s with nextId := s.nextId + 1
           fibs := s.fibs.map fun (e : FKey × Fib) =>
    if e.1 = k then (k, { e.2 with stamp := s.nextId })
    else if e.1.core = k.core && e.1.sub = k.sub && e.2.yielded then (e.1, { e.2 with yielded := false }) else e }

/-- Try the candidates in order until one issues; one that stalls keeps its stall reason (R194, R455). -/
def tryScalar (l : List FKey) (s : State) : Out :=
  match l with
  | [] => .next s
  | k :: r =>
    let y := match s.fib? k with | some f => f.yielded | none => false
    let s1 := if y then s.onFib k fun f => { f with yielded := false } else s
    let o := release (scalarStep k s1)
    if issued k s o then match o with
      | .next s' => .next (stamped k (notChosen r s'))
      | x => x
    else match o with
      | .next s' => tryScalar r (if y then s'.onFib k fun f => { f with yielded := true } else s')
      | x => x

/-- The turn of a sub-core's scalar port. In a twait slot the released fibres issue in order, one in each clk; one whose word cannot
issue, or that runs no more, loses its claim (R178, R211). -/
def scalarTurn (c u : Nat) (s : State) : Out :=
  let b := (s.core c).sub u
  if (s.core c).gated then .next s else
  match b.slotF with
  | k :: r =>
    let s := s.onCore c fun co => co.setSub u { b with slotF := r, slotClk := b.slotClk + 1 }
    let may := match s.fib? k with | some f => f.issues && !s.holds f | none => false
    let o := if may then release (scalarStep k s) else .next s
    match o with
    | .next s' => .next ((if may && issued k s o then stamped k s' else s').onFib k fun f => { f with tslot := none })
    | x => x
  | [] => tryScalar (scalarOrder s c u) s

/-! ### The lane pipe (R195, R196, R249) -/

/-- Position in the rotation of R195. -/
def rotation (k : FKey) : Nat := 4 * k.slot + k.pos

/-- The fibre that takes the next turn (R195): one passed over in 16 selections first, then PRIO, then rotation after
the fibre that held the last turn. -/
def selectLane (s : State) (c u : Nat) : Option FKey :=
  let b := (s.core c).sub u
  let l := readyFibs s c u
  match starved s c u with
  | some k => some k
  | none =>
    let key := fun (e : FKey × Fib) => (rotation e.1 + 16 - (b.last + 1) % 16) % 16
    ((sortBy (fun x y => x.2.prio > y.2.prio || (x.2.prio == y.2.prio && key x ≤ key y)) l).head?).map (·.1)

/-- What holds a lane word before it is looked at further: the gate of R252, or for a press word, which takes no part in lookahead
(R164), an acquire of the scalar stream (R130). -/
def laneHeld (op : Nat) (w : LaneWord) (k : FKey) (f : Fib) (s : State) : Option Out :=
  if 0x90 ≤ op && op ≤ 0x98 then (if scalarAcq s k then some (laneStall k w 3 s) else none) else laneWait w k f s

/-- Run the lane word at the head of a fibre's first stitch (R236, R247, R250). -/
def runLane (k : FKey) (s : State) : Out :=
  match s.fib? k with
  | none => .next s
  | some f =>
    match f.stitches with
    | [] => .next s
    | t :: r =>
      let pc := redirect s f.dom t.pc
      let s := if pc = t.pc then s else
        redirected k true t.pc pc (s.onFib k fun f => { f with stitches := { t with pc := pc } :: r })
      match fetchVa { s with cur := .lane k } k.core .fibre pc 12 with
      | .miss s => stallLane k 13 s
      | .fault c a i s => trapLane k c { addr := a, info := i } s
      | .bytes b s =>
        let w : BitVec 96 := BitVec.ofNat 96 (leNat b)
        let l := laneFields w
        let stop := fun (c : Cause) => (laneHeld (w.extractLsb' 88 8).toNat l k f s).getD (trapLane k c {} s)
        if t.n = 23 ∧ !l.k then stop .stitchLong
        else match decodeLane w with
          | .ok i => exec i s
          | .reservedMajor => stop .reservedMajor
          | _ =>
            if l.a || t.mask ≠ 0 then stop .illegal
            else (laneHeld (w.extractLsb' 88 8).toNat l k f s).getD (.next (laneRetire k l s))

/-- A lane word in its place in the log of a replay (R466, R467). -/
def laneStep (k : FKey) (s : State) : Out :=
  match beforeWord k s with
  | some s => .next s
  | none => afterWord k s (runLane k s)

/-- The turn of a sub-core's lane pipe. The fibre that holds it keeps it while it waits (R195). -/
def laneTurn (c u : Nat) (s : State) : Out :=
  let b := (s.core c).sub u
  if (s.core c).gated then .next s else
  let holder := match b.holder with
    | some k => match s.fib? k with
      | some f => if f.runs && f.stitches ≠ [] then some (k, f) else none
      | none => none
    | none => none
  match holder with
  | some (k, f) => if f.ready && !s.holds f then release (laneStep k s) else .next s
  | none => match selectLane s c u with
    | some k => release (laneStep k (beginTurn c u k s))
    | none => .next s

/-! ### Valet harts (R397, R398) -/

/-- Bytes of code at a hart's pc: hart 0 fetches physical addresses, hart 1 through the domain's root (R397). The spec does not say what a
fetch beyond 52 bits does; it takes an access fault, as hart 0's loads there do. DESIGN CHOICE (log 57). -/
def hartFetch (c h : Nat) (a : W64) (n : Nat) (s : State) : Fetch :=
  if h ≠ 0 then fetchVa s c .hart1 a n else
  let pa := a.toNat
  let here := fun (pa : Nat) => nearPopulated pa || inPool pa
  if !here pa then .fault .protection a 0 s
  else if !here (pa + n - 1) then .fault .protection (a + BitVec.ofNat 64 (n - 1)) 0 s
  else
    let lines := ([pa / 128, (pa + n - 1) / 128]).filter fun l => !((s.core c).icache.any (·.line = l))
    match fetchHome lines s with
    | some s => .miss s
    | none =>
      let s := icacheFill c (pa + n - 1) 0 (icacheFill c pa 0 s true) true
      let co := s.core c
      .bytes ((List.range n).map fun j => match co.icache.find? (·.line = (pa + j) / 128) with
        | some l => l.data.getD ((pa + j) % 128) 0
        | none => 0) s

/-- A hart's fetch failed: hart 0 takes an access fault, hart 1 a page fault. -/
def fetchExc (c h : Nat) (a : W64) (s : State) : Out := hartTrap c h (if h = 0 then 1 else excFetchPage) a s

/-- Run a hart's word of 4 bytes, or one that stands for a compressed word of 2. -/
def hartWord (c h len : Nat) (w : W32) (s : State) : Out :=
  let s := s.setHart c h { s.hart c h with len := len }
  match decodeValet w with
  | some i => exec i s
  | none => rvBase c h w s

/-- Run the word at a hart's pc: 2 bytes, then the other 2 unless it is compressed. -/
def runHart (c h : Nat) (s : State) : Out :=
  let hs := s.hart c h
  let s := { s with cur := .hart c h }
  if !hs.run || !(s.core c).inService || (s.core c).gated || (s.domOfCore c).isNone then .next s
  else if takesIrq s c h then .next (takeIrq c h s)
  else match hartFetch c h hs.pc 2 s with
  | .miss s => .next s
  | .fault _ a _ s => fetchExc c h a s
  | .bytes b s =>
    if leNat b % 4 ≠ 3 then
      match rvExpand (BitVec.ofNat 16 (leNat b)) with
      | some w => hartWord c h 2 w s
      | none => hartTrap c h excIllegal (BitVec.ofNat 64 (leNat b)) s
    else match hartFetch c h hs.pc 4 s with
      | .miss s => .next s
      | .fault _ a _ s => fetchExc c h a s
      | .bytes b s => hartWord c h 4 (BitVec.ofNat 32 (leNat b)) s

/-! ### The calendar: events that must happen in this tick -/

/-- Events of a bank that are due (R88, R92, R93, R95). -/
def bankDue (s : State) (c b : Nat) : Option Instr :=
  let co := s.core c
  let σ := sigma b s.tick
  match tfind co.banks b with
  | none => none
  | some x =>
    if x.st = .opened && σ = 4662 && !(co.rowOps.any fun o => o.kind = 2 && o.t = s.tick && o.h.toNat % 128 = b) then
      some (.controllerPrecharge c b)
    else if x.st = .precharging && x.tp.getD 0 + 18 ≤ s.tick then some (.bankIdle c b)
    else if σ < 420 && x.st != .refresh then some (.refreshSlotStart c b)
    else if 300 ≤ σ && σ < 420 && !x.borrowed then some (.refreshBorrowStart c b)
    else if 420 ≤ σ && x.st = .refresh then some (.refreshSlotEnd c b)
    else if grantEndDue co b s.tick x then some (.grantEndPrecharge c b)
    else none

/-- A bank whose calendar alone is kept is scrubbed in its slot when its row has errors to find (R103). -/
def scrubBankDue (s : State) (c : Nat) : Option Instr :=
  let co := s.core c
  (co.rowErr.find? fun e => 0 < e.2.2 && (tfind co.banks (e.1 % 128)).isNone && sigma (e.1 % 128) s.tick = 0
    && scrubRow (e.1 % 128) s.tick = e.1).map fun e => .refreshSlotStart c (e.1 % 128)

/-- Events of a core that are due: its banks, its row instructions, its released twaits, its basting unit, its scrubbers. -/
def coreDue (s : State) (c : Nat) : Option Instr :=
  let co := s.core c
  let banks := (co.banks.map (·.1)).filterMap (bankDue s c)
  match banks.find? (fun i => match i with | .controllerPrecharge _ _ => false | _ => true) with
  | some i => some i
  | none =>
    if co.rowOps.any (fun o => o.t ≤ s.tick) then some (.rowPerformance c)
    else match banks with
      | i :: _ => some i
      | [] => match scrubBankDue s c with
        | some i => some i
        | none =>
          if periodicDue s c then some (.tracePeriodicSync c)
          else if sampleDue co then some (.pcSample c)
          else if padDue s co.bast then some (.bastingPad c)
          else match (List.range 4).find? (fun q => (scrubDue co q).isSome) with
            | some q => some (.boltScrub c q)
            | none => ((List.range 16).find? fun u => (slotDue s c u).isSome).map fun u => .twaitSlot c u

/-- A checkpoint of a recording domain has fallen due and its fibres still issue (R462). -/
def checkpointDue (s : State) (d : Nat) : Bool :=
  let dm := s.dom d
  dm.rpctl.getLsbD 31 && rpState dm = 1 && !dm.quiesce && dm.lastCkpt + (dm.rpctl.extractLsb' 0 10).toNat * 1_200_000 ≤ s.tick

/-- The first event of the calendar that is due. -/
def due (s : State) : Option Instr :=
  match (s.cores.filterMap fun e => coreDue s e.1).head? with
  | some i => some i
  | none => match (s.dies.map (·.1)).find? (boundExpires s) with
    | some d => some (.placementBoundExpiry d)
    | none => ((s.doms.map (·.1)).find? (checkpointDue s)).map .checkpoint

/-! ### Turns -/

/-- May a turn carry this constructor: events of the hardware, not words and not messages (those are delivered). -/
def Instr.isEvent (i : Instr) : Bool := match encode i with
  | .none => match i with
    | .msgReg _ | .msgGrant _ | .msgRevoke _ | .msgRvack _ | .msgLd _ | .msgLdata _ | .msgFwd _ | .msgFdata _ | .msgWb _
    | .msgWback _ | .msgRecall _ | .msgXreg _ | .msgPush _ | .msgHwr _ | .msgHwack _ => false
    | _ => true
  | _ => false

/-- The event of a message's arrival (R109). -/
def msgEvent (m : Msg) : Instr := match m.kind with
  | .reg => .msgReg m | .grant => .msgGrant m | .revoke => .msgRevoke m | .rvack => .msgRvack m | .ld => .msgLd m
  | .ldata => .msgLdata m | .fwd => .msgFwd m | .fdata => .msgFdata m | .wb => .msgWb m | .wback => .msgWback m
  | .recall => .msgRecall m | .xreg => .msgXreg m | .push => .msgPush m | .hwr => .msgHwr m | .hwack => .msgHwack m

/-- The message that may be delivered when the n-th is asked for: none earlier concerns its line and passes between its
endpoints (R110), and one to or from the pool has a link (R470). -/
def deliverable (s : State) (n : Nat) : Option Msg :=
  match s.net[n]? with
  | none => none
  | some m =>
    if (s.net.take n).any (fun x => x.line == m.line && x.src == m.src && x.dst == m.dst)
      || ((m.src = .pool || m.dst = .pool) && s.linksUp = 0) then none else some m

/-- A fibre Blocked over a remote load runs again once its oldest load is no longer a late remote one, or it holds a report (R203, R205,
R412). -/
def wakeRemote (s : State) : State :=
  { s with fibs := s.fibs.map fun (e : FKey × Fib) => match e.2.st, e.2.wait with
      | .blocked, .remote va => (match (fibLoads s e.1).head? with
        | some a => if a.late s.tick && e.2.reports = [] then
            (if a.firstVa = va then e else (e.1, { e.2 with wait := .remote a.firstVa, wake := remoteWake a.firstVa }))
          else (e.1, { e.2 with st := .running, wait := .none })
        | none => (e.1, { e.2 with st := .running, wait := .none }))
      | _, _ => e }

/-- After an event of the hardware: fibres Blocked over remote loads are looked at again. -/
def afterEvent (o : Out) : Out :=
  match o with
  | .next s => .next (wakeRemote { s with cur := .hw })
  | x => x

/-- Run one turn. -/
def runTurn (t : Turn) (s : State) : Out :=
  match t with
  | .scalar c u => scalarTurn c u s
  | .lane c u => laneTurn c u s
  | .hart c h => release (runHart c h s)
  | .deliver n => match deliverable s n with
    | some m => afterEvent (exec (msgEvent m) { s with cur := .hw })
    | none => .next s
  | .ev i => if Instr.isEvent i then afterEvent (exec i { s with cur := .hw }) else .next s
  | .upset u => .next (applyUpset u s)
  | .tick => .next (replayTick (advanceTick s))

/-! ### Placing a word for the next step (the load of a program, log 11) -/

/-- The launch record of the placed program: one core, one block, one fibre, 16 register granules, 8 of scratchpad. -/
def placedLaunch : Launch :=
  { cut := 0x0040_0810, entry := 0x1_0000, lcbi := 0x1_0008, fibw := 0x0000_0800, ngang := 1, evt := 1000 }

/-- The module with domain 0 on die 0, gang 0 on core 0 and its one fibre. -/
def State.withProgram (s : State) : State :=
  let l := placedLaunch
  let leaf : W64 := 0x1_C01F
  let s := s.setDom 0 { s.dom 0 with dies := 1, ncores := 32, launch := some l, dptb := 0 }
  let s := { s with gangs := [{ dom := 0, gid := 0, st := .running, cores := [0], lastDie := some 0, launches := 1 }] }
  let s := s.setFib ⟨0, 0, 0, 0⟩ (freshFib l 0 0 0 0)
  s.onCore 0 fun c => { c with bcut := 0x8040_0810, owner := some ⟨0, 0⟩, tlb := [⟨1, false, leaf⟩], icache := [] }

end Sys2Proof.Machine
end

