-- ==== Sys2Proof/Machine/Step.lean ====
section
/-! DEFINITION. One step of the machine, and the placing of a word where the next step runs it. -/
namespace Sys2Proof.Machine

/-- One step: the due event of the calendar; else the head of the agenda; else a free choice (log 6). -/
def step (s : State) : Out :=
  match due s with
  | some i => release (exec i { s with cur := .hw })
  | none => match s.agenda with
    | t :: r => runTurn t { s with agenda := r }
    | [] => runTurn (Config.freeTurn s.freeCtr) { s with freeCtr := s.freeCtr + 1 }

/-- The state with an instruction's bits stored where the next step fetches: the fibre's scalar PC for a 32-bit scalar
word, its first stitch for a lane word, hart 0's pc for a valet word. -/
def State.withFetchWord (s : State) (nbits w : Nat) : State :=
  let s := s.withProgram
  let s := { s with mem := Memory.writeBytes s.mem 0x1_0000 (leBytes w 12) }
  if nbits = 96 then
    { s.onFib ⟨0, 0, 0, 0⟩ (fun f => { f with stitches := [{ pc := 0x1_0000, mask := maskFull, snap := f.regs }] }) with
      agenda := [.lane 0 0] }
  else match valetCustom (BitVec.ofNat 32 w) with
    | some _ => { s.setHart 0 0 { Hart.init with pc := 0x1_0000 } with agenda := [.hart 0 0] }
    | none => { s with agenda := [.scalar 0 0] }

end Sys2Proof.Machine
end

