-- ==== Sys2Proof/Safety.lean ====
section
/-! DEFINITION. The terms claims use: what a safe run is, the invariant of every state, and what the turn of a scalar
stream, of a lane pipe and of a valet hart needs before its word can have its effect. -/
namespace Sys2Proof

open Sys2Proof.Machine

/-! ### Safe runs -/

/-- A step that stops stops with a refusal, never a fault. -/
def noFault (s : State) : Prop := ∀ r, step s ≠ .fault r

/-- Every memory the state holds is in its canonical form: the module's, and the one each checkpoint keeps. -/
def memInv (s : State) : Prop :=
  Memory.wf s.mem = true ∧ ∀ d ∈ s.doms, ∀ c ∈ d.2.checkpoints, Memory.wf c.mem = true

/-! ### The scalar stream -/

/-- Fibre k holds the turn of its scalar port, and a word that reads and writes these scalar registers may have its effect: no
older writer of them is pending, no enqueued lane word reads what it writes (R263, R296), and no load of one it reads has a report
to deliver (R161). -/
structure ScalarTurn (s : State) (k : FKey) (f : Fib) (reads writes : List Nat) : Prop where
  cur : s.cur = .scalar k
  fib : s.fib? k = some f
  free : interlock s k f (reads ++ writes) = none
  unread : laneNames s k f (laneScalarReads ·.2) writes = false
  quiet : f.reports.all (fun r => !(r.ctr = 0 && r.dst ≠ 0 && reads.contains r.dst)) = true

/-- The fibre's entry after a scalar word: the register file, the PC and RETIRED are as the word leaves them, what was kept
of a word in progress is dropped, and everything else of the fibre stands. -/
def Machine.Fib.after (f : Fib) (regs : List W64) (pc : W64) : Fib :=
  { f with regs := regs, pc := pc, retired := if f.hkind = 0 then f.retired + 1 else f.retired, phase := 0, mark := 0, keep := [],
           susp := if f.susp = 1 then 0 else f.susp, stall := 0, waits := false, tslot := none }

/-- The same of a word whose transfer is taken: until the fetch check of its target passes, the fibre issues nothing (R276, R409). -/
def Machine.Fib.jumped (f : Fib) (regs : List W64) (pc : W64) : Fib := { f.after regs pc with susp := 1 }

/-- The register file with S[d] written; s0 takes no write (R262). -/
def Machine.Fib.wr (f : Fib) (d : BitVec 8) (v : W64) : List W64 := if d = 0 then f.regs else f.regs.set d.toNat v

/-- The state after a scalar memory word: the word has retired, and its accesses stand in their queues or, as far as they go
without an answer, have been performed. -/
def accessStarted (k : FKey) (f : Fib) (fin : Fin) (kind : AccKind) (strong : Bool) (op : Nat) (st : Bool) (acq : Option W64)
    (sys : Bool) (l : List Checked) (s : State) : State :=
  reap k.core (issueAccs k.core (.fib k) f.pc fin 0 kind strong op f.dom false st acq sys l
    (s.onFib k fun g => g.after g.regs (g.pc + 4)))

/-! ### The lane pipe -/

/-- Fibre k holds its sub-core's lane pipe with a word of its first stitch: nothing gates the word (R130, R252), no press
operation of its spool that is not waited for can be disturbed (R166), and every bolt row of its core is a codeword (R54, R56). -/
structure LaneTurn (s : State) (k : FKey) (f : Fib) (t : Stitch) : Prop where
  cur : s.cur = .lane k
  fib : s.fib? k = some f
  head : f.stitches.head? = some t
  order : scalarAcq s k = false
  open_ : f.longs = []
  calm : s.fibs.all (fun e => !(e.1.core = k.core && e.1.sub = k.sub && e.1.slot = k.slot) || e.2.unwaited.isEmpty) = true
  rows : (s.core k.core).boltErr = []

/-- The mask in force for a lane word: its stitch's, or all lanes under A (R247 step 1). -/
def effMask (w : LaneWord) (t : Stitch) : Mask := if w.a then maskFull else t.mask

/-- Checks 5 to 7 of R247 pass for a word's operands and results: jet bases, available registers, register pairs and blocks, and
tags unless T is set. -/
def regsPass (s : State) (k : FKey) (f : Fib) (w : LaneWord) (l : List Regs) : Bool :=
  l.all fun r => r.jetOk && r.rangeOk && r.fmtOk && r.regs.all fun e =>
    available f (s.launch f.dom) e.1 && (w.t || match e.2 with | some g => s.vtag k e.1 == g | none => true)

/-- What a lane word's meaning works with under a turn. -/
def laneCtx (k : FKey) (f : Fib) (t : Stitch) (w : LaneWord) : LaneCtx := ⟨k, f, effMask w t, t.snap, t.pc⟩

/-- The state after a short lane word: flags raised, registers of active lanes and tags written, the stitch moved on. -/
def laneEffect (k : FKey) (w : LaneWord) (m : Mask) (vals : List (Nat × List W32)) (tags : List (Nat × Nat)) (flags : W64)
    (s : State) : State :=
  laneRetire k w (writeVals k m (vals, tags) (orFlags k flags s))

/-- The state after a long lane word: flags raised, its results pending until their write-back, the stitch moved on (R252). -/
def longEffect (k : FKey) (f : Fib) (t : Stitch) (w : LaneWord) (vals : List (Nat × List W32)) (tags : List (Nat × Nat))
    (flags : W64) (s : State) : State :=
  laneRetire k w (({ orFlags k flags s with nextId := s.nextId + 1 } : State).onFib k fun g => { g with
    longs := g.longs ++ [{ id := s.nextId, pc := t.pc, mask := effMask w t, vals := vals, tags := tags, la := gateOf w false,
                           at_ := f.nlane, regs := vals.map (·.1) ++ tags.map (·.1) }] })

/-- Results of every lane by coefficient: the bits and the flags NV DZ OF UF NX of each. -/
abbrev FloatResults := List (List (Nat × Nat))

/-- JFLAGS bits that the active lanes of a floating word raise (R220, R234). -/
def raised (m : Mask) (rs : FloatResults) : W64 :=
  (rs.map fun r => r.map (·.2)).zipIdx.foldl (fun x e => if m.getLsbD e.2 then x ||| jflagBits e.1 else x) 0

/-- The registers of a jet group of an order, from the results of every lane (R232, R315). -/
def jetVals (fmt order v : Nat) (rs : FloatResults) : List (Nat × List W32) :=
  (List.range (order + 1)).flatMap fun j => elemRegs fmt (coefReg fmt v j) (rs.map fun r => (r.getD j (0, 0)).1)

/-- No flag is enabled to trap (R222). -/
def trapsOff (f : Fib) : Prop := f.rmode.extractLsb' 8 5 = 0

/-- The state after a lane memory word: the stitch moved on, a word that brings results pending until every active lane has its
value (R252, R351), and its accesses started. -/
def laneStarted (k : FKey) (f : Fib) (t : Stitch) (w : LaneWord) (fin : Fin) (regs : List Nat) (kind : AccKind) (strong : Bool)
    (op : Nat) (ld st : Bool) (acq : Option W64) (sys whole : Bool) (l : List Checked) (s : State) : State :=
  let s := laneRetire k w s
  let s := if ld then s.onFib k fun g => { g with
      longs := g.longs ++ [{ id := s.nextId, pc := t.pc, mask := effMask w t, vals := [], tags := [], la := gateOf w true,
                             at_ := f.nlane, mem := true, regs := regs }] } else s
  reap k.core (issueAccs k.core (.fib k) t.pc fin (effMask w t) kind strong op f.dom ld st acq sys l s whole)

/-! ### Presses -/

/-- The state after a press word: its operation joins its press's queue with what it took at issue, PR rises, the fence is spent,
and the stitch has moved on. -/
def pressQueued (k : FKey) (f : Fib) (t : Stitch) (w : LaneWord) (o : PressOp) (u : PressUse) (s : State) : State :=
  let co := s.core k.core
  let after := (co.rowOps.filter fun r => r.kind = 1 && r.k.sub / 4 = k.sub / 4 && u.latch.contains r.latch && r.id < t.born).map (·.id)
  let o := { o with id := s.nextId, k := k, w := w, pc := t.pc, mask := effMask w t, jord := f.jord % 8, mode := f.mode, afterRow := after }
  let s' := ({ s with nextId := s.nextId + 1 } : State).onCore k.core fun co =>
    { co with press := tset co.press (k.sub / 4) (tget co.press (k.sub / 4) [] ++ [o]) }
  laneRetire k w (s'.onFib k fun g => { g with
    prq := g.prq ++ [(s.nextId, false)], fence := [], unwaited := g.unwaited ++ [{ u with id := s.nextId, mask := effMask w t }] })

/-- A press can take an operation of the fibre: PR has room, and no mofence holds it (R159, R165). -/
def pressRoom (s : State) (k : FKey) (f : Fib) : Prop := fenceWaits s k f = false ∧ f.pr < 63

/-- An operation whose press performs it next, with its fibre resident, no disturbance to undo, and every bolt row of its core a
codeword. -/
structure PressTurn (s : State) (c p : Nat) (o : PressOp) (f : Fib) : Prop where
  head : pressHead s c p = some o
  fib : s.fib? o.k = some f
  started : o.started = true
  calm : o.tainted = false
  core : o.k.core = c
  rows : (s.core c).boltErr = []

/-! ### Registration -/

/-- A request reaches a home that can serve it at once: the line is held, no other request waits, none of its words is busy, it
is not a link agent's, and no domain records or replays. -/
structure HomeTurn (s : State) (m : Msg) : Prop where
  held : s.lineHeld m.line = true
  alone : s.homeQ = []
  free : m.mask &&& s.busyWords m.line = 0
  inside : ∀ p a, m.src ≠ .agent p a
  plain : ∀ d, (s.dom d).rpctl.getLsbD 31 = false ∧ s.replaying d = false

/-- A message has left the network, and the tag it answers is free. -/
def received (m : Msg) (s : State) : State := freeTag m.tag { s with net := s.net.erase m }

/-- Every word of a mask that the home of a line sees is held by no one but p. -/
def heldBy (s : State) (line : Nat) (mask : W32) (p : Option Node) : Prop :=
  ∀ i, i < 32 → mask.getLsbD i = true → s.ownerOf line i = none ∨ s.ownerOf line i = p

/-! ### Valet harts -/

/-- Hart h of core c holds the turn. -/
structure HartTurn (s : State) (c h : Nat) : Prop where
  cur : s.cur = .hart c h

/-- Hart 0 of core c holds the turn in M-mode, as a custom-1 word needs it (R398). -/
structure HartZero (s : State) (c : Nat) : Prop where
  cur : s.cur = .hart c 0
  mode : (s.hart c 0).mode = 3

/-- The state after a word of a hart that writes x[d]. -/
def hartWrote (c h : Nat) (d : BitVec 5) (v : W64) (s : State) : State := s.setHart c h ((s.hart c h).setReg d.toNat v).retire

/-- A hart whose accesses have started: the word has completed when none of them is outstanding. -/
def hartAwait (c h : Nat) (s : State) : State :=
  if (s.hart c h).phase ≠ 3 ∨ ((s.core c).insts.any fun i => i.id = (s.hart c h).mark) = true then s
  else s.setHart c h (s.hart c h).retire

/-- The state after a hart's load or atomic has started its accesses. -/
def hartStarted (c h : Nat) (fin : Fin) (kind : AccKind) (strong : Bool) (op : Nat) (acq : Option W64) (l : List Checked)
    (s : State) : State :=
  let s' := s.setHart c h { s.hart c h with phase := 3, mark := s.nextId }
  hartAwait c h (reap c (issueAccs c (.hart c h) (s.hart c h).pc fin 0 kind strong op (hartDom s' c) false false acq false l s'))

/-- The mark of a hart's release: the request number at which it issued. -/
def hartMark (s : State) (c h : Nat) : Nat := if (s.hart c h).phase = 0 then s.nextId else (s.hart c h).mark

/-- The scalar registers that a word of the register families writes: arithmetic, control transfer, lane enqueue, waits, special and
hem registers, handler slots, trap and brk (R264 to R281, R284 to R288, R384, R393). Other words answer none. -/
def scalarWrites : Instr → Option (List Nat)
  | .add d _ _ | .sub d _ _ | .and d _ _ | .or d _ _ | .xor d _ _ | .andn d _ _ | .shl d _ _
  | .shr d _ _ | .sar d _ _ | .min d _ _ | .max d _ _ | .minn d _ _ | .maxn d _ _ | .slt d _ _
  | .sltn d _ _ | .seq d _ _ | .mul d _ _ | .mulh d _ _ | .mulhn d _ _ | .div d _ _ | .divn d _ _
  | .rem d _ _ | .remn d _ _ | .sext d _ _ | .zext d _ _ | .addi d _ _ | .andi d _ _ | .ori d _ _
  | .xori d _ _ | .shli d _ _ | .shri d _ _ | .sari d _ _ | .slti d _ _ | .sltni d _ _ | .popc d _
  | .clz d _ | .ctz d _ | .li d _ | .sget d _ | .hemget d _ | .hidget d _ => some [d.toNat]
  | .call _ | .callr _ => some [5]
  | .br _ _ _ | .jmp _ | .jr _ | .ret | .lrun _ | .lrunr _ | .swait _ _ | .yield | .twait _ | .sset _ _ | .hemset _ _ _
  | .hidput _ _ | .trap _ | .brk _ => some []
  | _ => none

end Sys2Proof
end

