-- ==== Sys2Proof/Certificates/Slice0/Obligations.lean ====
section
/-! DEFINITION. The statements about the machine, family by family: words of the scalar stream, of the lanes, of the
presses and of the valet harts, messages and events, then encodings, one step, and the machine as a whole. -/
open Sys2Proof Sys2Proof.Machine

/-- The scalar register file reads what was last written, and s0 reads 0. R262: s0 reads 0 and takes no write, every other
register of s1 to s191 reads the last value written, and writing one leaves the others. The mask triple s1 to s3 reads back
as the mask written. At fibre start s1 to s3 hold every lane active and every other register reads 0. -/
def Obligations.ScalarRegisterFile : Prop :=
  (∀ (f : Fib) (n m : Nat) (v : W64), f.regs.length = 192 → n < 192 → m < 192 →
    (f.setSreg n v).sreg m = if m = 0 then 0 else if m = n then v else f.sreg m)
  ∧ (∀ (f : Fib) (m : Mask), f.regs.length = 192 → (f.setMask m).mask = m ∧ (f.setMask m).sreg 0 = 0
    ∧ ∀ n, 4 ≤ n → n < 192 → (f.setMask m).sreg n = f.sreg n)
  ∧ (∀ (l : Launch) (dom gid bid fid : Nat), (freshFib l dom gid bid fid).mask = maskFull ∧ (freshFib l dom gid bid fid).regs.length = 192
    ∧ ∀ n, (freshFib l dom gid bid fid).sreg n = if n = 1 ∨ n = 2 ∨ n = 3 then 0xFFFF_FFFF else 0)

/-- Scalar arithmetic, immediates and division write the results of their rules. Parts: ScalarBinaryResults, ScalarUnaryResults,
DivisionResults. -/
def Obligations.ScalarArithmetic : Prop :=
  -- ScalarBinaryResults. R264, R265: the nineteen two-operand words write S[d] with the value of the rule's table, computed
  -- here over the integers; the stream goes on at the next word, RETIRED counts the word, and nothing else of the module
  -- changes.
  (
    ∀ e ∈ ([(Instr.add, fun a b => BitVec.ofInt 64 (a.toInt + b.toInt)),
        (Instr.sub, fun a b => BitVec.ofInt 64 (a.toInt - b.toInt)),
        (Instr.and, fun a b => a &&& b),
        (Instr.or, fun a b => a ||| b),
        (Instr.xor, fun a b => a ^^^ b),
        (Instr.andn, fun a b => a &&& ~~~b),
        (Instr.shl, fun a b => BitVec.ofNat 64 (a.toNat * 2 ^ (b.toNat % 64))),
        (Instr.shr, fun a b => BitVec.ofNat 64 (a.toNat / 2 ^ (b.toNat % 64))),
        (Instr.sar, fun a b => BitVec.ofInt 64 (a.toInt / 2 ^ (b.toNat % 64))),
        (Instr.min, fun a b => if b.toInt < a.toInt then b else a),
        (Instr.max, fun a b => if a.toInt < b.toInt then b else a),
        (Instr.minn, fun a b => if b.toNat < a.toNat then b else a),
        (Instr.maxn, fun a b => if a.toNat < b.toNat then b else a),
        (Instr.slt, fun a b => if a.toInt < b.toInt then 1 else 0),
        (Instr.sltn, fun a b => if a.toNat < b.toNat then 1 else 0),
        (Instr.seq, fun a b => if a = b then 1 else 0),
        (Instr.mul, fun a b => BitVec.ofInt 64 (a.toInt * b.toInt)),
        (Instr.mulh, fun a b => BitVec.ofInt 64 (a.toInt * b.toInt / 2 ^ 64)),
        (Instr.mulhn, fun a b => BitVec.ofNat 64 (a.toNat * b.toNat / 2 ^ 64))] :
        List ((BitVec 8 → BitVec 8 → BitVec 8 → Instr) × (W64 → W64 → W64))),
      ∀ (d a b : BitVec 8) (s : State) (k : FKey) (f : Fib), ScalarTurn s k f [a.toNat, b.toNat] [d.toNat] →
        exec (e.1 d a b) s = .next (s.setFib k (f.after (f.wr d (e.2 (f.sreg a.toNat) (f.sreg b.toNat))) (f.pc + 4))))
  -- ScalarUnaryResults. R267 to R271: the words of one register operand, of an immediate, and li write S[d] with the value of
  -- their rule, computed here over the integers and over lists of bit positions; nothing else of the module changes.
  ∧ (
    (∀ e ∈ ([(Instr.popc, fun a => BitVec.ofNat 64 ((List.range 64).filter fun j => a.getLsbD j).length),
        (Instr.clz, fun a => if a = 0 then 64 else BitVec.ofNat 64 (63 - a.toNat.log2)),
        (Instr.ctz, fun a => BitVec.ofNat 64 ((List.range 64).findIdx fun j => a.getLsbD j))] :
        List ((BitVec 8 → BitVec 8 → Instr) × (W64 → W64))),
      ∀ (d a : BitVec 8) (s : State) (k : FKey) (f : Fib), ScalarTurn s k f [a.toNat] [d.toNat] →
        exec (e.1 d a) s = .next (s.setFib k (f.after (f.wr d (e.2 (f.sreg a.toNat))) (f.pc + 4))))
    ∧ (∀ (d a : BitVec 8) (w : BitVec 2) (s : State) (k : FKey) (f : Fib), ScalarTurn s k f [a.toNat] [d.toNat] → w.toNat ≤ 2 →
        exec (.sext d a w) s = .next (s.setFib k (f.after
          (f.wr d (BitVec.ofInt 64 ((f.sreg a.toNat).toInt.bmod (2 ^ (8 * 2 ^ w.toNat))))) (f.pc + 4)))
        ∧ exec (.zext d a w) s = .next (s.setFib k (f.after
          (f.wr d (BitVec.ofNat 64 ((f.sreg a.toNat).toNat % 2 ^ (8 * 2 ^ w.toNat)))) (f.pc + 4))))
    ∧ (∀ e ∈ ([(Instr.addi, fun a x => BitVec.ofInt 64 (a.toInt + x)),
        (Instr.andi, fun a x => a &&& BitVec.ofInt 64 x),
        (Instr.ori, fun a x => a ||| BitVec.ofInt 64 x),
        (Instr.xori, fun a x => a ^^^ BitVec.ofInt 64 x)] :
        List ((BitVec 8 → BitVec 8 → BitVec 10 → Instr) × (W64 → Int → W64))),
      ∀ (d a : BitVec 8) (x : BitVec 10) (s : State) (k : FKey) (f : Fib), ScalarTurn s k f [a.toNat] [d.toNat] →
        exec (e.1 d a x) s = .next (s.setFib k (f.after (f.wr d (e.2 (f.sreg a.toNat) x.toInt)) (f.pc + 4))))
    ∧ (∀ e ∈ ([(Instr.shli, fun a n => BitVec.ofNat 64 (a.toNat * 2 ^ n)),
        (Instr.shri, fun a n => BitVec.ofNat 64 (a.toNat / 2 ^ n)),
        (Instr.sari, fun a n => BitVec.ofInt 64 (a.toInt / 2 ^ n))] :
        List ((BitVec 8 → BitVec 8 → BitVec 6 → Instr) × (W64 → Nat → W64))),
      ∀ (d a : BitVec 8) (n : BitVec 6) (s : State) (k : FKey) (f : Fib), ScalarTurn s k f [a.toNat] [d.toNat] →
        exec (e.1 d a n) s = .next (s.setFib k (f.after (f.wr d (e.2 (f.sreg a.toNat) n.toNat)) (f.pc + 4))))
    ∧ (∀ (d a : BitVec 8) (x : BitVec 9) (s : State) (k : FKey) (f : Fib), ScalarTurn s k f [a.toNat] [d.toNat] →
        exec (.slti d a x) s = .next (s.setFib k (f.after
          (f.wr d (if (f.sreg a.toNat).toInt < x.toInt then 1 else 0)) (f.pc + 4)))
        ∧ exec (.sltni d a x) s = .next (s.setFib k (f.after
          (f.wr d (if (f.sreg a.toNat).toNat < x.toNat then 1 else 0)) (f.pc + 4))))
    ∧ (∀ (d : BitVec 8) (x : BitVec 18) (s : State) (k : FKey) (f : Fib), ScalarTurn s k f [] [d.toNat] →
        exec (.li d x) s = .next (s.setFib k (f.after (f.wr d (BitVec.ofInt 64 x.toInt)) (f.pc + 4)))))
  -- DivisionResults. R266, R263: div, divn, rem and remn issue with the quotient or remainder of the rule's program pending,
  -- while it is pending no scalar word of the fibre issues (stall reason 17), and SCALAR_DIVIDE_COMPLETE writes it to S[d].
  ∧ (
    (∀ e ∈ ([(Instr.div, fun a b => if b = 0 then BitVec.allOnes 64 else BitVec.ofInt 64 (a.toInt.tdiv b.toInt)),
        (Instr.divn, fun a b => if b = 0 then BitVec.allOnes 64 else BitVec.ofNat 64 (a.toNat / b.toNat)),
        (Instr.rem, fun a b => if b = 0 then a else BitVec.ofInt 64 (a.toInt - a.toInt.tdiv b.toInt * b.toInt)),
        (Instr.remn, fun a b => if b = 0 then a else BitVec.ofNat 64 (a.toNat % b.toNat))] :
        List ((BitVec 8 → BitVec 8 → BitVec 8 → Instr) × (W64 → W64 → W64))),
      ∀ (d a b : BitVec 8) (s : State) (k : FKey) (f : Fib), ScalarTurn s k f [a.toNat, b.toNat] [d.toNat] →
        exec (e.1 d a b) s = .next (s.setFib k { f.after f.regs (f.pc + 4) with
          div := some (d.toNat, e.2 (f.sreg a.toNat) (f.sreg b.toNat)) }))
    ∧ (∀ (s : State) (k : FKey) (f : Fib) (d : BitVec 8) (v : W64), s.fib? k = some f → f.div = some (d.toNat, v) →
        (∀ regs, interlock s k f regs = some 17)
        ∧ exec (.scalarDivideComplete k) s = .next (s.setFib k { f with regs := f.wr d v, div := none })))

/-- Branches, jumps, calls and register jumps set the PC and lr. Parts: BranchAndJump, RegisterJumps. -/
def Obligations.ControlTransfer : Prop :=
  -- BranchAndJump. R273, R240, R274: br goes to PC + 4 × off when its condition holds of S[a], or of the mask, and to PC + 4
  -- otherwise; jmp and call go to PC + 4 × off, and call leaves PC + 4 in s5; after a transfer the fibre issues nothing until
  -- the fetch check of its target has passed (R276, R409). A traced branch adds one packet (R456).
  (
    (∀ (a : BitVec 8) (c : BitVec 4) (o : BitVec 14) (s : State) (k : FKey) (f : Fib),
      ScalarTurn s k f (if c.toNat < 6 then [a.toNat] else [1, 2, 3]) [] → c.toNat ≤ 8 →
      let v := (f.sreg a.toNat).toInt
      let taken : Bool := match c.toNat with
        | 0 => v = 0 | 1 => v ≠ 0 | 2 => v < 0 | 3 => 0 ≤ v | 4 => 0 < v | 5 => v ≤ 0
        | 6 => f.mask ≠ 0 | 7 => f.mask = 0 | _ => f.mask = BitVec.allOnes 96
      exec (.br a c o) s = .next ((trace k [if taken then 0x31 else 0x30, BitVec.ofNat 8 (handleOf k)] s).setFib k
        (if taken then f.jumped f.regs (f.pc + BitVec.ofInt 64 (4 * o.toInt)) else f.after f.regs (f.pc + 4))))
    ∧ (∀ (o : BitVec 26) (s : State) (k : FKey) (f : Fib), ScalarTurn s k f [] [] →
      exec (.jmp o) s = .next (s.setFib k (f.jumped f.regs (f.pc + BitVec.ofInt 64 (4 * o.toInt)))))
    ∧ (∀ (o : BitVec 26) (s : State) (k : FKey) (f : Fib), ScalarTurn s k f [] [5] →
      exec (.call o) s = .next (s.setFib k (f.jumped (f.regs.set 5 (f.pc + 4)) (f.pc + BitVec.ofInt 64 (4 * o.toInt))))))
  -- RegisterJumps. R275: jr, callr and ret go to the value of S[a], or of s5; callr leaves PC + 4 in s5. A target that is not
  -- a multiple of 4 stops the fibre with ALIGN at the word, ADDR holding the target, and then no register is written.
  ∧ (
    ∀ (a : BitVec 8) (s : State) (k : FKey) (f : Fib),
      (ScalarTurn s k f [a.toNat] [] → let v := f.sreg a.toNat
        exec (.jr a) s = if v.toNat % 4 = 0 then
            .next ((trace k ([0x40, BitVec.ofNat 8 (handleOf k)] ++ leBytes v.toNat 8) s).setFib k (f.jumped f.regs v))
          else .next (takeStop k 7 { addr := v } f.pc s))
      ∧ (ScalarTurn s k f [a.toNat] [5] → let v := f.sreg a.toNat
        exec (.callr a) s = if v.toNat % 4 = 0 then
            .next ((trace k ([0x40, BitVec.ofNat 8 (handleOf k)] ++ leBytes v.toNat 8) s).setFib k (f.jumped (f.regs.set 5 (f.pc + 4)) v))
          else .next (takeStop k 7 { addr := v } f.pc s))
      ∧ (ScalarTurn s k f [5] [] → let v := f.sreg 5
        exec .ret s = if v.toNat % 4 = 0 then
            .next ((trace k ([0x40, BitVec.ofNat 8 (handleOf k)] ++ leBytes v.toNat 8) s).setFib k (f.jumped f.regs v))
          else .next (takeStop k 7 { addr := v } f.pc s)))

/-- Lane enqueue, counter waits, yield and twait. Parts: LaneEnqueue, WaitWords. -/
def Obligations.LaneEnqueueAndWaits : Prop :=
  -- LaneEnqueue. R277, R278, R295: with room in the queue, lrun and lrunr add a stitch at LCB + 12 × their index, modulo 2⁶⁴,
  -- with a copy of the mask and of the scalar registers; apart from what tracing keeps, nothing else changes. A full queue of
  -- 16 makes the word wait (reason 17).
  (
    ∀ (i : Instr) (s : State) (k : FKey) (f : Fib) (reads : List Nat) (idx : W64),
      ((∃ o : BitVec 22, i = .lrun o ∧ reads = [1, 2, 3] ∧ idx = o.setWidth 64)
        ∨ (∃ a : BitVec 8, i = .lrunr a ∧ reads = [a.toNat, 1, 2, 3] ∧ idx = f.sreg a.toNat)) →
      ScalarTurn s k f reads [] →
      (f.stitches.length < 16 → ∃ ps : List (List W8), exec i s = .next ((ps.foldl (fun t p => trace k p t) s).setFib k { f.after f.regs (f.pc + 4) with
          stitches := f.stitches ++ [{ pc := f.lcb + 12 * idx, mask := f.mask, n := 0, snap := f.regs, born := s.nextId }]
          stallL := if f.stitches = [] then 0 else f.stallL, traceMask := some f.mask }))
      ∧ (16 ≤ f.stitches.length → exec i s = .next (s.setFib k { f with stall := 17, waits := false })))
  -- WaitWords. R279, R160, R161, R280, R281: swait goes on once its counter is at most n (LQ being 0 for LD, ST and PR, and no
  -- scalar load outstanding for LD), a held report its wait covers stopping the fibre there, and otherwise stays at its word
  -- with its counter's reason; yield leaves the port to another fibre for one word; twait goes on when TICK has reached S[a],
  -- or in replay, and otherwise stays.
  ∧ (
    (∀ (n : BitVec 8) (c : BitVec 4) (s : State) (k : FKey) (f : Fib), ScalarTurn s k f [] [] → c.toNat ≤ 5 →
      (c.toNat ∈ [1, 2, 3] → f.lq ≠ 0 → exec (.swait n c) s = .next (s.setFib k { f with stall := 17, waits := false }))
      ∧ ((c.toNat ∈ [1, 2, 3] → f.lq = 0) →
        (c.toNat = 1 → (scalarLoadOut s k = true ∨ n.toNat < f.counter 1) → exec (.swait n c) s = .next (s.setFib k
          { f with stall := 3, waits := true, susp := if f.susp = 1 then 0 else f.susp }))
        ∧ (c.toNat ≠ 1 → n.toNat < f.counter c.toNat → exec (.swait n c) s = .next (s.setFib k
          { f with stall := [17, 3, 21, 4, 5, 6].getD c.toNat 0, waits := false }))
        ∧ ((c.toNat = 1 → scalarLoadOut s k = false) → f.counter c.toNat ≤ n.toNat →
          ((f.reports.all fun r => !covers c.toNat r) = true → exec (.swait n c) s = .next (s.setFib k { f.after f.regs (f.pc + 4) with
            unwaited := if c.toNat = 3 then f.unwaited.filter (fun u => f.prq.any fun e => e.1 = u.id) else f.unwaited }))
          ∧ (∀ r ∈ f.reports, covers c.toNat r = true →
            ∃ t g, exec (.swait n c) s = .next t ∧ t.fib? k = some g ∧ g.st = .frozen ∧ g.pc = f.pc ∧ g.regs = f.regs))))
    ∧ (∀ (s : State) (k : FKey) (f : Fib), ScalarTurn s k f [] [] →
      exec .yield s = .next (s.setFib k { f.after f.regs (f.pc + 4) with yielded := true }))
    ∧ (∀ (a : BitVec 8) (s : State) (k : FKey) (f : Fib), ScalarTurn s k f [a.toNat] [] →
      exec (.twait a) s = .next (s.setFib k (if (f.sreg a.toNat).toNat ≤ s.tick ∨ s.replaying f.dom = true
        then f.after f.regs (f.pc + 4) else { f with stall := 18, keep := [f.sreg a.toNat] }))))

/-- sget reads and sset writes every special register of the spec. Parts: SpecialRegisterReads, SpecialRegisterWrites. -/
def Obligations.SpecialRegisters : Prop :=
  -- SpecialRegisterReads. R241, R284, R289 to R293: sget of each special register the spec numbers, once the lane stream lets
  -- JFLAGS and RETIRED be read, writes S[d] with that register's fields in their places; TICK reads as the fibre's slot tick
  -- if it has one.
  (
    ∀ (d n : BitVec 8) (s : State) (k : FKey) (f : Fib), ScalarTurn s k f [] [d.toNat] →
      (n ∈ [(0x09 : BitVec 8), 0x19] → f.lq = 0 ∧ f.longs.all (·.mem) = true) → s.replaying f.dom = false →
      (s.dom f.dom).rpctl.getLsbD 31 = false →
      ∀ v : W64, (n, v) ∈ ([(0x00, BitVec.ofNat 64 (f.tslot.getD s.tick)), (0x01, BitVec.ofNat 64 (f.fid % 32)),
          (0x02, BitVec.ofNat 64 (f.spid % 32)), (0x03, BitVec.ofNat 64 (f.bid % 2 ^ 25)), (0x04, BitVec.ofNat 64 (f.gid % 2 ^ 16)),
          (0x05, BitVec.ofNat 64 (k.core % 256) <<< 16 ||| BitVec.ofNat 64 (k.core / 32 % 8) <<< 8 ||| BitVec.ofNat 64 (f.dom % 8)),
          (0x06, BitVec.ofNat 64 ((s.dom f.dom).ncores % 512)), (0x08, BitVec.ofNat 64 (f.jord % 8)), (0x09, f.jflags),
          (0x0A, f.rmode), (0x0B, f.lcb), (0x0C, BitVec.ofNat 64 (f.prio % 4)), (0x10, f.tvec), (0x11, f.epcs), (0x12, f.epcl),
          (0x13, f.cause), (0x14, f.wake),
          (0x18, match (s.core k.core).liveGrant f.dom f.bid with | some g => grantWord g.1 g.2 | none => 0),
          (0x19, BitVec.ofNat 64 f.retired)] : List (BitVec 8 × W64)) →
        exec (.sget d n) s = .next (s.setFib k (f.after (f.wr d v) (f.pc + 4))))
  -- SpecialRegisterWrites. R284 to R286, R221, R205, R291, R292: sset writes the bits its register has and drops the others:
  -- JORD, JFLAGS and RMODE once the lane stream is still, LCB if S[a] is a multiple of 12 (else ALIGN), and the trap registers
  -- in a handler (else PRIVILEGED).
  ∧ (
    ∀ (a : BitVec 8) (s : State) (k : FKey) (f : Fib), ScalarTurn s k f [a.toNat] [] →
      let v := f.sreg a.toNat
      let g := f.after f.regs (f.pc + 4)
      (f.lq = 0 → f.longs.all (·.mem) = true →
        exec (.sset 0x08 a) s = .next (s.setFib k { g with jord := v.toNat % 8 })
        ∧ exec (.sset 0x09 a) s = .next (s.setFib k { g with jflags := (v.extractLsb' 0 41).setWidth 64 })
        ∧ exec (.sset 0x0A a) s = .next (s.setFib k { g with rmode := v &&& 0x1F03 }))
      ∧ (v.toNat % 12 = 0 → exec (.sset 0x0B a) s = .next (s.setFib k { g with lcb := v }))
      ∧ (v.toNat % 12 ≠ 0 → exec (.sset 0x0B a) s = .next (takeStop k 7 { addr := v } f.pc s))
      ∧ exec (.sset 0x0C a) s = .next (s.setFib k { g with prio := v.toNat % 4 })
      ∧ (f.hkind ≠ 0 →
        exec (.sset 0x10 a) s = .next (s.setFib k { g with tvec := v &&& ~~~3 })
        ∧ exec (.sset 0x11 a) s = .next (s.setFib k { g with epcs := v })
        ∧ exec (.sset 0x12 a) s = .next (s.setFib k { g with epcl := v })
        ∧ exec (.sset 0x13 a) s = .next (s.setFib k { g with cause := (v.extractLsb' 0 32).setWidth 64 })
        ∧ exec (.sset 0x14 a) s = .next (s.setFib k { g with wake := v &&& ~~~((3 : W64) <<< 52) }))
      ∧ (f.hkind = 0 → ∀ n ∈ [(0x10 : BitVec 8), 0x11, 0x12, 0x13, 0x14], exec (.sset n a) s = .next (takeStop k 26 {} f.pc s)))

/-- Extension blocks are taken and given back; hem registers are written and read. Parts: ExtensionBlocks, HemRegisters. -/
def Obligations.ExtensionAndHemRegisters : Prop :=
  -- ExtensionBlocks. R199, R287, R288: xacq waits for LQ (reason 17); a fibre that holds a block keeps it; without pools it
  -- stops with REG_RANGE; it takes a free block of its sub-core in the order of issue, which reads 0 with no tag set, and else
  -- waits with reason 11. xrel, with LQ, LD and PR at 0, gives the block back to the pool.
  (
    ∀ (s : State) (k : FKey) (f : Fib), ScalarTurn s k f [] [] →
      let q := ((s.core k.core).sub k.sub).xq
      let mine := q = [] ∨ q.head? = some k
      let rest := fun (t : State) => t.mem = s.mem ∧ t.owners = s.owners ∧ t.spools = s.spools ∧ t.blocks = s.blocks ∧ t.doms = s.doms
        ∧ (∀ j, j ≠ k → t.fib? j = s.fib? j) ∧ (∀ c, c ≠ k.core → t.core c = s.core c) ∧ (t.core k.core).l1 = (s.core k.core).l1
      (f.hkind ≠ 2 → f.hkind ≠ 3 →
        (f.lq ≠ 0 → exec .xacq s = .next (s.setFib k { f with stall := 17, waits := false }))
        ∧ (f.lq = 0 → f.ext = true → exec .xacq s = .next (s.setFib k (f.after f.regs (f.pc + 4))))
        ∧ (f.lq = 0 → f.ext = false → (s.launch f.dom).xp = 0 → exec .xacq s = .next (takeStop k 4 {} f.pc s))
        ∧ (f.lq = 0 → f.ext = false → (s.launch f.dom).xp ≠ 0 → poolFree s k ≠ 0 → mine →
          ∃ t g, exec .xacq s = .next t ∧ t.fib? k = some g ∧ poolFree t k = poolFree s k - 1 ∧ rest t
            ∧ g = { f.after f.regs (f.pc + 4) with ext := true, vregs := g.vregs, tags := g.tags }
            ∧ ∀ v, (128 ≤ v → v < 192 → t.vreg k v = List.replicate 96 0 ∧ t.vtag k v = 15)
              ∧ (v < 128 ∨ 192 ≤ v → t.vreg k v = s.vreg k v ∧ t.vtag k v = s.vtag k v))
        ∧ (f.lq = 0 → f.ext = false → (s.launch f.dom).xp ≠ 0 → poolFree s k = 0 ∨ ¬mine →
          ∃ t, exec .xacq s = .next t ∧ t.fib? k = some { f with stall := 11, waits := false } ∧ rest t
            ∧ poolFree t k = poolFree s k ∧ k ∈ ((t.core k.core).sub k.sub).xq))
      ∧ (f.lq = 0 → f.ld = 0 → f.pr = 0 →
        (f.ext = false → exec .xrel s = .next (s.setFib k (f.after f.regs (f.pc + 4))))
        ∧ (f.ext = true → ∃ t g, exec .xrel s = .next t ∧ t.fib? k = some g ∧ poolFree t k = poolFree s k + 1 ∧ rest t
          ∧ g = { f.after f.regs (f.pc + 4) with ext := false, vregs := g.vregs, tags := g.tags }
          ∧ ∀ v, v < 128 ∨ 192 ≤ v → t.vreg k v = s.vreg k v ∧ t.vtag k v = s.vtag k v)))
  -- HemRegisters. R383, R384: hemset h writes LO with S[a][31:0], HI with S[a][63:32] and ACT with its field, none (0), clamp
  -- (1) or trap (2); hemget writes S[d] with HI in [63:32] and LO in [31:0]. No other hem register changes, and nothing else
  -- of the module does.
  ∧ (
    (∀ (h : BitVec 5) (a : BitVec 8) (act : BitVec 2) (s : State) (k : FKey) (f : Fib), ScalarTurn s k f [a.toNat] [] → act.toNat ≤ 2 →
      ∃ b, exec (.hemset h a act) s = .next ((s.setBlock f.dom f.bid b).setFib k (f.after f.regs (f.pc + 4)))
        ∧ b = { s.block f.dom f.bid with hems := b.hems }
        ∧ ∀ j, tget b.hems j {} = if j = h.toNat then ⟨(f.sreg a.toNat).extractLsb' 0 32, (f.sreg a.toNat).extractLsb' 32 32, act.toNat⟩
            else hemOf s f.dom f.bid j)
    ∧ (∀ (d : BitVec 8) (h : BitVec 5) (s : State) (k : FKey) (f : Fib), ScalarTurn s k f [] [d.toNat] →
      let m := hemOf s f.dom f.bid h.toNat
      exec (.hemget d h) s = .next (s.setFib k (f.after (f.wr d (m.hi ++ m.lo)) (f.pc + 4)))))

/-- Barriers depart when all have arrived; crews are joined and left. Parts: BarrierArrivalAndDeparture, CrewWords. -/
def Obligations.BarriersAndCrews : Prop :=
  -- BarrierArrivalAndDeparture. R201, R282: bar, fbar, gbar and a crew member's cbar, issued when nothing holds the arrival
  -- back: if every other fibre of the barrier's set waits there, all depart together, each at the word after its own; if one
  -- has not arrived, nobody departs.
  (
    ∀ (i : Instr) (w : Wait) (scope : Nat) (s : State) (k : FKey) (f : Fib),
      ((i = .bar ∧ w = .bar ∧ scope = 0) ∨ (i = .fbar ∧ w = .fbar ∧ scope = 0) ∨ (i = .gbar ∧ w = .gbar ∧ scope = 1)
        ∨ (∃ c : BitVec 3, i = .cbar c ∧ w = .cbar c.toNat ∧ scope = 0
            ∧ f.fid ∈ tget (s.block f.dom f.bid).crews c.toNat [])) →
      ScalarTurn s k f [] [] → f.hkind ≠ 2 → f.hkind ≠ 3 → f.st = .running → f.wait ≠ w → f.lq = 0 → f.longs = [] → f.ld = 0 →
      readsOut s k.core (.fib k) = false →
      f.reports = [] → (s.fibs.map (·.1)).Nodup →
      releaseWaits s k.core (.fib k) scope (f.oneCore s) (if f.phase = 0 then s.nextId else f.mark) = false →
      ((∀ e ∈ barrierSet s f w, e.1 ≠ k → e.2.wait = w ∧ e.2.st ≠ .saving ∧ e.2.st ≠ .saved ∧ e.2.st ≠ .restoring ∧ e.2.st ≠ .frozen ∧ e.2.st ≠ .parked
          ∧ e.2.reports = []) →
        ∃ t, exec i s = .next t ∧ t.mem = s.mem ∧ ∀ e ∈ barrierSet s f w, ∃ g, t.fib? e.1 = some g ∧ g.wait = .none
          ∧ g.pc = e.2.pc + 4 ∧ g.regs = e.2.regs)
      ∧ ((∃ e ∈ barrierSet s f w, e.1 ≠ k ∧ e.2.wait ≠ w) →
        ∃ t g, exec i s = .next t ∧ t.mem = s.mem ∧ t.fib? k = some g ∧ g.wait = w ∧ g.pc = f.pc ∧ g.regs = f.regs
          ∧ ∀ j, j ≠ k → t.fib? j = s.fib? j))
  -- CrewWords. R202: cbar by a fibre that is no member completes at once; cjoin makes the fibre a member, of the next phase if
  -- the current one has an arrival; cleave ends its membership. Other crews of the block stand.
  ∧ (
    (∀ (c : BitVec 3) (s : State) (k : FKey) (f : Fib), ScalarTurn s k f [] [] → f.hkind ≠ 2 → f.hkind ≠ 3 →
      f.fid ∉ tget (s.block f.dom f.bid).crews c.toNat [] → f.fid ∉ tget (s.block f.dom f.bid).late c.toNat [] →
      exec (.cbar c) s = .next (s.setFib k (f.after f.regs (f.pc + 4)))
      ∧ ∃ t, exec (.cjoin c) s = .next t ∧ t.mem = s.mem ∧ t.fib? k = some (f.after f.regs (f.pc + 4))
        ∧ (∀ x ≠ c.toNat, tget (t.block f.dom f.bid).crews x [] = tget (s.block f.dom f.bid).crews x [])
        ∧ (if ∃ e ∈ s.fibsOfBlock f.dom f.bid, e.2.fid ∈ tget (s.block f.dom f.bid).crews c.toNat [] ∧ e.2.wait = .cbar c.toNat then
            f.fid ∈ tget (t.block f.dom f.bid).late c.toNat []
              ∧ tget (t.block f.dom f.bid).crews c.toNat [] = tget (s.block f.dom f.bid).crews c.toNat []
          else tget (t.block f.dom f.bid).crews c.toNat [] = tget (s.block f.dom f.bid).crews c.toNat [] ++ [f.fid]))
    ∧ (∀ (c : BitVec 3) (s : State) (k : FKey) (f : Fib), ScalarTurn s k f [] [] → f.hkind ≠ 2 → f.hkind ≠ 3 →
      (s.fibs.map (·.1)).Nodup →
      ∃ t g, exec (.cleave c) s = .next t ∧ t.mem = s.mem ∧ t.fib? k = some g ∧ g.pc = f.pc + 4 ∧ g.regs = f.regs
        ∧ f.fid ∉ tget (t.block f.dom f.bid).crews c.toNat []
        ∧ ∀ x ≠ c.toNat, tget (t.block f.dom f.bid).crews x [] = tget (s.block f.dom f.bid).crews x []))

/-- Taking a stop saves cause and PCs, freezes the fibre and queues one record. R292, R392, R408, R413: a stop outside a handler
leaves the cause with its fields in CAUSE, the scalar PC in EPCS and the next lane word's PC in EPCL, freezes the fibre at
EPCS with its registers and queued stitches as they stand, and queues one record for hart 0 of its core; a stop inside a
handler leaves CAUSE, EPCS and EPCL alone. -/
def Obligations.TakingAStop : Prop :=
  ∀ (k : FKey) (cause : Nat) (x : StopInfo) (epcs : W64) (s : State) (f : Fib), s.fib? k = some f → s.replaying f.dom = false →
    ∃ g, (takeStop k cause x epcs s).fib? k = some g ∧ g.st = .frozen ∧ g.pc = epcs
      ∧ g.regs = f.regs ∧ g.vregs = f.vregs ∧ g.tags = f.tags ∧ g.stitches = f.stitches ∧ g.hkind = f.hkind ∧ g.retired = f.retired
      ∧ g.tvec = f.tvec ∧ g.jflags = f.jflags ∧ g.hslots = f.hslots
      ∧ (f.hkind = 0 → g.epcs = epcs ∧ g.epcl = (match f.stitches with | [] => 0 | t :: _ => t.pc)
          ∧ g.cause.extractLsb' 0 8 = BitVec.ofNat 8 cause ∧ g.cause.extractLsb' 8 8 = BitVec.ofNat 8 x.lane
          ∧ g.cause.extractLsb' 16 3 = BitVec.ofNat 3 x.coef ∧ g.cause.extractLsb' 19 5 = BitVec.ofNat 5 x.flags
          ∧ g.cause.extractLsb' 24 8 = BitVec.ofNat 8 x.arg ∧ g.cause.extractLsb' 32 32 = 0)
      ∧ (f.hkind ≠ 0 → g.epcs = f.epcs ∧ g.epcl = f.epcl ∧ g.cause = f.cause)
      ∧ (takeStop k cause x epcs s).mem = s.mem
      ∧ (∀ j, j ≠ k → (takeStop k cause x epcs s).fib? j = s.fib? j)
      ∧ ((s.core k.core).recs.length < 64 → ((takeStop k cause x epcs s).core k.core).recs
          = (s.core k.core).recs ++ [mkRecord x.rkind (handleOf k) x.aux x.srcl (causeWord cause x) epcs f.lanePc x.addr x.info s.tick
              (ident k f) f.retired])

/-- trap and brk take their stops, and tret returns from a handler. Parts: TrapAndBreak, TrapReturn. -/
def Obligations.TrapBreakAndReturn : Prop :=
  -- TrapAndBreak. R394: with LQ at 0, trap takes the stop TRAP_CALL with its code in ARG and resumes at the next word; brk
  -- takes the stop BREAK at its own address. With lane work enqueued both wait.
  (
    ∀ (c : BitVec 8) (s : State) (k : FKey) (f : Fib), ScalarTurn s k f [] [] →
      (f.lq = 0 → exec (.trap c) s = .next (takeStop k 21 { arg := c.toNat } (f.pc + 4) s)
        ∧ exec (.brk c) s = .next (takeStop k 22 { arg := c.toNat } f.pc s))
      ∧ (f.lq ≠ 0 → exec (.trap c) s = .next (s.setFib k { f with stall := 17, waits := false })
        ∧ exec (.brk c) s = .next (s.setFib k { f with stall := 17, waits := false })))
  -- TrapReturn. R396, R208, R419: outside a handler tret stops with TRET_ILLEGAL; in one, with every counter at 0, no scalar
  -- load outstanding and no report held, it stops with STATUS_RESERVED unless the handler's status is acceptable, and returns
  -- otherwise: from a trap handler to EPCS, with the mask of slots H0 to H2 and the held stitches, the first at EPCL; from a
  -- save handler into Saved; from a restore handler it stays Restoring until the gang's last fibre returns, and then waits
  -- again or goes on.
  ∧ (
    ∀ (s : State) (k : FKey) (f : Fib), ScalarTurn s k f [] [] →
      (f.hkind = 0 → exec .tret s = .next (takeStop k 23 {} f.pc s))
      ∧ (f.hkind ≠ 0 → f.reports = [] → (∀ c, c ≤ 5 → f.counter c = 0) → scalarLoadOut s k = false →
        let ok := f.hslots.getD 3 0 = BitVec.ofNat 64 f.hkind ∧ f.epcs.toNat % 4 = 0 ∧ f.epcl.toNat % 4 = 0 ∧ f.wake.toNat < 7 * 2 ^ 60
        (¬ok → exec .tret s = .next (takeStop k 24 {} f.pc s))
        ∧ (ok →
          (f.hkind = 1 → f.regs.length = 192 → ∃ t g, exec .tret s = .next t ∧ t.fib? k = some g ∧ g.hkind = 0 ∧ g.pc = f.epcs
              ∧ g.st = .running ∧ g.sreg 1 = f.hslots.getD 0 0 ∧ g.sreg 2 = f.hslots.getD 1 0
              ∧ g.sreg 3 = f.hslots.getD 2 0 ∧ (∀ n, 4 ≤ n → g.sreg n = f.sreg n) ∧ t.mem = s.mem
              ∧ g.stitches = (match f.held with | [] => [] | h :: r => { h with pc := f.epcl } :: r)
              ∧ g.vregs = f.vregs ∧ g.tags = f.tags ∧ g.hslots = f.hslots ∧ ∀ j, j ≠ k → t.fib? j = s.fib? j)
          ∧ (f.hkind = 2 → ∃ t g, exec .tret s = .next t ∧ t.fib? k = some g ∧ g.st = .saved ∧ g.hkind = 0 ∧ g.pc = f.epcs
              ∧ t.mem = s.mem ∧ ∀ j, j ≠ k → t.fib? j = s.fib? j)
          ∧ (f.hkind = 3 →
            ((∃ e ∈ s.fibsOfGang f.gang, e.1 ≠ k ∧ e.2.st ≠ .exited ∧ (e.2.st ≠ .restoring ∨ e.2.hkind ≠ 0)) →
              ∃ t g, exec .tret s = .next t ∧ t.fib? k = some g ∧ g.st = .restoring ∧ g.hkind = 0 ∧ g.pc = f.epcs
                ∧ t.mem = s.mem ∧ ∀ j, j ≠ k → t.fib? j = s.fib? j)
            ∧ (s.fibsOfGang f.gang = [(k, f)] → f.wake.toNat / 2 ^ 60 ≠ 6 →
              ∃ t g, exec .tret s = .next t ∧ t.fib? k = some g ∧ g.pc = f.epcs ∧ g.hkind = f.hback ∧ t.mem = s.mem
                ∧ (if 1 ≤ f.wake.toNat / 2 ^ 60 ∧ f.wake.toNat / 2 ^ 60 ≤ 4 then g.st = .blocked ∧ g.wait = f.wait
                  else g.st = .running ∧ g.wait = .none))))))

/-- Handler slots, words a handler forbids, and exit. Parts: HandlerForbidsBarriers, HandlerSlots, FibreExit. -/
def Obligations.HandlerWordsAndExit : Prop :=
  -- HandlerForbidsBarriers. R283, R287: in a save or restore handler bar, fbar, gbar, cbar, cjoin, cleave and xacq stop the
  -- fibre with ILLEGAL.
  (
    ∀ (c : BitVec 3) (s : State) (k : FKey) (f : Fib), ScalarTurn s k f [] [] → (f.hkind = 2 ∨ f.hkind = 3) →
      ∀ i ∈ [Instr.bar, .fbar, .gbar, .cbar c, .cjoin c, .cleave c, .xacq], exec i s = .next (takeStop k 1 {} f.pc s))
  -- HandlerSlots. R395: hidget and hidput read and write the sixteen handler slots in a handler; outside one they stop with
  -- PRIVILEGED.
  ∧ (
    ∀ (r : BitVec 8) (n : BitVec 4) (s : State) (k : FKey) (f : Fib),
      (ScalarTurn s k f [] [r.toNat] → exec (.hidget r n) s = .next (if f.hkind = 0 then takeStop k 26 {} f.pc s
          else s.setFib k (f.after (f.wr r (f.hslots.getD n.toNat 0)) (f.pc + 4))))
      ∧ (ScalarTurn s k f [r.toNat] [] → exec (.hidput r n) s = .next (if f.hkind = 0 then takeStop k 26 {} f.pc s
          else s.setFib k { f.after f.regs (f.pc + 4) with hslots := f.hslots.set n.toNat (f.sreg r.toNat) })))
  -- FibreExit. R507: exit outside a handler, with every counter at 0, no scalar load outstanding and no report held, ends the
  -- fibre, which is a member of no crew any more and has no item in service; in a handler it stops with ILLEGAL.
  ∧ (
    ∀ (s : State) (k : FKey) (f : Fib), ScalarTurn s k f [] [] →
      (f.hkind ≠ 0 → exec .exit s = .next (takeStop k 1 {} f.pc s))
      ∧ (f.hkind = 0 → f.reports = [] → (∀ c, c ≤ 5 → f.counter c = 0) → scalarLoadOut s k = false →
        ∃ t g, exec .exit s = .next t ∧ t.fib? k = some g ∧ g.st = .exited ∧ g.ext = false
          ∧ (∀ c, f.fid ∉ tget (t.block f.dom f.bid).crews c []) ∧ ∀ e ∈ (t.block f.dom f.bid).insv, e.1 ≠ f.fid))

/-- Scalar loads, stores, atomics and ordering words issue their accesses. Parts: ScalarLoadsIssue, ScalarStoresIssue,
OrderingWords. -/
def Obligations.ScalarAccessIssue : Prop :=
  -- ScalarLoadsIssue. R272, R346, R348: a scalar load whose access passes its check, with nothing of its thread holding it
  -- back, retires at its issue and starts the access of its width at the address of its form, whose completion writes S[d]; a
  -- strong load carries its order and scope.
  (
    (∀ e ∈ ([(Instr.sld8, 1), (Instr.sld16, 2), (Instr.sld32, 4), (Instr.sld64, 8)] :
        List ((BitVec 8 → BitVec 8 → Bool → BitVec 9 → Instr) × Nat)),
      ∀ (d a : BitVec 8) (p : Bool) (o : BitVec 9) (s : State) (k : FKey) (f : Fib) (l : List Checked),
      ScalarTurn s k f [a.toNat] [d.toNat] → memStall s k f false false = none →
      let va := f.sreg a.toNat + BitVec.ofInt 64 o.toInt
      checkAll s k.core f.gang p .plain .load .fibre (scalarReq va e.2 [] []) = .ok l → boardHit s l false = false →
      exec (e.1 d a p o) s = .next (accessStarted k f (.sreg d.toNat) .load false 0 false none false l
        (if p then s else usedPages k.core (scalarReq va e.2 [] []) s)))
    ∧ (∀ (d : BitVec 8) (n : BitVec 18) (s : State) (k : FKey) (f : Fib) (l : List Checked),
      ScalarTurn s k f [] [d.toNat] → memStall s k f false false = none →
      let va := (f.pc - BitVec.ofNat 64 (f.pc.toNat % 8)) + BitVec.ofInt 64 (8 * n.toInt)
      checkAll s k.core f.gang false .plain .load .fibre (scalarReq va 8 [] []) = .ok l → boardHit s l false = false →
      exec (.ldlit d n) s = .next (accessStarted k f (.sreg d.toNat) .load false 0 false none false l (usedPages k.core (scalarReq va 8 [] []) s)))
    ∧ (∀ (sc : BitVec 2) (o : Bool) (d a : BitVec 8) (w : BitVec 2) (s : State) (k : FKey) (f : Fib) (l : List Checked),
      ScalarTurn s k f [a.toNat] [d.toNat] → memStall s k f false false = none → (o = true → f.lq = 0) →
      let rs := scalarReq (f.sreg a.toNat) (2 ^ w.toNat) [] []
      checkAll s k.core f.gang false .strong .load .fibre rs = .ok l → boardHit s l false = false →
      exec (.sldStrong sc o d a w) s = .next (accessStarted k f (.sreg d.toNat) .load (!(sc = 0 && f.oneCore s)) 0 false
        (if o then some (if sc = 0 && f.oneCore s then 0 else BitVec.allOnes 64) else none) (sc = 3) l (usedPages k.core rs s))))
  -- ScalarStoresIssue. R346, R348, R349: a scalar store or atomic whose access passes its check, with nothing of its thread
  -- holding it back and no release part that must wait, retires at its issue and starts the access of its width at its address
  -- with the data of its registers; an atomic carries the operation of its FN, and writes S[d] when it completes.
  ∧ (
    (∀ e ∈ ([(Instr.sst8, 1), (Instr.sst16, 2), (Instr.sst32, 4), (Instr.sst64, 8)] :
        List ((BitVec 8 → BitVec 8 → Bool → BitVec 9 → Instr) × Nat)),
      ∀ (d a : BitVec 8) (p : Bool) (o : BitVec 9) (s : State) (k : FKey) (f : Fib) (l : List Checked),
      ScalarTurn s k f [a.toNat, d.toNat] [] → memStall s k f false true = none →
      let rs := scalarReq (f.sreg a.toNat + BitVec.ofInt 64 o.toInt) e.2 (leBytes (f.sreg d.toNat).toNat e.2) []
      checkAll s k.core f.gang p .plain .store .fibre rs = .ok l → boardHit s l true = false →
      exec (e.1 d a p o) s = .next (accessStarted k f .none .store false 0 true none false l (if p then s else usedPages k.core rs s)))
    ∧ (∀ (sc : BitVec 2) (d a : BitVec 8) (w : BitVec 2) (s : State) (k : FKey) (f : Fib) (l : List Checked),
      ScalarTurn s k f [a.toNat, d.toNat] [] → memStall s k f false true = none →
      let rs := scalarReq (f.sreg a.toNat) (2 ^ w.toNat) (leBytes (f.sreg d.toNat).toNat (2 ^ w.toNat)) []
      checkAll s k.core f.gang false .strong .store .fibre rs = .ok l → boardHit s l true = false →
      exec (.sstStrong sc false d a w) s = .next (accessStarted k f .none .store true 0 true none (sc = 3) l (usedPages k.core rs s))
      ∧ (f.lq = 0 → f.reports = [] → f.phase = 0 →
        releaseWaits (usedPages k.core rs s) k.core (.fib k) sc.toNat (f.oneCore s) s.nextId = false →
        exec (.sstStrong sc true d a w) s = .next (accessStarted k f .none .store true 0 true none (sc = 3) l
          (clearSr k.core s.nextId (usedPages k.core rs s)))))
    ∧ (∀ (i : Instr) (op : Nat) (o sc : BitVec 2) (z : Bool) (d a : BitVec 8) (s : State) (k : FKey) (f : Fib) (l : List Checked),
      ((∃ x : BitVec 4, i = .satom o sc z d a x ∧ op = x.toNat ∧ op ≤ 8) ∨ (i = .scas o sc z d a ∧ op = 9)) →
      ScalarTurn s k f (if op = 9 then [a.toNat, d.toNat, d.toNat + 1] else [a.toNat, d.toNat]) [d.toNat] →
      memStall s k f false true = none → f.lq = 0 → f.reports = [] → f.phase = 0 →
      let n := if z then 8 else 4
      let old := leBytes (f.sreg d.toNat).toNat n
      let rs := if op = 9 then scalarReq (f.sreg a.toNat) n (leBytes (f.sreg (d.toNat + 1)).toNat n) old
        else scalarReq (f.sreg a.toNat) n old []
      checkAll s k.core f.gang false .strong .atomic .fibre rs = .ok l → boardHit s l true = false →
      let s1 := usedPages k.core rs s
      (o.getLsbD 1 = true → releaseWaits s1 k.core (.fib k) sc.toNat (f.oneCore s) s.nextId = false) →
      exec i s = .next (accessStarted k f (.sreg d.toNat) .atomic true op true
        (if o.getLsbD 0 then some (if sc = 0 && f.oneCore s then 0 else BitVec.allOnes 64) else none) (sc = 3) l
        (if o.getLsbD 1 then clearSr k.core s.nextId s1 else s1))))
  -- OrderingWords. R347, R118, R119: acq, once no load or atomic of its thread is outstanding, rinses by the mask S[a]
  -- (nothing at blk scope for a block on one core); rel, once every scalar load has its verdict and every store its scope
  -- covers is performed, clears SR; fence does both; rinse always rinses.
  ∧ (
    ∀ (sc : BitVec 2) (a : BitVec 8) (s : State) (k : FKey) (f : Fib),
      let g := f.after f.regs (f.pc + 4)
      let rinsed := fun (s : State) => if sc = 0 ∧ (s.launch f.dom).quad = false then s else Machine.rinse k.core (f.sreg a.toNat) s
      let still := readsOut s k.core (.fib k) = false ∧ acqPending s k.core (.fib k) = false
      let drained := releaseWaits s k.core (.fib k) sc.toNat (f.oneCore s) (if f.phase = 0 then s.nextId else f.mark) = false
      let cleared := clearSr k.core (if f.phase = 0 then s.nextId else f.mark) s
      (ScalarTurn s k f [a.toNat] [] → exec (.rinse a) s = .next ((Machine.rinse k.core (f.sreg a.toNat) s).setFib k g))
      ∧ (ScalarTurn s k f [a.toNat] [] → f.lq = 0 → still → exec (.acq sc a) s = .next ((rinsed s).setFib k g))
      ∧ (ScalarTurn s k f [] [] → f.lq = 0 → f.reports = [] → scalarLoadOut s k = false → drained → exec (.rel sc) s = .next (cleared.setFib k g))
      ∧ (ScalarTurn s k f [a.toNat] [] → f.lq = 0 → f.reports = [] → drained → still →
        exec (.fence sc a) s = .next ((rinsed cleared).setFib k g)))

/-- A scalar load or store that its L1 holds completes with the bytes of memory. Parts: ScalarLoadHit, ScalarStoreHit. -/
def Obligations.ScalarCacheHits : Prop :=
  -- ScalarLoadHit. R272, R346, R132 rule 1, R113, R149: a plain scalar load whose one aligned part lies in near memory, in
  -- unpoisoned words that its L1 holds Registered, or Valid by one fill (log 45), with nothing else outstanding on the core,
  -- completes at its issue: S[d] takes the bytes, little-endian and zero-extended; no byte of memory, no word of the L1 and no
  -- other fibre changes.
  (
    ∀ e ∈ ([(Instr.sld8, 1), (Instr.sld16, 2), (Instr.sld32, 4), (Instr.sld64, 8)] :
        List ((BitVec 8 → BitVec 8 → Bool → BitVec 9 → Instr) × Nat)),
      ∀ (d a : BitVec 8) (o : BitVec 9) (s : State) (k : FKey) (f : Fib) (pa rg : Nat),
      ScalarTurn s k f [a.toNat] [d.toNat] →
      (s.core k.core).loads = [] → (s.core k.core).stores = [] → (s.core k.core).insts = [] →
      let va := f.sreg a.toNat + BitVec.ofInt 64 o.toInt
      checkVa s k.core .load .fibre va = .ok .near pa rg → va.toNat % e.2 = 0 → pa % e.2 = 0 →
      ((∀ j, j < e.2 → ((s.core k.core).l1word (pa / 128) ((pa + j) / 4 % 32)).st = .registered)
        ∨ ∃ n, ∀ j, j < e.2 → ((s.core k.core).l1word (pa / 128) ((pa + j) / 4 % 32)).st = .valid
          ∧ ((s.core k.core).l1word (pa / 128) ((pa + j) / 4 % 32)).fill = n) →
      (∀ j, j < e.2 → ((s.core k.core).l1word (pa / 128) ((pa + j) / 4 % 32)).poison = false) →
      ∃ t g, exec (e.1 d a false o) s = .next t ∧ t.fib? k = some g ∧ g.pc = f.pc + 4
        ∧ g.regs = f.wr d (BitVec.ofNat 64 (leNat ((List.range e.2).map fun j =>
            wordByte ((s.core k.core).l1word (pa / 128) ((pa + j) / 4 % 32)).val ((pa + j) % 4))))
        ∧ g.vregs = f.vregs ∧ g.tags = f.tags ∧ g.jflags = f.jflags ∧ g.ldq = f.ldq ∧ g.stc = f.stc
        ∧ t.mem = s.mem ∧ (∀ c line i, (t.core c).l1word line i = (s.core c).l1word line i)
        ∧ (t.core k.core).loads = [] ∧ (t.core k.core).insts = [] ∧ ∀ j, j ≠ k → t.fib? j = s.fib? j)
  -- ScalarStoreHit. R346, R112, R127, R105: a plain scalar store whose one aligned part lies in near memory, in words
  -- Registered to its core and held by its L1, with nothing else outstanding on the core, is performed at its issue: each byte
  -- of the part reads as the byte of S[d], every other byte of memory reads as before, and the scalar registers and the ST
  -- counter stand.
  ∧ (
    ∀ e ∈ ([(Instr.sst8, 1), (Instr.sst16, 2), (Instr.sst32, 4), (Instr.sst64, 8)] :
        List ((BitVec 8 → BitVec 8 → Bool → BitVec 9 → Instr) × Nat)),
      ∀ (d a : BitVec 8) (o : BitVec 9) (s : State) (k : FKey) (f : Fib) (pa rg : Nat),
      ScalarTurn s k f [a.toNat, d.toNat] [] → memStall s k f false true = none → f.unwaited = [] →
      (s.core k.core).loads = [] → (s.core k.core).stores = [] → (s.core k.core).insts = [] →
      let va := f.sreg a.toNat + BitVec.ofInt 64 o.toInt
      checkVa s k.core .store .fibre va = .ok .near pa rg → va.toNat % e.2 = 0 → pa % e.2 = 0 →
      (∀ j, j < e.2 → ((s.core k.core).l1word (pa / 128) ((pa + j) / 4 % 32)).st = .registered
        ∧ s.ownerOf (pa / 128) ((pa + j) / 4 % 32) = some (.core k.core)) →
      ∃ t g, exec (e.1 d a false o) s = .next t ∧ t.fib? k = some g ∧ g.pc = f.pc + 4 ∧ g.regs = f.regs
        ∧ g.vregs = f.vregs ∧ g.tags = f.tags ∧ g.jflags = f.jflags ∧ g.ldq = f.ldq ∧ g.stc = f.stc
        ∧ (∀ x, t.curByte x = if pa ≤ x ∧ x < pa + e.2 then (f.sreg d.toNat).extractLsb' (8 * (x - pa)) 8 else s.curByte x)
        ∧ t.mem = s.mem ∧ t.owners = s.owners ∧ (t.core k.core).stores = [] ∧ ∀ j, j ≠ k → t.fib? j = s.fib? j)

/-- What each atomic operation writes. R239, R349, R352: what each atomic operation writes, at 32 and at 64 bits: add wraps, and,
or, exclusive or, the signed and unsigned minimum and maximum, swap, and compare-and-swap. -/
def Obligations.AtomicOperations : Prop :=
  (∀ (x v w : BitVec 32), ∀ op r, (op, r) ∈ ([(0, x + v), (1, x &&& v), (2, x ||| v), (3, x ^^^ v), (4, if x.sle v then x else v),
      (5, if x.sle v then v else x), (6, if x.ule v then x else v), (7, if x.ule v then v else x), (8, v),
      (9, if x = w then v else x)] : List (Nat × BitVec 32)) → atomicNew op 4 x.toNat v.toNat w.toNat = r.toNat)
  ∧ (∀ (x v w : BitVec 64), ∀ op r, (op, r) ∈ ([(0, x + v), (1, x &&& v), (2, x ||| v), (3, x ^^^ v), (4, if x.sle v then x else v),
      (5, if x.sle v then v else x), (6, if x.ule v then x else v), (7, if x.ule v then v else x), (8, v),
      (9, if x = w then v else x)] : List (Nat × BitVec 64)) → atomicNew op 8 x.toNat v.toNat w.toNat = r.toNat)

/-- Channel words and satchel words check, issue and complete. Parts: ChannelWords, SatchelWords. -/
def Obligations.ChannelAndSatchelWords : Prop :=
  -- ChannelWords. R360 to R363, R192, R205: chsend checks its binding (else CHANNEL) and its address (else ALIGN), does its
  -- release, starts the item's 64 bytes as loads, asks the hamper with the bytes that came, and waits for it; chrecv asks for
  -- an item and keeps waiting until one comes; an item of the mailbox it then stores, takes into service, and goes on. chpoll
  -- writes S[d] with TAIL − HEAD, or for channel 63 with the number of items in the mailbox. The hamper's own part is in
  -- HamperEvents.
  (
    (∀ (c : BitVec 6) (a : BitVec 8) (p : Bool) (s : State) (k : FKey) (f : Fib), ScalarTurn s k f [a.toNat] [] →
      (f.phase = 3 → exec (.chsend c a p) s = .next (s.setFib k { f with stall := 10, waits := false }))
      ∧ (f.phase = 0 → (chanOf s f c.toNat = none ∨ c = 63) →
        exec (.chsend c a p) s = .next (takeStop k 25 { addr := c.setWidth 64 } f.pc s))
      ∧ (∀ ch, f.phase = 0 → chanOf s f c.toNat = some ch → c ≠ 63 → (f.sreg a.toNat).toNat % 64 ≠ 0 →
        exec (.chsend c a p) s = .next (takeStop k 7 { addr := if p then f.sreg a.toNat &&& 0xFFFF_FFFF else f.sreg a.toNat } f.pc s))
      ∧ (∀ ch l, f.phase = 0 → chanOf s f c.toNat = some ch → c ≠ 63 → (f.sreg a.toNat).toNat % 64 = 0 → f.lq = 0 → f.reports = [] →
        memStall s k f false false = none → scalarLoadOut s k = false →
        let rs := scalarReq (f.sreg a.toNat) 64 [] []
        checkAll s k.core f.gang p .plain .load .fibre rs = .ok l → boardHit s l false = false →
        let s1 := if p then s else usedPages k.core rs s
        releaseWaits s1 k.core (.fib k) (if ch.pool then 3 else 2) (f.oneCore s) s.nextId = false →
        exec (.chsend c a p) s = .next (reap k.core (issueAccs k.core (.fib k) f.pc .hold 0 .load false 0 f.dom false false none false l
          ((clearSr k.core s.nextId s1).setFib k { f with phase := 2, mark := s.nextId, stall := 3, susp := 0 }))))
      ∧ (∀ ch i, f.phase = 2 → chanOf s f c.toNat = some ch → (s.core k.core).insts.find? (fun i => i.id = f.mark) = some i → i.left = 0 →
        ∃ t q, exec (.chsend c a p) s = .next t ∧ t.fib? k = some { f with phase := 3, stall := 10 } ∧ t.hamp = s.hamp ++ [q]
          ∧ q.enq = true ∧ q.thr = some (.fib k) ∧ q.desc = ch.desc ∧ q.item = ofBytes512 (gotBytes i.got scalarLane 64)
          ∧ t.mem = s.mem ∧ ∀ j, j ≠ k → t.fib? j = s.fib? j))
    ∧ (∀ (c : BitVec 6) (d a : BitVec 8) (p : Bool) (s : State) (k : FKey) (f : Fib), ScalarTurn s k f [a.toNat, d.toNat] [] →
      (f.phase = 0 → c ≠ 63 → chanOf s f c.toNat = none →
        exec (.chrecv c d a p) s = .next (takeStop k 25 { addr := c.setWidth 64 } f.pc s))
      ∧ (f.phase = 0 → (c = 63 ∨ chanOf s f c.toNat ≠ none) → (f.sreg a.toNat).toNat % 64 ≠ 0 → exec (.chrecv c d a p) s
          = .next (takeStop k 7 { addr := if p then f.sreg a.toNat &&& 0xFFFF_FFFF else f.sreg a.toNat } f.pc s))
      ∧ (∀ l, f.phase = 0 → (f.sreg a.toNat).toNat % 64 = 0 → f.lq = 0 → f.reports = [] →
        memStall s k f false false = none → scalarLoadOut s k = false →
        checkAll s k.core f.gang p .plain .store .fibre (scalarReq (f.sreg a.toNat) 64 [] []) = .ok l → boardHit s l true = false →
        let g := { f with phase := 7, wait := .chan c.toNat, stall := 10, susp := 0,
                          keep := [f.sreg a.toNat, f.sreg d.toNat, if p then 1 else 0] }
        (∀ ch, c ≠ 63 → chanOf s f c.toNat = some ch → ∃ t q, exec (.chrecv c d a p) s = .next t ∧ t.fib? k = some g
          ∧ t.hamp = s.hamp ++ [q] ∧ q.enq = false ∧ q.thr = some (.fib k) ∧ q.desc = ch.desc ∧ t.mem = s.mem
          ∧ ∀ j, j ≠ k → t.fib? j = s.fib? j)
        ∧ (c = 63 → ∃ t, exec (.chrecv c d a p) s = .next t ∧ t.fib? k = some g ∧ t.hamp = s.hamp ∧ t.mem = s.mem
          ∧ ∀ j, j ≠ k → t.fib? j = s.fib? j))
      ∧ (∀ x rest l, c = 63 → f.phase = 7 → f.keep = [f.sreg a.toNat, f.sreg d.toNat, if p then 1 else 0] → f.reports = [] →
        (s.core k.core).loads = [] → (s.core k.core).stores = [] → (s.core k.core).insts = [] →
        (s.block f.dom f.bid).mail = x :: rest → (s.block f.dom f.bid).mailOvf = false →
        (∃ l0, checkAll s k.core f.gang p .plain .store .fibre (recvReq (f.sreg a.toNat) 0) = .ok l0) → recvParts s k f x = some l →
        ∃ t g, exec (.chrecv c d a p) s = .next t ∧ t.fib? k = some g ∧ g.pc = f.pc + 4 ∧ g.regs = f.regs
          ∧ (t.block f.dom f.bid).mail = rest ∧ (f.fid, 63, x) ∈ (t.block f.dom f.bid).insv))
    ∧ (∀ (c : BitVec 6) (d : BitVec 8) (s : State) (k : FKey) (f : Fib), ScalarTurn s k f [] [d.toNat] →
      (c = 63 → exec (.chpoll c d) s = .next (s.setFib k (f.after
        (f.wr d (BitVec.ofNat 64 (s.block f.dom f.bid).mail.length)) (f.pc + 4))))
      ∧ (c ≠ 63 → chanOf s f c.toNat = none → exec (.chpoll c d) s = .next (takeStop k 25 { addr := c.setWidth 64 } f.pc s))
      ∧ (∀ ch, c ≠ 63 → chanOf s f c.toNat = some ch → readsOut s k.core (.fib k) = false → acqPending s k.core (.fib k) = false →
        s.quiet (ch.desc / 128) = true → s.replaying f.dom = false → (s.dom f.dom).rpctl.getLsbD 31 = false →
        exec (.chpoll c d) s = .next (s.setFib k (f.after (f.wr d (BitVec.ofNat 64 (s.hampCount ch.desc))) (f.pc + 4))))))
  -- SatchelWords. R387, R388, R389, R172 to R177: sat.copy and sat.batch fetch their 1 or x + 1 descriptors of 32 bytes from
  -- an aligned scratch address (else ALIGN); with the descriptors come and all checks passed, room under SA and on the
  -- scoreboards, each becomes a copy in flight and SA rises by their number; a failed check stops the fibre. sat.cancel drops
  -- the fibre's copies with that countdown word and completes, or, while bytes of one are on their way, waits for its final
  -- step. bwait goes on, with a pkg acquire by S[d], when the countdown word is at most 0, and else waits.
  ∧ (
    (∀ (i : Instr) (n : Nat) (a : BitVec 8) (s : State) (k : FKey) (f : Fib),
      ((i = .satCopy a ∧ n = 1) ∨ (∃ x : BitVec 4, i = .satBatch a x ∧ n = x.toNat + 1)) → ScalarTurn s k f [a.toNat] [] →
      let va := ((f.sreg a.toNat).extractLsb' 0 32).setWidth 64
      let m := descsIn s f.gang va n
      let rs := scalarReq va (32 * max m 1) [] []
      (f.phase = 0 → va.toNat % 32 ≠ 0 → exec i s = .next (takeStop k 7 { addr := va } f.pc s))
      ∧ (∀ l, f.phase = 0 → va.toNat % 32 = 0 → memStall s k f false false = none →
        checkAll s k.core f.gang true .plain .load .fibre rs = .ok l → boardHit s l false = false →
        exec i s = .next (reap k.core (issueAccs k.core (.fib k) f.pc .hold 0 .load false 0 f.dom false false none false l
          (s.setFib k { f with phase := 2, mark := s.nextId, stall := 3, susp := 1, keep := [] }))))
      ∧ (∀ p, f.phase = 2 → (s.core k.core).insts.find? (fun i => i.id = f.mark) = some p → p.left = 0 →
        let ds := (List.range m).map fun j => satDesc (((gotBytes p.got scalarLane (32 * m)).drop (32 * j)).take 32)
        let checks := satRun s k.core ((ds.zipIdx.map fun e => satSteps s f (va + BitVec.ofNat 64 (32 * e.2)) e.1).flatten
          ++ (if m < n then [.fail .scratchRange (va + BitVec.ofNat 64 (32 * m))] else [])) f.keep []
        (∀ c ad inf, checks = .fault c ad inf → ∃ t, exec i s = .next (takeStop k c.code { addr := ad, info := inf } f.pc t)
          ∧ t.fib? k = some f ∧ t.mem = s.mem)
        ∧ (∀ kept, checks = .ok kept → f.sac + n ≤ 63 → boardRoom s (ds.flatMap (boardNeeds s f.gang)) = true →
          ∃ t, exec i s = .next t ∧ t.fib? k = some { f.after f.regs (f.pc + 4) with sac := f.sac + n } ∧ t.mem = s.mem
            ∧ t.copies.take s.copies.length = s.copies ∧ t.copies.length = s.copies.length + n ∧ ∀ j, j ≠ k → t.fib? j = s.fib? j)
        ∧ (∀ kept, checks = .ok kept → ¬(f.sac + n ≤ 63 ∧ boardRoom s (ds.flatMap (boardNeeds s f.gang)) = true) →
          ∃ t, exec i s = .next t ∧ t.fib? k = some { f with keep := kept, stall := 5, susp := 0 } ∧ t.mem = s.mem)))
    ∧ (∀ (a : BitVec 8) (s : State) (k : FKey) (f : Fib), ScalarTurn s k f [a.toNat] [] → (∀ c, (s.core c).boltErr = []) →
      let mine := fun (y : Copy) => y.k = k ∧ y.cdw = (f.sreg a.toNat).toNat % 2 ^ 32
      ((∀ y ∈ s.copies, mine y → y.dead = false ∧ y.out = []) →
        ∃ t g, exec (.satCancel a) s = .next t ∧ t.fib? k = some g ∧ g = { f.after f.regs (f.pc + 4) with sac := g.sac }
          ∧ (∀ y ∈ t.copies, y ∈ s.copies ∧ ¬mine y) ∧ ∀ j, j ≠ k → t.fib? j = s.fib? j)
      ∧ ((∃ y ∈ s.copies, mine y ∧ (y.dead = true ∨ y.out ≠ [])) → (s.copies.map (·.id)).Nodup →
        ∃ t g, exec (.satCancel a) s = .next t ∧ t.fib? k = some g ∧ g = { f with stall := 5, waits := false, sac := g.sac }
          ∧ ∀ y ∈ t.copies, mine y → y.dead = true))
    ∧ (∀ (d a : BitVec 8) (s : State) (k : FKey) (f : Fib), ScalarTurn s k f [a.toNat, d.toNat] [] →
      let w := (f.sreg a.toNat).extractLsb' 0 32
      (w.toNat % 4 ≠ 0 → exec (.bwait d a) s = .next (takeStop k 7 { addr := w.setWidth 64 } f.pc s))
      ∧ (w.toNat % 4 = 0 → scratchAt s f.gang w 4 = none → exec (.bwait d a) s = .next (takeStop k 28 { addr := w.setWidth 64 } f.pc s))
      ∧ (∀ c pa, w.toNat % 4 = 0 → scratchAt s f.gang w 4 = some (c, pa) → f.lq = 0 → readsOut s k.core (.fib k) = false →
        acqPending s k.core (.fib k) = false → (s.core k.core).stores = [] → (s.core c).board = [] → (∀ x, (s.core x).boltErr = []) →
        let v : BitVec 32 := BitVec.ofNat 32 (leNat (Memory.readBytes s.mem pa 4))
        exec (.bwait d a) s = .next (if v.toInt ≤ 0 then (Machine.rinse k.core (f.sreg d.toNat) s).setFib k (f.after f.regs (f.pc + 4))
          else s.setFib k { f with stall := 5, waits := false }))))

/-- Row words issue, are checked in their tick and are performed. Parts: RowWordsIssue, RowChecks, RowPerformance. -/
def Obligations.RowWords : Prop :=
  -- RowWordsIssue. R83, R96 to R100: outside replay a row word issues with its performance tick three ticks after the tick it
  -- samples (a rowcon's on its press's next free tick of four); the fibre waits for it, but goes on after a rowstat; rowwait
  -- goes on when its instruction would pass, or never could, and waits with reason 6 otherwise.
  (
    (∀ (i : Instr) (kind latch d : Nat) (a : BitVec 8) (s : State) (k : FKey) (f : Fib),
      ((i = .rowact a ∧ kind = 0 ∧ latch = 0 ∧ d = 0) ∨ (∃ b : Bool, i = .rowcon a b ∧ kind = 1 ∧ latch = b.toNat ∧ d = 0)
        ∨ (i = .rowpre a ∧ kind = 2 ∧ latch = 0 ∧ d = 0)
        ∨ (∃ (x : BitVec 8) (j : BitVec 2), i = .rowstat x a j ∧ kind = 3 ∧ latch = j.toNat ∧ d = x.toNat)) →
      ScalarTurn s k f [a.toNat] (if kind = 3 then [d] else []) → f.phase ≠ 1 → s.replaying f.dom = false → f.rwq.length < 63 →
      ∃ t g o, exec i s = .next t ∧ t.fib? k = some g
        ∧ (if kind = 3 then g = f.after f.regs (f.pc + 4) else g.phase = 1 ∧ g.pc = f.pc ∧ g.mark = s.nextId)
        ∧ (t.core k.core).rowOps = (s.core k.core).rowOps ++ [o] ∧ o.k = k ∧ o.kind = kind ∧ o.h = f.sreg a.toNat ∧ o.latch = latch
        ∧ o.d = d ∧ o.id = s.nextId ∧ f.tslot.getD s.tick + 3 ≤ o.t
        ∧ (kind ≠ 1 → o.t = f.tslot.getD s.tick + 3 ∧ g.rwq = f.rwq)
        ∧ (kind = 1 → g.rwq = f.rwq ++ [(s.nextId, false)])
        ∧ t.mem = s.mem ∧ g.regs = f.regs ∧ (t.core k.core).banks = (s.core k.core).banks ∧ ∀ j, j ≠ k → t.fib? j = s.fib? j)
    ∧ (∀ (a : BitVec 8) (j : BitVec 2) (s : State) (k : FKey) (f : Fib), ScalarTurn s k f [a.toNat] [] →
      exec (.rowwait a j) s = .next (s.setFib k (if s.replaying f.dom || rowwaitDone s k f j.toNat (f.sreg a.toNat)
        then f.after f.regs (f.pc + 4) else { f with stall := 6, keep := [BitVec.ofNat 64 j.toNat, f.sreg a.toNat] }))
      ∧ (f.phase = 0 → f.st = .running → rowwaitDone s k f j.toNat (f.sreg a.toNat) = true →
        let s1 := s.setFib k { f with stall := 6, keep := [BitVec.ofNat 64 j.toNat, f.sreg a.toNat] }
        exec (.rowwaitComplete k) s1 = .next (s1.setFib k (f.after f.regs (f.pc + 4))))))
  -- RowChecks. R93, R94, R95, R97: when rowact, rowcon and rowpre pass their checks in tick t, and what the bank is then.
  -- rowact needs the block's live grant with the bank and the row, phase 420 to 4,622, an Idle bank, and fewer activates in
  -- the last 38 ticks than its share; rowcon the row open for 18 ticks, phase 420 to 4,660; rowpre an Idle or Precharging
  -- bank, or one opened 40 ticks before and consumed from 2 before, phase 420 to 4,662.
  ∧ (
    ∀ (c : Core) (d bid : Nat) (h : W64) (t n b : Nat) (x : Bank) (g : RowGrant), c.liveGrant d bid = some (n, g) →
      let w := h.toNat / 128 % 16384
      let σ := (t + 4680 - 36 * b % 4680) % 4680
      b = h.toNat % 128 →
      let y := c.bank b t
      (rowCheck c d bid 0 h t = .ok (n, b, x) ↔ h.toNat < 2 ^ 21 ∧ g.mask.getLsbD b = true ∧ g.lo ≤ w ∧ w ≤ g.hi ∧ 420 ≤ σ ∧ σ < 4623
        ∧ y.st = .idle ∧ (g.acts.filter fun u => t < u + 38).length < g.share
        ∧ x = { y with st := .opened, orow := w, ta := some t, tc := none })
      ∧ (rowCheck c d bid 1 h t = .ok (n, b, x) ↔ h.toNat < 2 ^ 21 ∧ g.mask.getLsbD b = true ∧ g.lo ≤ w ∧ w ≤ g.hi ∧ 420 ≤ σ ∧ σ < 4661
        ∧ y.st = .opened ∧ y.orow = w ∧ y.ta.getD 0 + 18 ≤ t ∧ x = { y with tc := some t })
      ∧ (rowCheck c d bid 2 h t = .ok (n, b, x) ↔ h.toNat < 2 ^ 21 ∧ g.mask.getLsbD b = true ∧ 420 ≤ σ ∧ σ < 4663
        ∧ (((y.st = .idle ∨ y.st = .precharging) ∧ x = y)
          ∨ (y.st = .opened ∧ y.ta.getD 0 + 40 ≤ t ∧ (∀ u, y.tc = some u → u + 2 ≤ t) ∧ x = { y with st := .precharging, tp := some t }))))
  -- RowPerformance. R95, R97, R99, R100: the event of row performance takes the first due instruction: one that fails stops
  -- its fibre with the cause, the handle in ADDR and the tick in INFO; one that passes changes its bank and retires its word,
  -- an activate joins the grant's budget window, and a rowcon leaves the 3,072 bytes of its row in its press's latch; rowstat
  -- writes S[d].
  ∧ (
    ∀ (c : Nat) (s : State) (o : RowOp) (f : Fib), rowDue s c = some o → s.fib? o.k = some f →
      (o.kind < 3 → ∀ e, rowCheck (s.core c) f.dom f.bid o.kind o.h o.t = .error e →
        ∃ t, exec (.rowPerformance c) s = .next (takeStop o.k e.code { addr := o.h, info := BitVec.ofNat 64 o.t } f.pc t) ∧ t.mem = s.mem)
      ∧ (o.kind < 3 → ∀ n b x, rowCheck (s.core c) f.dom f.bid o.kind o.h o.t = .ok (n, b, x) →
        ∃ t g, exec (.rowPerformance c) s = .next t ∧ t.fib? o.k = some g ∧ g.pc = f.pc + 4 ∧ g.phase = 0 ∧ g.regs = f.regs
          ∧ t.mem = s.mem ∧ tfind (t.core c).banks b = some x ∧ o ∉ (t.core c).rowOps
          ∧ (o.kind = 1 → (tget (t.core c).latches (2 * (o.k.sub / 4) + o.latch) {}).data
              = (List.range 3072).map fun j => Memory.read s.mem (c * 2 ^ 33 + o.h.toNat % 2 ^ 21 * 3072 + j)))
      ∧ (o.kind = 3 → o.d < 192 → ∃ t g, exec (.rowPerformance c) s = .next t ∧ t.fib? o.k = some g ∧ g.pc = f.pc
        ∧ t.mem = s.mem ∧ g.regs = f.wr (BitVec.ofNat 8 o.d) (rowstatWord (s.core c) f o.latch o.h o.t)))

/-- A lane word writes its results in active lanes only, and nothing when none is active. Parts: EmptyMaskWords, LaneResultWrite. -/
def Obligations.LaneMaskAndResults : Prop :=
  -- EmptyMaskWords. R247, R248, R249, R293: with an empty mask in force a lane word that is not performed regardless of it has
  -- no effect but to move its stitch on; a knot ends the stitch and the turn of the pipe; RETIRED counts it outside a handler.
  (
    ∀ (i : Instr) (w : LaneWord) (s : State) (k : FKey) (f : Fib) (t : Stitch), LaneTurn s k f t → effMask w t = 0 →
      i ∈ [Instr.vadd w, .vsub w, .vmul w, .vmulh w, .vmad w, .vdiv w, .vrem w, .vand w, .vor w, .vxor w, .vandn w, .vshl w,
        .vshr w, .vsar w, .vmin w, .vmax w, .vabs w, .vneg w, .vbit w, .vsel w, .vmov w, .vcmp w, .vidx w, .vshfl w, .vpush w,
        .vswap w, .vbcast w, .vred w, .vscan w, .vballot w, .vfirst w, .vtos w, .vtag w, .vtagSet w, .fadd w, .fsub w, .fmul w,
        .ffma w, .fmin w, .fmax w, .fsgn w, .fsgnn w, .fsgnx w, .fdiv w, .fsqrt w, .frcp w, .frsq w, .fcmp w, .fclass w, .frnd w,
        .fexp2 w, .flog2 w, .fsin w, .fcos w, .frred w, .ftanh w, .fscale w, .fdot2 w, .jseed w, .jconst w, .jget w, .jput w,
        .jderiv w, .jtrunc w, .fcvt w, .l6pack w, .l6unpack w, .l6plane w, .l6planeCode w, .vld w, .vst w, .vlds w, .vsts w,
        .vatom w, .vatoms w, .vcas w, .vldb w, .vstb w, .vpf w, .mma w, .mmag w, .mzero w, .mldacc w, .mdrain w, .msave w,
        .mresume w] →
      exec i s = .next (laneRetire k w s)
      ∧ ∃ g, (laneRetire k w s).fib? k = some g ∧ g.regs = f.regs ∧ g.vregs = f.vregs ∧ g.tags = f.tags ∧ g.jflags = f.jflags
        ∧ g.pc = f.pc ∧ g.retired = (if f.hkind = 0 then f.retired + 1 else f.retired) ∧ (laneRetire k w s).mem = s.mem
        ∧ g.stitches = (if w.k then f.stitches.tail else { t with pc := t.pc + 12, n := t.n + 1 } :: f.stitches.tail))
  -- LaneResultWrite. R345, R198, R200: what a lane word's results write: in each register of the result the active lanes take
  -- the new elements and the inactive lanes keep theirs; a tag is set; every other register and tag, the scalar registers, the
  -- flags and every byte of memory stand.
  ∧ (
    ∀ (s : State) (k : FKey) (f : Fib) (m : Mask) (vals : List (Nat × List W32)) (tags : List (Nat × Nat)), s.fib? k = some f →
      (vals.map (·.1)).Nodup → (tags.map (·.1)).Nodup → (∀ e ∈ vals, e.2.length = 96 ∧ (s.vreg k e.1).length = 96) →
      let t := writeVals k m (vals, tags) s
      (∀ e ∈ vals, ∀ L, L < 96 → (t.vreg k e.1).getD L 0 = if m.getLsbD L then e.2.getD L 0 else (s.vreg k e.1).getD L 0)
      ∧ (∀ e ∈ tags, t.vtag k e.1 = e.2)
      ∧ (∀ v, v ∉ vals.map (·.1) → t.vreg k v = s.vreg k v) ∧ (∀ v, v ∉ tags.map (·.1) → t.vtag k v = s.vtag k v)
      ∧ t.mem = s.mem ∧ ∃ g, t.fib? k = some g ∧ g.regs = f.regs ∧ g.jflags = f.jflags ∧ g.pc = f.pc ∧ g.stitches = f.stitches
        ∧ ∀ j, j ≠ k → t.fib? j = s.fib? j)

/-- Lane integer words write exact results, wrapped or clamped. Parts: IntegerFormats, LaneIntegerResults. -/
def Obligations.LaneIntegerWords : Prop :=
  -- IntegerFormats. R212, R215, R298: a sub-element reads as the integer of its format, and a result outside the format's
  -- range is clamped to the nearer end under sat, with the clamp reported, or wraps without it.
  (
    (∀ (x : BitVec 32), intOf 0 x.toNat = x.toInt ∧ intOf 1 x.toNat = x.toNat)
    ∧ (∀ (x : BitVec 16), intOf 2 x.toNat = x.toInt ∧ intOf 3 x.toNat = x.toNat)
    ∧ (∀ (x : BitVec 8), intOf 4 x.toNat = x.toInt ∧ intOf 5 x.toNat = x.toNat)
    ∧ (∀ (x : BitVec 64), intOf 11 x.toNat = x.toInt ∧ intOf 12 x.toNat = x.toNat)
    ∧ (∀ fmt ∈ [0, 1, 2, 3, 4, 5, 11, 12], ∀ x : Int,
      let n := subWidth fmt
      let lo : Int := if isSigned fmt then -(2 ^ (n - 1) : Nat) else 0
      let hi : Int := if isSigned fmt then (2 ^ (n - 1) : Nat) - 1 else (2 ^ n : Nat) - 1
      ((narrowInt fmt false x).1 : Int) = x % 2 ^ n ∧ (narrowInt fmt false x).2 = false
      ∧ intOf fmt (narrowInt fmt true x).1 = (if x < lo then lo else if hi < x then hi else x)
      ∧ ((narrowInt fmt true x).2 = true ↔ x < lo ∨ hi < x)))
  -- LaneIntegerResults. R297 to R299: the integer words of two and three operands, given as the exact result of each
  -- sub-element before it is clamped or wrapped into the format: VD takes the results with VD's tag set to FMT, SAT is raised
  -- when an active lane clamped, and vdiv and vrem leave their results pending as long words do.
  ∧ (
    ∀ e ∈ ([(Instr.vadd, 12, false, false, fun m a b _ => intOf m a + intOf m b),
        (Instr.vsub, 12, false, false, fun m a b _ => intOf m a - intOf m b),
        (Instr.vmul, 12, false, false, fun m a b _ => intOf m a * intOf m b),
        (Instr.vmulh, 8, false, false, fun m a b _ => intOf m a * intOf m b / 2 ^ subWidth m),
        (Instr.vmad, 12, true, false, fun m a b c => intOf m a * intOf m b + intOf m c),
        (Instr.vdiv, 12, false, true, fun m a b _ => if intOf m b = 0 then (if isSigned m then -1 else 2 ^ subWidth m - 1)
          else (intOf m a).tdiv (intOf m b)),
        (Instr.vrem, 8, false, true, fun m a b _ => if intOf m b = 0 then intOf m a else (intOf m a).tmod (intOf m b)),
        (Instr.vshl, 8, false, false, fun m a b _ => (a : Int) * 2 ^ (b % subWidth m)),
        (Instr.vshr, 8, false, false, fun m a b _ => (a : Int) / 2 ^ (b % subWidth m)),
        (Instr.vsar, 8, false, false, fun m a b _ => toSigned (subWidth m) a / 2 ^ (b % subWidth m)),
        (Instr.vmin, 8, false, false, fun m a b _ => if intOf m a ≤ intOf m b then intOf m a else intOf m b),
        (Instr.vmax, 8, false, false, fun m a b _ => if intOf m a ≤ intOf m b then intOf m b else intOf m a)] :
        List ((LaneWord → Instr) × BitVec 6 × Bool × Bool × (Nat → Nat → Nat → Nat → Int))),
      ∀ (w : LaneWord) (s : State) (k : FKey) (f : Fib) (t : Stitch), LaneTurn s k f t → effMask w t ≠ 0 →
      let fmt := w.fmt.toNat
      isInt fmt = true → w.fn.toNat ≤ 1 → w.mdIn e.2.1 = true → w.bOk = true → (e.2.2.1 = true ∨ w.vc = 0) →
      regsPass s k f w ([single fmt w.vd.toNat none, single fmt w.va.toNat (some fmt)] ++ regsB w fmt (some fmt)
        ++ (if e.2.2.1 then [single fmt w.vc.toNat (some fmt)] else [])) = true →
      let rs := zip3 (elemInt fmt w.sat (e.2.2.2.2 fmt)) (elems s k fmt w.va.toNat) (operandB s (laneCtx k f t w) w fmt)
        (if e.2.2.1 then elems s k fmt w.vc.toNat else List.replicate 96 0)
      let flags : W64 := if rs.zipIdx.any (fun r => r.1.2 && (effMask w t).getLsbD r.2) then 1 <<< 40 else 0
      let vals := elemRegs fmt w.vd.toNat (rs.map (·.1))
      let tags := singleTags fmt w.vd.toNat
      exec (e.1 w) s = .next (if e.2.2.2.1 then longEffect k f t w vals tags flags s
        else laneEffect k w (effMask w t) vals tags flags s))

/-- Bitwise, unary, index and compare words of the lanes. Parts: LaneBitwiseResults, LaneUnaryResults, LaneComparison. -/
def Obligations.LaneBitAndCompareWords : Prop :=
  -- LaneBitwiseResults. R297, R298, R301: the bitwise words, vsel and vmov act on all bits of each element whatever the tags:
  -- VD takes the result with FMT as its tag, but vmov of a register carries the source's tags. The immediate of an f64 word is
  -- stated nowhere: its result is a free value, and the word has its other effects (log 14).
  (
    ∀ (w : LaneWord) (s : State) (k : FKey) (f : Fib) (t : Stitch), LaneTurn s k f t → effMask w t ≠ 0 →
      let fmt := w.fmt.toNat
      let all := if is64 fmt then 2 ^ 64 - 1 else 2 ^ 32 - 1
      let tags := singleTags fmt w.vd.toNat
      fmt ≤ 12 →
      (∀ e ∈ ([(Instr.vand, fun a b => a &&& b), (Instr.vor, fun a b => a ||| b), (Instr.vxor, fun a b => a ^^^ b),
          (Instr.vandn, fun a b => a &&& (all ^^^ b))] : List ((LaneWord → Instr) × (Nat → Nat → Nat))),
        w.fn.toNat ≤ 1 → w.mdIn 8 = true → w.bOk = true → w.vc = 0 →
        regsPass s k f w ([single fmt w.vd.toNat none, single fmt w.va.toNat none] ++ regsB w fmt none) = true →
        (¬(w.imm1 = true ∧ fmt = 7) → exec (e.1 w) s = .next (laneEffect k w (effMask w t) (elemRegs fmt w.vd.toNat
          (((elems s k fmt w.va.toNat).zip (operandB s (laneCtx k f t w) w fmt)).map fun p => e.2 p.1 p.2)) tags 0 s))
        ∧ (w.imm1 = true ∧ fmt = 7 → ∃ xs, exec (e.1 w) s = .next (laneEffect k w (effMask w t) (elemRegs fmt w.vd.toNat xs) tags 0
          { s with freeCtr := s.freeCtr + 1 })))
      ∧ (w.fn = 0 → w.md = 0 → w.imm = 0 →
        regsPass s k f w [single fmt w.vd.toNat none, single fmt w.va.toNat none, single fmt w.vb.toNat none, single fmt w.vc.toNat none]
          = true →
        exec (.vsel w) s = .next (laneEffect k w (effMask w t) (elemRegs fmt w.vd.toNat
          ((zip3 (fun a b m => ((a &&& m) ||| (b &&& (all ^^^ m)), false)) (elems s k fmt w.va.toNat) (elems s k fmt w.vb.toNat)
            (elems s k fmt w.vc.toNat)).map (·.1))) tags 0 s))
      ∧ (w.S = false → w.fn = 0 → w.mdIn 8 = true → w.imm = 0 → w.vc = 0 → w.vb = 0 →
        regsPass s k f w [single fmt w.vd.toNat none, single fmt w.va.toNat none] = true →
        exec (.vmov w) s = .next (laneEffect k w (effMask w t) (elemRegs fmt w.vd.toNat (elems s k fmt w.va.toNat))
          (copiedTags s k fmt w.va.toNat w.vd.toNat) 0 s))
      ∧ (w.S = true ∨ (w.imm1 = true ∧ fmt ≠ 7) → w.fn.toNat ≤ 1 → w.mdIn 8 = true → w.bOk = true → w.vc = 0 → w.va = 0 →
        regsPass s k f w [single fmt w.vd.toNat none] = true →
        exec (.vmov w) s = .next (laneEffect k w (effMask w t) (elemRegs fmt w.vd.toNat (operandB s (laneCtx k f t w) w fmt)) tags 0 s)))
  -- LaneUnaryResults. R300, R303: vabs, vneg and vbit by sub-element, with the absolute value and the negation clamped under
  -- sat; vidx gives each lane its number, plus IMM, and with FN 1 plus 96 × FID.
  ∧ (
    (∀ e ∈ ([(Instr.vabs, fun w m a => if isSigned m ∧ w.fn = 0 then some |intOf m a| else none),
        (Instr.vneg, fun w m a => if w.fn = 0 then some (-intOf m a) else none),
        (Instr.vbit, fun w m a => if w.sat then none else
          if w.fn = 0 then some ((List.range (subWidth m)).filter fun j => a.testBit j).length
          else if w.fn = 1 then some (subWidth m - (if a = 0 then 0 else a.log2 + 1) : Nat)
          else if w.fn = 2 then some ((List.range (subWidth m)).findIdx fun j => a.testBit j)
          else if w.fn = 3 then some ((List.range (subWidth m)).foldr (fun j r => 2 * r + if a.testBit (subWidth m - 1 - j) then 1 else 0) 0 : Nat)
          else none)] : List ((LaneWord → Instr) × (LaneWord → Nat → Nat → Option Int))),
      ∀ (w : LaneWord) (s : State) (k : FKey) (f : Fib) (t : Stitch) (val : Nat → Int), LaneTurn s k f t → effMask w t ≠ 0 →
      let fmt := w.fmt.toNat
      isInt fmt = true → w.mdIn 4 = true → w.vb = 0 → w.vc = 0 → w.imm = 0 →
      (∀ a, a < 2 ^ subWidth fmt → e.2 w fmt a = some (val a)) →
      regsPass s k f w [single fmt w.vd.toNat none, single fmt w.va.toNat (some fmt)] = true →
      let rs := (elems s k fmt w.va.toNat).map fun a => elemInt fmt w.sat (fun x _ _ => val x) a 0 0
      exec (e.1 w) s = .next (laneEffect k w (effMask w t) (elemRegs fmt w.vd.toNat (rs.map (·.1))) (singleTags fmt w.vd.toNat)
        (if rs.zipIdx.any (fun r => r.1.2 && (effMask w t).getLsbD r.2) then 1 <<< 40 else 0) s))
    ∧ (∀ (w : LaneWord) (s : State) (k : FKey) (f : Fib) (t : Stitch), LaneTurn s k f t → effMask w t ≠ 0 → w.fmt.toNat ≤ 1 →
      w.fn.toNat ≤ 1 → w.md = 0 → w.va = 0 → w.vb = 0 → w.vc = 0 → regsPass s k f w [single w.fmt.toNat w.vd.toNat none] = true →
      exec (.vidx w) s = .next (laneEffect k w (effMask w t) [(w.vd.toNat, (List.range 96).map fun L =>
        BitVec.ofNat 32 ((if w.fn = 1 then 96 * f.fid else 0) + w.imm.toNat + L))] [(w.vd.toNat, w.fmt.toNat)] 0 s)))
  -- LaneComparison. R302, R294: vcmp compares sub-elements as their format reads them: the mask form puts the active lanes
  -- whose first sub-element satisfies the condition into S[VD] to S[VD+2], the vector form gives each sub-element all ones or
  -- zero.
  ∧ (
    ∀ (w : LaneWord) (s : State) (k : FKey) (f : Fib) (t : Stitch), LaneTurn s k f t → effMask w t ≠ 0 →
      let fmt := w.fmt.toNat
      let holds := fun (a b : Int) => match w.fn.toNat / 8 with
        | 0 => a == b | 1 => a != b | 2 => decide (a < b) | 3 => decide (a ≤ b) | 4 => decide (b < a) | _ => decide (b ≤ a)
      let as := elems s k fmt w.va.toNat
      let bs := operandB s (laneCtx k f t w) w fmt
      isInt fmt = true → w.fn.toNat / 8 ≤ 5 → w.fn.getLsbD 1 = false → w.mdIn 8 = true → w.bOk = true → w.vc = 0 →
      (w.fn.getLsbD 2 = true → regsPass s k f w ([single fmt w.vd.toNat none, single fmt w.va.toNat (some fmt)] ++ regsB w fmt (some fmt)) = true →
        exec (.vcmp w) s = .next (laneEffect k w (effMask w t) (elemRegs fmt w.vd.toNat ((as.zip bs).map fun p => (elemInt fmt false
          (fun a b _ => if holds (intOf fmt a) (intOf fmt b) then 2 ^ subWidth fmt - 1 else 0) p.1 p.2 0).1)) (singleTags fmt w.vd.toNat) 0 s))
      ∧ (w.fn.getLsbD 2 = false → 1 ≤ w.vd.toNat → w.vd.toNat ≤ 189 → as.length = 96 → bs.length = 96 →
        regsPass s k f w ([single fmt w.va.toNat (some fmt)] ++ regsB w fmt (some fmt)) = true →
        ∃ m : Mask, (∀ L, L < 96 → m.getLsbD L = ((effMask w t).getLsbD L
            && holds (intOf fmt (as.getD L 0 % 2 ^ subWidth fmt)) (intOf fmt (bs.getD L 0 % 2 ^ subWidth fmt))))
          ∧ exec (.vcmp w) s = .next (laneRetire k w (setTriple k w.vd.toNat m s))))

/-- Words that move elements between lanes, scan them, or give a scalar register. Parts: CrossLaneMoves, LanesToScalars,
LaneScan. -/
def Obligations.CrossLaneWords : Prop :=
  -- CrossLaneMoves. R304 to R308: the words that move elements between lanes: VD takes, in each active lane, the element of
  -- the lane the word names, 0 from an inactive lane or none, and VA's tags; vpush puts each active lane's element into the
  -- lane it names, the highest-numbered lane winning.
  (
    ∀ (w : LaneWord) (s : State) (k : FKey) (f : Fib) (t : Stitch), LaneTurn s k f t → effMask w t ≠ 0 →
      let fmt := w.fmt.toNat
      let m := effMask w t
      let c := laneCtx k f t w
      let xs := elems s k fmt w.va.toNat
      let src := fun (q : Nat) => if q < 96 ∧ m.getLsbD q = true then xs.getD q 0 else 0
      let moved := fun (of : Nat → Nat) => Host.Outcome.next (φ := Fault) (ρ := Refusal)
        (laneEffect k w m (elemRegs fmt w.vd.toNat ((List.range 96).map of)) (copiedTags s k fmt w.va.toNat w.vd.toNat) 0 s)
      let plain := [single fmt w.vd.toNat none, single fmt w.va.toNat none]
      fmt ≤ 12 → w.vc = 0 →
      (w.fn = 0 → w.mdIn 8 = true → w.imm = 0 →
        regsPass s k f w (plain ++ if w.S then [] else [indexRegs s k w.vb.toNat]) = true →
        exec (.vshfl w) s = moved (fun L => src (laneIndex s c w L))
        ∧ exec (.vpush w) s = .next (laneRetire k w (writeVals k (BitVec.allOnes 96) (elemRegs fmt w.vd.toNat
            ((activeLanes m).foldl (fun r L => if laneIndex s c w L < 96 then r.set (laneIndex s c w L) (xs.getD L 0) else r)
              (elems s k fmt w.vd.toNat)), copiedTags s k fmt w.va.toNat w.vd.toNat) s)))
      ∧ (w.md = 0 → w.vb = 0 → w.imm.toNat ≤ 95 → regsPass s k f w plain = true →
        (w.fn = 1 → exec (.vshfl w) s = moved (fun L => src ((L + w.imm.toNat) % 96)))
        ∧ (w.fn = 2 → exec (.vshfl w) s = moved (fun L => src (L ^^^ w.imm.toNat)))
        ∧ (w.fn = 3 → exec (.vshfl w) s = moved (fun L => src (L + w.imm.toNat)))
        ∧ (w.fn = 4 → exec (.vshfl w) s = moved (fun L => if L < w.imm.toNat then 0 else src (L - w.imm.toNat))))
      ∧ (w.md = 0 → w.vb = 0 → 1 ≤ w.imm.toNat → w.imm.toNat ≤ 127 → regsPass s k f w plain = true →
        (w.fn = 0 → exec (.vswap w) s = moved (fun L => src (L ^^^ w.imm.toNat)))
        ∧ (w.fn = 1 → isFloat fmt = true → exec (.vswap w) s = moved (fun L =>
            let x := src (L ^^^ w.imm.toNat)
            if L < L ^^^ w.imm.toNat then x ^^^ (if fmt = 7 then 2 ^ 63 else if fmt = 6 then 2 ^ 31 else 2 ^ 31 + 2 ^ 15) else x)))
      ∧ (w.fn = 0 → w.mdIn 8 = true → (if w.S then w.imm = 0 else w.vb = 0 ∧ w.imm.toNat ≤ 95) → regsPass s k f w plain = true →
        exec (.vbcast w) s = moved (fun _ => src (if w.S then (c.sreg w.vb.toNat).toNat else w.imm.toNat))))
  -- LanesToScalars. R308 to R312: the words that give a scalar register: vred reduces the active lanes, vballot gathers or
  -- counts a bit, vfirst names the lowest or highest active lane, vtos reads a lane, vtag reads a tag; vtag.set writes one.
  ∧ (
    ∀ (w : LaneWord) (s : State) (k : FKey) (f : Fib) (t : Stitch), LaneTurn s k f t → effMask w t ≠ 0 →
      let fmt := w.fmt.toNat
      let m := effMask w t
      let xs := elems s k fmt w.va.toNat
      let d := w.vd.toNat
      let put := fun (v : W64) => Host.Outcome.next (φ := Fault) (ρ := Refusal) (laneRetire k w (laneSetSreg k d v s))
      w.vc = 0 →
      (isInt fmt = true → d < 192 → w.fn.toNat ≤ 5 → w.mdIn (if w.fn = 0 then 4 else 0) = true → w.vb = 0 → w.imm = 0 →
        regsPass s k f w [single fmt w.va.toNat (some fmt)] = true →
        let rs := (List.range (subCount fmt)).map fun j => (reduce w.fn.toNat fmt w.sat
          ((activeLanes m).map fun L => subVal (subWidth fmt) j (xs.getD L 0))).getD (0, false)
        let x := packSubs (subWidth fmt) (rs.map (·.1))
        exec (.vred w) s = .next (laneRetire k w (laneSetSreg k d (if fmt = 0 then (BitVec.ofNat 32 x).signExtend 64 else BitVec.ofNat 64 x)
          (orFlags k (if rs.any (·.2) then 1 <<< 40 else 0) s))))
      ∧ (fmt = 0 → d < 192 → w.fn.toNat ≤ 5 → w.md = 0 → w.vb = 0 → w.imm = 0 → xs.length = 96 → regsPass s k f w [single fmt w.va.toNat (some fmt)] = true →
        let sub := (activeLanes m).map fun L => xs.getD L 0
        exec (.vred w) s = put (BitVec.ofInt 64 (match w.fn.toNat with
          | 0 => toSigned 32 (sub.foldl (· + ·) 0 % 2 ^ 32)
          | 1 => toSigned 32 (sub.foldl (· &&& ·) (2 ^ 32 - 1))
          | 2 => toSigned 32 (sub.foldl (· ||| ·) 0)
          | 3 => toSigned 32 (sub.foldl (· ^^^ ·) 0)
          | 4 => (sub.map (toSigned 32)).foldl min (2 ^ 31 - 1)
          | _ => (sub.map (toSigned 32)).foldl max (-2 ^ 31))))
      ∧ (fmt ≤ 12 → w.fn.toNat ≤ 1 → w.md = 0 → w.vb = 0 → w.imm.toNat ≤ (if is64 fmt then 63 else 31) → xs.length = 96 →
        regsPass s k f w [single fmt w.va.toNat none] = true →
        ∃ b : Mask, (∀ L, L < 96 → b.getLsbD L = (m.getLsbD L && (xs.getD L 0).testBit w.imm.toNat))
          ∧ (w.fn = 0 → 1 ≤ d → d ≤ 189 → exec (.vballot w) s = .next (laneRetire k w (setTriple k d b s)))
          ∧ (w.fn = 1 → d < 192 → exec (.vballot w) s = put (BitVec.ofNat 64 ((List.range 96).filter fun L => b.getLsbD L).length)))
      ∧ (w.fmt = 0 → w.fn.toNat ≤ 1 → w.md = 0 → w.va = 0 → w.vb = 0 → w.imm = 0 → d < 192 →
        exec (.vfirst w) s = put (BitVec.ofNat 64 (if w.fn = 0 then (activeLanes m).headD 0 else (activeLanes m).getLastD 0)))
      ∧ (fmt ≤ 12 → w.fn = 0 → w.mdIn 8 = true → (if w.S then w.imm = 0 else w.vb = 0 ∧ w.imm.toNat ≤ 95) → d < 192 →
        regsPass s k f w [single fmt w.va.toNat none] = true →
        let q := if w.S then ((laneCtx k f t w).sreg w.vb.toNat).toNat else w.imm.toNat
        exec (.vtos w) s = put (let x := if m.getLsbD q then xs.getD q 0 else 0
          if fmt = 0 then (BitVec.ofNat 32 x).signExtend 64 else BitVec.ofNat 64 x))
      ∧ (w.fmt = 0 → w.fn = 0 → w.md = 0 → w.vb = 0 → w.imm = 0 → d < 192 → regsPass s k f w [single 0 w.va.toNat none] = true →
        exec (.vtag w) s = put (BitVec.ofNat 64 (s.vtag k w.va.toNat)))
      ∧ (w.fmt = 0 → w.fn = 1 → w.md = 0 → w.va = 0 → w.vb = 0 → w.imm.toNat < 16 → regsPass s k f w [single 0 d none] = true →
        exec (.vtagSet w) s = .next (laneRetire k w (s.setVtag k d w.imm.toNat))))
  -- LaneScan. R310: vscan of 32-bit signed sums: lane L takes the sum of the active lanes up to it, or below it in the
  -- exclusive form, modulo 2³²; the other operations and formats follow the same fold from their identities.
  ∧ (
    ∀ (w : LaneWord) (s : State) (k : FKey) (f : Fib) (t : Stitch), LaneTurn s k f t → effMask w t ≠ 0 →
      let fmt := w.fmt.toNat
      let m := effMask w t
      let xs := elems s k fmt w.va.toNat
      let upTo := fun (L : Nat) => (activeLanes m).filter fun q => if w.fn.getLsbD 3 then q < L else q ≤ L
      isInt fmt = true → w.fn.toNat < 16 → w.fn.toNat % 8 ≤ 5 → w.mdIn (if w.fn.toNat % 8 = 0 then 4 else 0) = true →
      w.vb = 0 → w.vc = 0 → w.imm = 0 →
      regsPass s k f w [single fmt w.vd.toNat none, single fmt w.va.toNat (some fmt)] = true →
      (fmt = 0 → w.fn.toNat % 8 = 0 → w.md = 0 → exec (.vscan w) s = .next (laneEffect k w m [(w.vd.toNat, (List.range 96).map fun L =>
        BitVec.ofNat 32 (((upTo L).map fun q => xs.getD q 0).foldl (· + ·) 0))] [(w.vd.toNat, 0)] 0 s))
      ∧ (let rs := (List.range 96).map fun L => (List.range (subCount fmt)).map fun j => (reduce (w.fn.toNat % 8) fmt w.sat
          ((upTo L).map fun q => subVal (subWidth fmt) j (xs.getD q 0))).getD (scanIdentity (w.fn.toNat % 8) fmt, false)
        exec (.vscan w) s = .next (laneEffect k w m (elemRegs fmt w.vd.toNat (rs.map fun r => packSubs (subWidth fmt) (r.map (·.1))))
          (singleTags fmt w.vd.toNat)
          (if (rs.map fun r => r.any (·.2)).zipIdx.any (fun r => r.1 && m.getLsbD r.2) then 1 <<< 40 else 0) s)))

/-- Floating formats round trip, and NaN and infinity follow their rules. Parts: FloatRoundTrip, FloatSpecialCases. -/
def Obligations.FloatRounding : Prop :=
  -- FloatRoundTrip. R216, R218: a finite number of a format, unpacked and rounded back in any mode, is itself, with no flag;
  -- an infinity keeps its sign, and every NaN becomes the canonical one (R217).
  (
    ∀ fmt ∈ [6, 7, 8, 9], ∀ (md : Rnd) (x : Nat),
      let F := fpFmt fmt
      x < 2 ^ F.width →
      (x / 2 ^ (F.p - 1) % 2 ^ F.ew ≠ 2 ^ F.ew - 1 → roundEv F md (unpackF F x, 0) = (x, 0))
      ∧ (x / 2 ^ (F.p - 1) % 2 ^ F.ew = 2 ^ F.ew - 1 → x % 2 ^ (F.p - 1) = 0 → roundEv F md (unpackF F x, 0) = (x, 0))
      ∧ (x / 2 ^ (F.p - 1) % 2 ^ F.ew = 2 ^ F.ew - 1 → x % 2 ^ (F.p - 1) ≠ 0 → roundEv F md (unpackF F x, 0) = (F.nanBits, 0)))
  -- FloatSpecialCases. R217, R219, R317: a NaN operand makes a sum, a difference, a product and a fused sum the canonical NaN,
  -- with NV for a signalling one; the difference of two like infinities, and a product of an infinity and a zero, are the
  -- canonical NaN with NV.
  ∧ (
    ∀ fmt ∈ [6, 7, 8, 9], ∀ (md : Rnd) (a b : FVal),
      let F := fpFmt fmt
      let nan := fun (sig : Bool) => [(F.nanBits, if sig then 16 else 0)]
      ((a.isNan || b.isNan) = true →
        seriesAdd F md false [a] [b] 1 = nan (a.sig || b.sig) ∧ seriesAdd F md true [a] [b] 1 = nan (a.sig || b.sig)
        ∧ seriesMul F md [a] [b] 1 = nan (a.sig || b.sig))
      ∧ (∀ n, seriesAdd F md true [.inf n] [.inf n] 1 = nan true ∧ seriesAdd F md false [.inf n] [.inf (!n)] 1 = nan true
        ∧ seriesAdd F md false [.inf n] [.inf n] 1 = [(F.infBits n, 0)])
      ∧ (∀ n z e, seriesMul F md [.inf n] [.fin z 0 e] 1 = nan true ∧ seriesMul F md [.fin z 0 e] [.inf n] 1 = nan true)
      ∧ (∀ n z e, seriesDiv F md [.fin z 0 e] [.fin n 0 e] 1 = nan true ∧ (∀ m, m ≠ 0 →
          seriesDiv F md [.fin z m e] [.fin n 0 e] 1 = [(F.infBits (z != n), 8)])))

/-- Floating words write the series of their rules, or stop with FP. Parts: LaneFloatResults, FloatTrap. -/
def Obligations.LaneFloatWords : Prop :=
  -- LaneFloatResults. R314 to R327: the floating words of a group, a group or plain operand b and perhaps a group c, with no
  -- trap enabled: in each active lane and sub-element the coefficients of VD are the rule's series of the operands'
  -- coefficients, rounded once each, VD's group tags are set, JFLAGS takes the flags by coefficient, and the words of the
  -- division family and of the functions leave their results pending as long words do.
  (
    ∀ e ∈ ([(Instr.fadd, 11, 1, true, BKind.jet, false, false, fun _ F md n a b _ => seriesAdd F md false (vals F a) (vals F b) n),
        (Instr.fsub, 11, 1, true, BKind.jet, false, false, fun _ F md n a b _ => seriesAdd F md true (vals F a) (vals F b) n),
        (Instr.fmul, 11, 1, true, BKind.jet, false, false, fun _ F md n a b _ => seriesMul F md (vals F a) (vals F b) n),
        (Instr.ffma, 11, 1, true, BKind.jet, true, false, fun _ F md n a b c => seriesFma F md (vals F a) (vals F b) (vals F c) n),
        (Instr.fmin, 11, 1, true, BKind.jet, false, false, fun _ F _ _ a b _ => seriesPick F false a b),
        (Instr.fmax, 11, 1, true, BKind.jet, false, false, fun _ F _ _ a b _ => seriesPick F true a b),
        (Instr.fsgn, 11, 2, false, BKind.one, false, false, fun w F _ _ a b _ => seriesSign F w.fn.toNat a (b.getD 0 0)),
        (Instr.fsgnn, 11, 2, false, BKind.one, false, false, fun w F _ _ a b _ => seriesSign F w.fn.toNat a (b.getD 0 0)),
        (Instr.fsgnx, 11, 2, false, BKind.one, false, false, fun w F _ _ a b _ => seriesSign F w.fn.toNat a (b.getD 0 0)),
        (Instr.fdiv, 11, 1, true, BKind.jet, false, true, fun _ F md n a b _ => seriesDiv F md (vals F a) (vals F b) n),
        (Instr.fsqrt, 3, 0, false, BKind.none, false, true, fun _ F md n a _ _ => seriesSqrt F md (vals F a) n),
        (Instr.frcp, 3, 0, false, BKind.none, false, true, fun _ F md n a _ _ => seriesRcp F md (vals F a) n),
        (Instr.frsq, 3, 0, false, BKind.none, false, true, fun _ F md n a _ _ => seriesRsq F md (vals F a) n),
        (Instr.fexp2, 3, 0, false, BKind.none, false, true, fun _ F md n a _ _ => seriesExp2 F md (vals F a) n),
        (Instr.flog2, 3, 0, false, BKind.none, false, true, fun _ F md n a _ _ => seriesLog2 F md (vals F a) n),
        (Instr.ftanh, 3, 0, false, BKind.none, false, true, fun _ F md n a _ _ => seriesTanh F md (vals F a) n),
        (Instr.frnd, 0, 4, false, BKind.none, false, false, fun w F md n a _ _ => integralF F (match w.fn.toNat with
          | 0 => md | 1 => .rne | 2 => .rz | 3 => .rdn | _ => .rup) (a.getD 0 0) :: List.replicate (n - 1) (0, 0))] :
        List ((LaneWord → Instr) × BitVec 6 × Nat × Bool × BKind × Bool × Bool ×
          (LaneWord → FpFmt → Rnd → Nat → List Nat → List Nat → List Nat → List (Nat × Nat)))),
      ∀ (w : LaneWord) (s : State) (k : FKey) (f : Fib) (t : Stitch), LaneTurn s k f t → effMask w t ≠ 0 → trapsOff f →
      let (_, md, fns, imm, bk, useC, long, value) := e
      let fmt := w.fmt.toNat
      let order := f.jord % 8
      let c := laneCtx k f t w
      let vecB := !(w.S || (imm && w.imm1))
      isFloat fmt = true → w.fn.toNat ≤ fns → w.mdIn md = true → (useC = true ∨ w.vc = 0) →
      (bk = .none → w.vb = 0 ∧ w.imm = 0 ∧ w.S = false) →
      (bk ≠ .none → if imm then w.bOk = true ∧ immFits w fmt = true else w.imm = 0) →
      regsPass s k f w ([group fmt order w.vd.toNat false, group fmt order w.va.toNat true]
        ++ (if bk = .none ∨ vecB = false then [] else if bk = .jet then [group fmt order w.vb.toNat true]
            else [single fmt w.vb.toNat (some fmt)])
        ++ (if useC then [group fmt order w.vc.toNat true] else [])) = true →
      let as := groupElems s k fmt order w.va.toNat
      let bs := match bk with | .none => [] | .jet => seriesB s c w fmt order imm false | .one => seriesB s c w fmt order imm true
      let cs := if useC then groupElems s k fmt order w.vc.toNat else []
      let rs := eachLane c fmt fun L j => value w (fpFmt fmt) (rndOf w.md.toNat f.rmode) (order + 1) (subSeries fmt as L j)
        (subSeries fmt bs L j) (subSeries fmt cs L j)
      exec (e.1 w) s = .next (if long
        then longEffect k f t w (jetVals fmt order w.vd.toNat rs) (groupTags fmt order w.vd.toNat) (raised (effMask w t) rs) s
        else laneEffect k w (effMask w t) (jetVals fmt order w.vd.toNat rs) (groupTags fmt order w.vd.toNat) (raised (effMask w t) rs) s))
  -- FloatTrap. R222, R292: a floating word one of whose active lanes would raise an enabled flag stops its fibre with FP
  -- before it writes anything, naming the lowest such lane, its lowest such coefficient and that coefficient's flags.
  ∧ (
    ∀ (w : LaneWord) (s : State) (k : FKey) (f : Fib) (t : Stitch) (L j : Nat), LaneTurn s k f t →
      let c := laneCtx k f t w
      let fmt := w.fmt.toNat
      let order := f.jord % 8
      let as := groupElems s k fmt order w.va.toNat
      let bs := seriesB s c w fmt order true false
      let rs := eachLane c fmt fun L j => seriesAdd (fpFmt fmt) (rndOf w.md.toNat f.rmode) false (vals (fpFmt fmt) (subSeries fmt as L j))
        (vals (fpFmt fmt) (subSeries fmt bs L j)) (order + 1)
      let flag := fun (L j : Nat) => ((rs.getD L []).getD j (0, 0)).2 &&& (f.rmode.extractLsb' 8 5).toNat
      isFloat fmt = true → w.fn.toNat ≤ 1 → w.mdIn 11 = true → w.vc = 0 → w.bOk = true → immFits w fmt = true →
      regsPass s k f w ([group fmt order w.vd.toNat false, group fmt order w.va.toNat true]
        ++ (if w.S || w.imm1 then [] else [group fmt order w.vb.toNat true])) = true →
      (effMask w t).getLsbD L = true → j ≤ order → flag L j ≠ 0 →
      (∀ x, x < L → (effMask w t).getLsbD x = true → ∀ y, flag x y = 0) → (∀ y, y < j → flag L y = 0) →
      exec (.fadd w) s = .next (takeStop k 27 { lane := L, coef := j, flags := ((rs.getD L []).getD j (0, 0)).2 } f.pc s))

/-- fscale, fsin, fcos, frred, fdot2, fcmp and fclass. Parts: LaneFloatIntegerResults, FloatComparison. -/
def Obligations.LaneFloatScaleAndCompare : Prop :=
  -- LaneFloatIntegerResults. R320, R328, R329, R317: fscale, fsin and fcos with an integer operand, frred, and fdot2, with no
  -- trap enabled.
  (
    ∀ (w : LaneWord) (s : State) (k : FKey) (f : Fib) (t : Stitch), LaneTurn s k f t → effMask w t ≠ 0 → trapsOff f →
      let fmt := w.fmt.toNat
      let order := f.jord % 8
      let c := laneCtx k f t w
      let m := effMask w t
      let F := fpFmt fmt
      let rnd := rndOf w.md.toNat f.rmode
      let as := groupElems s k fmt order w.va.toNat
      let d := w.vd.toNat
      let jets := [group fmt order d false, group fmt order w.va.toNat true]
      (isFloat fmt = true → w.fn.toNat ≤ 1 → w.mdIn 11 = true → w.bOk = true → w.vc = 0 →
        regsPass s k f w (jets ++ (if w.S || w.imm1 then [] else [single 0 w.vb.toNat (some (if fmt = 8 ∨ fmt = 9 then 2 else 0))])) = true →
        (immFits w fmt = true →
          let rs := eachLane c fmt fun L j => seriesScale F rnd (vals F (subSeries fmt as L j)) (intOperand s c w fmt L j)
          exec (.fscale w) s = .next (laneEffect k w m (jetVals fmt order d rs) (groupTags fmt order d) (raised m rs) s))
        ∧ (w.imm1 = false ∨ w.imm.toNat < 4 → ∀ e ∈ ([(Instr.fsin, false), (Instr.fcos, true)] : List ((LaneWord → Instr) × Bool)),
          let rs := eachLane c fmt fun L j =>
            seriesSinCos F rnd e.2 (intOperand s c w fmt L j % 4).toNat (vals F (subSeries fmt as L j)) (order + 1)
          exec (e.1 w) s = .next (longEffect k f t w (jetVals fmt order d rs) (groupTags fmt order d) (raised m rs) s)))
      ∧ (isFloat fmt = true → w.fn = 0 → w.mdIn 3 = true → w.vb = 0 → w.imm = 0 →
        (w.vc.toNat < d ∨ d + groupSize order * (if is64 fmt then 2 else 1) ≤ w.vc.toNat) →
        regsPass s k f w (jets ++ [single 0 w.vc.toNat none]) = true →
        let red := fun (L j : Nat) => reduceV F rnd (unpackF F ((subSeries fmt as L j).headD 0))
        let rs := eachLane c fmt fun L j => (red L j).1 :: ((subSeries fmt as L j).drop 1).map fun x =>
          (if (unpackF F x).isNan then F.nanBits else x, if (unpackF F x).sig then 16 else 0)
        let q := (List.range 96).map fun L => BitVec.ofNat 32 (if m.getLsbD L then
          packSubs (subWidth fmt) ((List.range (subCount fmt)).map fun j => (red L j).2) else 0)
        exec (.frred w) s = .next (longEffect k f t w (jetVals fmt order d rs ++ [(w.vc.toNat, q)])
          (groupTags fmt order d ++ [(w.vc.toNat, if fmt = 8 ∨ fmt = 9 then 2 else 0)]) (raised m rs) s))
      ∧ ((fmt = 8 ∨ fmt = 9) → w.fn = 0 → w.mdIn 3 = true → w.imm = 0 →
        regsPass s k f w [group 6 order d false, group fmt order w.va.toNat true, group fmt order w.vb.toNat true,
          group 6 order w.vc.toNat true] = true →
        let bs := groupElems s k fmt order w.vb.toNat
        let cs := groupElems s k 6 order w.vc.toNat
        let rs := eachLane c 6 fun L _ =>
          let half := fun (xs : List (List Nat)) h => vals F (subSeries fmt xs L h)
          series (fpFmt 6) (order + 1) fun i _ => roundEv (fpFmt 6) rnd (sumV (rnd == .rdn)
            (cauchy (half as 0) (half bs 0) i ++ cauchy (half as 1) (half bs 1) i ++ [(at_ (vals (fpFmt 6) (subSeries 6 cs L 0)) i, 0)]))
        exec (.fdot2 w) s = .next (laneEffect k w m (jetVals 6 order d rs) (groupTags 6 order d) (raised m rs) s)))
  -- FloatComparison. R322, R323: fcmp and fclass, with no trap enabled: the mask form of fcmp puts the active lanes whose
  -- first sub-elements satisfy the condition into S[VD] to S[VD+2], its vector form gives all ones or zero; fclass gives the
  -- class mask of each sub-element.
  ∧ (
    ∀ (w : LaneWord) (s : State) (k : FKey) (f : Fib) (t : Stitch), LaneTurn s k f t → effMask w t ≠ 0 → trapsOff f →
      let fmt := w.fmt.toNat
      let c := laneCtx k f t w
      let m := effMask w t
      let F := fpFmt fmt
      let as := [elems s k fmt w.va.toNat]
      let bs := seriesB s c w fmt 0 true true
      let one := fun L j => fcmpHolds F (w.fn.toNat / 8) ((subSeries fmt as L j).headD 0) ((subSeries fmt bs L j).headD 0)
      let bR := if w.S || w.imm1 then [] else [single fmt w.vb.toNat (some fmt)]
      isFloat fmt = true → w.vc = 0 →
      (w.fn.getLsbD 1 = false → w.fn.getLsbD 2 = true → w.mdIn 11 = true → w.bOk = true → immFits w fmt = true →
        regsPass s k f w ([single fmt w.vd.toNat none, single fmt w.va.toNat (some fmt)] ++ bR) = true →
        let rs := eachLane c fmt fun L j => [(if (one L j).1 then 2 ^ subWidth fmt - 1 else 0, (one L j).2)]
        exec (.fcmp w) s = .next (laneEffect k w m (jetVals fmt 0 w.vd.toNat rs)
          (singleTags (if fmt = 7 then 11 else if fmt = 6 then 0 else 2) w.vd.toNat) (raised m rs) s))
      ∧ (w.fn.getLsbD 1 = false → w.fn.getLsbD 2 = false → w.mdIn 11 = true → w.bOk = true → immFits w fmt = true →
        1 ≤ w.vd.toNat → w.vd.toNat ≤ 189 → regsPass s k f w ([single fmt w.va.toNat (some fmt)] ++ bR) = true →
        ∃ b : Mask, (∀ L, L < 96 → b.getLsbD L = (m.getLsbD L && (one L 0).1))
          ∧ exec (.fcmp w) s = .next (laneRetire k w (setTriple k w.vd.toNat b
            (orFlags k (raised m ((List.range 96).map fun L => [(0, (one L 0).2)])) s))))
      ∧ (w.fn = 0 → w.mdIn 3 = true → w.vb = 0 → w.imm = 0 → regsPass s k f w [single 0 w.vd.toNat none, single fmt w.va.toNat (some fmt)] = true →
        let rs := eachLane c fmt fun L j => [(classMask F ((subSeries fmt as L j).headD 0), 0)]
        exec (.fclass w) s = .next (laneEffect k w m (jetVals 0 0 w.vd.toNat rs) (singleTags (if fmt = 8 ∨ fmt = 9 then 2 else 0) w.vd.toNat) 0 s)))

/-- Jets are built, read, differentiated and truncated. R332 to R335: jseed and jconst build a jet from a value, jget and jput
move one coefficient, jderiv differentiates (with no trap enabled), and jtrunc clears the coefficients above IMM. -/
def Obligations.JetWords : Prop :=
  ∀ (w : LaneWord) (s : State) (k : FKey) (f : Fib) (t : Stitch), LaneTurn s k f t → effMask w t ≠ 0 →
    let fmt := w.fmt.toNat
    let order := f.jord % 8
    let c := laneCtx k f t w
    let m := effMask w t
    let F := fpFmt fmt
    let d := w.vd.toNat
    let a := elems s k fmt w.va.toNat
    let zero := List.replicate 96 0
    let put := fun (xs : List (List Nat)) => Host.Outcome.next (φ := Fault) (ρ := Refusal)
      (laneEffect k w m (groupRegs fmt d xs) (groupTags fmt order d) 0 s)
    isFloat fmt = true → w.vc = 0 →
    (order ≠ 0 → w.fn.toNat ≤ 1 → w.mdIn (if w.fn = 1 then 8 else 0) = true → w.imm = 0 → (w.fn = 1 ∨ w.vb = 0) →
      regsPass s k f w ([group fmt order d false, single fmt w.va.toNat (some fmt)]
        ++ (if w.fn = 1 ∧ w.S = false then [single fmt w.vb.toNat (some fmt)] else [])) = true →
      exec (.jseed w) s = put (a :: (if w.fn = 1 then (if w.S then List.replicate 96 (constElem c w fmt) else elems s k fmt w.vb.toNat)
        else List.replicate 96 (if fmt = 6 then 0x3F80_0000 else if fmt = 7 then 0x3FF0_0000_0000_0000
          else if fmt = 8 then 0x3F80_3F80 else 0x3C00_3C00)) :: List.replicate (order - 1) zero))
    ∧ (w.fn = 0 → w.md = 0 → w.vb = 0 → w.imm = 0 → regsPass s k f w [group fmt order d false, single fmt w.va.toNat (some fmt)] = true →
      exec (.jconst w) s = put (a :: List.replicate order zero))
    ∧ (w.fn = 0 → w.md = 0 → w.vb = 0 → w.imm.toNat ≤ order →
      (regsPass s k f w [single fmt d none, oneOfGroup fmt order w.va.toNat w.imm.toNat true] = true →
        exec (.jget w) s = .next (laneEffect k w m (elemRegs fmt d (elems s k fmt (coefReg fmt w.va.toNat w.imm.toNat)))
          (singleTags fmt d) 0 s))
      ∧ (regsPass s k f w [oneOfGroup fmt order d w.imm.toNat false, single fmt w.va.toNat (some fmt)] = true →
        ∃ tags, exec (.jput w) s = .next (laneEffect k w m (elemRegs fmt (coefReg fmt d w.imm.toNat) a) tags 0 s)
          ∧ tags = (groupTags fmt w.imm.toNat d).drop ((if is64 fmt then 2 else 1) * w.imm.toNat)))
    ∧ (trapsOff f → order ≠ 0 → w.fn = 0 → w.mdIn 3 = true → w.vb = 0 → w.imm = 0 →
      regsPass s k f w [group fmt order d false, group fmt order w.va.toNat true] = true →
      let as := groupElems s k fmt order w.va.toNat
      let rs := eachLane c fmt fun L j => (List.range order).map (fun (i : Nat) => roundEv F (rndOf w.md.toNat f.rmode)
        (mulV (dyad ((i : Int) + 1) 0) (at_ (vals F (subSeries fmt as L j)) (i + 1)))) ++ [(0, 0)]
      exec (.jderiv w) s = .next (laneEffect k w m (jetVals fmt order d rs) (groupTags fmt order d) (raised m rs) s))
    ∧ (w.fn = 0 → w.md = 0 → w.vb = 0 → w.imm.toNat < 8 →
      regsPass s k f w [group fmt order d false, group fmt order w.va.toNat true] = true →
      exec (.jtrunc w) s = put ((List.range (order + 1)).map fun i => if i ≤ w.imm.toNat then elems s k fmt (coefReg fmt w.va.toNat i) else zero))

/-- fcvt converts formats, and the l6 words pack and unpack blocks. Parts: FormatConversion, BlockRegisterWords. -/
def Obligations.ConversionAndBlockWords : Prop :=
  -- FormatConversion. R336: fcvt, with no trap enabled, for every pair of formats, every packing and every order: floating to
  -- floating and integer to floating round once, floating to integer rounds to an integer and is clamped with NV, and integer
  -- to integer wraps, or is clamped with SAT under sat; a format with more sub-elements reads further registers, one with
  -- fewer reads the ones IMM names. At an order above 0 floating to floating converts each coefficient, integer to floating
  -- writes a constant jet, floating to integer reads coefficient 0, and any other form stops with JET_ORDER.
  (
    ∀ (w : LaneWord) (s : State) (k : FKey) (f : Fib) (t : Stitch), LaneTurn s k f t → effMask w t ≠ 0 → trapsOff f →
      let src := w.fmt.toNat
      let dst := w.fn.toNat
      let m := effMask w t
      let md := rndOf w.md.toNat f.rmode
      let ns := subCount src
      let nd := subCount dst
      let step := if is64 src then 2 else 1
      let count := if ns < nd then nd / ns else 1
      let order := f.jord % 8
      let one := fun (x : Nat) =>
        if isFloat src ∧ isFloat dst then (roundOut (fpFmt dst) md ((unpackF (fpFmt src) x).toEx, if (unpackF (fpFmt src) x).sig then 16 else 0), false)
        else if isFloat dst then (roundEv (fpFmt dst) md (dyad (intOf src x) 0, 0), false)
        else
          let n := subWidth dst
          let lo : Int := if isSigned dst then -(2 ^ (n - 1) : Nat) else 0
          let hi : Int := if isSigned dst then (2 ^ (n - 1) : Nat) - 1 else (2 ^ n : Nat) - 1
          if isFloat src then ((((toIntF md lo hi (unpackF (fpFmt src) x)).1 % 2 ^ n).toNat, (toIntF md lo hi (unpackF (fpFmt src) x)).2), false)
          else (((narrowInt dst w.sat (intOf src x)).1, 0), (narrowInt dst w.sat (intOf src x)).2)
      let subs := fun i L => (List.range nd).map fun e => one (subVal (subWidth src) (if nd < ns then w.imm.toNat * nd + e else e % ns)
        ((elems s k src (w.va.toNat + step * (i + if ns < nd then e / ns else 0))).getD L 0))
      let top := if isFloat dst then order else 0
      let rs : FloatResults := (List.range 96).map fun L => (List.range (top + 1)).map fun i =>
        if m.getLsbD L ∧ (i = 0 ∨ isFloat src = true) then
          (packSubs (subWidth dst) ((subs i L).map (·.1.1)), (subs i L).foldl (fun r x => r ||| x.1.2) 0) else (0, 0)
      let sat := (List.range 96).any fun L => m.getLsbD L && (subs 0 L).any (·.2)
      let regsD := if isFloat dst then group dst order w.vd.toNat false else single dst w.vd.toNat none
      let regsS := if order = 0 ∨ isFloat src = false then (List.range count).map fun q => single src (w.va.toNat + step * q) (some src)
        else if isFloat dst then [group src order w.va.toNat true] else [oneOfGroup src order w.va.toNat 0 true]
      let allowed := order = 0 ∨ (isFloat src = true ∨ isFloat dst = true) ∧ ns = nd ∨ isFloat src = true ∧ isFloat dst = false ∧ nd ≤ ns
      cvtFmt src = true → cvtFmt dst = true → dst < 16 → w.mdIn (if isFloat dst then 3 else 7) = true → w.vb = 0 → w.vc = 0 →
      (if nd < ns then w.imm.toNat < ns / nd else w.imm = 0) →
      (allowed → regsPass s k f w (regsD :: regsS) = true →
        exec (.fcvt w) s = .next (laneRetire k w (writeVals k m (jetVals dst top w.vd.toNat rs, groupTags dst top w.vd.toNat)
          (orFlags k (if sat then 1 <<< 40 else 0) (orFlags k (raised m rs) s)))))
      ∧ (¬allowed → ∃ L, exec (.fcvt w) s = .next (takeStop k 6 { lane := L } f.pc s)))
  -- BlockRegisterWords. R223, R224, R337 to R340: with no trap enabled l6pack puts the codes of each lane's sub-elements into
  -- element IMM of a block group, l6unpack reads them back rounded once (NaL as the canonical NaN with NV), l6plane truncates
  -- a block to its highest planes, and l6plane.code gives an element's code.
  ∧ (
    ∀ (w : LaneWord) (s : State) (k : FKey) (f : Fib) (t : Stitch), LaneTurn s k f t → effMask w t ≠ 0 → trapsOff f →
      let fmt := w.fmt.toNat
      let c := laneCtx k f t w
      let m := effMask w t
      let e := w.imm.toNat
      let d := w.vd.toNat
      let tags := (List.range 12).map fun r => (d + r, 10)
      w.vb = 0 → w.vc = 0 →
      (isFloat fmt = true → w.fn.toNat ≤ 1 → w.md = 0 → e < 64 → ((fmt = 8 ∨ fmt = 9) → e % 2 = 0) →
        regsPass s k f w [blockGroup d (w.fn != 1), single fmt w.va.toNat (some fmt)] = true →
        let code := fun (L i : Nat) => toL6 (unpackF (fpFmt fmt) (subVal (subWidth fmt) i ((elems s k fmt w.va.toNat).getD L 0)))
        ∃ vals, exec (.l6pack w) s = .next (laneEffect k w m vals tags
            (raised m ((List.range 96).map fun L => [(0, (List.range (subCount fmt)).foldl (fun r i => r ||| (code L i).2) 0)])) s)
          ∧ vals.map (·.1) = (List.range 12).map (d + ·)
          ∧ ∀ L x j, L < 96 → m.getLsbD L = true → x < 64 → j < 6 →
            ((tget vals (planeReg d j x) []).getD L 0).getLsbD (x % 32)
              = if e ≤ x ∧ x < e + subCount fmt then (code L (x - e)).1.testBit j
                else w.fn != 1 && ((readV s k (planeReg d j x)).getD L 0).getLsbD (x % 32))
      ∧ (isFloat fmt = true → w.fn = 0 → w.mdIn 3 = true → e < 64 → ((fmt = 8 ∨ fmt = 9) → e < 63) →
        regsPass s k f w [single fmt d none, blockGroup w.va.toNat true] = true →
        let rs := eachLane c fmt fun L j =>
          let x := l6Code s k w.va.toNat (e + j) L
          [if x = 32 then ((fpFmt fmt).nanBits, 16) else roundEx (fpFmt fmt) (rndOf w.md.toNat f.rmode) (quarterSum false (l6Value x))]
        exec (.l6unpack w) s = .next (laneEffect k w m (jetVals fmt 0 d rs) (groupTags fmt 0 d) (raised m rs) s))
      ∧ (w.fmt = 10 → w.fn = 0 → w.md = 0 → 2 ≤ e → e ≤ 6 → regsPass s k f w [blockGroup d false, blockGroup w.va.toNat true] = true →
        ∃ vals, exec (.l6plane w) s = .next (laneEffect k w m vals tags 0 s)
          ∧ ∀ L j h, L < 96 → j < 6 → h < 2 → ((tget vals (d + 2 * j + h) []).getD L 0)
            = BitVec.ofNat 32 ((truncPlanes e ((List.range 6).map fun i => ((readV s k (w.va.toNat + 2 * i + h)).getD L 0).toNat)).getD j 0))
      ∧ (w.fmt = 10 → w.fn = 1 → w.md = 0 → e < 64 → regsPass s k f w [single 0 d none, blockGroup w.va.toNat true] = true →
        exec (.l6planeCode w) s = .next (laneEffect k w m
          [(d, (List.range 96).map fun L => BitVec.ofNat 32 (l6Code s k w.va.toNat e L))] [(d, 0)] 0 s)))

/-- The addresses lane accesses use, and the values lane loads leave. Parts: LaneAddresses, LoadedValues. -/
def Obligations.LaneAddressesAndValues : Prop :=
  -- LaneAddresses. R343, R344: the address of a lane in the four modes: signed and unsigned offsets scaled by a power of two,
  -- a 64-bit pair, and the lane's place in a row; each added to S[VB] and the sign-extended IMM, modulo 2^64.
  (
    ∀ (s : State) (c : LaneCtx) (w : LaneWord) (n L : Nat),
      let base := c.sreg w.vb.toNat + w.imm.signExtend 64
      let lo := (readV s c.k w.va.toNat).getD L 0
      let hi := (readV s c.k (w.va.toNat + 1)).getD L 0
      (memMode w = 0 → (laneAddr s c w n L).toInt = (base.toInt + lo.toInt * 2 ^ memScale w).bmod (2 ^ 64))
      ∧ (memMode w = 1 → (laneAddr s c w n L).toNat = (base.toNat + lo.toNat * 2 ^ memScale w) % 2 ^ 64)
      ∧ (memMode w = 2 → (laneAddr s c w n L).toNat = (base.toNat + hi.toNat * 2 ^ 32 + lo.toNat) % 2 ^ 64)
      ∧ (memMode w = 3 → (laneAddr s c w n L).toNat = (base.toNat + n * L) % 2 ^ 64))
  -- LoadedValues. R351, R344, R226, R354: what the bytes a lane load brought leave in its registers, in each active lane: the
  -- element, little-endian, in VD or in the pair; a narrow element sign-extended for i32 and zero-extended for n32; of an l6
  -- block the planes that VC asks for, the next plane below them their bitwise or, the lower ones 0, and a sign only where a
  -- plane is set; with the tag of the word's format.
  ∧ (
    ∀ (mask : Mask) (got : List (Nat × Nat × W8)) (L vd fmt : Nat), L < 96 → mask.getLsbD L = true →
      (∀ x : BitVec 32, gotBytes got L 4 = leBytes x.toNat 4 → ∃ r, finVals (.vreg vd fmt 4 0) mask got = ([(vd, r)], [(vd, fmt)])
        ∧ r.length = 96 ∧ r.getD L 0 = x)
      ∧ (∀ x : BitVec 64, gotBytes got L 8 = leBytes x.toNat 8 → ∃ r q, finVals (.vreg vd fmt 8 0) mask got
        = ([(vd, r), (vd + 1, q)], [(vd, fmt), (vd + 1, 13)]) ∧ r.getD L 0 = x.extractLsb' 0 32 ∧ q.getD L 0 = x.extractLsb' 32 32)
      ∧ (∀ x : BitVec 8, gotBytes got L 1 = [x] → ∃ r q, finVals (.vreg vd 0 1 1) mask got = ([(vd, r)], [(vd, 0)])
        ∧ finVals (.vreg vd 1 1 1) mask got = ([(vd, q)], [(vd, 1)]) ∧ r.getD L 0 = x.signExtend 32 ∧ q.getD L 0 = x.setWidth 32)
      ∧ (∀ x : BitVec 16, gotBytes got L 2 = leBytes x.toNat 2 → ∃ r q, finVals (.vreg vd 0 2 1) mask got = ([(vd, r)], [(vd, 0)])
        ∧ finVals (.vreg vd 1 2 1) mask got = ([(vd, q)], [(vd, 1)]) ∧ r.getD L 0 = x.signExtend 32 ∧ q.getD L 0 = x.setWidth 32)
      ∧ (∀ (n : Nat) (p : Nat → BitVec 64), 2 ≤ n → n ≤ 6 → gotBytes got L 48 = (List.range 6).flatMap (fun w => leBytes (p w).toNat 8) →
        let z := (List.range 5).foldl (fun (x : BitVec 64) w => if 6 - n ≤ w then x ||| p w else x) 0
        let plane := fun w => if n = 6 ∨ (6 - n ≤ w ∧ w < 5) then p w else if w = 5 then p 5 &&& z else if w = 5 - n then z else 0
        ∃ rs, finVals (.planes vd n) mask got = (rs, (List.range 12).map fun i => (vd + i, 10)) ∧ rs.length = 12
          ∧ ∀ w, w < 6 → ∃ lo hi, rs[2 * w]? = some (vd + 2 * w, lo) ∧ rs[2 * w + 1]? = some (vd + 2 * w + 1, hi)
            ∧ lo.getD L 0 = (plane w).extractLsb' 0 32 ∧ hi.getD L 0 = (plane w).extractLsb' 32 32))

/-- Lane loads start one access for each active lane; vpf binds nothing. Parts: LaneLoadsStart, PrefetchBindsNothing. -/
def Obligations.LaneLoadsStart : Prop :=
  -- LaneLoadsStart. R350, R351, R354, R132, R252, R256: the lane loads vld, vlds and vldb, every check passed, retire with
  -- their results pending until each active lane has its value, and start one access for each active lane: of the width of the
  -- word at the lane's address, strong for vlds unless its scope is a block that runs on one core, with the rinse of an
  -- acquire after the last; vldb fetches VC planes of each block of 48 bytes.
  (
    (∀ (w : LaneWord) (s : State) (k : FKey) (f : Fib) (t : Stitch) (l : List Checked), LaneTurn s k f t → effMask w t ≠ 0 →
      let fmt := w.fmt.toNat
      let n := memWidth w
      let c := laneCtx k f t w
      let rs := laneReqs c n (laneAddr s c w n) (fun _ => []) (fun _ => [])
      let s1 := if w.scr then s else usedPages k.core rs s
      fmt ≤ 12 → fmt ≠ 10 → w.mdIn 0x28 = true → addrOk w = true → widthOk w = true →
      regsPass s k f w (single fmt w.vd.toNat none :: addrRegs w) = true → memStall s k f true false = none →
      boardHit s1 l false = false →
      (w.vc = 0 → checkAll s k.core f.gang w.scr .plain .load .fibre rs = .ok l →
        exec (.vld w) s = .next (laneStarted k f t w (.vreg w.vd.toNat fmt n (memNarrow w)) ((single fmt w.vd.toNat none).regs.map (·.1))
          .load false 0 true false none false false l s1))
      ∧ (∀ order scope, order ≤ 1 → scope ≤ 3 → w.vc.toNat = 64 * order + 16 * scope →
        checkAll s k.core f.gang w.scr .strong .load .fibre rs = .ok l →
        exec (.vlds w) s = .next (laneStarted k f t w (.vreg w.vd.toNat fmt n (memNarrow w)) ((single fmt w.vd.toNat none).regs.map (·.1))
          .load (!(scope = 0 && f.oneCore s)) 0 true false (if order = 1 then some (acqMask f scope s1) else none) (scope = 3) false l s1)))
    ∧ (∀ (w : LaneWord) (s : State) (k : FKey) (f : Fib) (t : Stitch) (l : List Checked), LaneTurn s k f t → effMask w t ≠ 0 →
      let c := laneCtx k f t w
      let rs := laneReqs c 48 (laneAddr s c w 48) (fun _ => []) (fun _ => [])
      let s1 := if w.scr then s else usedPages k.core rs s
      w.fmt = 10 → w.mdIn 0x28 = true → addrOk w = true → w.fn.toNat % 4 = 0 → 2 ≤ w.vc.toNat → w.vc.toNat ≤ 6 →
      regsPass s k f w (blockGroup w.vd.toNat false :: addrRegs w) = true → memStall s k f true false = none →
      checkAll s k.core f.gang w.scr .block .load .fibre rs = .ok l → boardHit s1 l false = false →
      exec (.vldb w) s = .next (laneStarted k f t w (.planes w.vd.toNat w.vc.toNat) ((List.range 12).map (w.vd.toNat + ·))
        .load false 0 true false none false false (l.filterMap (trimPart (8 * (6 - w.vc.toNat)))) s1)))
  -- PrefetchBindsNothing. R356, R37: vpf, its fields and address registers in order and no lane's page waited for, does no
  -- more than ask for lines: it retires; no register, flag, counter or byte of memory changes, and no lane's address stops it.
  ∧ (
    ∀ (w : LaneWord) (s : State) (k : FKey) (f : Fib) (t : Stitch), LaneTurn s k f t → effMask w t ≠ 0 →
      let c := laneCtx k f t w
      w.fmt.toNat ≤ 12 → w.mdIn 8 = true → addrOk w = true → widthOk w = true → w.vc = 0 → w.vd = 0 →
      regsPass s k f w (addrRegs w) = true →
      (∀ L, (effMask w t).getLsbD L = true → ∀ v wr, checkVa s k.core .load .fibre (laneAddr s c w (memWidth w) L) ≠ .miss v wr) →
      ∃ u g, exec (.vpf w) s = .next u ∧ u.fib? k = some g ∧ g.regs = f.regs ∧ g.vregs = f.vregs ∧ g.tags = f.tags
        ∧ g.jflags = f.jflags ∧ g.ldq = f.ldq ∧ g.stc = f.stc ∧ g.longs = [] ∧ g.reports = f.reports ∧ u.mem = s.mem
        ∧ g.stitches = (if w.k then f.stitches.tail else { t with pc := t.pc + 12, n := t.n + 1 } :: f.stitches.tail))

/-- Lane stores and atomics start one access for each active lane. Parts: LaneStoresStart, LaneAtomicsStart. -/
def Obligations.LaneStoresStart : Prop :=
  -- LaneStoresStart. R350, R355, R136, R167, R168, R385: the lane stores vst, vsts and vstb, every check passed, retire and
  -- start one access for each active lane with its element, clamped into the hem's bounds under ACT 1; under ACT 2 the lowest
  -- active lane out of bounds stops the fibre with HEM_BOUND and nothing is stored; a release vsts goes on when it has nothing
  -- to wait for.
  (
    (∀ (w : LaneWord) (s : State) (k : FKey) (f : Fib) (t : Stitch), LaneTurn s k f t → effMask w t ≠ 0 →
      let fmt := w.fmt.toNat
      let n := memWidth w
      let c := laneCtx k f t w
      let xs := elems s k fmt w.vd.toNat
      let m := if w.hem then hemOf s f.dom f.bid (w.vc.toNat % 32) else {}
      let data := fun L => leBytes (hemCheck fmt m (xs.getD L 0)).2 n
      let rs := laneReqs c n (laneAddr s c w n) data (fun _ => [])
      let s1 := if w.scr then s else usedPages k.core rs s
      fmt ≤ 12 → fmt ≠ 10 → addrOk w = true → widthOk w = true → (w.hem = true → hemFmt fmt = true) →
      regsPass s k f w (single fmt w.vd.toNat none :: addrRegs w) = true →
      let stopped := m.act = 2 ∧ ∃ L, L < 96 ∧ (effMask w t).getLsbD L = true ∧ (hemCheck fmt m (xs.getD L 0)).1 = false
      ((w.mdIn 0x38 = true → (w.hem = true → w.vc.toNat < 32) → (w.hem = false → w.vc = 0) →
        (stopped → ∃ L, L < 96 ∧ (effMask w t).getLsbD L = true ∧ (hemCheck fmt m (xs.getD L 0)).1 = false
          ∧ (∀ j, j < L → (effMask w t).getLsbD j = true → (hemCheck fmt m (xs.getD j 0)).1 = true)
          ∧ exec (.vst w) s = .next (takeStop k 19 { lane := L, addr := laneAddr s c w n L, aux := w.vc.toNat % 32 } f.pc s))
        ∧ (∀ l, ¬ stopped → memStall s k f false true = none → checkAll s k.core f.gang w.scr .plain .store .fibre rs = .ok l →
          boardHit s1 l true = false →
          exec (.vst w) s = .next (laneStarted k f t w .none [] .store false 0 false true none false false l s1)))
      ∧ (∀ rel scope l, w.mdIn 0x28 = true → scope ≤ 3 → w.vc.toNat = 128 * rel + 16 * scope → rel ≤ 1 →
        memStall s k f false true = none → checkAll s k.core f.gang w.scr .strong .store .fibre rs = .ok l → boardHit s1 l true = false →
        (rel = 0 → exec (.vsts w) s = .next (laneStarted k f t w .none [] .store true 0 false true none (scope = 3) false l s1))
        ∧ (rel = 1 → f.reports = [] →
          let mark := if f.markL = 0 then s1.nextId else f.markL
          releaseWaits s1 k.core (.fib k) scope (f.oneCore s1) mark = false →
          exec (.vsts w) s = .next (laneStarted k f t w .none [] .store true 0 false true none (scope = 3) false l
            (clearSr k.core mark s1))))))
    ∧ (∀ (w : LaneWord) (s : State) (k : FKey) (f : Fib) (t : Stitch) (l : List Checked), LaneTurn s k f t → effMask w t ≠ 0 →
      let c := laneCtx k f t w
      let data := fun L => ((List.range 12).map fun r => readV s k (w.vd.toNat + r)).flatMap fun r => leBytes (r.getD L 0).toNat 4
      let rs := laneReqs c 48 (laneAddr s c w 48) data (fun _ => [])
      let s1 := if w.scr then s else usedPages k.core rs s
      w.fmt = 10 → w.mdIn 0x28 = true → addrOk w = true → w.fn.toNat % 4 = 0 → w.vc = 0 →
      regsPass s k f w (blockGroup w.vd.toNat false :: addrRegs w) = true → memStall s k f false true = none →
      checkAll s k.core f.gang w.scr .block .store .fibre rs = .ok l → boardHit s1 l true = false →
      exec (.vstb w) s = .next (laneStarted k f t w .none [] .store false 0 false true none false false l s1)))
  -- LaneAtomicsStart. R352, R353, R239: the lane atomics vatom, vatoms and vcas, every check passed and with nothing to
  -- release, retire with the old values pending for VD and start one atomic access for each active lane: VC[3:0] names the
  -- operation, VC[7:6] the order, VC[5:4] the scope; vatoms has one address for all lanes, and its accesses are one event.
  -- vcas takes the expected values from VD and the new ones from the register, or pair, above it.
  ∧ (
    ∀ (w : LaneWord) (s : State) (k : FKey) (f : Fib) (t : Stitch) (order scope op : Nat) (l : List Checked), LaneTurn s k f t →
      effMask w t ≠ 0 → f.markL = 0 → order ≤ 3 → scope ≤ 3 → w.vc.toNat = 64 * order + 16 * scope + op → (2 ≤ order → f.reports = []) →
      let fmt := w.fmt.toNat
      let n := if is64 fmt then 8 else 4
      let step := if is64 fmt then 2 else 1
      let c := laneCtx k f t w
      (fmt ≤ 1 ∨ fmt = 11 ∨ fmt = 12) → w.mdIn 0x28 = true → w.S = true → memStall s k f true true = none →
      let from_ := fun (s1 : State) => if 2 ≤ order then clearSr k.core s1.nextId s1 else s1
      let used := fun (rs : List LaneReq) => if w.scr then s else usedPages k.core rs s
      let ready := fun (rs : List LaneReq) => checkAll s k.core f.gang w.scr .strong .atomic .fibre rs = .ok l
        ∧ boardHit (used rs) l true = false
        ∧ (2 ≤ order → releaseWaits (used rs) k.core (.fib k) scope (f.oneCore (used rs)) (used rs).nextId = false)
      let dst := single fmt w.vd.toNat none
      let done := fun (op : Nat) (whole : Bool) (rs : List LaneReq) =>
        laneStarted k f t w (.vreg w.vd.toNat fmt n 0) (dst.regs.map (·.1)) .atomic true op true true
          (if order % 2 = 1 then some (acqMask f scope (used rs)) else none) (scope = 3) whole l (from_ (used rs))
      (addrOk w = true → w.fn.toNat % 4 = 0 → op ≤ 8 → regsPass s k f w (dst :: addrRegs w) = true →
        let rs := laneReqs c n (laneAddr s c w n) (elemBytes s k fmt w.vd.toNat n) (fun _ => [])
        ready rs → exec (.vatom w) s = .next (done op false rs))
      ∧ (w.va = 0 → w.fn = 0 → op ≤ 8 → regsPass s k f w [dst] = true →
        let rs := laneReqs c n (fun _ => c.sreg w.vb.toNat + w.imm.signExtend 64) (elemBytes s k fmt w.vd.toNat n) (fun _ => [])
        ready rs → exec (.vatoms w) s = .next (done op true rs))
      ∧ (addrOk w = true → w.fn.toNat % 4 = 0 → op = 0 → w.vd.toNat % (2 * step) = 0 →
        regsPass s k f w (dst :: single fmt (w.vd.toNat + step) none :: addrRegs w) = true →
        let rs := laneReqs c n (laneAddr s c w n) (elemBytes s k fmt (w.vd.toNat + step) n) (elemBytes s k fmt w.vd.toNat n)
        ready rs → exec (.vcas w) s = .next (done 9 false rs)))

/-- Product and tile words of the press join its queue. Parts: ProductWordsQueue, TileWordsQueue. -/
def Obligations.PressWordsQueue : Prop :=
  -- ProductWordsQueue. R163, R368 to R372, R374: mma and mmag, their fields, tiles, registers, tags and rows in order, join
  -- the queue of the spool's press with the mask, JORD and mode word found at issue; a scratch row out of range, or not a
  -- multiple of 32, stops the fibre.
  (
    ∀ (w : LaneWord) (s : State) (k : FKey) (f : Fib) (t : Stitch), LaneTurn s k f t → effMask w t ≠ 0 → productOk w = true →
      pressRoom s k f →
      let fmt := w.fmt.toNat
      let i8 := fmt = 4 ∨ fmt = 5
      let order := f.jord % 8
      let src := w.fn.toNat % 4
      let a := w.vd.toNat
      let base := ((laneCtx k f t w).sreg w.vb.toNat).setWidth 32
      let cols := pressCols (pressWidth fmt) w.imm.toNat
      let op0 : PressOp := { id := 0, k := k, op := 0x90, w := w, pc := t.pc, mask := effMask w t }
      (∀ count rows, (order = 0 ∧ count = 1 ∨ order = 1 ∧ i8 ∧ count = 1 ∨ order = 1 ∧ (fmt = 8 ∨ fmt = 9) ∧ count = 2) →
        src ≠ 3 → (w.S = true ↔ src = 2) → (w.S = true ∨ w.vb = 0) → (w.fn.getLsbD 3 = true → order = 1 ∧ (fmt = 8 ∨ fmt = 9)) →
        let regs := productA w (count = 2) ++ scaleRegs w
        regsPass s k f w (tileRegs (s.launch f.dom) a count :: regs) = true → tagBad s k a count (if i8 then 0 else 6) = false →
        (src = 2 → base.toNat % 32 ≠ 0 → exec (.mma w) s = .next (takeStop k 7 { addr := base.setWidth 64 } f.pc s))
        ∧ (∀ x, src = 2 → base.toNat % 32 = 0 →
          scratchLines s f.gang base (if w.fn.getLsbD 3 then 6144 else 3072) scalarLane = .error x →
          exec (.mma w) s = .next (takeStop k 28 { addr := x.setWidth 64 } f.pc s))
        ∧ ((src = 2 → base.toNat % 32 = 0) →
          (if src = 2 then scratchLines s f.gang base (if w.fn.getLsbD 3 then 6144 else 3072) scalarLane else .ok []) = .ok rows →
          exec (.mma w) s = .next (pressQueued k f t w { op0 with lines := rows }
            { id := 0, mask := effMask w t, tiles := (List.range count).map (a + ·), n := cols,
              src := regs.flatMap fun r => r.regs.map (·.1), rows := rows.map fun r => r.1 / 32, latch := latchesOf w } s)))
      ∧ (∀ rows, order = 0 → src < 2 → w.fn.toNat < 8 → w.S = true →
        let regs := single 0 w.va.toNat none :: scaleRegs w
        regsPass s k f w (tileRegs (s.launch f.dom) a 1 :: regs) = true → (w.t = true ∨ s.vtag k w.va.toNat ≤ 1) →
        tagBad s k a 1 (if i8 then 0 else 6) = false →
        ((∀ e L x, gatherRows s (laneCtx k f t w) w = .error (e, L, x) →
          exec (.mmag w) s = .next (takeStop k e.code { lane := L, addr := x.setWidth 64 } f.pc s))
        ∧ (gatherRows s (laneCtx k f t w) w = .ok rows →
          exec (.mmag w) s = .next (pressQueued k f t w { op0 with op := 0x91, lines := rows, base := (laneCtx k f t w).sreg w.vb.toNat }
            { id := 0, mask := effMask w t, tiles := [a], n := cols, src := regs.flatMap fun r => r.regs.map (·.1),
              rows := rows.map fun r => r.1 / 32, latch := latchesOf w } s)))))
  -- TileWordsQueue. R365, R366, R375, R376, R377, R169: mzero, mldacc and mdrain join their press's queue; mzero and mldacc
  -- set the tags of their tiles to FMT as they issue; mdrain needs them to be FMT, else FORMAT, and takes its hem register as
  -- it stands.
  ∧ (
    ∀ (w : LaneWord) (s : State) (k : FKey) (f : Fib) (t : Stitch) (count : Nat), LaneTurn s k f t → effMask w t ≠ 0 → pressRoom s k f →
      f.jord % 8 ≤ 1 → (count = if w.fmt = 6 ∧ f.jord % 8 = 1 then 2 else 1) → (w.fmt = 0 ∨ w.fmt = 6) → w.fn = 0 → w.vb = 0 →
      let n := (extent w).1
      let tiles := fun a => (List.range count).map (a + ·)
      let op := fun (m : Nat) => ({ id := 0, k := k, op := m, w := w, pc := t.pc, mask := effMask w t } : PressOp)
      (w.vd.toNat < 16 → w.va = 0 → w.vc = 0 → w.md = 0 → w.imm = 0 →
        regsPass s k f w [tileRegs (s.launch f.dom) w.vd.toNat count] = true →
        exec (.mzero w) s = .next (setAtag k w.vd.toNat count w.fmt.toNat
          (pressQueued k f t w (op 0x92) { id := 0, mask := effMask w t, tiles := tiles w.vd.toNat } s)))
      ∧ (w.vd.toNat < 16 → w.vc = 0 → w.md = 0 → (extent w).2.2 = true →
        let regs := (List.range (count * n)).map fun i => (w.va.toNat + i, some (if count = 2 && i % 2 = 1 then 14 else w.fmt.toNat))
        regsPass s k f w [tileRegs (s.launch f.dom) w.vd.toNat count,
          { regs := regs, jetOk := count = 1 || w.va.toNat % 2 = 0 }] = true →
        exec (.mldacc w) s = .next (setAtag k w.vd.toNat count w.fmt.toNat
          (pressQueued k f t w (op 0x93)
            { id := 0, mask := effMask w t, tiles := tiles w.vd.toNat, c0 := (extent w).2.1, n := n, src := regs.map (·.1) } s)))
      ∧ (w.va.toNat < 16 → w.mdIn 0x10 = true → (w.hem = true → w.vc.toNat < 32) → (w.hem = false → w.vc = 0) →
        (extent w).2.2 = true →
        let regs : List (Nat × Option Nat) := (List.range (count * n)).map fun i => (w.vd.toNat + i, none)
        regsPass s k f w [tileRegs (s.launch f.dom) w.va.toNat count,
          { regs := regs, jetOk := count = 1 || w.vd.toNat % 2 = 0 }] = true →
        exec (.mdrain w) s = .next (if tagBad s k w.va.toNat count w.fmt.toNat then takeStop k 3 {} f.pc s
          else pressQueued k f t w { op 0x94 with hem := if w.hem then hemOf s f.dom f.bid w.vc.toNat else {} }
            { id := 0, mask := effMask w t, dst := regs.map (·.1) } s)))

/-- mofence, mmode, msave and mresume. Parts: FenceAndMode, ImageWords. -/
def Obligations.PressModesAndImages : Prop :=
  -- FenceAndMode. R165, R248, R378: mofence and mmode are performed whatever the mask. mofence leaves the fence on the fibre's
  -- pending lane results and on the instructions with scratch stores out; mmode sets the mode word to IMM[1:0], or writes it
  -- to S[VD].
  (
    (∀ (w : LaneWord) (s : State) (k : FKey) (f : Fib) (t : Stitch), s.cur = .lane k → s.fib? k = some f →
      f.stitches.head? = some t → scalarAcq s k = false → gate f = none → w.vd = 0 → w.va = 0 → w.vb = 0 → w.vc = 0 → w.fmt = 0 →
      w.fn = 0 → w.md = 0 → w.imm = 0 →
      exec (.mofence w) s = .next (laneRetire k w (s.setFib k { f with
          fence := f.longs.map (·.id) ++ (((s.core k.core).stores.filter fun a => a.thr = .fib k && (match a.space with
            | .scratch _ => true | _ => false)).map (·.inst)).eraseDups })))
    ∧ (∀ (w : LaneWord) (s : State) (k : FKey) (f : Fib) (t : Stitch), LaneTurn s k f t → w.va = 0 → w.vb = 0 → w.vc = 0 → w.fmt = 0 →
      w.md = 0 → f.jord % 8 ≤ 1 → pressRoom s k f →
      let op : PressOp := { id := 0, k := k, op := 0x98, w := w, pc := t.pc, mask := effMask w t }
      (w.vd = 0 → w.fn = 0 → w.imm.toNat < 4 →
        exec (.mmodeSet w) s = .next ((pressQueued k f t w op { id := 0, mask := effMask w t } s).onFib k fun g =>
          { g with mode := w.imm.toNat }))
      ∧ (w.vd.toNat < 192 → w.fn = 1 → w.imm = 0 →
        exec (.mmodeRead w) s = .next (laneSetSreg k w.vd.toNat (BitVec.ofNat 64 (f.mode % 4))
          (pressQueued k f t w op { id := 0, mask := effMask w t } s)))))
  -- ImageWords. R380, R381: msave and mresume of a tile whose 18,560 bytes are translated join their press's queue; a
  -- misaligned image stops the fibre with ALIGN. mresume first loads the image's header, stops with PRESS_STATE on one that
  -- breaks its rules, and sets the tile's tag from it.
  ∧ (
    ∀ (w : LaneWord) (s : State) (k : FKey) (f : Fib) (t : Stitch), LaneTurn s k f t → effMask w t ≠ 0 → imageOk w = true →
      f.jord % 8 ≤ 1 → regsPass s k f w [tileRegs (s.launch f.dom) w.vd.toNat 1] = true → acqPending s k.core (.fib k) = false →
      let addr := (laneCtx k f t w).sreg w.vb.toNat + w.imm.signExtend 64
      let rs : List LaneReq := (List.range 145).map fun i => { lane := scalarLane, addr := addr + BitVec.ofNat 64 (128 * i), n := 128 }
      let s1 := usedPages k.core rs s
      let lines := fun (l : List Checked) => (l.filter fun e => e.part.off = 0).map fun e => (e.part.pa, e.region, e.part.va)
      let op := fun (m : Nat) => ({ id := 0, k := k, op := m, w := w, pc := t.pc, mask := effMask w t } : PressOp)
      (addr.toNat % 128 ≠ 0 → ∀ i ∈ [Instr.msave w, .mresume w], exec i s = .next (takeStop k 7 { addr := addr } f.pc s))
      ∧ (∀ l, addr.toNat % 128 = 0 → checkAll s k.core f.gang false .plain .store .fibre rs = .ok l → pressRoom s1 k f →
        exec (.msave w) s = .next (pressQueued k f t w { op 0x96 with lines := lines l, atag := s.atag k w.vd.toNat }
          { id := 0, mask := effMask w t } s1))
      ∧ (∀ l, addr.toNat % 128 = 0 → checkAll s k.core f.gang false .plain .load .fibre rs = .ok l →
        (f.markL = 0 → exec (.mresume w) s = .next (reap k.core (issueAccs k.core (.fib k) t.pc .hold 0 .load false 0 f.dom false false
          none false (((lines l).take 1).flatMap fun x => imageParts 0 x []) (s1.setFib k { f with markL := s1.nextId, susp := 2, stallL := 3 }))))
        ∧ (∀ i, f.markL ≠ 0 → (s1.core k.core).insts.find? (fun i => i.id = f.markL) = some i → i.left = 0 →
          let h := gotBytes i.got scalarLane 128
          let free := fun (s : State) => s.onCore k.core fun co => { co with insts := co.insts.filter (·.id ≠ i.id) }
          (headerOk h = false → exec (.mresume w) s = .next (takeStop k 29 { addr := addr } f.pc (free s1)))
          ∧ (headerOk h = true → pressRoom s1 k f → exec (.mresume w) s = .next (setAtag k w.vd.toNat 1 (leNat ((h.drop 4).take 4))
            (free (pressQueued k f t w { op 0x97 with lines := lines l, snapB := h }
              { id := 0, mask := effMask w t, tiles := [w.vd.toNat], image := (lines l).map fun x => x.1 / 128 } s1)))))))

/-- One output of an integer product of the press. R229, R370: one output of an integer product of the press: the accumulator
plus the exact sum of products, wrapped modulo 2^32, or clamped to i32 with SAT. -/
def Obligations.IntegerProduct : Prop :=
  ∀ (aSigned bSigned : Bool) (acc : BitVec 32) (a b : List (BitVec 8)), a.length = b.length →
    let rd := fun (sg : Bool) (x : BitVec 8) => if sg then x.toInt else (x.toNat : Int)
    let sum := acc.toInt + ((a.zip b).map fun e => rd aSigned e.1 * rd bSigned e.2).sum
    (intOut aSigned bSigned false acc.toNat (a.map BitVec.toNat) (b.map BitVec.toNat)) = ((BitVec.ofInt 32 sum).toNat, false)
    ∧ (intOut aSigned bSigned true acc.toNat (a.map BitVec.toNat) (b.map BitVec.toNat))
      = (if sum < -2147483648 then (0x80000000, true) else if 2147483647 < sum then (0x7FFFFFFF, true)
        else ((BitVec.ofInt 32 sum).toNat, false))

/-- A press starts and completes its oldest operation. Parts: PressOperationStarts, PressOperationCompletes. -/
def Obligations.PressOperations : Prop :=
  -- PressOperationStarts. R163, R164: a press starts its oldest operation when the rowcons before it have come and its rows
  -- may be read; the operation keeps what its registers and bytes are as it starts, an mmag the rows that its index vector
  -- names then, no register, tile or byte of memory changes, and mresume starts the loads of its image.
  (
    ∀ (s : State) (c p : Nat) (o : PressOp) (rest : List PressOp), tget (s.core c).press p [] = o :: rest → o.k.core = c → o.k.sub / 4 = p →
      o.started = false → o.tainted = false → (∀ q ∈ rest, q.id ≠ o.id) →
      (∀ i ∈ o.afterRow, ∀ r ∈ (s.core c).rowOps, r.id ≠ i) → (∀ x, (s.core x).boltErr = [] ∧ (s.core x).board = []) →
      (∀ x ∈ o.latches, (o.latchOf (s.core c) p x).poison = false) →
      let lines := if o.op = 0x91 then regather s o (s.vreg o.k o.w.va.toNat) else o.lines
      let q := { o with started := true, lines := lines, snapV := s.pressSrc o, inst := s.nextId
                        snapB := if o.op = 0x90 ∨ o.op = 0x91 then lines.flatMap fun l => Memory.readBytes s.mem l.1 32
                                 else if o.op = 0x97 then o.snapB else [] }
      ∃ pr, tget pr p [] = q :: rest ∧ (∀ p', p' ≠ p → tget pr p' [] = tget (s.core c).press p' [])
        ∧ (let u := s.onCore c fun co => { co with press := pr }
          exec (.pressOpStart c p) s = .next (if o.op = 0x97 then
            reap c (issueAccs c (.fib o.k) o.pc .hold 0 .load false 0 (match s.fib? o.k with | some f => f.dom | none => 0) false false none
              false ((o.lines.zipIdx.drop 1).flatMap fun e => imageParts e.2 e.1 []) u)
            else u)))
  -- PressOperationCompletes. R163, R370, R375, R376, R377, R230: what the oldest operation of a press does as it completes,
  -- started and undisturbed: an i8 mma with B in a latch writes columns 0 to N − 1 of the rows of active lanes, the exact
  -- products added, wrapped or saturated, and raises SAT where one saturated; mzero sets the rows of active lanes of its tile
  -- to 0 and mldacc columns c0 to c0 + n − 1 of them to the registers' elements, clearing the mismatch record; mdrain writes
  -- the elements of those columns to its registers; the word leaves the press and PR falls.
  ∧ (
    ∀ (s : State) (c p : Nat) (o : PressOp) (f : Fib), PressTurn s c p o f →
      let t0 := fun a => tget (s.spool o.k).tiles a ({} : Tile)
      (o.op = 0x90 → (o.w.fmt = 4 ∨ o.w.fmt = 5) → o.w.fn.toNat % 4 < 2 → o.w.fn.getLsbD 3 = false → o.w.S = false → o.mode % 2 = 0 →
        o.lines = [] → o.latchWas = [] → (∀ e ∈ o.snapV, e.2 = s.vreg o.k e.1 ∧ e.2.length = 96) → (o.snapV.map (·.1)).Nodup →
        (∀ i, i < 16 → o.w.va.toNat + i ∈ o.snapV.map (·.1)) → (∀ r, ((t0 o.w.vd.toNat).row r).length = 48) →
        let data := (tget (s.core c).latches (2 * p + o.w.fn.toNat % 4) {}).data
        (data = [] ∨ data.length = 3072) →
        let A := fun (L i : Nat) => ((s.vreg o.k (o.w.va.toNat + i / 4)).getD L 0).toNat / 2 ^ (8 * (i % 4)) % 256
        let B := fun (col i : Nat) => (data.getD (64 * col + i) 0).toNat
        let out := fun (L col : Nat) => intOut (o.w.fmt = 4) (!o.w.fn.getLsbD 2) o.w.sat (((t0 o.w.vd.toNat).row L).getD col 0).toNat
          ((List.range 64).map (A L)) ((List.range 64).map (B col))
        ∃ u g, exec (.pressOpComplete c p) s = .next u ∧ u.fib? o.k = some g ∧ g.prq = markDone f.prq o.id ∧ u.mem = s.mem
          ∧ g.vregs = f.vregs ∧ tget (u.core c).press p [] = (tget (s.core c).press p []).drop 1
          ∧ g.jflags = (if (activeLanes o.mask).any (fun L => (List.range o.cols).any fun col => (out L col).2) = true
              then f.jflags ||| flagSat else f.jflags)
          ∧ ∀ a L col, L < 96 → col < 48 → (tget (u.spool o.k).tiles a {}).tag = (t0 a).tag
            ∧ ((tget (u.spool o.k).tiles a {}).row L).getD col 0
              = if a = o.w.vd.toNat ∧ o.mask.getLsbD L = true ∧ col < o.cols then BitVec.ofNat 32 (out L col).1
                else ((t0 a).row L).getD col 0)
      ∧ (o.op = 0x92 → o.pair = false → ∃ u g, exec (.pressOpComplete c p) s = .next u ∧ u.fib? o.k = some g
        ∧ g.prq = markDone f.prq o.id ∧ u.mem = s.mem ∧ g.vregs = f.vregs
        ∧ tget (u.core c).press p [] = (tget (s.core c).press p []).drop 1
        ∧ ∀ a, let t := tget (u.spool o.k).tiles a {}
          t.tag = (t0 a).tag ∧ t.mis = (if a = o.w.vd.toNat then none else (t0 a).mis) ∧ ∀ L, L < 96 →
            t.row L = if a = o.w.vd.toNat ∧ o.mask.getLsbD L = true then List.replicate 48 0 else (t0 a).row L)
      ∧ (o.op = 0x93 → o.pair = false → (∀ e ∈ o.snapV, e.2 = s.vreg o.k e.1 ∧ e.2.length = 96) → (o.snapV.map (·.1)).Nodup →
        (∀ i, i < (extent o.w).1 → o.w.va.toNat + i ∈ o.snapV.map (·.1)) → (∀ r, ((t0 o.w.vd.toNat).row r).length = 48) →
        ∃ u g, exec (.pressOpComplete c p) s = .next u ∧ u.fib? o.k = some g ∧ g.prq = markDone f.prq o.id ∧ u.mem = s.mem
          ∧ g.vregs = f.vregs ∧ (tget (u.spool o.k).tiles o.w.vd.toNat {}).mis = none ∧ ∀ a L col, L < 96 → col < 48 →
            ((tget (u.spool o.k).tiles a {}).row L).getD col 0
              = if a = o.w.vd.toNat ∧ o.mask.getLsbD L = true ∧ (extent o.w).2.1 ≤ col ∧ col < (extent o.w).2.1 + (extent o.w).1
                then (s.vreg o.k (o.w.va.toNat + (col - (extent o.w).2.1))).getD L 0 else ((t0 a).row L).getD col 0)
      ∧ (o.op = 0x94 → o.pair = false → o.hem.act = 0 → (t0 o.w.va.toNat).mis = none →
        ∃ vals, exec (.pressOpComplete c p) s = .next ((writeVals o.k o.mask
            (vals, (List.range (extent o.w).1).map fun i => (o.w.vd.toNat + i, o.w.fmt.toNat))
            (s.onCore c fun co => { co with press := tset co.press p ((tget co.press p []).drop 1) })).onFib o.k fun g =>
              { g with prq := markDone g.prq o.id })
          ∧ vals.map (·.1) = (List.range (extent o.w).1).map (o.w.vd.toNat + ·)
          ∧ ∀ i, i < (extent o.w).1 → ∀ e, vals[i]? = some e → ∀ L, L < 96 →
            e.2.getD L 0 = ((t0 o.w.va.toNat).row L).getD ((extent o.w).2.1 + i) 0)
      ∧ (o.op = 0x98 → exec (.pressOpComplete c p) s = .next
        ((s.onCore c fun co => { co with press := tset co.press p ((tget co.press p []).drop 1) }).onFib o.k fun g =>
          { g with prq := markDone g.prq o.id })))

/-- Ordering words of a hart, and its accesses to its bolt. Parts: ValetOrderingWords, ValetBoltAccess. -/
def Obligations.ValetOrderingAndBolt : Prop :=
  -- ValetOrderingWords. R399, R136, R154, R436, R119, R118: the ordering words of a valet hart complete with pc + 4: hx.tick
  -- writes TICK; an acquire rinses with its mask, but at blk scope, which a core covers, not; a release that waits for nothing
  -- clears the since-release bits; a fence does both; hx.rinse rinses; FENCE is a release at pkg scope when its predecessor
  -- set has W and its successor set has R, else it orders nothing more; FENCE.I, with no store of the hart outstanding,
  -- empties the instruction cache but for pinned lines.
  (
    ∀ (s : State) (c h : Nat), HartTurn s c h →
      let hs := s.hart c h
      let rel := fun (sc : Nat) (go : State → State) (i : Instr) =>
        (releaseWaits s c (.hart c h) sc true (hartMark s c h) = false →
          exec i s = .next ((go (clearSr c (hartMark s c h) s)).setHart c h hs.retire))
        ∧ (releaseWaits s c (.hart c h) sc true (hartMark s c h) = true →
          exec i s = .next (s.setHart c h { hs with phase := 1, mark := hartMark s c h }))
      (∀ d : BitVec 5, exec (.hxTick d) s = .next (hartWrote c h d (BitVec.ofNat 64 s.tick) s))
      ∧ (∀ (sc : BitVec 2) (a : BitVec 5), exec (.hxAcq sc a) s
        = .next ((if sc = 0 then s else Machine.rinse c (hs.reg a.toNat) s).setHart c h hs.retire))
      ∧ (∀ a : BitVec 5, exec (.hxRinse a) s = .next ((Machine.rinse c (hs.reg a.toNat) s).setHart c h hs.retire))
      ∧ (∀ sc : BitVec 2, rel sc.toNat id (.hxRel sc))
      ∧ (∀ (sc : BitVec 2) (a : BitVec 5), rel sc.toNat (fun s => if sc = 0 then s else Machine.rinse c (hs.reg a.toNat) s) (.hxFence sc a))
      ∧ (∀ m p q : BitVec 4, (p.getLsbD 0 = true ∧ q.getLsbD 1 = true → rel 2 id (.valetFence m p q))
        ∧ (¬(p.getLsbD 0 = true ∧ q.getLsbD 1 = true) → exec (.valetFence m p q) s = .next (s.setHart c h hs.retire)))
      ∧ ((∃ a ∈ (s.core c).stores, a.thr = .hart c h) → exec .valetFenceI s = .next s)
      ∧ ((∀ a ∈ (s.core c).stores, a.thr ≠ .hart c h) → exec .valetFenceI s
        = .next ((s.onCore c fun co => { co with icache := co.icache.filter (·.pinned) }).setHart c h hs.retire)))
  -- ValetBoltAccess. R12, R17, R68, R154: hart 0 loads and stores the bytes of its core's bolt at their physical addresses: an
  -- aligned load from a good granule outside the cut's registers writes rd with its bytes, little-endian, sign- or
  -- zero-extended by funct3; a store writes its bytes and leaves every other byte of memory, and the other registers of the
  -- hart, as they were.
  ∧ (
    ∀ (s : State) (c : Nat) (f : BitVec 3) (a b d : BitVec 5) (i : BitVec 12), HartTurn s c 0 → c < 192 →
      (s.hart c 0).phase = 0 → (s.core c).boltErr = [] → (s.core c).relics = [] → (s.core c).full = false → Memory.wf s.mem = true →
      let hs := s.hart c 0
      let va := hs.reg a.toNat + i.signExtend 64
      let pa := va.toNat
      let n := 2 ^ (f.toNat % 4)
      boltBase c ≤ pa → pa + n ≤ boltBase c + 0x80_0000 → pa % n = 0 → windowGood s c pa = true → windowHidden s c pa = false →
      (f ≠ 7 → exec (.valetLoad f a d i) s = .next (hartWrote c 0 d (let v := leNat (Memory.readBytes s.mem pa n)
          if f.toNat < 4 then (BitVec.ofNat (8 * n) v).signExtend 64 else BitVec.ofNat 64 v) s))
      ∧ (f.toNat < 4 → ∃ t, exec (.valetStore f a b i) s = .next t ∧ t.hart c 0 = hs.retire ∧ t.fibs = s.fibs
        ∧ ∀ x, Memory.read t.mem x = if pa ≤ x ∧ x < pa + n then (hs.reg b.toNat).extractLsb' (8 * (x - pa)) 8 else Memory.read s.mem x))

/-- Loads, stores, reservations and AMOs of a hart, and its hamper words. Parts: ValetMemoryWords, ValetHamperWords. -/
def Obligations.ValetMemoryAndHampers : Prop :=
  -- ValetMemoryWords. R154, R136, R38, R239: a hart's accesses elsewhere, checked, while the core has room for a request: a
  -- load, a load-reserved or an AMO starts its accesses, and completes when they have been performed, with its pc moved past
  -- its word; a store's are left to the store buffer; a load-reserved sets the reservation; a store-conditional waits for the
  -- hart's older stores, then writes 0 and stores when the reservation stands and the core owns the words, else writes 1, and
  -- the reservation is gone either way; aq rinses everything after, rl releases at pkg scope before; an access that its check
  -- stops takes the exception of the check.
  (
    ∀ (s : State) (c h : Nat), HartTurn s c h →
      let hs := s.hart c h
      let used := fun (va : W64) (n : Nat) (s : State) =>
        if h = 0 then s else touchTlb c (va + BitVec.ofNat 64 (n - 1)) (touchTlb c va s)
      let dropped := fun (va : W64) (n : Nat) (s : State) => if h = 0 then s else dropSlots c [va, va + BitVec.ofNat 64 (n - 1)] s
      (hs.phase = 3 → (∀ x ∈ (s.core c).insts, x.id ≠ hs.mark) → ∀ i,
        ((∃ f a d o, i = .valetLoad f a d o) ∨ (∃ z q l a d, i = .valetLr z q l a d) ∨ (∃ f z q l b a d, i = .valetAmo f z q l b a d)) →
        exec i s = .next (s.setHart c h hs.retire))
      ∧ (∀ f a d o, hs.phase = 0 →
        let va := hs.reg a.toNat + o.signExtend 64
        (∀ cl, hartCheck s c h .load false false va (rvWidth f) [] [] = .ok cl → (s.core c).full = false → inWindow cl = false →
          exec (.valetLoad f a d o) s
            = .next (hartStarted c h (.xreg d.toNat (rvWidth f) (rvSigned f)) .load false 0 none cl (used va (rvWidth f) s)))
        ∧ (∀ e x, hartCheck s c h .load false false va (rvWidth f) [] [] = .exc e x → exec (.valetLoad f a d o) s
            = .next (let u := dropped va (rvWidth f) s; u.setHart c h (takeExc e x (u.hart c h)))))
      ∧ (∀ f a b o,
        let va := hs.reg a.toNat + o.signExtend 64
        let bs := leBytes (hs.reg b.toNat).toNat (rvWidth f)
        (∀ cl, hartCheck s c h .store false false va (rvWidth f) bs [] = .ok cl → (s.core c).full = false → inWindow cl = false →
          exec (.valetStore f a b o) s = .next (hartStore c h hs.pc cl ((used va (rvWidth f) s).setHart c h hs.retire)))
        ∧ (∀ e x, hartCheck s c h .store false false va (rvWidth f) bs [] = .exc e x → exec (.valetStore f a b o) s
            = .next (let u := dropped va (rvWidth f) s; u.setHart c h (takeExc e x (u.hart c h)))))
      ∧ (∀ (z q l : Bool) (a d : BitVec 5) (e : Checked), hs.phase = 0 → (s.core c).full = false →
        (l = true → releaseWaits s c (.hart c h) 2 true s.nextId = false) →
        let n := if z then 8 else 4
        let va := hs.reg a.toNat
        let s0 := if l then clearSr c s.nextId s else s
        let acq := if q then some (BitVec.allOnes 64) else none
        let check := fun (lr : Bool) (v : W64) => hartCheck s0 c h .store true lr va n (leBytes v.toNat n) []
        inWindow [e] = false →
        (check true 0 = .ok [e] → exec (.valetLr z q l a d) s = .next (hartStarted c h (.xreg d.toNat n true) .atomic true 2 acq [e]
          ((used va n s0).setHart c h { (used va n s0).hart c h with resv := some (e.part.pa, n) })))
        ∧ (∀ (f b : BitVec 5), check false (hs.reg b.toNat) = .ok [e] →
          exec (.valetAmo f z q l b a d) s
            = .next (hartStarted c h (.xreg d.toNat n true) .atomic true (amoOp f.toNat) acq [e] (used va n s0)))
        ∧ (∀ (b : BitVec 5), check false (hs.reg b.toNat) = .ok [e] → (∃ x ∈ (s.core c).stores, x.thr = .hart c h) →
          exec (.valetSc z q l b a d) s = .next (used va n s0))
        ∧ (∀ (b : BitVec 5), check false (hs.reg b.toNat) = .ok [e] → (∀ x ∈ (s.core c).stores, x.thr ≠ .hart c h) →
          let s1 := used va n s0
          let free := fun (s : State) => s.setHart c h { s.hart c h with resv := none }
          let acc : Acc := { id := s1.nextId, inst := 0, thr := .hart c h, kind := .store, space := e.space, line := e.part.pa / 128,
                             parts := [e.part], strong := true }
          ((hs.resv ≠ some (e.part.pa, n) ∨ (s1.core c).owns acc.line acc.words = false) →
            exec (.valetSc z q l b a d) s = .next (hartWrote c h d 1 (free s1)))
          ∧ (hs.resv = some (e.part.pa, n) → (s1.core c).owns acc.line acc.words = true →
            let s2 := performStore c acc s1
            exec (.valetSc z q l b a d) s
              = .next (hartWrote c h d 0 (settle c (free (if q then Machine.rinse c (BitVec.allOnes 64) s2 else s2))))))))
  -- ValetHamperWords. R358, R359, R360, R361, R400: hx.hsend and hx.hrecv write −1 on a misaligned item or a broken descriptor
  -- and leave the hamper untouched. hx.hsend releases and starts the item's 64 bytes as loads, asks the hamper with the bytes
  -- that came, and writes 0 once the hamper has taken them; hx.hrecv writes 0 on an empty hamper and dequeues nothing, else,
  -- when no request stands before it, it dequeues, stores the item, writes 1 and rinses everything. The ring's pages have
  -- taken their A and D bits first.
  ∧ (
    ∀ (s : State) (c h : Nat) (b a d : BitVec 5), HartTurn s c h →
      let hs := s.hart c h
      let item := hs.reg a.toNat
      let desc := hs.reg b.toNat
      let used := fun (s : State) => if h = 0 then s else touchTlb c (item + 63) (touchTlb c item s)
      let rings := fun (ring : List W64) (s : State) => storePages (hartDom (used s) c) (ringBy h) ring (used s)
      (hs.phase = 0 → (item.toNat % 64 ≠ 0 ∨ hartDesc s c h desc = .broken) →
        exec (.hxHsend b a d) s = .next (hartWrote c h d (BitVec.allOnes 64) s)
        ∧ exec (.hxHrecv b a d) s = .next (hartWrote c h d (BitVec.allOnes 64) s))
      ∧ (hs.phase = 9 → exec (.hxHsend b a d) s = .next (hartWrote c h d 0 s))
      ∧ (∀ ch ring l u x, hs.phase = 0 → item.toNat % 64 = 0 → hartDesc s c h desc = .ok ch ring →
        hartCheck s c h .load false false item 64 [] [] = .ok l → (s.core c).full = false → rings ring s = .inr (u, x) →
        releaseWaits u c (.hart c h) (if ch.pool then 3 else 2) true u.nextId = false →
        let s1 := (clearSr c u.nextId u).setHart c h { hs with phase := 3, mark := u.nextId }
        exec (.hxHsend b a d) s = .next (reap c (issueAccs c (.hart c h) hs.pc .hold 0 .load false 0 (hartDom s1 c) false false none false l s1)))
      ∧ (∀ p ch ring l u x, hs.phase = 3 → item.toNat % 64 = 0 → (s.core c).insts.find? (fun i => i.id = hs.mark) = some p → p.left = 0 →
        let s1 := s.onCore c fun co => { co with insts := co.insts.filter (·.id ≠ p.id) }
        hartDesc s1 c h desc = .ok ch ring → hartCheck s1 c h .load false false item 64 [] [] = .ok l → (s1.core c).full = false →
        rings ring s1 = .inr (u, x) →
        ∃ t q, exec (.hxHsend b a d) s = .next t ∧ (t.hart c h).phase = 4 ∧ (t.hart c h).pc = hs.pc ∧ t.hamp = u.hamp ++ [q]
          ∧ q.enq = true ∧ q.thr = some (.hart c h) ∧ q.desc = ch.desc ∧ q.cap = ch.cap ∧ q.ring = ch.ring ∧ q.pages = ch.pages
          ∧ q.item = ofBytes512 (gotBytes p.got scalarLane 64) ∧ t.mem = u.mem)
      ∧ (∀ ch ring l u x, item.toNat % 64 = 0 → hartDesc s c h desc = .ok ch ring →
        hartCheck s c h .store false false item 64 [] [] = .ok l → (s.core c).full = false → rings ring s = .inr (u, x) →
        (u.hampCount ch.desc = 0 → exec (.hxHrecv b a d) s = .next (hartWrote c h d 0 u))
        ∧ (u.hampCount ch.desc ≠ 0 → (∀ x ∈ u.hamp, x.desc = ch.desc → x.enq = true) →
          let q : HampReq := { id := u.nextId, enq := false, desc := ch.desc, cap := ch.cap, ring := ch.ring, pages := ch.pages,
                               thr := some (.hart c h) }
          hampTakes q u = none →
          let r := doDequeue q u
          let l' := l.map fun e => { e with part := { e.part with data := ((bytesOf512 r.1).drop e.part.off).take e.part.n } }
          exec (.hxHrecv b a d) s
            = .next (Machine.rinse c (BitVec.allOnes 64) (hartStore c h hs.pc l' (r.2.setHart c h ((r.2.hart c h).setReg d.toNat 1).retire))))))

/-- A custom-1 word on hart 1, or outside M-mode, is an illegal instruction. R397, R398: a custom-1 word on hart 1, or outside
M-mode, raises the illegal-instruction exception: the state is saved and the pc goes to the vector, and no fibre, gang, core
or byte of memory changes. -/
def Obligations.CustomOneNeedsMachineMode : Prop :=
  ∀ (s : State) (c h : Nat) (i : Instr), s.cur = .hart c h → (h ≠ 0 ∨ (s.hart c h).mode ≠ 3) →
    (∃ a d, i ∈ [Instr.hxPark a d, .hxUnpark a d, .hxFget a d, .hxFpop a d, .hxRgrant a d, .hxRrevoke a d, .hxFstat a d, .hxFenter a d,
      .hxGkill a d, .hxGrelaunch a d]) ∨ (∃ b a d, i = .hxFput b a d) →
    exec i s = .next (s.setHart c h (takeExc 2 0 (s.hart c h)))

/-- hx.park, hx.unpark, hx.fenter and hx.fstat. R203, R401, R403, R404, R406: hx.park, hx.unpark, hx.fenter and hx.fstat. A bit
that must be 0 gives status 2, or the word 0; a handle without a fibre 1, or the word 0; so does a fibre in a state the word
does not act on. Else the fibre parks, runs again or enters its trap handler, with status 0, and the state word gives its
state, handler, FID and GID. -/
def Obligations.FibreControlWords : Prop :=
  ∀ (s : State) (c : Nat) (a d : BitVec 5), HartZero s c →
    let v := (s.hart c 0).reg a.toNat
    let k := keyOfHandle c (v.toNat % 256)
    let st := fun (n : Nat) (s : State) => hartWrote c 0 d (BitVec.ofNat 64 n) s
    (handleBits v false = false → (∀ i ∈ [Instr.hxPark a d, .hxUnpark a d, .hxFenter a d], exec i s = .next (st 2 s))
      ∧ exec (.hxFstat a d) s = .next (st 0 s))
    ∧ (handleBits v false = true → s.fib? k = none → (∀ i ∈ [Instr.hxPark a d, .hxUnpark a d, .hxFenter a d], exec i s = .next (st 1 s))
      ∧ exec (.hxFstat a d) s = .next (st 0 s))
    ∧ (∀ f, handleBits v false = true → s.fib? k = some f →
      exec (.hxPark a d) s = .next (
        if f.st = .parked then st 0 s
        else if f.st = .running ∨ f.st = .blocked ∨ f.st = .frozen then
          (if (s.core c).rowOps.any (fun o => o.k = k && o.kind ≠ 3) then s else st 0 (logAct k f 0x1_0000 0 (parkFib k f s)))
        else st 1 s)
      ∧ exec (.hxUnpark a d) s = .next (
        if (f.st = .parked ∨ f.st = .frozen) ∧ f.recWait = false then st 0 (logAct k f 0x1_0001 0 (unparkFib k f s)) else st 1 s)
      ∧ exec (.hxFenter a d) s = .next (
        if f.st ≠ .parked ∨ f.hkind ≠ 0 ∨ f.recWait = true then st 1 s
        else if f.tvec = 0 then st 2 s
        else st 0 (logAct k f 0x1_0002 0 (enterFib k f s)))
      ∧ exec (.hxFstat a d) s = .next (st (stCode f.st
        + (if f.hkind ≠ 0 then 8 + f.hkind % 4 * 16 else 0) + f.fid % 32 * 2 ^ 16 + f.gid % 65536 * 2 ^ 32) s))
    ∧ [FSt.gone, .running, .blocked, .frozen, .parked, .saving, .restoring, .exited].map stCode = List.range 8

/-- hx.fget, hx.fput, hx.fpop, hx.rgrant and hx.rrevoke. Parts: FibreRegisterWords, RecordAndGrantWords. -/
def Obligations.FibreRegistersAndGrants : Prop :=
  -- FibreRegisterWords. R401, R402: hx.fget and hx.fput on a parked fibre, every bolt row of its core a codeword: a selector
  -- that reaches nothing gives 0, or status 2; a scalar register, a special register, a tag, an element, the PC, a lane PC, a
  -- counter, a hem register, an ACT or a handler slot is read whole, once no write to it is pending; a put writes it, or
  -- answers 2 for a value it cannot take and 3 for a register that is read only, and then changes nothing.
  (
    ∀ (s : State) (c : Nat) (b a d : BitVec 5) (f : Fib), HartZero s c →
      let v := (s.hart c 0).reg a.toNat
      let w := (s.hart c 0).reg b.toNat
      let k := keyOfHandle c (v.toNat % 256)
      let x := v.toNat / 65536 % 65536
      handleBits v true = true → s.fib? k = some f → (s.core k.core).boltErr = [] →
      (f.st ≠ .parked → exec (.hxFget a d) s = .next (hartWrote c 0 d 0 s) ∧ exec (.hxFput b a d) s = .next (hartWrote c 0 d 1 s))
      ∧ (f.st = .parked → selOf x = none → exec (.hxFget a d) s = .next (hartWrote c 0 d 0 s)
        ∧ exec (.hxFput b a d) s = .next (hartWrote c 0 d 2 s))
      ∧ (∀ z, f.st = .parked → selOf x = some z →
        (writePending s k f z = true → exec (.hxFget a d) s = .next s)
        ∧ (writePending s k f z = false → exec (.hxFget a d) s = .next (hartWrote c 0 d ((selGet s k f z).getD 0) s))
        ∧ exec (.hxFput b a d) s = .next (let r := selPut s k f w z
            hartWrote c 0 d (BitVec.ofNat 64 r.1) (if r.1 = 0 then logAct k f x w r.2 else s)))
      ∧ (∀ n, n < 192 → selOf n = some (.sreg n) ∧ selGet s k f (.sreg n) = some (f.sreg n)
        ∧ selPut s k f w (.sreg n) = (0, s.setFib k (f.setSreg n w)))
      ∧ (∀ n ∈ specialNums, selOf (0x1000 + n) = some (.special n) ∧ selGet s k f (.special n) = some (specialReg s k f n)
        ∧ selPut s k f w (.special n) = (if n ∈ [0, 1, 2, 3, 4, 5, 6, 0x18, 0x19] then (3, s) else if n = 0x0B ∧ w.toNat % 12 ≠ 0 then (2, s)
            else (0, s.setFib k (setSpecial n w f))))
      ∧ (∀ r L, r < 256 → L < 96 → selOf (0x8000 + 128 * r + L) = some (.elem r L)
        ∧ (available f (s.launch f.dom) r = true → selGet s k f (.elem r L) = some (((s.vreg k r).getD L 0).setWidth 64)
          ∧ selPut s k f w (.elem r L) = (0, s.setVreg k r ((s.vreg k r).set L (w.setWidth 32))))
        ∧ (available f (s.launch f.dom) r = false → selGet s k f (.elem r L) = none ∧ selPut s k f w (.elem r L) = (2, s)))
      ∧ (∀ n, n < 6 → selOf (0x4000 + n) = some (.counter n) ∧ selGet s k f (.counter n) = some (BitVec.ofNat 64 (f.counter n))
        ∧ selPut s k f w (.counter n) = (3, s))
      ∧ (∀ r, r < 256 → selOf (0x2000 + r) = some (.tag r) ∧ selGet s k f (.tag r) = some (BitVec.ofNat 64 (s.vtag k r))
        ∧ selPut s k f w (.tag r) = (if w.toNat < 16 then (0, s.setVtag k r w.toNat) else (2, s)))
      ∧ selOf 0x3000 = some .pc ∧ selGet s k f .pc = some f.pc ∧ (w.toNat % 4 ≠ 0 → selPut s k f w .pc = (2, s))
      ∧ (w.toNat % 4 = 0 → ∃ t g, selPut s k f w .pc = (0, t) ∧ t.fib? k = some g ∧ g.pc = w ∧ g.regs = f.regs ∧ g.st = f.st)
      ∧ selOf 0x3001 = some .lpc ∧ selGet s k f .lpc = ((f.held ++ f.stitches).head?.map (·.pc))
      ∧ (w.toNat % 4 ≠ 0 → selPut s k f w .lpc = (2, s))
      ∧ (∀ t r, w.toNat % 4 = 0 → f.held = t :: r → selPut s k f w .lpc = (0, s.setFib k { f with held := { t with pc := w } :: r }))
      ∧ (∀ t r, w.toNat % 4 = 0 → f.held = [] → f.stitches = t :: r →
        selPut s k f w .lpc = (0, s.setFib k { f with stitches := { t with pc := w } :: r }))
      ∧ (∀ n, n < 32 → let m := hemOf s f.dom f.bid n
        selOf (0x5000 + n) = some (.hem n) ∧ selGet s k f (.hem n) = some (m.hi ++ m.lo)
        ∧ selPut s k f w (.hem n) = (0, setHem f.dom f.bid n { m with lo := w.extractLsb' 0 32, hi := w.extractLsb' 32 32 } s)
        ∧ selOf (0x5020 + n) = some (.act n) ∧ selGet s k f (.act n) = some (BitVec.ofNat 64 m.act)
        ∧ selPut s k f w (.act n) = (if w.toNat ≤ 2 then (0, setHem f.dom f.bid n { m with act := w.toNat } s) else (2, s)))
      ∧ (∀ n, n < 16 → selOf (0x6000 + n) = some (.slot n) ∧ selGet s k f (.slot n) = some (f.hslots.getD n 0)
        ∧ selPut s k f w (.slot n) = (0, s.setFib k { f with hslots := f.hslots.set n w })))
  -- RecordAndGrantWords. R404, R405, R88, R84: hx.fpop writes −1 when no record is queued or the address is not one of 64
  -- bytes; else it stores the oldest record's 64 bytes, writes the number left and admits a record that waits. hx.rrevoke ends
  -- the grant of a slot, with status 0, and answers 1 for a free slot and 2 for a number above 7. hx.rgrant refuses a bad
  -- address with 2 and a descriptor with its status; a grant takes the lowest free slot, not yet live.
  ∧ (
    ∀ (s : State) (c : Nat) (a d : BitVec 5), HartZero s c →
      let hs := s.hart c 0
      let v := hs.reg a.toNat
      ((s.core c).recs = [] → exec (.hxFpop a d) s = .next (hartWrote c 0 d (BitVec.allOnes 64) s))
      ∧ ((2 ^ 52 ≤ v.toNat ∨ v.toNat % 64 ≠ 0) → exec (.hxFpop a d) s = .next (hartWrote c 0 d (BitVec.allOnes 64) s))
      ∧ (∀ r rest l, (s.core c).recs = r :: rest → (s.core c).full = false → v.toNat < 2 ^ 52 → v.toNat % 64 = 0 →
        let r' := if (s.core c).recLoss then r ||| (1 <<< 31) else r
        hartCheck s c 0 .store false false v 64 (bytesOf512 r') [] = .ok l → inWindow l = false →
        exec (.hxFpop a d) s = .next (hartStore c 0 hs.pc l (admitRecord c (hartWrote c 0 d (BitVec.ofNat 64 rest.length)
          (s.onCore c fun co => { co with recs := rest, recLoss := false })))))
      ∧ exec (.hxRrevoke a d) s = .next (if 8 ≤ v.toNat then hartWrote c 0 d 2 s
          else if (tfind (s.core c).grants v.toNat).isNone then hartWrote c 0 d 1 s
          else hartWrote c 0 d 0 (endGrant c v.toNat s))
      ∧ (hs.phase = 0 → (2 ^ 52 ≤ v.toNat ∨ v.toNat % 32 ≠ 0) → exec (.hxRgrant a d) s = .next (hartWrote c 0 d 2 s))
      ∧ (∀ l, hs.phase = 0 → (s.core c).full = false → v.toNat < 2 ^ 52 → v.toNat % 32 = 0 → hartCheck s c 0 .load false false v 32 [] [] = .ok l →
        let s1 := s.setHart c 0 { hs with phase := 3, mark := s.nextId }
        exec (.hxRgrant a d) s
          = .next (reap c (issueAccs c (.hart c 0) hs.pc .hold 0 .load false 0 (hartDom s1 c) false false none false l s1)))
      ∧ (∀ p, hs.phase = 3 → (s.core c).insts.find? (fun i => i.id = hs.mark) = some p → p.left = 0 →
        let s1 := s.onCore c fun co => { co with insts := co.insts.filter (·.id ≠ p.id) }
        let g := grantDesc (gotBytes p.got scalarLane 32)
        (∀ n, grantRefusal s1 c (hartDom s1 c) g = some n → exec (.hxRgrant a d) s = .next (hartWrote c 0 d (BitVec.ofNat 64 n) s1))
        ∧ (grantRefusal s1 c (hartDom s1 c) g = none → ∃ t n r, exec (.hxRgrant a d) s = .next t ∧ n < 8
          ∧ tfind (s.core c).grants n = none ∧ (∀ j, j < n → tfind (s.core c).grants j ≠ none)
          ∧ tfind (t.core c).grants n = some r ∧ r.live = false ∧ r.mask = g.mask ∧ r.lo = g.lo ∧ r.hi = g.hi ∧ r.share = g.share
          ∧ r.bid = g.bid ∧ (t.hart c 0).phase = 5 ∧ (t.hart c 0).mark = n ∧ t.mem = s.mem))
      ∧ (hs.phase = 5 → exec (.hxRgrant a d) s = .next s)
      ∧ (hs.phase = 6 → exec (.hxRgrant a d) s = .next (hartWrote c 0 d (BitVec.ofNat 64 (0x100 + hs.mark)) s)))

/-- hx.gkill and hx.grelaunch. R401, R210, R420: hx.gkill and hx.grelaunch answer 2 for a bit that must be 0 and 1 for a gang of
no such GID in the domain or one that has Exited; else hx.gkill leaves the gang Killed, and hx.grelaunch queues a Killed gang
for placement in class 1 or kills one that is not, to be relaunched. -/
def Obligations.GangWords : Prop :=
  ∀ (s : State) (c : Nat) (a d : BitVec 5), HartZero s c →
    let v := (s.hart c 0).reg a.toNat
    let gang := if v.toNat < 65536 then namedGang s c v else none
    (2 ^ 16 ≤ v.toNat → ∀ i ∈ [Instr.hxGkill a d, .hxGrelaunch a d], exec i s = .next (hartWrote c 0 d 2 s))
    ∧ (v.toNat < 2 ^ 16 → (gang = none ∨ ∃ g, gang = some g ∧ g.st = .exited) →
      ∀ i ∈ [Instr.hxGkill a d, .hxGrelaunch a d], exec i s = .next (hartWrote c 0 d 1 s))
    ∧ (∀ g, gang = some g → g.st ≠ .exited → exec (.hxGkill a d) s = .next (hartWrote c 0 d 0 (killGang g.key true s)))
    ∧ (∀ g, gang = some g → g.st ≠ .exited → g.st ≠ .killed →
      exec (.hxGrelaunch a d) s = .next (hartWrote c 0 d 0 (killGang g.key false s)))
    ∧ (∀ g, gang = some g → g.st = .killed → (∃ e ∈ s.dies, ∃ r ∈ e.2.queue, r.2.1 = g.key) →
      exec (.hxGrelaunch a d) s = .next (hartWrote c 0 d 0 s))
    ∧ (∀ g, gang = some g → g.st = .killed → (∀ e ∈ s.dies, ∀ r ∈ e.2.queue, r.2.1 ≠ g.key) →
      exec (.hxGrelaunch a d) s = .next (hartWrote c 0 d 0 (queueGang g 1 s)))

/-- What a home does with a request it can serve at once. R105, R106, R115, R116, R125, R477: what a home does with a request it
can serve at once. REG with no other holder: the words become the requester's, its owner field stands in each word's data,
and GRANT carries the words it did not hold; with another holder: REVOKE goes to it. LD of Valid words: LDATA with every
Valid word of the line; of words that one party holds: FWD to it, with the race action unless the load is strong. XREG: the
words become the consumer's and PUSH carries the data; with another holder: REVOKE with no race action. HWR: the bytes are
merged into memory, and HWACK answers; of a device to a pinned line: HWACK with F and nothing written. WB: the words the
sender holds come home, and WBACK answers. -/
def Obligations.HomeServesRequests : Prop :=
  ∀ (s : State) (m : Msg), HomeTurn s m → Memory.wf s.mem = true →
    let net := s.net.erase m
    let given := fun (t : State) (o : Option Node) => ∀ l i : Nat, i < 32 →
      t.ownerOf l i = if l = m.line ∧ m.mask.getLsbD i = true then o else s.ownerOf l i
    let owned := fun (t : State) (o : Node) => given t (some o) ∧ ∀ x : Nat, Memory.read t.mem x =
      if x / 128 = m.line ∧ m.mask.getLsbD (x / 4 % 32) = true then wordByte (ownerField s.pkg o) (x % 4) else Memory.read s.mem x
    let revokes := fun (t : State) (o : Node) (act : Nat) => ∃ (q : Msg) (a : HomeAct), t.net = net ++ [q] ∧ q.kind = .revoke ∧ q.dst = o ∧ q.mask = m.mask
      ∧ q.tag = a.id ∧ q.act = act ∧ t.acts = s.acts ++ [a] ∧ a.msg = m ∧ a.wait = [(o, m.mask)] ∧ t.owners = s.owners ∧ t.mem = s.mem
    (m.kind = .reg → heldBy s m.line m.mask (some m.src) → ∃ (t : State) (g : Msg), exec (.msgReg m) s = .next t ∧ t.net = net ++ [g]
      ∧ g.kind = .grant ∧ g.dst = m.src ∧ g.tag = m.tag ∧ g.mask = m.mask ∧ g.act = 0 ∧ g.data = s.homeLine m.line
      ∧ (∀ i : Nat, i < 32 → (g.bmask.getLsbD i = true ↔ m.mask.getLsbD i = true ∧ s.ownerOf m.line i ≠ some m.src)) ∧ owned t m.src)
    ∧ (∀ o : Node, m.kind = .reg → m.mask ≠ 0 → o ≠ m.src → (∀ i : Nat, i < 32 → m.mask.getLsbD i = true → s.ownerOf m.line i = some o) →
      ∃ t : State, exec (.msgReg m) s = .next t ∧ revokes t o (if m.strong then 0 else s.raceAction m.dom m.region))
    ∧ (m.kind = .ld → heldBy s m.line m.mask none → ∃ (t : State) (q : Msg), exec (.msgLd m) s = .next t ∧ t.net = net ++ [q]
      ∧ q.kind = .ldata ∧ q.dst = m.src ∧ q.tag = m.tag ∧ q.data = s.homeLine m.line ∧ t.owners = s.owners ∧ t.mem = s.mem
      ∧ ∀ i : Nat, i < 32 → (q.mask.getLsbD i = true ↔ s.ownerOf m.line i = none))
    ∧ (∀ o : Node, m.kind = .ld → m.mask ≠ 0 → (∀ i : Nat, i < 32 → m.mask.getLsbD i = true → s.ownerOf m.line i = some o) →
      ∃ (t : State) (q : Msg), exec (.msgLd m) s = .next t ∧ t.net = net ++ [q] ∧ q.kind = .fwd ∧ q.dst = o ∧ q.party = m.src ∧ q.mask = m.mask
        ∧ q.tag = m.tag ∧ q.act = (if m.strong || o = m.src then 0 else s.raceAction m.dom m.region) ∧ t.owners = s.owners ∧ t.mem = s.mem)
    ∧ (m.kind = .xreg → heldBy s m.line m.mask (some m.party) → ∃ (t : State) (q : Msg), exec (.msgXreg m) s = .next t ∧ t.net = net ++ [q]
      ∧ q.kind = .push ∧ q.dst = m.party ∧ q.tag = m.tag ∧ q.mask = m.mask ∧ q.data = m.data ∧ owned t m.party)
    ∧ (∀ o : Node, m.kind = .xreg → m.mask ≠ 0 → o ≠ m.party → (∀ i : Nat, i < 32 → m.mask.getLsbD i = true → s.ownerOf m.line i = some o) →
      ∃ t : State, exec (.msgXreg m) s = .next t ∧ revokes t o 0)
    ∧ (m.kind = .hwr → heldBy s m.line m.mask none → s.refusedHwr m = false → ∃ (t : State) (q : Msg), exec (.msgHwr m) s = .next t
      ∧ t.net = net ++ [q] ∧ q.kind = .hwack ∧ q.dst = m.src ∧ q.tag = m.tag ∧ q.flag = false ∧ t.owners = s.owners
      ∧ ∀ x : Nat, Memory.read t.mem x = if x / 128 = m.line ∧ m.bmask.getLsbD (x % 128) = true then
          wordByte (m.data.getD (x / 4 % 32) 0) (x % 4) else Memory.read s.mem x)
    ∧ (m.kind = .hwr → s.refusedHwr m = true → ∃ (t : State) (q : Msg), exec (.msgHwr m) s = .next t ∧ t.net = net ++ [q] ∧ q.kind = .hwack
      ∧ q.dst = m.src ∧ q.tag = m.tag ∧ q.flag = true ∧ t.owners = s.owners ∧ t.mem = s.mem)
    ∧ (m.kind = .wb → m.flag = false → (∀ i : Nat, i < 32 → m.mask.getLsbD i = true → s.ownerOf m.line i = some m.src) →
      ∃ (t : State) (q : Msg), exec (.msgWb m) s = .next t ∧ t.net = net ++ [q] ∧ q.kind = .wback ∧ q.dst = m.src ∧ q.tag = m.tag ∧ given t none
        ∧ ∀ x : Nat, Memory.read t.mem x = if x / 128 = m.line ∧ m.mask.getLsbD (x / 4 % 32) = true then
          wordByte (m.data.getD (x / 4 % 32) 0) (x % 4) else Memory.read s.mem x)

/-- Owners answer what they are asked, and homes take the answers. Parts: HomeTakesAnswers, OwnerAnswers. -/
def Obligations.AnswersOfOwnersAndHomes : Prop :=
  -- HomeTakesAnswers. R111, R115, R125: the last answer to a REVOKE or a RECALL, an RVACK or a WB that answers one, brings the
  -- words home, and the request it was sent for happens: a REG's words become the requester's, its GRANT carries them, and the
  -- race verdict is the action asked for when one of them had its since-release bit set. An answer that is not the last only
  -- leaves fewer to wait for.
  (
    ∀ (s : State) (m : Msg) (a : HomeAct), s.acts.find? (fun x => x.id = m.tag) = some a → s.homeQ = [] → s.ext = [] →
      s.lineHeld m.line = true → Memory.wf s.mem = true → (∀ d, (s.dom d).rpctl.getLsbD 31 = false ∧ s.replaying d = false) →
      let s1 : State := { s with net := s.net.erase m }
      (exec (.msgRvack m) s = .next (homeAnswer m s1))
      ∧ (m.flag = true → exec (.msgWb m) s = .next (homeAnswer m (send { msg0 .wback m.dst m.src m.line with tag := m.tag } s1)))
      ∧ (∀ w, a.wait = [(m.src, w)] → a.msg.kind = .reg → a.msg.line = m.line → a.msg.mask = m.mask → m.mask ≠ 0 →
        (∀ i, i < 32 → m.mask.getLsbD i = true → s.ownerOf m.line i = some m.src) →
        ∃ t g, exec (.msgRvack m) s = .next t ∧ t.net = s1.net ++ [g] ∧ g.kind = .grant ∧ g.dst = a.msg.src ∧ g.tag = a.msg.tag
          ∧ g.mask = m.mask ∧ g.bmask = m.mask.setWidth 128 ∧ g.act = (if a.sr ||| m.sr = 0 then 0 else a.verdict)
          ∧ (∀ i, i < 32 → g.data.getD i 0 = if m.mask.getLsbD i then m.data.getD i 0 else s.homeWord m.line i)
          ∧ (∀ l i, i < 32 → t.ownerOf l i = if l = m.line ∧ m.mask.getLsbD i = true then some a.msg.src else s.ownerOf l i))
      ∧ (a.wait.filter (·.1 ≠ m.src) ≠ [] → ∃ t b, exec (.msgRvack m) s = .next t ∧ t.net = s1.net ∧ b ∈ t.acts ∧ b.id = a.id
        ∧ b.wait = a.wait.filter (·.1 ≠ m.src)))
  -- OwnerAnswers. R117, R125: an owner that holds every word asked for, Registered, answers REVOKE by RVACK and gives them up,
  -- RECALL by WB and keeps Valid copies, and FWD by FDATA to the reader, with the race action where a since-release bit is
  -- set; what it sends is what it held.
  ∧ (
    ∀ (s : State) (m : Msg) (c : Nat) (l : L1Line), m.dst = .core c → (s.core c).gated = false → (s.core c).l1line m.line = some l →
      l.words.length = 32 → (∀ i, i < 32 → m.mask.getLsbD i = true → (l.words.getD i {}).st = .registered) →
      let net := s.net.erase m
      let sends := fun (q : Msg) => q.mask = m.mask ∧ q.tag = m.tag ∧ q.line = m.line
        ∧ ∀ i, i < 32 → m.mask.getLsbD i = true → q.data.getD i 0 = (l.words.getD i {}).val
          ∧ (q.poison.getLsbD i = true ↔ (l.words.getD i {}).poison = true)
      let left := fun (t : State) (f : L1Word → L1Word) => ∀ j i, i < 32 → (t.core c).l1word j i
        = if j = m.line ∧ m.mask.getLsbD i = true then f (l.words.getD i {}) else (s.core c).l1word j i
      (∃ t q, exec (.msgRevoke m) s = .next t ∧ t.net = net ++ [q] ∧ q.kind = .rvack ∧ q.dst = m.src ∧ sends q
        ∧ (∀ i, i < 32 → m.mask.getLsbD i = true → (q.sr.getLsbD i = true ↔ (l.words.getD i {}).sr = true))
        ∧ left t (fun _ => {}) ∧ t.mem = s.mem ∧ t.owners = s.owners)
      ∧ (∃ t q, exec (.msgRecall m) s = .next t ∧ t.net = net ++ [q] ∧ q.kind = .wb ∧ q.flag = true ∧ q.dst = m.src ∧ sends q
        ∧ left t (fun w => if w.poison then {} else { w with st := .valid, sr := false, fill := s.nextId }) ∧ t.mem = s.mem ∧ t.owners = s.owners)
      ∧ (∃ t q, exec (.msgFwd m) s = .next t ∧ t.net = net ++ [q] ∧ q.kind = .fdata ∧ q.dst = m.party ∧ sends q
        ∧ (∀ i, i < 32 → m.mask.getLsbD i = true → (q.sr.getLsbD i = true ↔ (l.words.getD i {}).sr = true))
        ∧ ((∃ i, i < 32 ∧ m.mask.getLsbD i = true ∧ (l.words.getD i {}).sr = true) → q.act = m.act)
        ∧ ((∀ i, i < 32 → m.mask.getLsbD i = true → (l.words.getD i {}).sr = false) → q.act = 0) ∧ t.mem = s.mem ∧ t.cores = s.cores))

/-- What reaches the core that asked. R113, R117, R121, R123, R150, R172: what reaches the core that asked. GRANT makes the words
it carries Registered with their values and performs the store or atomic that waits; LDATA and FDATA answer the load that
asked, which asks again if it has lost a word of its own meanwhile; PUSH makes a copy's words Registered and counts them as
arrived; HWACK completes the store, or the copy, that it acknowledges; WBACK empties its write-back entry. GRANT and PUSH
wait while every way of their set must stay. -/
def Obligations.RequesterReceives : Prop :=
  ∀ (s : State) (m : Msg) (c : Nat), m.dst = .core c → (s.core c).gated = false →
    let s1 := received m s
    ((s.core c).room m.line = false → exec (.msgGrant m) s = .next s ∧ exec (.msgPush m) s = .next s)
    ∧ ((s.core c).room m.line = true →
      (∀ a, (s.core c).stores.find? (fun x => x.id = m.tag) = some a →
        exec (.msgGrant m) s = .next (afterInstall c (performStore c a (raceVerdict c a 11 m.act m.sr
          (installWords c m (m.bmask.setWidth 32) s1)))))
      ∧ ((∀ a ∈ (s.core c).stores, a.id ≠ m.tag) →
        exec (.msgGrant m) s = .next (afterInstall c (installWords c m (m.bmask.setWidth 32) s1)))
      ∧ exec (.msgPush m) s = .next (afterInstall c (copyArrived m.tag (installWords c m m.mask (breakResv c m.line m.mask none s1)))))
    ∧ (∀ a, (s.core c).loads.find? (fun x => x.id = m.tag) = some a →
      let asks := s1.onCore c fun co => { co with loads := co.loads.map fun x => if x.id = a.id then { x with sent := false, stale := false }
        else x }
      let gets := fun (verdict : Nat) => if a.stale = true ∧ a.prefetch = false then asks
        else deliverLoad c a m (raceVerdict c a 12 verdict m.sr s1)
      exec (.msgLdata m) s = .next (reap c (settle c (gets 0))) ∧ exec (.msgFdata m) s = .next (reap c (settle c (gets m.act))))
    ∧ ((∀ a ∈ (s.core c).loads, a.id ≠ m.tag) → exec (.msgLdata m) s = .next s1 ∧ exec (.msgFdata m) s = .next s1)
    ∧ (∀ a, (s.core c).stores.find? (fun x => x.id = m.tag) = some a →
      exec (.msgHwack m) s = .next (reap c (settle c (eventDone c a [] none s1))))
    ∧ ((∀ a ∈ (s.core c).stores, a.id ≠ m.tag) → exec (.msgHwack m) s = .next (copyArrived m.tag s1))
    ∧ ((s.core c).cret.getLsbD 0 = false → exec (.msgWback m) s
      = .next (s1.onCore c fun co => { co with wb := co.wb.filter (·.id ≠ m.tag) }))
    ∧ (∀ mask l, (s.core c).l1line m.line = some l → l.words.length = 32 → ∀ j i, i < 32 →
      ((installWords c m mask s1).core c).l1word j i = if j = m.line ∧ mask.getLsbD i = true then
        { st := .registered, val := m.data.getD i 0, poison := m.poison.getLsbD i } else (s.core c).l1word j i)

/-- The calendar of banks, scrubbers and twait slots, and the clocks of cores. Parts: StackCalendar, ClockEvents. -/
def Obligations.CalendarAndClocks : Prop :=
  -- StackCalendar. R91, R87, R88, R93, R103, R211: the calendar of a bank. At phase 0 it enters Refresh and its scrub runs;
  -- from phase 300 the ordinary path may borrow it; at phase 420 it is Idle; an Open bank at phase 4,662 without a rowpre of
  -- that tick, or one that no live grant holds at its earliest tick, is precharged; a Precharging bank is Idle 18 ticks later.
  -- The scrubber of a bolt quadrant moves on by one row. A due twait slot releases its fibres, each with its own tick.
  (
    ∀ (s : State) (c b : Nat), let y := (s.core c).bank b s.tick
      (sigma b s.tick < 420 → (tfind (s.core c).banks b = none ∨ y.st ≠ .refresh) → ∃ t z, exec (.refreshSlotStart c b) s = .next t
        ∧ tfind (t.core c).banks b = some z ∧ z.st = .refresh ∧ z.borrowed = false ∧ t.fibs = s.fibs
        ∧ (t.core c).grants = (s.core c).grants ∧ t.mem = s.mem)
      ∧ (y.st = .refresh → 300 ≤ sigma b s.tick → sigma b s.tick < 420 →
        exec (.refreshBorrowStart c b) s = .next (s.onCore c fun co => co.setBank b { y with borrowed := true }))
      ∧ (y.st = .refresh → 420 ≤ sigma b s.tick →
        exec (.refreshSlotEnd c b) s = .next (s.onCore c fun co => co.setBank b { y with st := .idle, borrowed := false }))
      ∧ (y.st = .opened → sigma b s.tick = 4662 → (∀ o ∈ (s.core c).rowOps, ¬(o.kind = 2 ∧ o.t = s.tick ∧ o.h.toNat % 128 = b)) →
        exec (.controllerPrecharge c b) s
          = .next (s.onCore c fun co => co.setBank b { y with st := .precharging, tp := some s.tick }))
      ∧ (∀ x, tfind (s.core c).banks b = some x → x.st = .precharging → x.tp.getD 0 + 18 ≤ s.tick →
        exec (.bankIdle c b) s = .next (s.onCore c fun co => co.setBank b { x with st := .idle }))
      ∧ (∀ x, tfind (s.core c).banks b = some x → x.st = .opened →
        (∀ g ∈ (s.core c).grants, g.2.live = true → g.2.mask.getLsbD b = false) → x.ta.getD 0 + 40 ≤ s.tick →
        (∀ u, x.tc = some u → u + 2 ≤ s.tick) →
        exec (.grantEndPrecharge c b) s
          = .next (s.onCore c fun co => co.setBank b { y with st := .precharging, tp := some s.tick }))
      ∧ (∀ q r, scrubDue (s.core c) q = some r → (s.core c).boltErr = [] → ∃ t, exec (.boltScrub c q) s = .next t
        ∧ tfind (t.core c).scrub q = some ((r + 1) % 65536, (tget (s.core c).scrub q (0, 1024)).2 + 1024)
        ∧ (t.core c).boltErr = [] ∧ t.mem = s.mem ∧ t.fibs = s.fibs)
      ∧ (∀ u t0, slotDue s c u = some t0 → (s.fibs.map (·.1)).Nodup → ∃ t, exec (.twaitSlot c u) s = .next t ∧ ((t.core c).sub u).slotT = t0
        ∧ ((t.core c).sub u).slotF ≠ [] ∧ (t.core c).gated = false ∧ t.mem = s.mem
        ∧ ∀ k j, ((t.core c).sub u).slotF[j]? = some k → ∃ f g, s.fib? k = some f ∧ f.keep = [BitVec.ofNat 64 t0] ∧ t.fib? k = some g
          ∧ g.pc = f.pc + 4 ∧ g.tslot = some (t0 + j * 1200 / (s.core c).mhz) ∧ g.regs = f.regs))
  -- ClockEvents. R456, R483, R211: a clock of 600 to 2,400 MHz in steps of 25 takes effect at once on a core that does not
  -- trace, or waits while a twait slot is open, and no other clock is taken; an idle core may be gated, and a gated one woken;
  -- no fibre and no byte of memory changes.
  ∧ (
    ∀ (s : State) (c : Nat),
      (∀ mhz, 600 ≤ mhz → mhz ≤ 2400 → mhz % 25 = 0 →
        ((s.core c).bast.ctl.getLsbD 1 = false → (s.core c).slotOpen = false →
          exec (.clockStep c mhz) s = .next (s.onCore c fun co => { co with mhz := mhz, stepTo := none }))
        ∧ ((s.core c).slotOpen = true → exec (.clockStep c mhz) s = .next (s.onCore c fun co => { co with stepTo := some mhz })))
      ∧ (∀ mhz, (mhz < 600 ∨ 2400 < mhz ∨ mhz % 25 ≠ 0) → exec (.clockStep c mhz) s = .next s)
      ∧ ((s.core c).bast.ctl.getLsbD 1 = false → (s.core c).gated = false → coreIdle s c = true →
        exec (.clockGate c) s = .next (s.onCore c fun co => { co with gated := true }))
      ∧ ((s.core c).gated = true → exec (.clockUngate c) s = .next (s.onCore c fun co => { co with gated := false })))

/-- A slice fills, a grant becomes live, walks answer, and TINV invalidates. Parts: SliceFillAndGrantLive, TranslationEvents. -/
def Obligations.SlicesAndTranslation : Prop :=
  -- SliceFillAndGrantLive. R106, R122, R94, R86: the line first in arrival among those of its set that requests wait for, once
  -- the ordinary path may open its bank, is read from the stack and joins its slice, in the place of the least recently used
  -- line of its set with no word in use when the set is full, and its requests are served; when every line of the set has a
  -- word in use, the Registered words of the least recently used that is not busy are recalled. A grant becomes live once no
  -- earlier write to its rows is on its way, no word of them is Registered and its banks are Idle or in Refresh; hart 0's
  -- hx.rgrant then has its answer.
  (
    (∀ (s : State) (line c : Nat), homeOf line = .home c → (s.fillsOf line).head? = some line →
      ordinaryMay (s.core c) ((rowOf (line * 128)).1 % 128) s.tick = true → ordinaryFull (s.core c) s.tick = false →
      (s.core c).rowErr = [] →
      let set := (s.core c).slice.filter fun l => sliceSet l = sliceSet line
      let busy := fun (l : Nat) => s.acts.any fun a => a.msg.line = l
      let join := fun (u : State) => runHome line (({ u with fills := u.fills.erase line } : State).onCore c fun co => { co with
        slice := line :: co.slice, ordActs := (co.ordActs.filter fun a => s.tick < a + 38) ++ [s.tick] })
      let free := set.reverse.find? fun l => !busy l && !(s.owners.any fun e => e.1 / 32 = l)
      (set.length < 16 → exec (.sliceFill line) s = .next (join s))
      ∧ (∀ v, 16 ≤ set.length → free = some v →
        exec (.sliceFill line) s = .next (join (s.onCore c fun co => { co with slice := co.slice.filter (· ≠ v) })))
      ∧ (∀ v, 16 ≤ set.length → free = none → set.reverse.find? (fun l => !busy l) = some v →
        (∀ a ∈ s.acts, a.msg.kind = .recall → a.msg.flag = true → slicePlace a.msg.line ≠ slicePlace line) →
        exec (.sliceFill line) s = .next (recallFor true v s)))
    ∧ (∀ (s : State) (c n : Nat) (g : RowGrant), tfind (s.core c).grants n = some g → g.live = false → writesPending c g s = false →
      (∀ u, homeTakes (grantLines c g s) s = some u → exec (.grantLive c n) s = .next u)
      ∧ (grantLines c g s = [] → (∀ b, b < 128 → g.mask.getLsbD b = true → ((s.core c).bank b s.tick).st = .idle
          ∨ ((s.core c).bank b s.tick).st = .refresh) →
        ∃ t, exec (.grantLive c n) s = .next t ∧ tfind (t.core c).grants n = some { g with live := true } ∧ t.mem = s.mem ∧ t.fibs = s.fibs
          ∧ ((s.hart c 0).phase = 5 → (s.hart c 0).mark = n → (t.hart c 0).phase = 6 ∧ (t.hart c 0).mark = n)
          ∧ ((s.hart c 0).phase ≠ 5 → t.harts = s.harts))))
  -- TranslationEvents. R20, R22, R27, R31, R32: a miss that has one of its die's 32 walkers is walked: every core that waits
  -- for the page takes the fault, or the L1 TLBs of those cores and the L2 TLB take the leaf with A set, and D for a store,
  -- which the entry in memory takes too; the L2 TLB answers a slot it maps. A TINV write, not BUSY and with a legal mode, sets
  -- BUSY and removes what it covers from every TLB and walker cache of the domain; one that finds BUSY sets ERR; BUSY falls
  -- when no access that passed through what it covers is outstanding.
  ∧ (
    (∀ (s : State) (c slot d : Nat) (sl : MissSlot), openSlot s c slot = some sl → s.domOfCore c = some d →
      let u := takeWalker (c / 32) s
      let lines := walkLines u d (((BitVec.ofNat 39 sl.vpn).signExtend 64) <<< 16)
      ((s.die (c / 32)).walkers.length ≤ 32 → (u.die (c / 32)).walkers.length ≤ 32)
      ∧ ((u.die (c / 32)).walkers.contains sl.vpn = false → exec (.pageWalk c slot) s = .next u)
      ∧ ((u.die (c / 32)).walkers.contains sl.vpn = true →
        (∀ v, fetchHome lines u = some v → exec (.pageWalk c slot) s = .next v)
        ∧ (fetchHome lines u = none → exec (.pageWalk c slot) s = .next (runWalk (c / 32) d sl.vpn u))))
    ∧ (∀ (s : State) (die d vpn : Nat), Memory.wf s.mem = true →
      let va : W64 := ((BitVec.ofNat 39 vpn).signExtend 64) <<< 16
      let t := runWalk die d vpn s
      let wr := (walkCores s die vpn).any fun c => (s.core c).openSlots.any fun x => x.1.vpn = vpn && x.1.wr
      (∀ ca lv pa, walkCached s die d va = .fault ca lv pa → t.mem = s.mem ∧ ∀ c ∈ walkCores s die vpn, (t.core c).tlb = (s.core c).tlb
        ∧ (t.core c).slots = (s.core c).slots.map fun x => if x.vpn = vpn && x.fault.isNone then { x with fault := some (ca, lv, pa) } else x)
      ∧ (∀ e pa large, walkCached s die d va = .leaf e pa large →
        let e' := pteTouched e wr
        (∀ u, e' ≠ e → homeTakes [pa / 128] s = some u → t = u)
        ∧ ((e' = e ∨ homeTakes [pa / 128] s = none) →
          let leaf : Tlb := ⟨if large then vpn / 8192 * 8192 else vpn, large, e'⟩
          (t.die die).l2 = tlbAdd 16384 leaf (s.die die).l2
          ∧ (∀ x, Memory.read t.mem x = if e' ≠ e ∧ pa ≤ x ∧ x < pa + 8 then e'.extractLsb' (8 * (x - pa)) 8
              else Memory.read s.mem x)
          ∧ ∀ c ∈ walkCores s die vpn, (t.core c).tlb = tlbAdd 256 leaf (s.core c).tlb
            ∧ (t.core c).slots = (s.core c).slots.filter fun x => x.vpn ≠ vpn || x.fault.isSome)))
    ∧ (∀ (e : W64) (w : Bool), (pteTouched e w).getLsbD 15 = true ∧ (w = true → e.getLsbD 2 = true → (pteTouched e w).getLsbD 14 = true)
      ∧ ∀ i, i ≠ 14 → i ≠ 15 → (pteTouched e w).getLsbD i = e.getLsbD i)
    ∧ (∀ (s : State) (c slot : Nat) (sl : MissSlot) (t : Tlb), openSlot s c slot = some sl → l2Hit s c sl = some t →
      ∃ u, exec (.l2TlbHit c slot) s = .next u ∧ (u.core c).tlb = tlbAdd 256 t (s.core c).tlb
        ∧ (u.core c).slots = ((s.core c).slots.filter fun x => x.vpn ≠ sl.vpn || x.fault.isSome) ∧ u.mem = s.mem ∧ u.fibs = s.fibs)
    ∧ (∀ (s : State) (d : Nat) (v : W64) (mode : BitVec 2) (i : Instr), (i = .tinvPage d v ∧ mode = 0) ∨ (i = .tinvLargePage d v ∧ mode = 1)
        ∨ (i = .tinvDomain d v ∧ mode = 2) →
      ((s.dom d).tinv = 0 → ∃ t, exec i s = .next t ∧ (t.dom d).tinv.getLsbD 0 = true ∧ (t.dom d).tinv.extractLsb' 62 2 = mode
        ∧ (t.dom d).tinv.extractLsb' 16 39 = v.extractLsb' 16 39 ∧ t.mem = s.mem ∧ t.fibs = (dropKept (fun f => f.dom = d) s).fibs
        ∧ (∀ c, (s.dom d).dies.getLsbD (c / 32) = true → ∀ x ∈ (t.core c).tlb, tinvDrops (t.dom d).tinv x = false)
        ∧ (∀ n, (s.dom d).dies.getLsbD n = true → (∀ x ∈ (t.die n).l2, tinvDrops (t.dom d).tinv x = false)
          ∧ ∀ x ∈ (t.die n).walk, tinvDropsWalk (t.dom d).tinv x.1 = false))
      ∧ ((s.dom d).tinv.getLsbD 0 = true → v.getLsbD 1 = false →
        exec i s = .next (s.setDom d { s.dom d with tinv := (s.dom d).tinv ||| 2 })))
    ∧ (∀ (s : State) (d : Nat), (s.dom d).tinv.getLsbD 0 = true →
      (tinvOpen s d (s.dom d).tinv (s.dom d).tinvMark = true → exec (.tinvComplete d) s = .next s)
      ∧ (tinvOpen s d (s.dom d).tinv (s.dom d).tinvMark = false → ∃ t, exec (.tinvComplete d) s = .next t
        ∧ (t.dom d).tinv = (s.dom d).tinv &&& ~~~(1 : W64) ∧ t.mem = s.mem ∧ t.fibs = (dropKept (fun f => f.dom = d) s).fibs
        ∧ (∀ c, (s.dom d).dies.getLsbD (c / 32) = true → ∀ x ∈ (t.core c).tlb, tinvDrops (s.dom d).tinv x = false))))

/-- Satchel copies start and move lines; hampers perform requests. Parts: SatchelEvents, HamperEvents. -/
def Obligations.SatchelAndHamperEvents : Prop :=
  -- SatchelEvents. R172, R123, R173, R58, R430: a satchel descriptor starts when its fibre's older loads and stores are out of
  -- the way; then the bytes of one destination line at a time are read, whole source words of them, from scratchpad or at
  -- their current values, and given to the write of that line; an uncorrectable row or a poisoned word that it reads is
  -- consumed by its fibre's gang.
  (
    ∀ (s : State) (y : Copy), s.copies.find? (fun x => x.id = y.id) = some y →
      (y.started = false → y.dead = false → (∀ a ∈ (s.core y.core).loads ++ (s.core y.core).stores,
          a.thr = .fib y.k → a.prefetch = false → y.mark ≤ a.id) →
        exec (.satchelStart y.id) s = .next { s with copies := s.copies.map fun x => if x.id = y.id then { x with started := true } else x })
      ∧ (∀ f, s.fib? y.k = some f → y.started = true → y.dead = false → y.nsent ≠ y.len →
        let m := min (y.len - y.nsent) (128 - (y.dst + BitVec.ofNat 64 y.nsent).toNat % 128)
        let e := y.nsent + m
        let hi := min y.len (e + (4 - (y.src.toNat + e) % 4) % 4)
        let pas := sourcePas y (hi - y.nread)
        let r := scratchRead f.gang (y.src + BitVec.ofNat 64 y.nread) (hi - y.nread) s
        (y.sscr = true →
          (r.2.2 = none → exec (.satchelLineCopy y.id) s = .next ((copyLine y f hi m r.2.1 r.1).getD s))
          ∧ (∀ a, r.2.2 = some a → exec (.satchelLineCopy y.id) s = .next (consumeBad y.k.core (.fib y.k) 0 a false r.1)))
        ∧ (y.sscr = false →
          (sourceReady s pas = false → exec (.satchelLineCopy y.id) s = .next s)
          ∧ (sourceReady s pas = true → (∀ u, fetchHome ((pas.map (· / 128)).eraseDups) s = some u → exec (.satchelLineCopy y.id) s = .next u)
            ∧ (fetchHome ((pas.map (· / 128)).eraseDups) s = none →
              (sourcePoison s pas = none → exec (.satchelLineCopy y.id) s = .next ((copyLine y f hi m (pas.map s.curByte) s).getD s))
              ∧ (∀ pa h, sourcePoison s pas = some pa → homeOf (pa / 128) = .home h →
                exec (.satchelLineCopy y.id) s = .next (consumeBad h (.fib y.k) 2 (pa / 4 * 4) false s)))))))
  -- HamperEvents. R190, R191, R359, R361, R207: a hamper performs its first request when it may and holds it otherwise: an
  -- enqueue writes the item at the slot of TAIL and raises TAIL, a dequeue takes the item of HEAD's slot and raises HEAD,
  -- whoever asked goes on, a chrecv with its item stored, and saved gangs that waited ask for their place. The home's
  -- operation needs every word of the lines it touches Valid there.
  ∧ (
    (∀ (s : State) (q : HampReq), s.hamp.find? (fun x => x.id = q.id ∧ x.enq) = some q → fetchHome [q.desc / 128] s = none →
      ((s.hampReady q && hampReach s q) = false → exec (.hamperEnqueue q.id) s = .next s)
      ∧ (s.hampReady q = true → hampReach s q = true →
        (∀ u, hampTakes q s = some u → exec (.hamperEnqueue q.id) s = .next u)
        ∧ (hampTakes q s = none → exec (.hamperEnqueue q.id) s = .next (wakeAll (enqueueDone q (doEnqueue q s)))))
      ∧ (q.ptrCore = none → (doEnqueue q s).mem = Memory.writeBytes (Memory.writeBytes s.mem (s.hampSlot q) (bytesOf512 q.item))
        (q.desc + 8) (leBytes (s.hampWord q.desc 8 + 1) 8))
      ∧ (∀ k f, q.thr = some (.fib k) → (doEnqueue q s).fib? k = some f → f.phase = 3 → q.door = none →
        (enqueueDone q (doEnqueue q s)).fib? k = some { f.retire with stall := if f.st = .parked then f.stall else 0 }))
    ∧ (∀ (s : State) (q : HampReq), s.hamp.find? (fun x => x.id = q.id ∧ !x.enq) = some q → fetchHome [q.desc / 128] s = none →
      let item := (doDequeue q s).1
      let u := (doDequeue q s).2
      item = ofBytes512 (Memory.readBytes s.mem (s.hampSlot q) 64)
      ∧ (q.ptrCore = none → u.mem = Memory.writeBytes s.mem q.desc (leBytes (s.hampWord q.desc 0 + 1) 8))
      ∧ (q.door = none → s.hampReady q = true → hampReach s q = true →
        (∀ v, hampTakes q s = some v → exec (.hamperDequeue q.id) s = .next v)
        ∧ (hampTakes q s = none → (q.takes item s = none → exec (.hamperDequeue q.id) s = .next s)
          ∧ ∀ l, q.takes item s = some l → exec (.hamperDequeue q.id) s = .next (dequeueDone q item l u)
            ∧ ∀ k f n, q.thr = some (.fib k) → u.fib? k = some f → f.wait = .chan n → dequeueDone q item l u = receive k f n item l u))
      ∧ (∀ id, q.door = some id →
        (s.hampCount q.desc = 0 → exec (.hamperDequeue q.id) s
          = .next (answerDoor id (List.replicate 64 0xFF) { s with hamp := s.hamp.filter fun x => x.id ≠ q.id }))
        ∧ (s.hampCount q.desc ≠ 0 → s.hampReady q = true → hampReach s q = true → hampTakes q s = none → q.thr = none →
          exec (.hamperDequeue q.id) s = .next (answerDoor id (bytesOf512 item) u)))))

/-- Pending results are written, scratch accesses performed, and control registers written. Parts: CoreEvents,
RegisterWriteEvents. -/
def Obligations.CoreAndRegisterEvents : Prop :=
  -- CoreEvents. R252, R263, R52, R153, R55, R239: the oldest long result that no access brings is written and its gate opens;
  -- a division in progress writes its result, and scalar words issue again; a scratch access in its turn is performed at its
  -- quadrant, lane by lane: an uncorrectable row aside its loads bind the bytes of the bolt, its stores write them, and its
  -- atomics do both.
  (
    (∀ (s : State) (k : FKey) (f : Fib) (l : LongRes), s.fib? k = some f → f.longs.find? (fun l => !l.mem) = some l → l.clash = [] →
      (s.core k.core).boltErr = [] →
      exec (.longResultWriteback k) s = .next ((writeVals k l.mask (l.vals, l.tags) s).onFib k fun g =>
        { g with longs := g.longs.filter fun x => x.id ≠ l.id }))
    ∧ (∀ (s : State) (k : FKey) (f : Fib) (d : Nat) (v : W64), s.fib? k = some f → f.div = some (d, v) →
      exec (.scalarDivideComplete k) s = .next (s.setFib k { f.setSreg d v with div := none }))
    ∧ (∀ (s : State) (c m : Nat) (a : Acc), s.accOf a.id = some (c, a) → a.space = .scratch m → (s.core c).inTurn a = true →
      (∀ x, (s.core x).boltErr = []) →
      let bind := fun (p : Part) (bs : List W8) => bs.zipIdx.map fun e => (p.lane, p.off + e.2, e.1)
      (a.kind = .load → exec (.scratchAccessPerformed a.id) s = .next (reap c (settle c (eventDone c a
        (a.parts.flatMap fun p => bind p (Memory.readBytes s.mem p.pa p.n)) none s))))
      ∧ (a.kind = .store → (∀ p ∈ a.parts, p.pa % 32 + p.n ≤ 32 ∧ p.data.length = p.n ∧ 0 < p.n) → ∃ t,
        exec (.scratchAccessPerformed a.id) s = .next (reap c (settle c (eventDone c a [] none t)))
        ∧ t.mem = a.parts.foldl (fun m p => Memory.writeBytes m p.pa p.data) s.mem ∧ t.fibs = s.fibs)
      ∧ (a.kind = .atomic → (∀ p ∈ a.parts, p.pa % 32 + p.n ≤ 32 ∧ 0 < p.n) → ∃ t,
        let r := a.parts.foldl (fun (x : List Host.Cell × List (Nat × Nat × W8)) p =>
          let old := Memory.readBytes x.1 p.pa p.n
          (Memory.writeBytes x.1 p.pa (leBytes (atomicNew a.op p.n (leNat old) (leNat p.data) (leNat p.cmp)) p.n), x.2 ++ bind p old))
          (s.mem, [])
        exec (.scratchAccessPerformed a.id) s = .next (reap c (settle c (eventDone c a r.2 none t))) ∧ t.mem = r.1 ∧ t.fibs = s.fibs)))
  -- RegisterWriteEvents. R61, R63, R64, R424, R437: BGOOD writes retire the granules named, but those of the cut in force,
  -- which set GERR; BFAIL takes at most two marks, more set ERR and change nothing; a core's retirement starts at the first
  -- write of RET and its parts leave service when its words are home; a forwarding entry becomes valid when its ranges are
  -- legal, else ERR is set, and a write of V = 0 frees it; a write of the register aperture reaches the register of its
  -- address in one access of its own width, and nothing else.
  ∧ (
    (∀ (s : State) (c : Nat) (hi : Bool) (v : W64), ∃ t, exec (.granuleRetire c hi v) s = .next t ∧ t.mem = s.mem ∧ t.fibs = s.fibs
      ∧ (∀ g, g < 128 → (t.core c).good.getLsbD g = ((s.core c).good.getLsbD g
        && !((decide (g / 64 = if hi then 1 else 0) && v.getLsbD (g % 64))
          && !((s.core c).bcut.getLsbD 31 && (assigned (s.core c).bcut (s.core c).good (g / 32)).contains g)))))
    ∧ (∀ (s : State) (c q : Nat) (v : W64), ∃ t, exec (.bankMark c q v) s = .next t ∧ t.mem = s.mem ∧ t.fibs = s.fibs
      ∧ (2 < onesBelow v 36 → tget (t.core c).bfail q 0 = tget (s.core c).bfail q 0 ||| (1 <<< 63))
      ∧ (onesBelow v 36 ≤ 2 → (tget (t.core c).bfail q 0).extractLsb' 0 36 = v.extractLsb' 0 36))
    ∧ (∀ (s : State) (c : Nat) (v : W64), v.getLsbD 0 = true → (s.core c).cret.getLsbD 0 = false → (s.core c).owner = none →
      (s.core c).grants = [] → (s.core c).l1 = [] → (s.core c).wb = [] → wordsDue s c = false →
      ∃ t, exec (.coreRetire c v) s = .next t ∧ (t.core c).cret = 3 ∧ (t.core c).inService = false ∧ (t.hart c 0).run = false
        ∧ (t.hart c 1).run = false ∧ t.mem = s.mem)
    ∧ (∀ (s : State) (d n : Nat) (v : W64), (tget (s.dom d).fwl n 0).getLsbD 63 = false →
      (forwardRefused (s.dom d) n (fwLen v) = false → ∃ t, exec (.forwardEntryEnable d n v) s = .next t
        ∧ (tget (t.dom d).fwl n 0).getLsbD 63 = true ∧ fwLen (tget (t.dom d).fwl n 0) = fwLen v ∧ t.mem = s.mem)
      ∧ (forwardRefused (s.dom d) n (fwLen v) = true → ∃ t, exec (.forwardEntryEnable d n v) s = .next t
        ∧ (tget (t.dom d).fwl n 0).getLsbD 63 = false ∧ (tget (t.dom d).fwl n 0).getLsbD 62 = true ∧ t.mem = s.mem))
    ∧ (∀ (s : State) (d n : Nat) (v : W64), ∃ t, exec (.forwardEntryFree d n v) s = .next t
      ∧ (tget (t.dom d).fwl n 0).getLsbD 63 = false ∧ t.mem = s.mem ∧ t.fibs = s.fibs)
    ∧ (∀ (s : State) (pa n : Nat) (v : W64),
      (∀ d off, regPlace pa = .dom d off → n ≠ 64 → exec (.registerWrite pa n v) s
        = .next (if domWidth off = n then domWrite d off v s else s))
      ∧ (∀ c off, regPlace pa = .core c off → n ≠ 64 → exec (.registerWrite pa n v) s
        = .next (if coreWidth off = n then coreWrite c off v s else s))
      ∧ (regPlace pa = .none → n ≠ 64 → exec (.registerWrite pa n v) s = .next s)
      ∧ exec (.registerWrite mailbox 64 v) s = .next { s with attest := s.attest ++ [v.setWidth 512] }))

/-- Domains start, gangs are placed, evicted, saved and moved off hot cores. Parts: StartAndPlacement, EvictionAndHeat. -/
def Obligations.PlacementAndEviction : Prop :=
  -- StartAndPlacement. R44, R180, R185, R187, R188, R189: a domain starts when its launch record, its kernel header and its
  -- pin ranges pass every check, and else DSTART names the first that failed; a legal start queues every gang in class 4. A
  -- die serves its next request: it reserves the cores found for it and binds the gang's channels, and commits the placement
  -- in progress; a request whose rectangle is occupied waits, and one that fits nowhere is UNPLACED; a placement whose bound
  -- expires is undone and goes back to the head of its class. What an agent outside holds of what is read is recalled first.
  (
    (∀ (s : State) (d : Nat), s.cfgOk = true → (s.dom d).dies ≠ 0 → (s.dom d).dstart.extractLsb' 0 2 = 0 →
      let rec_ := distRead s d (s.dom d).recAddr 128
      let lines := distLines s d (s.dom d).recAddr 128 ++ (match rec_ with | some b => distLines s d (launchOf b).khdr 320 | none => [])
      (∀ u, fetchHome lines s = some u → exec (.domainStart d) s = .next u)
      ∧ (fetchHome lines s = none →
        (rec_ = none → exec (.domainStart d) s = .next (refuseStart d 6 0 s))
        ∧ ∀ b, rec_ = some b →
          (∀ c o, launchFault b = some (c, o) → exec (.domainStart d) s = .next (refuseStart d c o s))
          ∧ (launchFault b = none → distRead s d (launchOf b).khdr 320 = none → exec (.domainStart d) s = .next (refuseStart d 7 0 s))
          ∧ ∀ h, launchFault b = none → distRead s d (launchOf b).khdr 320 = some h →
            (∀ c o, headerFault (launchOf b) h = some (c, o) → exec (.domainStart d) s = .next (refuseStart d c o s))
            ∧ (∀ c o, headerFault (launchOf b) h = none → pinFault s d (pinRanges h) [] = some (c, o) →
              exec (.domainStart d) s = .next (refuseStart d c o s))
            ∧ (headerFault (launchOf b) h = none → pinFault s d (pinRanges h) [] = none →
              ∃ t, exec (.domainStart d) s = .next t ∧ (t.dom d).dstart = 1
                ∧ (∃ l, (t.dom d).launch = some l ∧ l.cut = (launchOf b).cut ∧ l.entry = (launchOf b).entry ∧ l.ngang = (launchOf b).ngang)
                ∧ t.gangs.length = s.gangs.length + (launchOf b).ngang ∧ t.mem = s.mem ∧ t.fibs = s.fibs)))
    ∧ (∀ (s : State) (d : Nat),
      (∀ cls k cores t0 g, (s.die d).placing = some (cls, k, cores, t0) → s.gang? k = some g →
        let images := if cls = 2 ∨ cls = 3 then imagesReady { g with cores := cores } s else none
        (∀ u, images = some u → exec (.placement d) s = .next u)
        ∧ (images = none → exec (.placement d) s = .next (commitPlace g cls cores (s.setDie d { s.die d with placing := none }))))
      ∧ (∀ cls k n g, (s.die d).placing = none → nextRequest (s.die d) = some (cls, k, n) → s.gang? k = some g →
        s.replaying g.dom = false →
        (∀ cores, findPlace s g true = some cores → (∀ u, bindChans g.dom s = .inl u → exec (.placement d) s = .next u)
          ∧ ∀ u chans, bindChans g.dom s = .inr (u, chans) → exec (.placement d) s = .next (reserve d cls g chans cores u))
        ∧ (findPlace s g true = none → (findPlace s g false).isSome = true → exec (.placement d) s = .next s)
        ∧ (findPlace s g true = none → findPlace s g false = none →
          exec (.placement d) s = .next (updateDunp g.dom (some g.gid) ((unqueue k s).setGang { g with st := .unplaced, cls := cls }))))
      ∧ (∀ cls k cores t0 g, (s.die d).placing = some (cls, k, cores, t0) → boundExpires s d = true → (rollback d s).gang? k = some g →
        let u := (rollback d s).setGang { g with st := .pending }
        exec (.placementBoundExpiry d) s = .next (u.setDie d { u.die d with queue := (cls, k, 0) :: (u.die d).queue }))))
  -- EvictionAndHeat. R205, R206, R209, R412, R419, R426: a fibre that waits more than 2 µs for a remote load at a consuming
  -- wait reaches its blocking point with its wake word, a report that it holds being delivered first; the gang idle longest of
  -- those that may go, and whose scratch images can be stored, is sent to its save handlers; a gang whose fibres have all
  -- saved, and whose cores have nothing a release waits for, is Saved, with its fibres kept, none of them resident; a core
  -- flagged hot is throttled and counts from then, and the flag's clearing ends the thermal requests of gangs with no hot core
  -- and lets UNPLACED gangs that fit return; a gang with a hot core long after its commit has a thermal request.
  ∧ (
    (∀ (s : State) (k : FKey) (f : Fib) (a : Acc), s.fib? k = some f → (fibLoads s k).head? = some a →
      f.st = .running → f.stall = 3 → f.waits = true → (a.space = .pool ∨ a.sysStrong = true) → 2400 < s.tick - a.tick →
      atBlockingPoint s k { f with ldq := [], reports := [] } = true →
      (f.reports = [] → exec (.remoteLoadTimeout k) s = .next (s.setFib k { f with
          st := .blocked, since := s.tick, wait := .remote a.firstVa
          wake := BitVec.ofNat 64 (6 * 2 ^ 60) ||| ((a.firstVa.extractLsb' 3 52).setWidth 64) }))
      ∧ (∀ r, oldestReport f (fun _ => true) = some r → exec (.remoteLoadTimeout k) s = deliver k r s))
    ∧ (∀ (s : State) (d : Nat) (g : Gang), s.replaying d = false →
      let cands := s.gangs.filter fun g => g.dom = d && mayEvict s g
      (∀ x ∈ cands, imageFault s x = none ∨ x.told = true) →
      (sortBy (fun a b => (idleSince s a).getD 0 ≤ (idleSince s b).getD 0) (cands.filter fun x => (imageFault s x).isNone)).head? = some g →
      exec (.evictionChoice d) s = .next (evictGang { g with told := false } s))
    ∧ (∀ (s : State) (g : GKey) (r : Gang), s.gang? g = some r → r.st = .saving →
      (∀ e ∈ s.fibsOfGang g, e.2.st = .saved ∨ e.2.st = .exited) →
      (∀ y ∈ s.copies, ∀ e ∈ s.fibsOfGang g, e.1 ≠ y.k) → (∀ c ∈ r.cores, releaseWaits s c (.hart c 0) 2 true s.nextId = false) →
      let u := r.cores.foldl (fun s c => clearSr c s.nextId s) s
      (∀ v, saveScratch r u = .inl v → exec (.gangSaveComplete g) s = .next v)
      ∧ (∀ v, saveScratch r u = .inr v → ∃ t q, exec (.gangSaveComplete g) s = .next t ∧ t.gang? g = some q
        ∧ q.saved = (s.fibsOfGang g).map (fun e => ⟨e.2.bid, e.2⟩) ∧ ∀ e ∈ t.fibs, e.2.gang ≠ g))
    ∧ (∀ (s : State) (c : Nat), exec (.hotFlag c) s = .next (s.onCore c fun co =>
        { co with hot := true, hotAt := if co.hot then co.hotAt else s.tick, throttled := true }))
    ∧ (∀ (s : State) (c : Nat), let s0 := s.onCore c fun co => { co with hot := false, throttled := false }
      let s1 : State := { s0 with gangs := s0.gangs.map fun (g : Gang) =>
        if g.st = .running && !(g.cores.any fun c => (s0.core c).hot) then { g with thermalFrom := none } else g }
      exec (.hotFlagClear c) s = .next ((s1.gangs.filter fun (g : Gang) => g.st = .unplaced && (findPlace s1 g false).isSome).foldl
        (fun (s : State) (g : Gang) => updateDunp g.dom none (queueGang g g.cls s)) s1))
    ∧ (∀ (s : State) (g : GKey) (r : Gang), s.gang? g = some r → r.st = .running → (∃ c ∈ r.cores, (s.core c).hot = true) →
      r.commit + 2400000 ≤ s.tick →
      exec (.hotResidencyExpiry g) s = .next (s.setGang { r with thermalFrom := some (r.cores.headD 0) })))

/-- The basting unit writes its stream; recording, checkpoints and replay. Parts: BastingEvents, RecorderEvents. -/
def Obligations.TraceAndReplayEvents : Prop :=
  -- BastingEvents. R453 to R459: a legal BTCTL write with TEN makes the sync of a rising TEN; BTRD moves within the ring, else
  -- ERR is set; a full line goes to the ring in near memory and BTWR rises by 128; a part line that stood 1,200 ticks is
  -- padded with zeros; each port takes its sample when one is due; a sync comes at its period; a loss is told once there is
  -- room.
  (
    ∀ (s : State) (c : Nat), let b := (s.core c).bast
      (∀ v : W64, 10 ≤ (v.extractLsb' 16 5).toNat → (v.extractLsb' 16 5).toNat ≤ 20 → (v.extractLsb' 24 4).toNat ≤ 10 →
        ∃ t, exec (.traceEnable c v) s = .next t
          ∧ (t.core c).bast.ctl.getLsbD 1 = true ∧ (t.core c).bast.ctl.extractLsb' 16 5 = v.extractLsb' 16 5 ∧ t.mem = s.mem
          ∧ (b.ctl.getLsbD 1 = true → t.fibs = s.fibs)
          ∧ (b.ctl.getLsbD 1 = false → (t.core c).bast.syncAt = some s.tick ∧ (t.core c).bast.wr = 0 ∧ (t.core c).bast.rd = 0))
      ∧ (∀ v : W64, exec (.bastingReadAdvance c v) s = .next (if v.toNat + b.size < b.wr ∨ b.wr < v.toNat then bastErr c s
          else s.onCore c fun co => { co with bast := { b with rd := v.toNat } }))
      ∧ (let pa := (b.base.extractLsb' 16 36).toNat * 65536 + b.wr % b.size
        128 ≤ b.buf.length → b.wr + 128 ≤ b.rd + b.size → (∀ u, homeTakes [pa / 128] s = some u → exec (.bastingLineDrain c) s = .next u)
        ∧ (homeTakes [pa / 128] s = none → ∃ t, exec (.bastingLineDrain c) s = .next t ∧ (t.core c).bast.wr = b.wr + 128 ∧ (t.core c).bast.buf = b.buf.drop 128
          ∧ t.mem = Memory.writeBytes s.mem pa (b.buf.take 128)))
      ∧ (padDue s b = true → exec (.bastingPad c) s = .next (drainLine c (s.onCore c fun co => { co with
          bast := { b with buf := b.buf ++ List.replicate (128 - b.buf.length % 128) 0 } })))
      ∧ (sampleDue (s.core c) = true → ∃ t, exec (.pcSample c) s = .next t
        ∧ (t.core c).bast.nextSample = b.nextSample + 2 ^ (b.ctl.extractLsb' 16 5).toNat ∧ (t.core c).bast.buf = b.buf
        ∧ t.mem = s.mem ∧ t.fibs = s.fibs)
      ∧ (periodicDue s c = true → exec (.tracePeriodicSync c) s = .next (syncAll c s))
      ∧ (let q := bastFlush s.tick b
        q.lost ≠ 0 → q.buf.length + 64 ≤ 65536 → exec (.traceResync c) s = .next (syncAll c (s.onCore c fun co =>
          { co with bast := { q with buf := q.buf ++ b8 0x80 :: leBytes (min q.lost (2 ^ 32 - 1)) 4, lost := 0, last := s.tick } }))))
  -- RecorderEvents. R461, R462, R465: a legal write of EN starts recording with empty logs, STATE 1; T ms after the last
  -- checkpoint the fibres of the domain are held, and once each can be captured the checkpoint is taken and they run on; RPCMD
  -- starts the replay of a kept checkpoint whose cores are in service, STATE 2, and is refused with STATE 5 otherwise.
  ∧ (
    ∀ (s : State) (d : Nat), let dm := s.dom d
      (∀ v : W64, rpState dm ≠ 2 → 1 ≤ (v.extractLsb' 0 10).toNat → (v.extractLsb' 0 10).toNat ≤ 1000 → (v.extractLsb' 16 4).toNat ≠ 0 →
        inPool ((dm.rpbase.extractLsb' 30 22).toNat * 2 ^ 30) = true → dm.rpctl.getLsbD 31 = false →
        ∃ t, exec (.recordingEnable d v) s = .next t ∧ rpState (t.dom d) = 1 ∧ (t.dom d).rpctl.getLsbD 31 = true
          ∧ (t.dom d).checkpoints = [] ∧ (t.dom d).log = [] ∧ (t.dom d).lastCkpt = s.tick ∧ t.mem = s.mem ∧ t.fibs = s.fibs)
      ∧ (dm.rpctl.getLsbD 31 = true → rpState dm = 1 → dm.lastCkpt + (dm.rpctl.extractLsb' 0 10).toNat * 1200000 ≤ s.tick →
        exec (.checkpoint d) s = .next (if (s.fibsOfDom d).all (captured s) then takeCheckpoint d s
          else s.setDom d { dm with quiesce := true }))
      ∧ (∀ v : W64, dm.rpctl.getLsbD 31 = false →
        let s1 := s.setDom d { dm with rpcmd := v ||| 1 }
        (∀ r, dm.checkpoints.find? (fun x => x.seq = (v.extractLsb' 32 32).toNat) = some r →
          (∀ g ∈ r.gangs, ∀ c ∈ g.cores, (s.core c).inService = true) →
          exec (.replayStart d v) s = .next (startReplay d r s1) ∧ rpState ((startReplay d r s1).dom d) = 2)
        ∧ (dm.checkpoints.find? (fun x => x.seq = (v.extractLsb' 32 32).toNat) = none → ∃ t, exec (.replayStart d v) s = .next t
          ∧ rpState (t.dom d) = 5 ∧ t.mem = s.mem ∧ t.fibs = s.fibs)))

/-- Requests, completions and messages of the fabric, and its links. Parts: FabricEvents, LinkEvents. -/
def Obligations.FabricEvents : Prop :=
  -- FabricEvents. R155, R471, R472, R473, R477, R479: a flit with a reserved bit is dropped and counted, and so is a request
  -- that leaves its line; an agent's read or write within its line joins the requests from outside; a completion frees its tag
  -- and completes the load or store that left; a registration message of an agent takes its place among the requests of its
  -- link, and an answer joins the messages in flight under the tag it answers; a store to a bound door is a request to its
  -- hamper, and so is a load.
  (
    (∀ (s : State) (n : Nat) (h : FabHdr), s.linksUp.getLsbD n = true →
      let s1 := { s with nextId := s.nextId + 1 }
      (h.reserved = true → ∀ v m, ∀ i ∈ [Instr.fabricRd n h, .fabricWr n h v, .fabricRdCompletion n h v, .fabricWrCompletion n h,
        .fabricMsg n h m, .fabricReservedFlit n h], exec i s = .next { s with linkErr := s.linkErr + 1 })
      ∧ (h.reserved = false → (31 < h.len ∨ 128 < h.pa % 128 + h.bytes) →
        (h.kind = 0 → exec (.fabricRd n h) s = .next { s with linkErr := s.linkErr + 1 })
        ∧ (h.kind = 1 → ∀ v : BitVec 1024, exec (.fabricWr n h v) s = .next { s with linkErr := s.linkErr + 1 }))
      ∧ (h.reserved = false → h.len ≤ 31 → h.pa % 128 + 4 * (h.len + 1) ≤ 128 →
        let dom := match doorOf h.pa, homeOf (h.pa / 128) with
          | some x, _ => x.1 | none, .home c => (s.domOfCore c).getD 0 | none, _ => 0
        let req := fun (wr : Bool) (bs : List W8) => ({
          id := s.nextId, node := h.from_, link := n, hdr := h, wr := wr, pa := h.pa, n := 4 * (h.len + 1), dom := dom
          ord := if wr && (doorOf h.pa).isSome then 3 else h.ord
          lines := [(h.pa / 128, BitVec.ofNat 64 h.pa, byteRun (h.pa % 128) h.bytes, wordsWith (h.pa % 128) bs)] } : ExtReq)
        (h.kind = 0 → exec (.fabricRd n h) s = .next (joinExt (req false []) s1))
        ∧ (h.kind = 1 → ∀ v : BitVec 1024, exec (.fabricWr n h v) s = .next (joinExt (req true (leBytes v.toNat h.bytes)) s1)))
      ∧ (∀ t c a, h.reserved = false → s.tagHolder n h.tag = some t → s.accOf t.id = some (c, a) → a.space = .io →
        (a.kind = .load → h.kind = 2 → ∀ v, exec (.fabricRdCompletion n h v) s = .next (wakeAll (reap c (settle c (eventDone c a
          (boundBytes a h.len v (freeTag t.id s)) none { freeTag t.id s with freeCtr := s.freeCtr + 128 })))))
        ∧ (a.kind ≠ .load → h.kind = 3 → exec (.fabricWrCompletion n h) s
          = .next (reap c (settle c (eventDone c a [] none (freeTag t.id s))))))
      ∧ (∀ m : Msg, h.reserved = false → h.kind = 4 → h.len = msgNumber m.kind → nearPopulated (128 * (h.pa / 128)) = true →
        let own := { m with src := h.from_, line := h.pa / 128, dst := homeOf (h.pa / 128), tag := agentTag n h.tag }
        (m.kind ∈ [MsgKind.reg, .ld, .hwr] → exec (.fabricMsg n h m) s = .next (joinExt {
            id := s.nextId, node := h.from_, link := n, hdr := h, lines := [], wr := m.kind ≠ .ld, ord := h.ord
            pa := 128 * (h.pa / 128), dom := m.dom, msg := some { own with party := h.from_, strong := decide (h.ord ≠ 0) } } s1))
        ∧ (m.kind = .wb → m.flag = false → exec (.fabricMsg n h m) s = .next { s with net := s.net ++ [own] })
        ∧ (∀ t, s.tagHolder n h.tag = some t → (m.kind = .rvack ∨ m.kind = .wb ∧ m.flag = true) →
          exec (.fabricMsg n h m) s = .next (send { own with tag := t.id } (freeTag t.id s)))
        ∧ (∀ t, s.tagHolder n h.tag = some t → m.kind = .fdata →
          exec (.fabricMsg n h m) s = .next (send { own with tag := t.id, dst := m.dst } (freeTag t.id s)))))
    ∧ (∀ (s : State) (d n : Nat) (item : BitVec 512),
      (∀ u, doorChan d n s = .inl u ∨ doorChan d n s = .inr (u, none) →
        exec (.doorEnqueue d n item) s = .next u ∧ exec (.doorDequeue d n) s = .next u)
      ∧ (∀ u ch, doorChan d n s = .inr (u, some ch) →
        let asked := fun (t : State) (enq : Bool) => ∃ q r, t.hamp = u.hamp ++ [q] ∧ t.ext = u.ext ++ [r] ∧ q.enq = enq ∧ q.desc = ch.desc
          ∧ q.ring = ch.ring ∧ q.cap = ch.cap ∧ q.door = some r.id ∧ r.wr = enq ∧ r.n = 64 ∧ t.mem = u.mem
          ∧ (enq = true → q.item = item)
        (∃ t, exec (.doorEnqueue d n item) s = .next t ∧ asked t true) ∧ ∃ t, exec (.doorDequeue d n) s = .next t ∧ asked t false)))
  -- LinkEvents. R469, R470, R473: a link goes down, and each request that held a tag of it is answered: a load is poisoned,
  -- and a store of a fibre kills its gang; a link comes up, what waited going on; an agent that is retired owns no word any
  -- more, and each it owned is poisoned at its home.
  ∧ (
    (∀ (s : State) (n : Nat), n < 32 → s.linksUp.getLsbD n = true →
      exec (.linkDown n) s = .next ((s.linkTags.filter fun t => t.link = n).foldl (fun s t => loseTag t s)
        { s with linksUp := s.linksUp &&& ~~~((1 : W32) <<< n) }))
    ∧ (∀ (s : State) (t : LinkTag) (c : Nat) (a : Acc), s.accOf t.id = some (c, a) →
      (a.kind = .load → a.prefetch = false → ∀ p r, a.parts = p :: r →
        loseTag t s = reap c (settle c (eventDone c a [] (some p.pa) (freeTag t.id s))))
      ∧ (a.kind ≠ .load → ∀ k f, a.thr = .fib k → s.fib? k = some f → ∃ u, loseTag t s = killGang f.gang false u ∧ u.mem = s.mem
        ∧ ∀ x ∈ (u.core c).stores, x.id ≠ a.id))
    ∧ (∀ (s : State) (n : Nat), n < 32 → s.linksUp.getLsbD n = false →
      let s1 := { s with linksUp := s.linksUp ||| ((1 : W32) <<< n) }
      exec (.linkUp n) s = .next (settleExt ((s.cores.map (·.1)).foldl (fun s c => reap c (settle c s)) s1)))
    ∧ (∀ (s : State) (p a : Nat), s.acts = [] → (∀ c, (s.core c).loads = [] ∧ (s.core c).stores = []) → s.ext = [] →
      ∃ t, exec (.agentRetire p a) s = .next t ∧ t.mem = s.mem
        ∧ (∀ e ∈ t.owners, e.2 ≠ .agent p a) ∧ (∀ e ∈ s.owners, e.2 = .agent p a → e.1 ∈ t.poison)
        ∧ (∀ m ∈ t.net, m.src ≠ .agent p a ∧ m.dst ≠ .agent p a)))

/-- PCI Express requests and accesses in I/O apertures. Parts: PciExpressEvents, ApertureCompletes. -/
def Obligations.HostAccessEvents : Prop :=
  -- PciExpressEvents. R475, R476, R477, R22: a posted write or a read of a port's device that is bound to a domain and
  -- translated joins the requests from outside, a write without Relaxed Ordering as a release, its pages having taken A, and D
  -- for a write; one that fails its check leaves a record, a write being dropped and a read completed as Unsupported. Words
  -- that its translation needs are recalled first.
  (
    ∀ (s : State) (port rid d : Nat) (va : W64), tfind s.ports port = some d →
      let vas := fun (n : Nat) => (pageChunks va n).map (·.1)
      let lines := fun (n : Nat) => ((vas n).flatMap (walkLines s d)).eraseDups
      (∀ data ro, data ≠ [] → data.length ≤ 512 →
        let n := data.length
        (∀ u, fetchHome (lines n) s = some u → exec (.pciePostedWrite port rid va data ro) s = .next u)
        ∧ (fetchHome (lines n) s = none →
          (∀ ps u, inbound s d .store va n = .ok ps → touchPages d .store .host (vas n) s = .inl u →
            exec (.pciePostedWrite port rid va data ro) s = .next u)
          ∧ (∀ ps u x, inbound s d .store va n = .ok ps → touchPages d .store .host (vas n) s = .inr (u, x) →
            exec (.pciePostedWrite port rid va data ro) s = .next (let r := routeReq port rid true (if ro then 0 else 3) d va n ps data u
              joinExt r.1 r.2))
          ∧ (∀ c a i, inbound s d .store va n = .error (c, a, i) →
            exec (.pciePostedWrite port rid va data ro) s = .next (domainRecord d c a i s))))
      ∧ (∀ n, 1 ≤ n → n ≤ 4096 →
        (∀ u, fetchHome (lines n) s = some u → exec (.pcieMemoryRead port rid va n) s = .next u)
        ∧ (fetchHome (lines n) s = none →
          (∀ ps u, inbound s d .load va n = .ok ps → touchPages d .load .host (vas n) s = .inl u →
            exec (.pcieMemoryRead port rid va n) s = .next u)
          ∧ (∀ ps u x, inbound s d .load va n = .ok ps → touchPages d .load .host (vas n) s = .inr (u, x) →
            exec (.pcieMemoryRead port rid va n) s = .next (let r := routeReq port rid false 1 d va n ps [] u
              joinExt r.1 r.2))
          ∧ (∀ c a i, inbound s d .load va n = .error (c, a, i) → exec (.pcieMemoryRead port rid va n) s
            = .next (let r := routeReq port rid false 1 d va n [] [] s
              complete r.1 3 [] (domainRecord d c a i r.2))))))
  -- ApertureCompletes. R478: an access in an I/O aperture, in its thread's order and not for a link, completes: a load of the
  -- register aperture binds the register's bytes and a store writes it; a load of a door gets all ones.
  ∧ (
    ∀ (s : State) (c : Nat) (a : Acc) (p : Part) (v : W64), s.accOf a.id = some (c, a) → a.space = .io → a.sent = false →
      (s.core c).inTurn a = true → a.parts = [p] → fabricAperture p.pa = false →
      let bind := fun (bs : List W8) => bs.zipIdx.map fun e => (p.lane, p.off + e.2, e.1)
      (regBase ≤ p.pa → a.kind = .load → exec (.ioApertureCompletion a.id v) s
        = .next (reap c (settle c (eventDone c a (bind (regRead s p.pa p.n)) none s))))
      ∧ (regBase ≤ p.pa → a.kind = .store → exec (.ioApertureCompletion a.id v) s
        = .next (reap c (settle c (eventDone c a [] none (regWrite p.pa p.n (leNat p.data) s)))))
      ∧ (p.pa < regBase → (doorOf p.pa).isSome = true → a.kind = .load → exec (.ioApertureCompletion a.id v) s
        = .next (reap c (settle c (eventDone c a (bind (List.replicate p.n 0xFF)) none s)))))

/-- Attestation, and what module reset leaves. R480, R481, R482: a nonce joins those that wait, and a report carries the
measurements, the digest of the configuration, the oldest nonce and a signature over them. Module reset leaves every
structure as after reset, measures the stages, and lets the configuration take effect only when the stages and the
configuration verify. -/
def Obligations.AttestationAndReset : Prop :=
  (∀ (s : State) (x : BitVec 512), exec (.attestationRequest x) s = .next { s with attest := s.attest ++ [x] })
  ∧ (∀ (s : State) (x : BitVec 512) (rest : List (BitVec 512)), s.attest = x :: rest →
    ∃ t sig, exec .attestationReport s = .next t ∧ t.attest = rest ∧ t.report = s.mr.flatMap bytesOf512 ++ bytesOf512 s.cfgDigest
      ++ bytesOf512 x ++ bytesOf512 sig ∧ t.mem = s.mem ∧ t.fibs = s.fibs)
  ∧ (∀ (s : State) (b : BootInput), ∃ t, exec (.moduleReset b) s = .next t ∧ t.fibs = [] ∧ t.gangs = [] ∧ t.tick = 0 ∧ t.net = []
    ∧ t.owners = [] ∧ t.mr.length = 8 ∧ t.cfgDigest = b.configDigest ∧ t.cfgOk = (b.stagesOk && b.configOk)
    ∧ (t.cfgOk = true → t.pkg = b.pkg ∧ t.ports = b.ports ∧ t.powerLimit = b.powerLimit)
    ∧ (∀ i, i < b.stages.length → i < 8 → t.mr[i]? = some (Config.sha512 (List.replicate 64 0 ++ bytesOf512 (b.stages.getD i 0)))))

/-- Words written out from the encodings decode to their instructions. R237 to R241, R244, R246, R398, R399: words written out
field by field from the encodings of these rules decode to the instructions they stand for, one of each family at least. -/
def Obligations.WordsDecode : Prop :=
  decodeTableWord 32 (0b000001_00000111_00001000_00001001_00#32).toNat = some (.add 7 8 9)
  ∧ decodeTableWord 32 (0b000111_000011_00000111_00001000_0001#32).toNat = some (.sext 7 8 1)
  ∧ decodeTableWord 32 (0b001000_00000111_00001000_1111111111#32).toNat = some (.addi 7 8 0x3FF)
  ∧ decodeTableWord 32 (0b010000_00001000_0101_11111111111110#32).toNat = some (.br 8 5 0x3FFE)
  ∧ decodeTableWord 32 (0b010100_0000_0000000000000000000011#32).toNat = some (.lrun 3)
  ∧ decodeTableWord 32 (0b011000_000001_00001011_00000111_0000#32).toNat = some (.sset 0x0B 7)
  ∧ decodeTableWord 32 (0b011011_00000111_00001000_1_000000100#32).toNat = some (.sld32 7 8 true 4)
  ∧ decodeTableWord 32 (0b100100_000001_00000000_00000111_1111#32).toNat = some (.satBatch 7 15)
  ∧ decodeTableWord 32 (0b100111_000101_00000000_00000000_0000#32).toNat = some .exit
  ∧ decodeTableWord 96 (0b00000001_0000_1_0_1_0_00000010_00000011_00000100_00000101_0010_000110_000111_00000000000000000000000000001001#96).toNat
      = some (.vadd ⟨0, true, false, true, false, 2, 3, 4, 5, 2, 6, 7, 9⟩)
  ∧ decodeTableWord 32 (0b0000001_00000_00111_000_00000_0001011#32).toNat = some (.hxAcq 1 7)
  ∧ decodeTableWord 32 (0b0000000_00000_00111_001_00101_0101011#32).toNat = some (.hxUnpark 7 5)
  ∧ decodeValet (0b000000000100_00111_011_00101_0000011#32) = some (.valetLoad 3 7 5 4)

/-- Reserved majors are refused by name, and what decodes is well-formed. R243 step 1, R237, R246: a scalar word of the majors
0x28 to 0x3B is RESERVED_MAJOR, of 0x3C to 0x3E PRIVILEGED, of 0x00 and 0x3F ILLEGAL; a lane word of OP 0xA0 to 0xEF is
RESERVED_MAJOR, whatever its other bits; and what decodes is well-formed. -/
def Obligations.ReservedWords : Prop :=
  (∀ w : BitVec 32, let m := (w.extractLsb' 26 6).toNat
    (0x28 ≤ m → m ≤ 0x3B → decodeScalar w = .reservedMajor)
    ∧ (0x3C ≤ m → m ≤ 0x3E → decodeScalar w = .privileged)
    ∧ (m = 0 ∨ m = 0x3F → decodeScalar w = .illegal))
  ∧ (∀ w : BitVec 96, 0xA0 ≤ (w.extractLsb' 88 8).toNat → (w.extractLsb' 88 8).toNat ≤ 0xEF → decodeLane w = .reservedMajor)
  ∧ (∀ (w : BitVec 32) (i : Instr), decodeScalar w = .ok i → i.wf = true)
  ∧ (∀ (w : BitVec 96) (i : Instr), decodeLane w = .ok i → i.wf = true)

/-- Scalar words and scalar instructions correspond one to one. R237 to R242: a scalar word's encoding is one to one. The word of
every well-formed scalar instruction decodes to it, and a word that decodes is the word of what it decodes to, so no bit of a
scalar word is left unread. -/
def Obligations.ScalarWordsRoundTrip : Prop :=
  (∀ (i : Instr) (w : BitVec 32), i.wf = true → encode i = .scalar w → decodeScalar w = .ok i)
  ∧ (∀ (i : Instr) (w : BitVec 32), decodeScalar w = .ok i → encode i = .scalar w)

/-- Lane words and lane instructions correspond one to one. R244, R246: a lane word's encoding is one to one, for every OP and
every value of its fields. -/
def Obligations.LaneWordsRoundTrip : Prop :=
  (∀ (i : Instr) (w : BitVec 96), i.wf = true → encode i = .lane w → decodeLane w = .ok i)
  ∧ (∀ (i : Instr) (w : BitVec 96), decodeLane w = .ok i → encode i = .lane w)

/-- Every well-formed valet instruction decodes from its word. R398 to R401, R154, R436: the word of every well-formed valet
instruction decodes to it. -/
def Obligations.ValetWordsRoundTrip : Prop :=
  ∀ (i : Instr) (w : BitVec 32), i.wf = true → encode i = .valet w → decodeValet w = some i

/-- A step is the meaning of the decoded word, or of the due event. R194, R195, R234, R397, R398: when nothing of the calendar is
due and the next turn is a port's, a step fetches the bytes at the stream's PC, decodes them, and is the meaning of that
instruction for that stream (with the port's record of a word issued, and a fibre that was Blocked over a remote load running
again when its word completes); a hart's word is 4 bytes, or 2 that stand for a word of 4 (compressed), the bytes of hart 0
those of the line at its physical pc, and a word outside the custom opcodes is the base architecture's; when an event of the
calendar is due, a step is that event's meaning. The turn that comes next is the model's schedule (log 6), no forwarding
entry covers the PC, and the domain replays no log. -/
def Obligations.StepRunsDecoded : Prop :=
  (∀ (s s1 : State) (c u : Nat) (r : List Turn) (k : FKey) (f : Fib) (b : List W8) (i : Instr),
    due s = none → s.agenda = .scalar c u :: r → (s.core c).gated = false → ((s.core c).sub u).slotF = [] →
    let s0 := { s with agenda := r }
    scalarOrder s0 c u = [k] → s.fib? k = some f → f.yielded = false → s.replaying f.dom = false → (f.st ≠ .saving ∨ f.hkind = 2) →
    f.div = none → rowOpen s0 k f = false → redirect s f.dom f.pc = f.pc →
    fetchVa { s0 with cur := .scalar k } k.core .fibre f.pc 4 = .bytes b s1 → decodeScalar (BitVec.ofNat 32 (leNat b)) = .ok i →
    ∀ t t1 : State, exec i (s1.onFib k Fib.fetched) = .next t → waitEnded k s0 (.next t) = .next t1 →
      let t2 := { t1 with cur := .hw }
      step s = .next (if issued k s0 (.next t2) then stamped k t2 else t2))
  ∧ (∀ (s s1 : State) (c u : Nat) (r : List Turn) (k : FKey) (f : Fib) (x : Stitch) (l : List Stitch) (b : List W8) (i : Instr),
    due s = none → s.agenda = .lane c u :: r → (s.core c).gated = false → ((s.core c).sub u).holder = some k →
    s.fib? k = some f → f.ready = true → s.holds f = false → s.replaying f.dom = false → f.stitches = x :: l →
    redirect s f.dom x.pc = x.pc → fetchVa { s with agenda := r, cur := .lane k } k.core .fibre x.pc 12 = .bytes b s1 →
    (x.n = 23 → (laneFields (BitVec.ofNat 96 (leNat b))).k = true) → decodeLane (BitVec.ofNat 96 (leNat b)) = .ok i →
    ∀ t, exec i s1 = .next t → step s = .next { t with cur := .hw })
  ∧ (∀ (s : State) (c h : Nat) (r : List Turn), due s = none → s.agenda = .hart c h :: r →
    (s.hart c h).run = true → (s.core c).inService = true → (s.core c).gated = false → (s.domOfCore c).isSome = true →
    let s0 := { s with agenda := r, cur := .hart c h }
    takesIrq s0 c h = false → ∀ (s1 : State) (b : List W8), hartFetch c h (s.hart c h).pc 2 s0 = .bytes b s1 →
    (leNat b % 4 = 3 → ∀ (s2 : State) (b4 : List W8), hartFetch c h (s.hart c h).pc 4 s1 = .bytes b4 s2 →
      let w : W32 := BitVec.ofNat 32 (leNat b4)
      let s3 := s2.setHart c h { s2.hart c h with len := 4 }
      (∀ i t, decodeValet w = some i → exec i s3 = .next t → step s = .next { t with cur := .hw })
      ∧ (∀ t, decodeValet w = none → rvBase c h w s3 = .next t → step s = .next { t with cur := .hw }))
    ∧ (leNat b % 4 ≠ 3 → ∀ w, rvExpand (BitVec.ofNat 16 (leNat b)) = some w →
      let s3 := s1.setHart c h { s1.hart c h with len := 2 }
      (∀ i t, decodeValet w = some i → exec i s3 = .next t → step s = .next { t with cur := .hw })
      ∧ (∀ t, decodeValet w = none → rvBase c h w s3 = .next t → step s = .next { t with cur := .hw })))
  ∧ (∀ (s : State) (c n : Nat) (a : W64) (x : ICLine), 0 < n → a.toNat % 128 + n ≤ 128 →
    (nearPopulated a.toNat || inPool a.toNat) = true → (nearPopulated (a.toNat + n - 1) || inPool (a.toNat + n - 1)) = true →
    (s.core c).icache.find? (·.line = a.toNat / 128) = some x →
    ∃ t : State, hartFetch c 0 a n s = .bytes ((List.range n).map fun j => x.data.getD (a.toNat % 128 + j) 0) t ∧ t.mem = s.mem
      ∧ t.hart c 0 = s.hart c 0)
  ∧ (∀ (s t : State) (i : Instr), due s = some i → exec i { s with cur := .hw } = .next t → step s = .next { t with cur := .hw })

/-- What the module holds right after reset. R82, R480, R437, R65, R32: at module reset TICK is 0, the measurement registers are
zero, no fibre and no gang exists, no word is registered, no cache or TLB of any core holds anything, every forwarding entry
reads 0, and memory is in its canonical form. (What a byte that nothing has written reads is the model's choice, log 1.) -/
def Obligations.ResetState : Prop :=
  State.reset.tick = 0 ∧ State.reset.mr = List.replicate 8 0 ∧ State.reset.fibs = [] ∧ State.reset.gangs = []
  ∧ State.reset.owners = [] ∧ State.reset.net = [] ∧ memInv State.reset
  ∧ ∀ c, (State.reset.core c).l1 = [] ∧ (State.reset.core c).tlb = [] ∧ (State.reset.core c).icache = []
    ∧ (State.reset.core c).bcut = 0 ∧ (State.reset.core c).gated = false
  ∧ ∀ d, (State.reset.dom d).fwl = [] ∧ (State.reset.dom d).rpctl = 0x1_0032

/-- Every step keeps every memory in its canonical form. The invariant of every memory operation: a step from a state whose
memories are in canonical form (addresses strictly rising, no listed byte equal to what an unlisted one reads) leaves them
so. The form is the model's; that R37's bytes are each in one place rests on it. -/
def Obligations.MemoryCanonicalKept : Prop :=
  ∀ s t : State, memInv s → step s = .next t → memInv t

/-- No word of a fibre or hart ends the run. R408, R234, R398: whatever a fibre's word or a hart's word meets, the machine goes
on. A scalar word run for a fibre, a lane word run for a fibre with a stitch, and a valet word run for a hart each answer a
next state: they complete, wait, stop their fibre with a record, or take an exception, and none is refused. -/
def Obligations.WordsGoOn : Prop :=
  (∀ (i : Instr) (w : BitVec 32) (s : State) (k : FKey) (f : Fib), encode i = .scalar w → s.cur = .scalar k → s.fib? k = some f →
    ∃ t, exec i s = .next t)
  ∧ (∀ (i : Instr) (w : BitVec 96) (s : State) (k : FKey) (f : Fib) (x : Stitch) (l : List Stitch), encode i = .lane w →
    s.cur = .lane k → s.fib? k = some f → f.stitches = x :: l → ∃ t, exec i s = .next t)
  ∧ (∀ (i : Instr) (w : BitVec 32) (s : State) (c h : Nat), encode i = .valet w → s.cur = .hart c h → ∃ t, exec i s = .next t)

/-- What the scalar register words leave unchanged, whatever becomes of them. R243, R262, R264 to R275, R284, R285: what a scalar
word of the register families leaves alone whether it completes, waits or stops: memory, registration, gangs, every other
fibre, every vector register and tag, the counters LD, ST, PR, SAC and RW, every scalar register but the ones the word
writes, and JFLAGS, JORD, RMODE and LCB unless the word is sset. -/
def Obligations.RegisterWordFrame : Prop :=
  ∀ (i : Instr) (ds : List Nat) (s t : State) (k : FKey) (f g : Fib), scalarWrites i = some ds → s.cur = .scalar k →
    s.fib? k = some f → exec i s = .next t → t.fib? k = some g →
    (∀ a, t.curByte a = s.curByte a) ∧ t.mem = s.mem ∧ t.owners = s.owners ∧ t.gangs = s.gangs ∧ t.net = s.net
    ∧ (∀ j, j ≠ k → t.fib? j = s.fib? j)
    ∧ g.vregs = f.vregs ∧ g.tags = f.tags ∧ t.spools = s.spools
    ∧ g.ld = f.ld ∧ g.stc = f.stc ∧ g.pr = f.pr ∧ g.sac = f.sac ∧ g.rw = f.rw
    ∧ (∀ n, n ∉ ds → g.sreg n = f.sreg n)
    ∧ ((∀ n a, i ≠ .sset n a) → g.jflags = f.jflags ∧ g.jord = f.jord ∧ g.rmode = f.rmode ∧ g.lcb = f.lcb)
end

