-- ==== Sys2Proof/Laws/Decode.lean ====
section
/-! SUPPORT. Reading a field of a concatenation, and the decoders on the words the encoders make. -/
namespace Sys2Proof

/-- A field that lies in the higher part of a word. -/
theorem ext_append_hi {n m k : Nat} (x : BitVec n) (y : BitVec m) (s : Nat) (h : m ≤ s) :
    (x ++ y).extractLsb' s k = x.extractLsb' (s - m) k := by
  ext i hi
  simp only [BitVec.getElem_extractLsb', BitVec.getLsbD_append]
  rw [if_neg (by omega)]
  congr 1; omega

/-- A field that lies in the lower part of a word. -/
theorem ext_append_lo {n m k : Nat} (x : BitVec n) (y : BitVec m) (s : Nat) (h : s + k ≤ m) :
    (x ++ y).extractLsb' s k = y.extractLsb' s k := by
  ext i hi
  simp only [BitVec.getElem_extractLsb', BitVec.getLsbD_append]
  rw [if_pos (by omega)]

/-- A field that lies in both parts of a word, compared with a value. -/
theorem ext_append_mid {n m k : Nat} (x : BitVec n) (y : BitVec m) (s : Nat) (c : BitVec k) (h : s < m ∧ m < s + k) :
    (x ++ y).extractLsb' s k = c ↔
      x.extractLsb' 0 (s + k - m) = c.extractLsb' (m - s) (s + k - m) ∧ y.extractLsb' s (m - s) = c.extractLsb' 0 (m - s) := by
  constructor
  · rintro rfl
    constructor <;> ext i hi <;> simp only [BitVec.getElem_extractLsb', BitVec.getLsbD_extractLsb', BitVec.getLsbD_append]
    · rw [if_neg (by omega)]
      simp only [decide_eq_true (show m - s + i < k by omega), Bool.true_and]
      congr 1; omega
    · rw [if_pos (by omega)]
      simp [show i < k by omega]
  · rintro ⟨hx, hy⟩
    ext i hi
    simp only [BitVec.getElem_extractLsb', BitVec.getLsbD_append]
    split
    · have := congrArg (fun v => v.getLsbD i) hy
      simpa [BitVec.getLsbD_extractLsb', show i < m - s by omega, hi] using this
    · have := congrArg (fun v => v.getLsbD (i - (m - s))) hx
      simp only [BitVec.getLsbD_extractLsb', decide_eq_true (show i - (m - s) < s + k - m by omega), Bool.true_and] at this
      rw [show s + i - m = 0 + (i - (m - s)) by omega, this, show m - s + (i - (m - s)) = i by omega, BitVec.getLsbD_eq_getElem hi]

/-- The three low bits of a word that ends in a field of two bits and one of one bit. -/
theorem ext_append_low3 {n : Nat} (x : BitVec n) (y : BitVec 2) (z : BitVec 1) : (x ++ y ++ z).extractLsb' 0 3 = y ++ z := by
  apply BitVec.eq_of_getLsbD_eq
  intro i hi
  simp only [BitVec.getLsbD_extractLsb', BitVec.getLsbD_append]
  have : i = 0 ∨ i = 1 ∨ i = 2 := by omega
  rcases this with rfl | rfl | rfl <;> simp

/-- One bit of the higher part of a word. -/
theorem bit_append_hi {n m : Nat} (x : BitVec n) (y : BitVec m) (s : Nat) (h : m ≤ s) : (x ++ y).getLsbD s = x.getLsbD (s - m) := by
  rw [BitVec.getLsbD_append, if_neg (by omega)]

/-- One bit of the lower part of a word. -/
theorem bit_append_lo {n m : Nat} (x : BitVec n) (y : BitVec m) (s : Nat) (h : s < m) : (x ++ y).getLsbD s = y.getLsbD s := by
  rw [BitVec.getLsbD_append, if_pos h]

/-- A well-formed row of an assigned scalar major is what its word decodes to. -/
theorem decodeScalar_of {w : BitVec 32} {i : Instr} (m : Nat) (hm : (w.extractLsb' 26 6).toNat = m) (h : m < 0x28)
    (hr : scalarRow w = some i) (hw : i.wf = true) : decodeScalar w = .ok i := by
  simp only [decodeScalar, hm, hr, hw]
  rw [if_neg (by omega), if_neg (by omega)]; rfl

/-- A well-formed custom word is what it decodes to. -/
theorem decodeValet_custom {w : BitVec 32} {i : Instr} (h : w.extractLsb' 0 7 = 0x0B ∨ w.extractLsb' 0 7 = 0x2B)
    (hr : valetCustom w = some i) (hw : i.wf = true) : decodeValet w = some i := by
  have e : ∀ c : BitVec 7, c ≠ 0x0B → c ≠ 0x2B → w.extractLsb' 0 7 ≠ c := by
    rintro c h1 h2 rfl; exact h.elim h1 h2
  simp only [decodeValet]
  rw [if_neg (e _ (by decide) (by decide)), if_neg (e _ (by decide) (by decide)), if_neg fun x => e _ (by decide) (by decide) x.1,
    if_neg fun x => e _ (by decide) (by decide) x.1, if_neg fun x => e _ (by decide) (by decide) x.1, hr]
  simp [hw]

/-- The fields of a lane word are those it was made of (R244). -/
theorem laneFields_encLane (op : BitVec 8) (l : LaneWord) : laneFields (encLane op l) = l := by
  cases l
  simp (disch := decide) only [laneFields, encLane, ext_append_hi, ext_append_lo, bit_append_hi, bit_append_lo, Nat.reduceSub]
  simp

/-- The OP of a lane word is the one it was made of (R244). -/
theorem op_encLane (op : BitVec 8) (l : LaneWord) : (encLane op l).extractLsb' 88 8 = op := by
  simp (disch := decide) only [encLane, ext_append_hi, Nat.reduceSub]
  simp

/-- A row of an OP is what its lane word decodes to. -/
theorem decodeLane_encLane {op : BitVec 8} {l : LaneWord} {i : Instr} (h : op.toNat < 0xA0) (hr : laneRow op.toNat l = some i) :
    decodeLane (encLane op l) = .ok i := by
  simp only [decodeLane, op_encLane, laneFields_encLane, hr]
  rw [if_neg (by omega)]

end Sys2Proof
end

