-- ==== Sys2Proof/Laws/State.lean ====
section
/-! SUPPORT. What each update of the state leaves unchanged, one lemma per field and update, and what a table holds after an
 update. -/
namespace Sys2Proof.Machine

/-! ### setCore -/
@[simp] theorem setCore_tick (s : State) (c : Nat) (v : Core) : (s.setCore c v).tick = s.tick := rfl
@[simp] theorem setCore_mem (s : State) (c : Nat) (v : Core) : (s.setCore c v).mem = s.mem := rfl
@[simp] theorem setCore_poison (s : State) (c : Nat) (v : Core) : (s.setCore c v).poison = s.poison := rfl
@[simp] theorem setCore_owners (s : State) (c : Nat) (v : Core) : (s.setCore c v).owners = s.owners := rfl
@[simp] theorem setCore_acts (s : State) (c : Nat) (v : Core) : (s.setCore c v).acts = s.acts := rfl
@[simp] theorem setCore_homeQ (s : State) (c : Nat) (v : Core) : (s.setCore c v).homeQ = s.homeQ := rfl
@[simp] theorem setCore_fills (s : State) (c : Nat) (v : Core) : (s.setCore c v).fills = s.fills := rfl
@[simp] theorem setCore_net (s : State) (c : Nat) (v : Core) : (s.setCore c v).net = s.net := rfl
@[simp] theorem setCore_fibs (s : State) (c : Nat) (v : Core) : (s.setCore c v).fibs = s.fibs := rfl
@[simp] theorem setCore_spools (s : State) (c : Nat) (v : Core) : (s.setCore c v).spools = s.spools := rfl
@[simp] theorem setCore_blocks (s : State) (c : Nat) (v : Core) : (s.setCore c v).blocks = s.blocks := rfl
@[simp] theorem setCore_harts (s : State) (c : Nat) (v : Core) : (s.setCore c v).harts = s.harts := rfl
@[simp] theorem setCore_gangs (s : State) (c : Nat) (v : Core) : (s.setCore c v).gangs = s.gangs := rfl
@[simp] theorem setCore_dies (s : State) (c : Nat) (v : Core) : (s.setCore c v).dies = s.dies := rfl
@[simp] theorem setCore_doms (s : State) (c : Nat) (v : Core) : (s.setCore c v).doms = s.doms := rfl
@[simp] theorem setCore_copies (s : State) (c : Nat) (v : Core) : (s.setCore c v).copies = s.copies := rfl
@[simp] theorem setCore_hamp (s : State) (c : Nat) (v : Core) : (s.setCore c v).hamp = s.hamp := rfl
@[simp] theorem setCore_pkg (s : State) (c : Nat) (v : Core) : (s.setCore c v).pkg = s.pkg := rfl
@[simp] theorem setCore_mr (s : State) (c : Nat) (v : Core) : (s.setCore c v).mr = s.mr := rfl
@[simp] theorem setCore_cfgOk (s : State) (c : Nat) (v : Core) : (s.setCore c v).cfgOk = s.cfgOk := rfl
@[simp] theorem setCore_cfgDigest (s : State) (c : Nat) (v : Core) : (s.setCore c v).cfgDigest = s.cfgDigest := rfl
@[simp] theorem setCore_powerLimit (s : State) (c : Nat) (v : Core) : (s.setCore c v).powerLimit = s.powerLimit := rfl
@[simp] theorem setCore_linksUp (s : State) (c : Nat) (v : Core) : (s.setCore c v).linksUp = s.linksUp := rfl
@[simp] theorem setCore_linkErr (s : State) (c : Nat) (v : Core) : (s.setCore c v).linkErr = s.linkErr := rfl
@[simp] theorem setCore_ports (s : State) (c : Nat) (v : Core) : (s.setCore c v).ports = s.ports := rfl
@[simp] theorem setCore_ext (s : State) (c : Nat) (v : Core) : (s.setCore c v).ext = s.ext := rfl
@[simp] theorem setCore_sent (s : State) (c : Nat) (v : Core) : (s.setCore c v).sent = s.sent := rfl
@[simp] theorem setCore_attest (s : State) (c : Nat) (v : Core) : (s.setCore c v).attest = s.attest := rfl
@[simp] theorem setCore_report (s : State) (c : Nat) (v : Core) : (s.setCore c v).report = s.report := rfl
@[simp] theorem setCore_linkTags (s : State) (c : Nat) (v : Core) : (s.setCore c v).linkTags = s.linkTags := rfl
@[simp] theorem setCore_cur (s : State) (c : Nat) (v : Core) : (s.setCore c v).cur = s.cur := rfl
@[simp] theorem setCore_agenda (s : State) (c : Nat) (v : Core) : (s.setCore c v).agenda = s.agenda := rfl
@[simp] theorem setCore_freeCtr (s : State) (c : Nat) (v : Core) : (s.setCore c v).freeCtr = s.freeCtr := rfl
@[simp] theorem setCore_nextId (s : State) (c : Nat) (v : Core) : (s.setCore c v).nextId = s.nextId := rfl

/-! ### setDom -/
@[simp] theorem setDom_tick (s : State) (d : Nat) (v : Dom) : (s.setDom d v).tick = s.tick := rfl
@[simp] theorem setDom_mem (s : State) (d : Nat) (v : Dom) : (s.setDom d v).mem = s.mem := rfl
@[simp] theorem setDom_poison (s : State) (d : Nat) (v : Dom) : (s.setDom d v).poison = s.poison := rfl
@[simp] theorem setDom_owners (s : State) (d : Nat) (v : Dom) : (s.setDom d v).owners = s.owners := rfl
@[simp] theorem setDom_acts (s : State) (d : Nat) (v : Dom) : (s.setDom d v).acts = s.acts := rfl
@[simp] theorem setDom_homeQ (s : State) (d : Nat) (v : Dom) : (s.setDom d v).homeQ = s.homeQ := rfl
@[simp] theorem setDom_fills (s : State) (d : Nat) (v : Dom) : (s.setDom d v).fills = s.fills := rfl
@[simp] theorem setDom_net (s : State) (d : Nat) (v : Dom) : (s.setDom d v).net = s.net := rfl
@[simp] theorem setDom_cores (s : State) (d : Nat) (v : Dom) : (s.setDom d v).cores = s.cores := rfl
@[simp] theorem setDom_fibs (s : State) (d : Nat) (v : Dom) : (s.setDom d v).fibs = s.fibs := rfl
@[simp] theorem setDom_spools (s : State) (d : Nat) (v : Dom) : (s.setDom d v).spools = s.spools := rfl
@[simp] theorem setDom_blocks (s : State) (d : Nat) (v : Dom) : (s.setDom d v).blocks = s.blocks := rfl
@[simp] theorem setDom_harts (s : State) (d : Nat) (v : Dom) : (s.setDom d v).harts = s.harts := rfl
@[simp] theorem setDom_gangs (s : State) (d : Nat) (v : Dom) : (s.setDom d v).gangs = s.gangs := rfl
@[simp] theorem setDom_dies (s : State) (d : Nat) (v : Dom) : (s.setDom d v).dies = s.dies := rfl
@[simp] theorem setDom_copies (s : State) (d : Nat) (v : Dom) : (s.setDom d v).copies = s.copies := rfl
@[simp] theorem setDom_hamp (s : State) (d : Nat) (v : Dom) : (s.setDom d v).hamp = s.hamp := rfl
@[simp] theorem setDom_pkg (s : State) (d : Nat) (v : Dom) : (s.setDom d v).pkg = s.pkg := rfl
@[simp] theorem setDom_mr (s : State) (d : Nat) (v : Dom) : (s.setDom d v).mr = s.mr := rfl
@[simp] theorem setDom_cfgOk (s : State) (d : Nat) (v : Dom) : (s.setDom d v).cfgOk = s.cfgOk := rfl
@[simp] theorem setDom_cfgDigest (s : State) (d : Nat) (v : Dom) : (s.setDom d v).cfgDigest = s.cfgDigest := rfl
@[simp] theorem setDom_powerLimit (s : State) (d : Nat) (v : Dom) : (s.setDom d v).powerLimit = s.powerLimit := rfl
@[simp] theorem setDom_linksUp (s : State) (d : Nat) (v : Dom) : (s.setDom d v).linksUp = s.linksUp := rfl
@[simp] theorem setDom_linkErr (s : State) (d : Nat) (v : Dom) : (s.setDom d v).linkErr = s.linkErr := rfl
@[simp] theorem setDom_ports (s : State) (d : Nat) (v : Dom) : (s.setDom d v).ports = s.ports := rfl
@[simp] theorem setDom_ext (s : State) (d : Nat) (v : Dom) : (s.setDom d v).ext = s.ext := rfl
@[simp] theorem setDom_sent (s : State) (d : Nat) (v : Dom) : (s.setDom d v).sent = s.sent := rfl
@[simp] theorem setDom_attest (s : State) (d : Nat) (v : Dom) : (s.setDom d v).attest = s.attest := rfl
@[simp] theorem setDom_report (s : State) (d : Nat) (v : Dom) : (s.setDom d v).report = s.report := rfl
@[simp] theorem setDom_linkTags (s : State) (d : Nat) (v : Dom) : (s.setDom d v).linkTags = s.linkTags := rfl
@[simp] theorem setDom_cur (s : State) (d : Nat) (v : Dom) : (s.setDom d v).cur = s.cur := rfl
@[simp] theorem setDom_agenda (s : State) (d : Nat) (v : Dom) : (s.setDom d v).agenda = s.agenda := rfl
@[simp] theorem setDom_freeCtr (s : State) (d : Nat) (v : Dom) : (s.setDom d v).freeCtr = s.freeCtr := rfl
@[simp] theorem setDom_nextId (s : State) (d : Nat) (v : Dom) : (s.setDom d v).nextId = s.nextId := rfl

/-! ### setDie -/
@[simp] theorem setDie_tick (s : State) (d : Nat) (v : Die) : (s.setDie d v).tick = s.tick := rfl
@[simp] theorem setDie_mem (s : State) (d : Nat) (v : Die) : (s.setDie d v).mem = s.mem := rfl
@[simp] theorem setDie_poison (s : State) (d : Nat) (v : Die) : (s.setDie d v).poison = s.poison := rfl
@[simp] theorem setDie_owners (s : State) (d : Nat) (v : Die) : (s.setDie d v).owners = s.owners := rfl
@[simp] theorem setDie_acts (s : State) (d : Nat) (v : Die) : (s.setDie d v).acts = s.acts := rfl
@[simp] theorem setDie_homeQ (s : State) (d : Nat) (v : Die) : (s.setDie d v).homeQ = s.homeQ := rfl
@[simp] theorem setDie_fills (s : State) (d : Nat) (v : Die) : (s.setDie d v).fills = s.fills := rfl
@[simp] theorem setDie_net (s : State) (d : Nat) (v : Die) : (s.setDie d v).net = s.net := rfl
@[simp] theorem setDie_cores (s : State) (d : Nat) (v : Die) : (s.setDie d v).cores = s.cores := rfl
@[simp] theorem setDie_fibs (s : State) (d : Nat) (v : Die) : (s.setDie d v).fibs = s.fibs := rfl
@[simp] theorem setDie_spools (s : State) (d : Nat) (v : Die) : (s.setDie d v).spools = s.spools := rfl
@[simp] theorem setDie_blocks (s : State) (d : Nat) (v : Die) : (s.setDie d v).blocks = s.blocks := rfl
@[simp] theorem setDie_harts (s : State) (d : Nat) (v : Die) : (s.setDie d v).harts = s.harts := rfl
@[simp] theorem setDie_gangs (s : State) (d : Nat) (v : Die) : (s.setDie d v).gangs = s.gangs := rfl
@[simp] theorem setDie_doms (s : State) (d : Nat) (v : Die) : (s.setDie d v).doms = s.doms := rfl
@[simp] theorem setDie_copies (s : State) (d : Nat) (v : Die) : (s.setDie d v).copies = s.copies := rfl
@[simp] theorem setDie_hamp (s : State) (d : Nat) (v : Die) : (s.setDie d v).hamp = s.hamp := rfl
@[simp] theorem setDie_pkg (s : State) (d : Nat) (v : Die) : (s.setDie d v).pkg = s.pkg := rfl
@[simp] theorem setDie_mr (s : State) (d : Nat) (v : Die) : (s.setDie d v).mr = s.mr := rfl
@[simp] theorem setDie_cfgOk (s : State) (d : Nat) (v : Die) : (s.setDie d v).cfgOk = s.cfgOk := rfl
@[simp] theorem setDie_cfgDigest (s : State) (d : Nat) (v : Die) : (s.setDie d v).cfgDigest = s.cfgDigest := rfl
@[simp] theorem setDie_powerLimit (s : State) (d : Nat) (v : Die) : (s.setDie d v).powerLimit = s.powerLimit := rfl
@[simp] theorem setDie_linksUp (s : State) (d : Nat) (v : Die) : (s.setDie d v).linksUp = s.linksUp := rfl
@[simp] theorem setDie_linkErr (s : State) (d : Nat) (v : Die) : (s.setDie d v).linkErr = s.linkErr := rfl
@[simp] theorem setDie_ports (s : State) (d : Nat) (v : Die) : (s.setDie d v).ports = s.ports := rfl
@[simp] theorem setDie_ext (s : State) (d : Nat) (v : Die) : (s.setDie d v).ext = s.ext := rfl
@[simp] theorem setDie_sent (s : State) (d : Nat) (v : Die) : (s.setDie d v).sent = s.sent := rfl
@[simp] theorem setDie_attest (s : State) (d : Nat) (v : Die) : (s.setDie d v).attest = s.attest := rfl
@[simp] theorem setDie_report (s : State) (d : Nat) (v : Die) : (s.setDie d v).report = s.report := rfl
@[simp] theorem setDie_linkTags (s : State) (d : Nat) (v : Die) : (s.setDie d v).linkTags = s.linkTags := rfl
@[simp] theorem setDie_cur (s : State) (d : Nat) (v : Die) : (s.setDie d v).cur = s.cur := rfl
@[simp] theorem setDie_agenda (s : State) (d : Nat) (v : Die) : (s.setDie d v).agenda = s.agenda := rfl
@[simp] theorem setDie_freeCtr (s : State) (d : Nat) (v : Die) : (s.setDie d v).freeCtr = s.freeCtr := rfl
@[simp] theorem setDie_nextId (s : State) (d : Nat) (v : Die) : (s.setDie d v).nextId = s.nextId := rfl

/-! ### setFib -/
@[simp] theorem setFib_tick (s : State) (k : FKey) (f : Fib) : (s.setFib k f).tick = s.tick := rfl
@[simp] theorem setFib_mem (s : State) (k : FKey) (f : Fib) : (s.setFib k f).mem = s.mem := rfl
@[simp] theorem setFib_poison (s : State) (k : FKey) (f : Fib) : (s.setFib k f).poison = s.poison := rfl
@[simp] theorem setFib_owners (s : State) (k : FKey) (f : Fib) : (s.setFib k f).owners = s.owners := rfl
@[simp] theorem setFib_acts (s : State) (k : FKey) (f : Fib) : (s.setFib k f).acts = s.acts := rfl
@[simp] theorem setFib_homeQ (s : State) (k : FKey) (f : Fib) : (s.setFib k f).homeQ = s.homeQ := rfl
@[simp] theorem setFib_fills (s : State) (k : FKey) (f : Fib) : (s.setFib k f).fills = s.fills := rfl
@[simp] theorem setFib_net (s : State) (k : FKey) (f : Fib) : (s.setFib k f).net = s.net := rfl
@[simp] theorem setFib_cores (s : State) (k : FKey) (f : Fib) : (s.setFib k f).cores = s.cores := rfl
@[simp] theorem setFib_spools (s : State) (k : FKey) (f : Fib) : (s.setFib k f).spools = s.spools := rfl
@[simp] theorem setFib_blocks (s : State) (k : FKey) (f : Fib) : (s.setFib k f).blocks = s.blocks := rfl
@[simp] theorem setFib_harts (s : State) (k : FKey) (f : Fib) : (s.setFib k f).harts = s.harts := rfl
@[simp] theorem setFib_gangs (s : State) (k : FKey) (f : Fib) : (s.setFib k f).gangs = s.gangs := rfl
@[simp] theorem setFib_dies (s : State) (k : FKey) (f : Fib) : (s.setFib k f).dies = s.dies := rfl
@[simp] theorem setFib_doms (s : State) (k : FKey) (f : Fib) : (s.setFib k f).doms = s.doms := rfl
@[simp] theorem setFib_copies (s : State) (k : FKey) (f : Fib) : (s.setFib k f).copies = s.copies := rfl
@[simp] theorem setFib_hamp (s : State) (k : FKey) (f : Fib) : (s.setFib k f).hamp = s.hamp := rfl
@[simp] theorem setFib_pkg (s : State) (k : FKey) (f : Fib) : (s.setFib k f).pkg = s.pkg := rfl
@[simp] theorem setFib_mr (s : State) (k : FKey) (f : Fib) : (s.setFib k f).mr = s.mr := rfl
@[simp] theorem setFib_cfgOk (s : State) (k : FKey) (f : Fib) : (s.setFib k f).cfgOk = s.cfgOk := rfl
@[simp] theorem setFib_cfgDigest (s : State) (k : FKey) (f : Fib) : (s.setFib k f).cfgDigest = s.cfgDigest := rfl
@[simp] theorem setFib_powerLimit (s : State) (k : FKey) (f : Fib) : (s.setFib k f).powerLimit = s.powerLimit := rfl
@[simp] theorem setFib_linksUp (s : State) (k : FKey) (f : Fib) : (s.setFib k f).linksUp = s.linksUp := rfl
@[simp] theorem setFib_linkErr (s : State) (k : FKey) (f : Fib) : (s.setFib k f).linkErr = s.linkErr := rfl
@[simp] theorem setFib_ports (s : State) (k : FKey) (f : Fib) : (s.setFib k f).ports = s.ports := rfl
@[simp] theorem setFib_ext (s : State) (k : FKey) (f : Fib) : (s.setFib k f).ext = s.ext := rfl
@[simp] theorem setFib_sent (s : State) (k : FKey) (f : Fib) : (s.setFib k f).sent = s.sent := rfl
@[simp] theorem setFib_attest (s : State) (k : FKey) (f : Fib) : (s.setFib k f).attest = s.attest := rfl
@[simp] theorem setFib_report (s : State) (k : FKey) (f : Fib) : (s.setFib k f).report = s.report := rfl
@[simp] theorem setFib_linkTags (s : State) (k : FKey) (f : Fib) : (s.setFib k f).linkTags = s.linkTags := rfl
@[simp] theorem setFib_cur (s : State) (k : FKey) (f : Fib) : (s.setFib k f).cur = s.cur := rfl
@[simp] theorem setFib_agenda (s : State) (k : FKey) (f : Fib) : (s.setFib k f).agenda = s.agenda := rfl
@[simp] theorem setFib_freeCtr (s : State) (k : FKey) (f : Fib) : (s.setFib k f).freeCtr = s.freeCtr := rfl
@[simp] theorem setFib_nextId (s : State) (k : FKey) (f : Fib) : (s.setFib k f).nextId = s.nextId := rfl

/-! ### setSpool -/
@[simp] theorem setSpool_tick (s : State) (k : FKey) (v : Spool) : (s.setSpool k v).tick = s.tick := rfl
@[simp] theorem setSpool_mem (s : State) (k : FKey) (v : Spool) : (s.setSpool k v).mem = s.mem := rfl
@[simp] theorem setSpool_poison (s : State) (k : FKey) (v : Spool) : (s.setSpool k v).poison = s.poison := rfl
@[simp] theorem setSpool_owners (s : State) (k : FKey) (v : Spool) : (s.setSpool k v).owners = s.owners := rfl
@[simp] theorem setSpool_acts (s : State) (k : FKey) (v : Spool) : (s.setSpool k v).acts = s.acts := rfl
@[simp] theorem setSpool_homeQ (s : State) (k : FKey) (v : Spool) : (s.setSpool k v).homeQ = s.homeQ := rfl
@[simp] theorem setSpool_fills (s : State) (k : FKey) (v : Spool) : (s.setSpool k v).fills = s.fills := rfl
@[simp] theorem setSpool_net (s : State) (k : FKey) (v : Spool) : (s.setSpool k v).net = s.net := rfl
@[simp] theorem setSpool_cores (s : State) (k : FKey) (v : Spool) : (s.setSpool k v).cores = s.cores := rfl
@[simp] theorem setSpool_fibs (s : State) (k : FKey) (v : Spool) : (s.setSpool k v).fibs = s.fibs := rfl
@[simp] theorem setSpool_blocks (s : State) (k : FKey) (v : Spool) : (s.setSpool k v).blocks = s.blocks := rfl
@[simp] theorem setSpool_harts (s : State) (k : FKey) (v : Spool) : (s.setSpool k v).harts = s.harts := rfl
@[simp] theorem setSpool_gangs (s : State) (k : FKey) (v : Spool) : (s.setSpool k v).gangs = s.gangs := rfl
@[simp] theorem setSpool_dies (s : State) (k : FKey) (v : Spool) : (s.setSpool k v).dies = s.dies := rfl
@[simp] theorem setSpool_doms (s : State) (k : FKey) (v : Spool) : (s.setSpool k v).doms = s.doms := rfl
@[simp] theorem setSpool_copies (s : State) (k : FKey) (v : Spool) : (s.setSpool k v).copies = s.copies := rfl
@[simp] theorem setSpool_hamp (s : State) (k : FKey) (v : Spool) : (s.setSpool k v).hamp = s.hamp := rfl
@[simp] theorem setSpool_pkg (s : State) (k : FKey) (v : Spool) : (s.setSpool k v).pkg = s.pkg := rfl
@[simp] theorem setSpool_mr (s : State) (k : FKey) (v : Spool) : (s.setSpool k v).mr = s.mr := rfl
@[simp] theorem setSpool_cfgOk (s : State) (k : FKey) (v : Spool) : (s.setSpool k v).cfgOk = s.cfgOk := rfl
@[simp] theorem setSpool_cfgDigest (s : State) (k : FKey) (v : Spool) : (s.setSpool k v).cfgDigest = s.cfgDigest := rfl
@[simp] theorem setSpool_powerLimit (s : State) (k : FKey) (v : Spool) : (s.setSpool k v).powerLimit = s.powerLimit := rfl
@[simp] theorem setSpool_linksUp (s : State) (k : FKey) (v : Spool) : (s.setSpool k v).linksUp = s.linksUp := rfl
@[simp] theorem setSpool_linkErr (s : State) (k : FKey) (v : Spool) : (s.setSpool k v).linkErr = s.linkErr := rfl
@[simp] theorem setSpool_ports (s : State) (k : FKey) (v : Spool) : (s.setSpool k v).ports = s.ports := rfl
@[simp] theorem setSpool_ext (s : State) (k : FKey) (v : Spool) : (s.setSpool k v).ext = s.ext := rfl
@[simp] theorem setSpool_sent (s : State) (k : FKey) (v : Spool) : (s.setSpool k v).sent = s.sent := rfl
@[simp] theorem setSpool_attest (s : State) (k : FKey) (v : Spool) : (s.setSpool k v).attest = s.attest := rfl
@[simp] theorem setSpool_report (s : State) (k : FKey) (v : Spool) : (s.setSpool k v).report = s.report := rfl
@[simp] theorem setSpool_linkTags (s : State) (k : FKey) (v : Spool) : (s.setSpool k v).linkTags = s.linkTags := rfl
@[simp] theorem setSpool_cur (s : State) (k : FKey) (v : Spool) : (s.setSpool k v).cur = s.cur := rfl
@[simp] theorem setSpool_agenda (s : State) (k : FKey) (v : Spool) : (s.setSpool k v).agenda = s.agenda := rfl
@[simp] theorem setSpool_freeCtr (s : State) (k : FKey) (v : Spool) : (s.setSpool k v).freeCtr = s.freeCtr := rfl
@[simp] theorem setSpool_nextId (s : State) (k : FKey) (v : Spool) : (s.setSpool k v).nextId = s.nextId := rfl

/-! ### setBlock -/
@[simp] theorem setBlock_tick (s : State) (d b : Nat) (v : Block) : (s.setBlock d b v).tick = s.tick := rfl
@[simp] theorem setBlock_mem (s : State) (d b : Nat) (v : Block) : (s.setBlock d b v).mem = s.mem := rfl
@[simp] theorem setBlock_poison (s : State) (d b : Nat) (v : Block) : (s.setBlock d b v).poison = s.poison := rfl
@[simp] theorem setBlock_owners (s : State) (d b : Nat) (v : Block) : (s.setBlock d b v).owners = s.owners := rfl
@[simp] theorem setBlock_acts (s : State) (d b : Nat) (v : Block) : (s.setBlock d b v).acts = s.acts := rfl
@[simp] theorem setBlock_homeQ (s : State) (d b : Nat) (v : Block) : (s.setBlock d b v).homeQ = s.homeQ := rfl
@[simp] theorem setBlock_fills (s : State) (d b : Nat) (v : Block) : (s.setBlock d b v).fills = s.fills := rfl
@[simp] theorem setBlock_net (s : State) (d b : Nat) (v : Block) : (s.setBlock d b v).net = s.net := rfl
@[simp] theorem setBlock_cores (s : State) (d b : Nat) (v : Block) : (s.setBlock d b v).cores = s.cores := rfl
@[simp] theorem setBlock_fibs (s : State) (d b : Nat) (v : Block) : (s.setBlock d b v).fibs = s.fibs := rfl
@[simp] theorem setBlock_spools (s : State) (d b : Nat) (v : Block) : (s.setBlock d b v).spools = s.spools := rfl
@[simp] theorem setBlock_harts (s : State) (d b : Nat) (v : Block) : (s.setBlock d b v).harts = s.harts := rfl
@[simp] theorem setBlock_gangs (s : State) (d b : Nat) (v : Block) : (s.setBlock d b v).gangs = s.gangs := rfl
@[simp] theorem setBlock_dies (s : State) (d b : Nat) (v : Block) : (s.setBlock d b v).dies = s.dies := rfl
@[simp] theorem setBlock_doms (s : State) (d b : Nat) (v : Block) : (s.setBlock d b v).doms = s.doms := rfl
@[simp] theorem setBlock_copies (s : State) (d b : Nat) (v : Block) : (s.setBlock d b v).copies = s.copies := rfl
@[simp] theorem setBlock_hamp (s : State) (d b : Nat) (v : Block) : (s.setBlock d b v).hamp = s.hamp := rfl
@[simp] theorem setBlock_pkg (s : State) (d b : Nat) (v : Block) : (s.setBlock d b v).pkg = s.pkg := rfl
@[simp] theorem setBlock_mr (s : State) (d b : Nat) (v : Block) : (s.setBlock d b v).mr = s.mr := rfl
@[simp] theorem setBlock_cfgOk (s : State) (d b : Nat) (v : Block) : (s.setBlock d b v).cfgOk = s.cfgOk := rfl
@[simp] theorem setBlock_cfgDigest (s : State) (d b : Nat) (v : Block) : (s.setBlock d b v).cfgDigest = s.cfgDigest := rfl
@[simp] theorem setBlock_powerLimit (s : State) (d b : Nat) (v : Block) : (s.setBlock d b v).powerLimit = s.powerLimit := rfl
@[simp] theorem setBlock_linksUp (s : State) (d b : Nat) (v : Block) : (s.setBlock d b v).linksUp = s.linksUp := rfl
@[simp] theorem setBlock_linkErr (s : State) (d b : Nat) (v : Block) : (s.setBlock d b v).linkErr = s.linkErr := rfl
@[simp] theorem setBlock_ports (s : State) (d b : Nat) (v : Block) : (s.setBlock d b v).ports = s.ports := rfl
@[simp] theorem setBlock_ext (s : State) (d b : Nat) (v : Block) : (s.setBlock d b v).ext = s.ext := rfl
@[simp] theorem setBlock_sent (s : State) (d b : Nat) (v : Block) : (s.setBlock d b v).sent = s.sent := rfl
@[simp] theorem setBlock_attest (s : State) (d b : Nat) (v : Block) : (s.setBlock d b v).attest = s.attest := rfl
@[simp] theorem setBlock_report (s : State) (d b : Nat) (v : Block) : (s.setBlock d b v).report = s.report := rfl
@[simp] theorem setBlock_linkTags (s : State) (d b : Nat) (v : Block) : (s.setBlock d b v).linkTags = s.linkTags := rfl
@[simp] theorem setBlock_cur (s : State) (d b : Nat) (v : Block) : (s.setBlock d b v).cur = s.cur := rfl
@[simp] theorem setBlock_agenda (s : State) (d b : Nat) (v : Block) : (s.setBlock d b v).agenda = s.agenda := rfl
@[simp] theorem setBlock_freeCtr (s : State) (d b : Nat) (v : Block) : (s.setBlock d b v).freeCtr = s.freeCtr := rfl
@[simp] theorem setBlock_nextId (s : State) (d b : Nat) (v : Block) : (s.setBlock d b v).nextId = s.nextId := rfl

/-! ### setHart -/
@[simp] theorem setHart_tick (s : State) (c h : Nat) (v : Hart) : (s.setHart c h v).tick = s.tick := rfl
@[simp] theorem setHart_mem (s : State) (c h : Nat) (v : Hart) : (s.setHart c h v).mem = s.mem := rfl
@[simp] theorem setHart_poison (s : State) (c h : Nat) (v : Hart) : (s.setHart c h v).poison = s.poison := rfl
@[simp] theorem setHart_owners (s : State) (c h : Nat) (v : Hart) : (s.setHart c h v).owners = s.owners := rfl
@[simp] theorem setHart_acts (s : State) (c h : Nat) (v : Hart) : (s.setHart c h v).acts = s.acts := rfl
@[simp] theorem setHart_homeQ (s : State) (c h : Nat) (v : Hart) : (s.setHart c h v).homeQ = s.homeQ := rfl
@[simp] theorem setHart_fills (s : State) (c h : Nat) (v : Hart) : (s.setHart c h v).fills = s.fills := rfl
@[simp] theorem setHart_net (s : State) (c h : Nat) (v : Hart) : (s.setHart c h v).net = s.net := rfl
@[simp] theorem setHart_cores (s : State) (c h : Nat) (v : Hart) : (s.setHart c h v).cores = s.cores := rfl
@[simp] theorem setHart_fibs (s : State) (c h : Nat) (v : Hart) : (s.setHart c h v).fibs = s.fibs := rfl
@[simp] theorem setHart_spools (s : State) (c h : Nat) (v : Hart) : (s.setHart c h v).spools = s.spools := rfl
@[simp] theorem setHart_blocks (s : State) (c h : Nat) (v : Hart) : (s.setHart c h v).blocks = s.blocks := rfl
@[simp] theorem setHart_gangs (s : State) (c h : Nat) (v : Hart) : (s.setHart c h v).gangs = s.gangs := rfl
@[simp] theorem setHart_dies (s : State) (c h : Nat) (v : Hart) : (s.setHart c h v).dies = s.dies := rfl
@[simp] theorem setHart_doms (s : State) (c h : Nat) (v : Hart) : (s.setHart c h v).doms = s.doms := rfl
@[simp] theorem setHart_copies (s : State) (c h : Nat) (v : Hart) : (s.setHart c h v).copies = s.copies := rfl
@[simp] theorem setHart_hamp (s : State) (c h : Nat) (v : Hart) : (s.setHart c h v).hamp = s.hamp := rfl
@[simp] theorem setHart_pkg (s : State) (c h : Nat) (v : Hart) : (s.setHart c h v).pkg = s.pkg := rfl
@[simp] theorem setHart_mr (s : State) (c h : Nat) (v : Hart) : (s.setHart c h v).mr = s.mr := rfl
@[simp] theorem setHart_cfgOk (s : State) (c h : Nat) (v : Hart) : (s.setHart c h v).cfgOk = s.cfgOk := rfl
@[simp] theorem setHart_cfgDigest (s : State) (c h : Nat) (v : Hart) : (s.setHart c h v).cfgDigest = s.cfgDigest := rfl
@[simp] theorem setHart_powerLimit (s : State) (c h : Nat) (v : Hart) : (s.setHart c h v).powerLimit = s.powerLimit := rfl
@[simp] theorem setHart_linksUp (s : State) (c h : Nat) (v : Hart) : (s.setHart c h v).linksUp = s.linksUp := rfl
@[simp] theorem setHart_linkErr (s : State) (c h : Nat) (v : Hart) : (s.setHart c h v).linkErr = s.linkErr := rfl
@[simp] theorem setHart_ports (s : State) (c h : Nat) (v : Hart) : (s.setHart c h v).ports = s.ports := rfl
@[simp] theorem setHart_ext (s : State) (c h : Nat) (v : Hart) : (s.setHart c h v).ext = s.ext := rfl
@[simp] theorem setHart_sent (s : State) (c h : Nat) (v : Hart) : (s.setHart c h v).sent = s.sent := rfl
@[simp] theorem setHart_attest (s : State) (c h : Nat) (v : Hart) : (s.setHart c h v).attest = s.attest := rfl
@[simp] theorem setHart_report (s : State) (c h : Nat) (v : Hart) : (s.setHart c h v).report = s.report := rfl
@[simp] theorem setHart_linkTags (s : State) (c h : Nat) (v : Hart) : (s.setHart c h v).linkTags = s.linkTags := rfl
@[simp] theorem setHart_cur (s : State) (c h : Nat) (v : Hart) : (s.setHart c h v).cur = s.cur := rfl
@[simp] theorem setHart_agenda (s : State) (c h : Nat) (v : Hart) : (s.setHart c h v).agenda = s.agenda := rfl
@[simp] theorem setHart_freeCtr (s : State) (c h : Nat) (v : Hart) : (s.setHart c h v).freeCtr = s.freeCtr := rfl
@[simp] theorem setHart_nextId (s : State) (c h : Nat) (v : Hart) : (s.setHart c h v).nextId = s.nextId := rfl

/-! ### setGang -/
@[simp] theorem setGang_tick (s : State) (v : Gang) : (s.setGang v).tick = s.tick := rfl
@[simp] theorem setGang_mem (s : State) (v : Gang) : (s.setGang v).mem = s.mem := rfl
@[simp] theorem setGang_poison (s : State) (v : Gang) : (s.setGang v).poison = s.poison := rfl
@[simp] theorem setGang_owners (s : State) (v : Gang) : (s.setGang v).owners = s.owners := rfl
@[simp] theorem setGang_acts (s : State) (v : Gang) : (s.setGang v).acts = s.acts := rfl
@[simp] theorem setGang_homeQ (s : State) (v : Gang) : (s.setGang v).homeQ = s.homeQ := rfl
@[simp] theorem setGang_fills (s : State) (v : Gang) : (s.setGang v).fills = s.fills := rfl
@[simp] theorem setGang_net (s : State) (v : Gang) : (s.setGang v).net = s.net := rfl
@[simp] theorem setGang_cores (s : State) (v : Gang) : (s.setGang v).cores = s.cores := rfl
@[simp] theorem setGang_fibs (s : State) (v : Gang) : (s.setGang v).fibs = s.fibs := rfl
@[simp] theorem setGang_spools (s : State) (v : Gang) : (s.setGang v).spools = s.spools := rfl
@[simp] theorem setGang_blocks (s : State) (v : Gang) : (s.setGang v).blocks = s.blocks := rfl
@[simp] theorem setGang_harts (s : State) (v : Gang) : (s.setGang v).harts = s.harts := rfl
@[simp] theorem setGang_dies (s : State) (v : Gang) : (s.setGang v).dies = s.dies := rfl
@[simp] theorem setGang_doms (s : State) (v : Gang) : (s.setGang v).doms = s.doms := rfl
@[simp] theorem setGang_copies (s : State) (v : Gang) : (s.setGang v).copies = s.copies := rfl
@[simp] theorem setGang_hamp (s : State) (v : Gang) : (s.setGang v).hamp = s.hamp := rfl
@[simp] theorem setGang_pkg (s : State) (v : Gang) : (s.setGang v).pkg = s.pkg := rfl
@[simp] theorem setGang_mr (s : State) (v : Gang) : (s.setGang v).mr = s.mr := rfl
@[simp] theorem setGang_cfgOk (s : State) (v : Gang) : (s.setGang v).cfgOk = s.cfgOk := rfl
@[simp] theorem setGang_cfgDigest (s : State) (v : Gang) : (s.setGang v).cfgDigest = s.cfgDigest := rfl
@[simp] theorem setGang_powerLimit (s : State) (v : Gang) : (s.setGang v).powerLimit = s.powerLimit := rfl
@[simp] theorem setGang_linksUp (s : State) (v : Gang) : (s.setGang v).linksUp = s.linksUp := rfl
@[simp] theorem setGang_linkErr (s : State) (v : Gang) : (s.setGang v).linkErr = s.linkErr := rfl
@[simp] theorem setGang_ports (s : State) (v : Gang) : (s.setGang v).ports = s.ports := rfl
@[simp] theorem setGang_ext (s : State) (v : Gang) : (s.setGang v).ext = s.ext := rfl
@[simp] theorem setGang_sent (s : State) (v : Gang) : (s.setGang v).sent = s.sent := rfl
@[simp] theorem setGang_attest (s : State) (v : Gang) : (s.setGang v).attest = s.attest := rfl
@[simp] theorem setGang_report (s : State) (v : Gang) : (s.setGang v).report = s.report := rfl
@[simp] theorem setGang_linkTags (s : State) (v : Gang) : (s.setGang v).linkTags = s.linkTags := rfl
@[simp] theorem setGang_cur (s : State) (v : Gang) : (s.setGang v).cur = s.cur := rfl
@[simp] theorem setGang_agenda (s : State) (v : Gang) : (s.setGang v).agenda = s.agenda := rfl
@[simp] theorem setGang_freeCtr (s : State) (v : Gang) : (s.setGang v).freeCtr = s.freeCtr := rfl
@[simp] theorem setGang_nextId (s : State) (v : Gang) : (s.setGang v).nextId = s.nextId := rfl

/-! ### onCore -/
@[simp] theorem onCore_tick (s : State) (c : Nat) (f : Core → Core) : (s.onCore c f).tick = s.tick := rfl
@[simp] theorem onCore_mem (s : State) (c : Nat) (f : Core → Core) : (s.onCore c f).mem = s.mem := rfl
@[simp] theorem onCore_poison (s : State) (c : Nat) (f : Core → Core) : (s.onCore c f).poison = s.poison := rfl
@[simp] theorem onCore_owners (s : State) (c : Nat) (f : Core → Core) : (s.onCore c f).owners = s.owners := rfl
@[simp] theorem onCore_acts (s : State) (c : Nat) (f : Core → Core) : (s.onCore c f).acts = s.acts := rfl
@[simp] theorem onCore_homeQ (s : State) (c : Nat) (f : Core → Core) : (s.onCore c f).homeQ = s.homeQ := rfl
@[simp] theorem onCore_fills (s : State) (c : Nat) (f : Core → Core) : (s.onCore c f).fills = s.fills := rfl
@[simp] theorem onCore_net (s : State) (c : Nat) (f : Core → Core) : (s.onCore c f).net = s.net := rfl
@[simp] theorem onCore_fibs (s : State) (c : Nat) (f : Core → Core) : (s.onCore c f).fibs = s.fibs := rfl
@[simp] theorem onCore_spools (s : State) (c : Nat) (f : Core → Core) : (s.onCore c f).spools = s.spools := rfl
@[simp] theorem onCore_blocks (s : State) (c : Nat) (f : Core → Core) : (s.onCore c f).blocks = s.blocks := rfl
@[simp] theorem onCore_harts (s : State) (c : Nat) (f : Core → Core) : (s.onCore c f).harts = s.harts := rfl
@[simp] theorem onCore_gangs (s : State) (c : Nat) (f : Core → Core) : (s.onCore c f).gangs = s.gangs := rfl
@[simp] theorem onCore_dies (s : State) (c : Nat) (f : Core → Core) : (s.onCore c f).dies = s.dies := rfl
@[simp] theorem onCore_doms (s : State) (c : Nat) (f : Core → Core) : (s.onCore c f).doms = s.doms := rfl
@[simp] theorem onCore_copies (s : State) (c : Nat) (f : Core → Core) : (s.onCore c f).copies = s.copies := rfl
@[simp] theorem onCore_hamp (s : State) (c : Nat) (f : Core → Core) : (s.onCore c f).hamp = s.hamp := rfl
@[simp] theorem onCore_pkg (s : State) (c : Nat) (f : Core → Core) : (s.onCore c f).pkg = s.pkg := rfl
@[simp] theorem onCore_mr (s : State) (c : Nat) (f : Core → Core) : (s.onCore c f).mr = s.mr := rfl
@[simp] theorem onCore_cfgOk (s : State) (c : Nat) (f : Core → Core) : (s.onCore c f).cfgOk = s.cfgOk := rfl
@[simp] theorem onCore_cfgDigest (s : State) (c : Nat) (f : Core → Core) : (s.onCore c f).cfgDigest = s.cfgDigest := rfl
@[simp] theorem onCore_powerLimit (s : State) (c : Nat) (f : Core → Core) : (s.onCore c f).powerLimit = s.powerLimit := rfl
@[simp] theorem onCore_linksUp (s : State) (c : Nat) (f : Core → Core) : (s.onCore c f).linksUp = s.linksUp := rfl
@[simp] theorem onCore_linkErr (s : State) (c : Nat) (f : Core → Core) : (s.onCore c f).linkErr = s.linkErr := rfl
@[simp] theorem onCore_ports (s : State) (c : Nat) (f : Core → Core) : (s.onCore c f).ports = s.ports := rfl
@[simp] theorem onCore_ext (s : State) (c : Nat) (f : Core → Core) : (s.onCore c f).ext = s.ext := rfl
@[simp] theorem onCore_sent (s : State) (c : Nat) (f : Core → Core) : (s.onCore c f).sent = s.sent := rfl
@[simp] theorem onCore_attest (s : State) (c : Nat) (f : Core → Core) : (s.onCore c f).attest = s.attest := rfl
@[simp] theorem onCore_report (s : State) (c : Nat) (f : Core → Core) : (s.onCore c f).report = s.report := rfl
@[simp] theorem onCore_linkTags (s : State) (c : Nat) (f : Core → Core) : (s.onCore c f).linkTags = s.linkTags := rfl
@[simp] theorem onCore_cur (s : State) (c : Nat) (f : Core → Core) : (s.onCore c f).cur = s.cur := rfl
@[simp] theorem onCore_agenda (s : State) (c : Nat) (f : Core → Core) : (s.onCore c f).agenda = s.agenda := rfl
@[simp] theorem onCore_freeCtr (s : State) (c : Nat) (f : Core → Core) : (s.onCore c f).freeCtr = s.freeCtr := rfl
@[simp] theorem onCore_nextId (s : State) (c : Nat) (f : Core → Core) : (s.onCore c f).nextId = s.nextId := rfl

/-! ### onFib -/
@[simp] theorem onFib_tick (s : State) (k : FKey) (g : Fib → Fib) : (s.onFib k g).tick = s.tick := by
  unfold State.onFib; split <;> rfl
@[simp] theorem onFib_mem (s : State) (k : FKey) (g : Fib → Fib) : (s.onFib k g).mem = s.mem := by
  unfold State.onFib; split <;> rfl
@[simp] theorem onFib_poison (s : State) (k : FKey) (g : Fib → Fib) : (s.onFib k g).poison = s.poison := by
  unfold State.onFib; split <;> rfl
@[simp] theorem onFib_owners (s : State) (k : FKey) (g : Fib → Fib) : (s.onFib k g).owners = s.owners := by
  unfold State.onFib; split <;> rfl
@[simp] theorem onFib_acts (s : State) (k : FKey) (g : Fib → Fib) : (s.onFib k g).acts = s.acts := by
  unfold State.onFib; split <;> rfl
@[simp] theorem onFib_homeQ (s : State) (k : FKey) (g : Fib → Fib) : (s.onFib k g).homeQ = s.homeQ := by
  unfold State.onFib; split <;> rfl
@[simp] theorem onFib_fills (s : State) (k : FKey) (g : Fib → Fib) : (s.onFib k g).fills = s.fills := by
  unfold State.onFib; split <;> rfl
@[simp] theorem onFib_net (s : State) (k : FKey) (g : Fib → Fib) : (s.onFib k g).net = s.net := by
  unfold State.onFib; split <;> rfl
@[simp] theorem onFib_cores (s : State) (k : FKey) (g : Fib → Fib) : (s.onFib k g).cores = s.cores := by
  unfold State.onFib; split <;> rfl
@[simp] theorem onFib_spools (s : State) (k : FKey) (g : Fib → Fib) : (s.onFib k g).spools = s.spools := by
  unfold State.onFib; split <;> rfl
@[simp] theorem onFib_blocks (s : State) (k : FKey) (g : Fib → Fib) : (s.onFib k g).blocks = s.blocks := by
  unfold State.onFib; split <;> rfl
@[simp] theorem onFib_harts (s : State) (k : FKey) (g : Fib → Fib) : (s.onFib k g).harts = s.harts := by
  unfold State.onFib; split <;> rfl
@[simp] theorem onFib_gangs (s : State) (k : FKey) (g : Fib → Fib) : (s.onFib k g).gangs = s.gangs := by
  unfold State.onFib; split <;> rfl
@[simp] theorem onFib_dies (s : State) (k : FKey) (g : Fib → Fib) : (s.onFib k g).dies = s.dies := by
  unfold State.onFib; split <;> rfl
@[simp] theorem onFib_doms (s : State) (k : FKey) (g : Fib → Fib) : (s.onFib k g).doms = s.doms := by
  unfold State.onFib; split <;> rfl
@[simp] theorem onFib_copies (s : State) (k : FKey) (g : Fib → Fib) : (s.onFib k g).copies = s.copies := by
  unfold State.onFib; split <;> rfl
@[simp] theorem onFib_hamp (s : State) (k : FKey) (g : Fib → Fib) : (s.onFib k g).hamp = s.hamp := by
  unfold State.onFib; split <;> rfl
@[simp] theorem onFib_pkg (s : State) (k : FKey) (g : Fib → Fib) : (s.onFib k g).pkg = s.pkg := by
  unfold State.onFib; split <;> rfl
@[simp] theorem onFib_mr (s : State) (k : FKey) (g : Fib → Fib) : (s.onFib k g).mr = s.mr := by
  unfold State.onFib; split <;> rfl
@[simp] theorem onFib_cfgOk (s : State) (k : FKey) (g : Fib → Fib) : (s.onFib k g).cfgOk = s.cfgOk := by
  unfold State.onFib; split <;> rfl
@[simp] theorem onFib_cfgDigest (s : State) (k : FKey) (g : Fib → Fib) : (s.onFib k g).cfgDigest = s.cfgDigest := by
  unfold State.onFib; split <;> rfl
@[simp] theorem onFib_powerLimit (s : State) (k : FKey) (g : Fib → Fib) : (s.onFib k g).powerLimit = s.powerLimit := by
  unfold State.onFib; split <;> rfl
@[simp] theorem onFib_linksUp (s : State) (k : FKey) (g : Fib → Fib) : (s.onFib k g).linksUp = s.linksUp := by
  unfold State.onFib; split <;> rfl
@[simp] theorem onFib_linkErr (s : State) (k : FKey) (g : Fib → Fib) : (s.onFib k g).linkErr = s.linkErr := by
  unfold State.onFib; split <;> rfl
@[simp] theorem onFib_ports (s : State) (k : FKey) (g : Fib → Fib) : (s.onFib k g).ports = s.ports := by
  unfold State.onFib; split <;> rfl
@[simp] theorem onFib_ext (s : State) (k : FKey) (g : Fib → Fib) : (s.onFib k g).ext = s.ext := by
  unfold State.onFib; split <;> rfl
@[simp] theorem onFib_sent (s : State) (k : FKey) (g : Fib → Fib) : (s.onFib k g).sent = s.sent := by
  unfold State.onFib; split <;> rfl
@[simp] theorem onFib_attest (s : State) (k : FKey) (g : Fib → Fib) : (s.onFib k g).attest = s.attest := by
  unfold State.onFib; split <;> rfl
@[simp] theorem onFib_report (s : State) (k : FKey) (g : Fib → Fib) : (s.onFib k g).report = s.report := by
  unfold State.onFib; split <;> rfl
@[simp] theorem onFib_linkTags (s : State) (k : FKey) (g : Fib → Fib) : (s.onFib k g).linkTags = s.linkTags := by
  unfold State.onFib; split <;> rfl
@[simp] theorem onFib_cur (s : State) (k : FKey) (g : Fib → Fib) : (s.onFib k g).cur = s.cur := by
  unfold State.onFib; split <;> rfl
@[simp] theorem onFib_agenda (s : State) (k : FKey) (g : Fib → Fib) : (s.onFib k g).agenda = s.agenda := by
  unfold State.onFib; split <;> rfl
@[simp] theorem onFib_freeCtr (s : State) (k : FKey) (g : Fib → Fib) : (s.onFib k g).freeCtr = s.freeCtr := by
  unfold State.onFib; split <;> rfl
@[simp] theorem onFib_nextId (s : State) (k : FKey) (g : Fib → Fib) : (s.onFib k g).nextId = s.nextId := by
  unfold State.onFib; split <;> rfl

/-! ### A fresh request number -/
@[simp] theorem fresh_tick (s : State) : s.fresh.2.tick = s.tick := rfl
@[simp] theorem fresh_mem (s : State) : s.fresh.2.mem = s.mem := rfl
@[simp] theorem fresh_poison (s : State) : s.fresh.2.poison = s.poison := rfl
@[simp] theorem fresh_owners (s : State) : s.fresh.2.owners = s.owners := rfl
@[simp] theorem fresh_acts (s : State) : s.fresh.2.acts = s.acts := rfl
@[simp] theorem fresh_homeQ (s : State) : s.fresh.2.homeQ = s.homeQ := rfl
@[simp] theorem fresh_fills (s : State) : s.fresh.2.fills = s.fills := rfl
@[simp] theorem fresh_net (s : State) : s.fresh.2.net = s.net := rfl
@[simp] theorem fresh_cores (s : State) : s.fresh.2.cores = s.cores := rfl
@[simp] theorem fresh_fibs (s : State) : s.fresh.2.fibs = s.fibs := rfl
@[simp] theorem fresh_spools (s : State) : s.fresh.2.spools = s.spools := rfl
@[simp] theorem fresh_blocks (s : State) : s.fresh.2.blocks = s.blocks := rfl
@[simp] theorem fresh_harts (s : State) : s.fresh.2.harts = s.harts := rfl
@[simp] theorem fresh_gangs (s : State) : s.fresh.2.gangs = s.gangs := rfl
@[simp] theorem fresh_dies (s : State) : s.fresh.2.dies = s.dies := rfl
@[simp] theorem fresh_doms (s : State) : s.fresh.2.doms = s.doms := rfl
@[simp] theorem fresh_copies (s : State) : s.fresh.2.copies = s.copies := rfl
@[simp] theorem fresh_hamp (s : State) : s.fresh.2.hamp = s.hamp := rfl
@[simp] theorem fresh_pkg (s : State) : s.fresh.2.pkg = s.pkg := rfl
@[simp] theorem fresh_mr (s : State) : s.fresh.2.mr = s.mr := rfl
@[simp] theorem fresh_cfgOk (s : State) : s.fresh.2.cfgOk = s.cfgOk := rfl
@[simp] theorem fresh_cfgDigest (s : State) : s.fresh.2.cfgDigest = s.cfgDigest := rfl
@[simp] theorem fresh_powerLimit (s : State) : s.fresh.2.powerLimit = s.powerLimit := rfl
@[simp] theorem fresh_linksUp (s : State) : s.fresh.2.linksUp = s.linksUp := rfl
@[simp] theorem fresh_linkErr (s : State) : s.fresh.2.linkErr = s.linkErr := rfl
@[simp] theorem fresh_ports (s : State) : s.fresh.2.ports = s.ports := rfl
@[simp] theorem fresh_ext (s : State) : s.fresh.2.ext = s.ext := rfl
@[simp] theorem fresh_sent (s : State) : s.fresh.2.sent = s.sent := rfl
@[simp] theorem fresh_attest (s : State) : s.fresh.2.attest = s.attest := rfl
@[simp] theorem fresh_report (s : State) : s.fresh.2.report = s.report := rfl
@[simp] theorem fresh_linkTags (s : State) : s.fresh.2.linkTags = s.linkTags := rfl
@[simp] theorem fresh_cur (s : State) : s.fresh.2.cur = s.cur := rfl
@[simp] theorem fresh_agenda (s : State) : s.fresh.2.agenda = s.agenda := rfl
@[simp] theorem fresh_freeCtr (s : State) : s.fresh.2.freeCtr = s.freeCtr := rfl

/-! ### The retirement of a scalar word -/
@[simp] theorem retireAt_dom (g : Fib) (pc : W64) : (g.retireAt pc).dom = g.dom := rfl
@[simp] theorem retireAt_gid (g : Fib) (pc : W64) : (g.retireAt pc).gid = g.gid := rfl
@[simp] theorem retireAt_bid (g : Fib) (pc : W64) : (g.retireAt pc).bid = g.bid := rfl
@[simp] theorem retireAt_fid (g : Fib) (pc : W64) : (g.retireAt pc).fid = g.fid := rfl
@[simp] theorem retireAt_spid (g : Fib) (pc : W64) : (g.retireAt pc).spid = g.spid := rfl
@[simp] theorem retireAt_st (g : Fib) (pc : W64) : (g.retireAt pc).st = g.st := rfl
@[simp] theorem retireAt_vregs (g : Fib) (pc : W64) : (g.retireAt pc).vregs = g.vregs := rfl
@[simp] theorem retireAt_tags (g : Fib) (pc : W64) : (g.retireAt pc).tags = g.tags := rfl
@[simp] theorem retireAt_jord (g : Fib) (pc : W64) : (g.retireAt pc).jord = g.jord := rfl
@[simp] theorem retireAt_jflags (g : Fib) (pc : W64) : (g.retireAt pc).jflags = g.jflags := rfl
@[simp] theorem retireAt_rmode (g : Fib) (pc : W64) : (g.retireAt pc).rmode = g.rmode := rfl
@[simp] theorem retireAt_lcb (g : Fib) (pc : W64) : (g.retireAt pc).lcb = g.lcb := rfl
@[simp] theorem retireAt_prio (g : Fib) (pc : W64) : (g.retireAt pc).prio = g.prio := rfl
@[simp] theorem retireAt_tvec (g : Fib) (pc : W64) : (g.retireAt pc).tvec = g.tvec := rfl
@[simp] theorem retireAt_epcs (g : Fib) (pc : W64) : (g.retireAt pc).epcs = g.epcs := rfl
@[simp] theorem retireAt_epcl (g : Fib) (pc : W64) : (g.retireAt pc).epcl = g.epcl := rfl
@[simp] theorem retireAt_cause (g : Fib) (pc : W64) : (g.retireAt pc).cause = g.cause := rfl
@[simp] theorem retireAt_wake (g : Fib) (pc : W64) : (g.retireAt pc).wake = g.wake := rfl
@[simp] theorem retireAt_hslots (g : Fib) (pc : W64) : (g.retireAt pc).hslots = g.hslots := rfl
@[simp] theorem retireAt_hkind (g : Fib) (pc : W64) : (g.retireAt pc).hkind = g.hkind := rfl
@[simp] theorem retireAt_held (g : Fib) (pc : W64) : (g.retireAt pc).held = g.held := rfl
@[simp] theorem retireAt_stitches (g : Fib) (pc : W64) : (g.retireAt pc).stitches = g.stitches := rfl
@[simp] theorem retireAt_ldq (g : Fib) (pc : W64) : (g.retireAt pc).ldq = g.ldq := rfl
@[simp] theorem retireAt_stc (g : Fib) (pc : W64) : (g.retireAt pc).stc = g.stc := rfl
@[simp] theorem retireAt_prq (g : Fib) (pc : W64) : (g.retireAt pc).prq = g.prq := rfl
@[simp] theorem retireAt_sac (g : Fib) (pc : W64) : (g.retireAt pc).sac = g.sac := rfl
@[simp] theorem retireAt_rwq (g : Fib) (pc : W64) : (g.retireAt pc).rwq = g.rwq := rfl
@[simp] theorem retireAt_mode (g : Fib) (pc : W64) : (g.retireAt pc).mode = g.mode := rfl
@[simp] theorem retireAt_ext (g : Fib) (pc : W64) : (g.retireAt pc).ext = g.ext := rfl
@[simp] theorem retireAt_wait (g : Fib) (pc : W64) : (g.retireAt pc).wait = g.wait := rfl
@[simp] theorem retireAt_since (g : Fib) (pc : W64) : (g.retireAt pc).since = g.since := rfl
@[simp] theorem retireAt_markL (g : Fib) (pc : W64) : (g.retireAt pc).markL = g.markL := rfl
@[simp] theorem retireAt_stallL (g : Fib) (pc : W64) : (g.retireAt pc).stallL = g.stallL := rfl
@[simp] theorem retireAt_div (g : Fib) (pc : W64) : (g.retireAt pc).div = g.div := rfl
@[simp] theorem retireAt_longs (g : Fib) (pc : W64) : (g.retireAt pc).longs = g.longs := rfl
@[simp] theorem retireAt_nlane (g : Fib) (pc : W64) : (g.retireAt pc).nlane = g.nlane := rfl
@[simp] theorem retireAt_reports (g : Fib) (pc : W64) : (g.retireAt pc).reports = g.reports := rfl
@[simp] theorem retireAt_unwaited (g : Fib) (pc : W64) : (g.retireAt pc).unwaited = g.unwaited := rfl
@[simp] theorem retireAt_fence (g : Fib) (pc : W64) : (g.retireAt pc).fence = g.fence := rfl
@[simp] theorem retireAt_recWait (g : Fib) (pc : W64) : (g.retireAt pc).recWait = g.recWait := rfl
@[simp] theorem retireAt_traceMask (g : Fib) (pc : W64) : (g.retireAt pc).traceMask = g.traceMask := rfl
@[simp] theorem retireAt_syncMask (g : Fib) (pc : W64) : (g.retireAt pc).syncMask = g.syncMask := rfl
@[simp] theorem retireAt_redo (g : Fib) (pc : W64) : (g.retireAt pc).redo = g.redo := rfl
@[simp] theorem retireAt_redoI (g : Fib) (pc : W64) : (g.retireAt pc).redoI = g.redoI := rfl
@[simp] theorem retireAt_redoL (g : Fib) (pc : W64) : (g.retireAt pc).redoL = g.redoL := rfl
@[simp] theorem retireAt_hback (g : Fib) (pc : W64) : (g.retireAt pc).hback = g.hback := rfl
@[simp] theorem retireAt_stays (g : Fib) (pc : W64) : (g.retireAt pc).stays = g.stays := rfl
@[simp] theorem retireAt_yielded (g : Fib) (pc : W64) : (g.retireAt pc).yielded = g.yielded := rfl
@[simp] theorem retireAt_stamp (g : Fib) (pc : W64) : (g.retireAt pc).stamp = g.stamp := rfl
@[simp] theorem retireAt_regs (g : Fib) (pc : W64) : (g.retireAt pc).regs = g.regs := rfl
@[simp] theorem retireAt_pc (g : Fib) (pc : W64) : (g.retireAt pc).pc = pc := rfl

/-! ### Scalar registers -/
@[simp] theorem setSreg_dom (g : Fib) (n : Nat) (v : W64) : (g.setSreg n v).dom = g.dom := by
  unfold Fib.setSreg; split <;> rfl
@[simp] theorem setSreg_gid (g : Fib) (n : Nat) (v : W64) : (g.setSreg n v).gid = g.gid := by
  unfold Fib.setSreg; split <;> rfl
@[simp] theorem setSreg_bid (g : Fib) (n : Nat) (v : W64) : (g.setSreg n v).bid = g.bid := by
  unfold Fib.setSreg; split <;> rfl
@[simp] theorem setSreg_fid (g : Fib) (n : Nat) (v : W64) : (g.setSreg n v).fid = g.fid := by
  unfold Fib.setSreg; split <;> rfl
@[simp] theorem setSreg_spid (g : Fib) (n : Nat) (v : W64) : (g.setSreg n v).spid = g.spid := by
  unfold Fib.setSreg; split <;> rfl
@[simp] theorem setSreg_st (g : Fib) (n : Nat) (v : W64) : (g.setSreg n v).st = g.st := by
  unfold Fib.setSreg; split <;> rfl
@[simp] theorem setSreg_vregs (g : Fib) (n : Nat) (v : W64) : (g.setSreg n v).vregs = g.vregs := by
  unfold Fib.setSreg; split <;> rfl
@[simp] theorem setSreg_tags (g : Fib) (n : Nat) (v : W64) : (g.setSreg n v).tags = g.tags := by
  unfold Fib.setSreg; split <;> rfl
@[simp] theorem setSreg_jord (g : Fib) (n : Nat) (v : W64) : (g.setSreg n v).jord = g.jord := by
  unfold Fib.setSreg; split <;> rfl
@[simp] theorem setSreg_jflags (g : Fib) (n : Nat) (v : W64) : (g.setSreg n v).jflags = g.jflags := by
  unfold Fib.setSreg; split <;> rfl
@[simp] theorem setSreg_rmode (g : Fib) (n : Nat) (v : W64) : (g.setSreg n v).rmode = g.rmode := by
  unfold Fib.setSreg; split <;> rfl
@[simp] theorem setSreg_lcb (g : Fib) (n : Nat) (v : W64) : (g.setSreg n v).lcb = g.lcb := by
  unfold Fib.setSreg; split <;> rfl
@[simp] theorem setSreg_prio (g : Fib) (n : Nat) (v : W64) : (g.setSreg n v).prio = g.prio := by
  unfold Fib.setSreg; split <;> rfl
@[simp] theorem setSreg_tvec (g : Fib) (n : Nat) (v : W64) : (g.setSreg n v).tvec = g.tvec := by
  unfold Fib.setSreg; split <;> rfl
@[simp] theorem setSreg_epcs (g : Fib) (n : Nat) (v : W64) : (g.setSreg n v).epcs = g.epcs := by
  unfold Fib.setSreg; split <;> rfl
@[simp] theorem setSreg_epcl (g : Fib) (n : Nat) (v : W64) : (g.setSreg n v).epcl = g.epcl := by
  unfold Fib.setSreg; split <;> rfl
@[simp] theorem setSreg_cause (g : Fib) (n : Nat) (v : W64) : (g.setSreg n v).cause = g.cause := by
  unfold Fib.setSreg; split <;> rfl
@[simp] theorem setSreg_wake (g : Fib) (n : Nat) (v : W64) : (g.setSreg n v).wake = g.wake := by
  unfold Fib.setSreg; split <;> rfl
@[simp] theorem setSreg_hslots (g : Fib) (n : Nat) (v : W64) : (g.setSreg n v).hslots = g.hslots := by
  unfold Fib.setSreg; split <;> rfl
@[simp] theorem setSreg_hkind (g : Fib) (n : Nat) (v : W64) : (g.setSreg n v).hkind = g.hkind := by
  unfold Fib.setSreg; split <;> rfl
@[simp] theorem setSreg_held (g : Fib) (n : Nat) (v : W64) : (g.setSreg n v).held = g.held := by
  unfold Fib.setSreg; split <;> rfl
@[simp] theorem setSreg_stitches (g : Fib) (n : Nat) (v : W64) : (g.setSreg n v).stitches = g.stitches := by
  unfold Fib.setSreg; split <;> rfl
@[simp] theorem setSreg_ldq (g : Fib) (n : Nat) (v : W64) : (g.setSreg n v).ldq = g.ldq := by
  unfold Fib.setSreg; split <;> rfl
@[simp] theorem setSreg_stc (g : Fib) (n : Nat) (v : W64) : (g.setSreg n v).stc = g.stc := by
  unfold Fib.setSreg; split <;> rfl
@[simp] theorem setSreg_prq (g : Fib) (n : Nat) (v : W64) : (g.setSreg n v).prq = g.prq := by
  unfold Fib.setSreg; split <;> rfl
@[simp] theorem setSreg_sac (g : Fib) (n : Nat) (v : W64) : (g.setSreg n v).sac = g.sac := by
  unfold Fib.setSreg; split <;> rfl
@[simp] theorem setSreg_rwq (g : Fib) (n : Nat) (v : W64) : (g.setSreg n v).rwq = g.rwq := by
  unfold Fib.setSreg; split <;> rfl
@[simp] theorem setSreg_mode (g : Fib) (n : Nat) (v : W64) : (g.setSreg n v).mode = g.mode := by
  unfold Fib.setSreg; split <;> rfl
@[simp] theorem setSreg_ext (g : Fib) (n : Nat) (v : W64) : (g.setSreg n v).ext = g.ext := by
  unfold Fib.setSreg; split <;> rfl
@[simp] theorem setSreg_wait (g : Fib) (n : Nat) (v : W64) : (g.setSreg n v).wait = g.wait := by
  unfold Fib.setSreg; split <;> rfl
@[simp] theorem setSreg_since (g : Fib) (n : Nat) (v : W64) : (g.setSreg n v).since = g.since := by
  unfold Fib.setSreg; split <;> rfl
@[simp] theorem setSreg_markL (g : Fib) (n : Nat) (v : W64) : (g.setSreg n v).markL = g.markL := by
  unfold Fib.setSreg; split <;> rfl
@[simp] theorem setSreg_stallL (g : Fib) (n : Nat) (v : W64) : (g.setSreg n v).stallL = g.stallL := by
  unfold Fib.setSreg; split <;> rfl
@[simp] theorem setSreg_div (g : Fib) (n : Nat) (v : W64) : (g.setSreg n v).div = g.div := by
  unfold Fib.setSreg; split <;> rfl
@[simp] theorem setSreg_longs (g : Fib) (n : Nat) (v : W64) : (g.setSreg n v).longs = g.longs := by
  unfold Fib.setSreg; split <;> rfl
@[simp] theorem setSreg_nlane (g : Fib) (n : Nat) (v : W64) : (g.setSreg n v).nlane = g.nlane := by
  unfold Fib.setSreg; split <;> rfl
@[simp] theorem setSreg_reports (g : Fib) (n : Nat) (v : W64) : (g.setSreg n v).reports = g.reports := by
  unfold Fib.setSreg; split <;> rfl
@[simp] theorem setSreg_unwaited (g : Fib) (n : Nat) (v : W64) : (g.setSreg n v).unwaited = g.unwaited := by
  unfold Fib.setSreg; split <;> rfl
@[simp] theorem setSreg_fence (g : Fib) (n : Nat) (v : W64) : (g.setSreg n v).fence = g.fence := by
  unfold Fib.setSreg; split <;> rfl
@[simp] theorem setSreg_recWait (g : Fib) (n : Nat) (v : W64) : (g.setSreg n v).recWait = g.recWait := by
  unfold Fib.setSreg; split <;> rfl
@[simp] theorem setSreg_traceMask (g : Fib) (n : Nat) (v : W64) : (g.setSreg n v).traceMask = g.traceMask := by
  unfold Fib.setSreg; split <;> rfl
@[simp] theorem setSreg_syncMask (g : Fib) (n : Nat) (v : W64) : (g.setSreg n v).syncMask = g.syncMask := by
  unfold Fib.setSreg; split <;> rfl
@[simp] theorem setSreg_redo (g : Fib) (n : Nat) (v : W64) : (g.setSreg n v).redo = g.redo := by
  unfold Fib.setSreg; split <;> rfl
@[simp] theorem setSreg_redoI (g : Fib) (n : Nat) (v : W64) : (g.setSreg n v).redoI = g.redoI := by
  unfold Fib.setSreg; split <;> rfl
@[simp] theorem setSreg_redoL (g : Fib) (n : Nat) (v : W64) : (g.setSreg n v).redoL = g.redoL := by
  unfold Fib.setSreg; split <;> rfl
@[simp] theorem setSreg_hback (g : Fib) (n : Nat) (v : W64) : (g.setSreg n v).hback = g.hback := by
  unfold Fib.setSreg; split <;> rfl
@[simp] theorem setSreg_stays (g : Fib) (n : Nat) (v : W64) : (g.setSreg n v).stays = g.stays := by
  unfold Fib.setSreg; split <;> rfl
@[simp] theorem setSreg_yielded (g : Fib) (n : Nat) (v : W64) : (g.setSreg n v).yielded = g.yielded := by
  unfold Fib.setSreg; split <;> rfl
@[simp] theorem setSreg_waits (g : Fib) (n : Nat) (v : W64) : (g.setSreg n v).waits = g.waits := by
  unfold Fib.setSreg; split <;> rfl
@[simp] theorem setSreg_stamp (g : Fib) (n : Nat) (v : W64) : (g.setSreg n v).stamp = g.stamp := by
  unfold Fib.setSreg; split <;> rfl
@[simp] theorem setSreg_pc (g : Fib) (n : Nat) (v : W64) : (g.setSreg n v).pc = g.pc := by
  unfold Fib.setSreg; split <;> rfl
@[simp] theorem setSreg_retired (g : Fib) (n : Nat) (v : W64) : (g.setSreg n v).retired = g.retired := by
  unfold Fib.setSreg; split <;> rfl
@[simp] theorem setSreg_phase (g : Fib) (n : Nat) (v : W64) : (g.setSreg n v).phase = g.phase := by
  unfold Fib.setSreg; split <;> rfl
@[simp] theorem setSreg_mark (g : Fib) (n : Nat) (v : W64) : (g.setSreg n v).mark = g.mark := by
  unfold Fib.setSreg; split <;> rfl
@[simp] theorem setSreg_keep (g : Fib) (n : Nat) (v : W64) : (g.setSreg n v).keep = g.keep := by
  unfold Fib.setSreg; split <;> rfl
@[simp] theorem setSreg_susp (g : Fib) (n : Nat) (v : W64) : (g.setSreg n v).susp = g.susp := by
  unfold Fib.setSreg; split <;> rfl
@[simp] theorem setSreg_stall (g : Fib) (n : Nat) (v : W64) : (g.setSreg n v).stall = g.stall := by
  unfold Fib.setSreg; split <;> rfl
@[simp] theorem setSreg_tslot (g : Fib) (n : Nat) (v : W64) : (g.setSreg n v).tslot = g.tslot := by
  unfold Fib.setSreg; split <;> rfl

/-! ### Tables -/

section tables
variable {κ α : Type} [DecidableEq κ]

@[simp] theorem tfind_tset_self (t : List (κ × α)) (k : κ) (v : α) : tfind (tset t k v) k = some v := by
  induction t with
  | nil => simp [tset, tfind]
  | cons e r ih =>
    obtain ⟨k', v'⟩ := e
    by_cases h : k' = k
    · simp [tset, tfind, h]
    · simp [tset, tfind, h, ih]

theorem tfind_tset_ne (t : List (κ × α)) {k j : κ} (v : α) (h : j ≠ k) : tfind (tset t k v) j = tfind t j := by
  induction t with
  | nil => simp [tset, tfind, Ne.symm h]
  | cons e r ih =>
    obtain ⟨k', v'⟩ := e
    by_cases hk : k' = k
    · subst hk; simp [tset, tfind, Ne.symm h]
    · simp only [tset, hk, if_false, tfind, ih]

@[simp] theorem tget_tset_self (t : List (κ × α)) (k : κ) (v d : α) : tget (tset t k v) k d = v := by
  induction t with
  | nil => simp [tset, tget]
  | cons e r ih =>
    obtain ⟨k', v'⟩ := e
    by_cases h : k' = k
    · simp [tset, tget, h]
    · simp [tset, tget, h, ih]

theorem tget_tset_ne (t : List (κ × α)) {k j : κ} (v d : α) (h : j ≠ k) : tget (tset t k v) j d = tget t j d := by
  induction t with
  | nil => simp [tset, tget, Ne.symm h]
  | cons e r ih =>
    obtain ⟨k', v'⟩ := e
    by_cases hk : k' = k
    · subst hk; simp [tset, tget, Ne.symm h]
    · simp only [tset, hk, if_false, tget, ih]

end tables

@[simp] theorem core_setCore_self (s : State) (c : Nat) (v : Core) : (s.setCore c v).core c = v := tget_tset_self ..
theorem core_setCore_ne (s : State) {c j : Nat} (v : Core) (h : j ≠ c) : (s.setCore c v).core j = s.core j :=
  tget_tset_ne _ _ _ h
@[simp] theorem core_onCore_self (s : State) (c : Nat) (f : Core → Core) : (s.onCore c f).core c = f (s.core c) :=
  tget_tset_self ..
theorem core_onCore_ne (s : State) {c j : Nat} (f : Core → Core) (h : j ≠ c) : (s.onCore c f).core j = s.core j :=
  tget_tset_ne _ _ _ h
@[simp] theorem dom_setDom_self (s : State) (d : Nat) (v : Dom) : (s.setDom d v).dom d = v := tget_tset_self ..
theorem dom_setDom_ne (s : State) {d j : Nat} (v : Dom) (h : j ≠ d) : (s.setDom d v).dom j = s.dom j := tget_tset_ne _ _ _ h
@[simp] theorem die_setDie_self (s : State) (d : Nat) (v : Die) : (s.setDie d v).die d = v := tget_tset_self ..
@[simp] theorem fib_setFib_self (s : State) (k : FKey) (f : Fib) : (s.setFib k f).fib? k = some f := tfind_tset_self ..
theorem fib_setFib_ne (s : State) {k j : FKey} (f : Fib) (h : j ≠ k) : (s.setFib k f).fib? j = s.fib? j := tfind_tset_ne _ _ h
@[simp] theorem hart_setHart_self (s : State) (c h : Nat) (v : Hart) : (s.setHart c h v).hart c h = v := tget_tset_self ..
@[simp] theorem block_setBlock_self (s : State) (d b : Nat) (v : Block) : (s.setBlock d b v).block d b = v := tget_tset_self ..
@[simp] theorem spool_setSpool_self (s : State) (k : FKey) (v : Spool) : (s.setSpool k v).spool k = v := tget_tset_self ..

/-- A resident fibre changed: its entry is replaced. -/
theorem onFib_some {s : State} {k : FKey} {f : Fib} (h : s.fib? k = some f) (g : Fib → Fib) : s.onFib k g = s.setFib k (g f) := by
  simp [State.onFib, h]
@[simp] theorem fib_setCore (s : State) (c : Nat) (v : Core) (k : FKey) : (s.setCore c v).fib? k = s.fib? k := rfl
@[simp] theorem fib_onCore (s : State) (c : Nat) (g : Core → Core) (k : FKey) : (s.onCore c g).fib? k = s.fib? k := rfl
@[simp] theorem fib_setDom (s : State) (d : Nat) (v : Dom) (k : FKey) : (s.setDom d v).fib? k = s.fib? k := rfl
@[simp] theorem fib_setBlock (s : State) (d b : Nat) (v : Block) (k : FKey) : (s.setBlock d b v).fib? k = s.fib? k := rfl
@[simp] theorem fib_setSpool (s : State) (j : FKey) (v : Spool) (k : FKey) : (s.setSpool j v).fib? k = s.fib? k := rfl
@[simp] theorem core_setFib (s : State) (k : FKey) (f : Fib) (c : Nat) : (s.setFib k f).core c = s.core c := rfl
@[simp] theorem dom_setFib (s : State) (k : FKey) (f : Fib) (d : Nat) : (s.setFib k f).dom d = s.dom d := rfl
@[simp] theorem block_setFib (s : State) (k : FKey) (f : Fib) (d b : Nat) : (s.setFib k f).block d b = s.block d b := rfl

/-- Writing a fibre twice leaves the second. -/
@[simp] theorem tset_tset {κ α : Type} [DecidableEq κ] (t : List (κ × α)) (k : κ) (v w : α) : tset (tset t k v) k w = tset t k w := by
  induction t with
  | nil => simp [tset]
  | cons e r ih =>
    obtain ⟨k', v'⟩ := e
    by_cases h : k' = k
    · simp [tset, h]
    · simp [tset, h, ih]
@[simp] theorem setFib_setFib (s : State) (k : FKey) (f g : Fib) : (s.setFib k f).setFib k g = s.setFib k g := by
  simp [State.setFib]

end Sys2Proof.Machine
end

