-- ==== Sys2Proof/Laws/Turn.lean ====
section
/-! SUPPORT. What the frames of scalar and lane words do under a turn: the word's own meaning runs. -/
namespace Sys2Proof

open Sys2Proof.Machine

/-- No held report is covered: nothing is delivered. -/
theorem oldestReport_none {f : Fib} {p : Report → Bool} (h : f.reports.all (fun r => !p r) = true) : oldestReport f p = none := by
  have : f.reports.filter p = [] := by
    simp only [List.all_eq_true, Bool.not_eq_true'] at h
    simpa [List.filter_eq_nil_iff] using h
  simp [oldestReport, this]

/-- A consuming wait that covers no held report lets the word go on. -/
theorem consuming_quiet {k : FKey} {f : Fib} {p : Report → Bool} {s : State} {go : Out}
    (h : f.reports.all (fun r => !p r) = true) : consuming k f p s go = go := by
  simp [consuming, oldestReport_none h]

/-- A fibre without reports delivers none. -/
theorem consuming_nil {k : FKey} {f : Fib} {p : Report → Bool} {s : State} {go : Out} (h : f.reports = []) :
    consuming k f p s go = go := consuming_quiet (by simp [h])

/-- Under its turn a scalar word's meaning runs. -/
theorem scalarWord_turn {s : State} {k : FKey} {f : Fib} {reads writes : List Nat} (h : ScalarTurn s k f reads writes)
    (body : FKey → Fib → Out) : scalarWord reads writes s body = body k f := by
  simp only [scalarWord, asScalar, h.cur, h.fib, h.free, h.unread, Bool.false_eq_true, if_false]
  exact consuming_quiet h.quiet

/-- A retired word is `after` with the registers as they stand. -/
theorem retireAt_eq_after (f : Fib) (pc : W64) : f.retireAt pc = f.after f.regs pc := rfl

/-- A retired word that wrote S[d] is `after` with that register written. -/
theorem setSreg_retireAt (f : Fib) (d : BitVec 8) (v : W64) (pc : W64) : (f.setSreg d.toNat v).retireAt pc = f.after (f.wr d v) pc := by
  by_cases h : d = 0
  · subst h; rfl
  · have h' : d.toNat ≠ 0 := fun hd => h (BitVec.eq_of_toNat_eq (by simpa using hd))
    rw [Fib.setSreg, if_neg h', Fib.wr, if_neg h]; rfl

/-- A scalar word that completes with a result, under its turn. -/
theorem doneSreg_some {s : State} {k : FKey} {f : Fib} (h : s.fib? k = some f) (d : BitVec 8) (v : W64) :
    doneSreg k d.toNat v s = .next (s.setFib k (f.after (f.wr d v) (f.pc + 4))) := by
  simp only [doneSreg, onFib_some h, Fib.retire, setSreg_pc, setSreg_retireAt]

/-- A scalar word that completes with no result, under its turn. -/
theorem done_some {s : State} {k : FKey} {f : Fib} (h : s.fib? k = some f) :
    done k s = .next (s.setFib k (f.after f.regs (f.pc + 4))) := by
  simp only [done, onFib_some h]; rfl

/-- Under its turn a two-operand word writes its result. -/
theorem alu2_turn {s : State} {k : FKey} {f : Fib} {d a b : BitVec 8} (h : ScalarTurn s k f [a.toNat, b.toNat] [d.toNat])
    (op : W64 → W64 → W64) :
    alu2 d a b op s = .next (s.setFib k (f.after (f.wr d (op (f.sreg a.toNat) (f.sreg b.toNat))) (f.pc + 4))) := by
  rw [alu2, scalarWord_turn h, doneSreg_some h.fib]

/-- Under its turn a one-operand word writes its result. -/
theorem alu1_turn {s : State} {k : FKey} {f : Fib} {d a : BitVec 8} (h : ScalarTurn s k f [a.toNat] [d.toNat])
    (op : W64 → W64) :
    alu1 d a op s = .next (s.setFib k (f.after (f.wr d (op (f.sreg a.toNat))) (f.pc + 4))) := by
  rw [alu1, scalarWord_turn h, doneSreg_some h.fib]

/-- A packet changes no fibre. -/
@[simp] theorem fib_trace (k j : FKey) (p : List W8) (s : State) : (trace k p s).fib? j = s.fib? j := by
  unfold trace; split <;> rfl

/-- A packet changes no byte of memory. -/
@[simp] theorem mem_trace (k : FKey) (p : List W8) (s : State) : (trace k p s).mem = s.mem := by
  unfold trace; split <;> rfl

end Sys2Proof
end

