-- ==== Sys2Proof/Laws/Lane.lean ====
section
/-! SUPPORT. What the frame, the checks and the completions of lane words do under a turn. -/
namespace Sys2Proof

open Sys2Proof.Machine

/-- A fold whose every step stands still stands still. -/
theorem foldl_still {α σ : Type} (g : σ → α → σ) (x : σ) : ∀ (l : List α), (∀ a ∈ l, g x a = x) → l.foldl g x = x
  | [], _ => rfl
  | a :: l, h => by
    rw [List.foldl_cons, h a (by simp)]
    exact foldl_still g x l fun b hb => h b (by simp [hb])

/-- No press operation of the spool is unwaited for. -/
def calmSpool (s : State) (k : FKey) : Bool :=
  s.fibs.all fun e => !(e.1.core = k.core && e.1.sub = k.sub && e.1.slot = k.slot) || e.2.unwaited.isEmpty

/-- Nothing is disturbed on a spool with no operation unwaited for. -/
theorem disturbRegs_calm {s : State} {k : FKey} (h : calmSpool s k = true) (w t : List Nat) : disturbRegs k w t s = s := by
  unfold disturbRegs
  refine foldl_still _ _ _ fun e he => ?_
  have := List.all_eq_true.1 h e he
  simp only [Bool.or_eq_true, Bool.not_eq_true', List.isEmpty_iff] at this
  rcases this with h1 | h1
  · simp only [h1, Bool.false_and, Bool.false_eq_true, if_false]
  · simp [h1]

/-- A fibre under its turn has a first stitch. -/
theorem stitches_turn {s : State} {k : FKey} {f : Fib} {t : Stitch} (h : LaneTurn s k f t) : ∃ r, f.stitches = t :: r := by
  have := h.head
  cases hs : f.stitches with
  | nil => simp [hs] at this
  | cons a r => simp [hs] at this; exact ⟨r, by rw [this]⟩

/-- Under its turn a lane word waits for nothing. -/
theorem laneWait_turn {s : State} {k : FKey} {f : Fib} {t : Stitch} {w : LaneWord} (h : LaneTurn s k f t) :
    laneWait w k f s = none := by
  simp [laneWait, h.order, gate, h.open_]

/-- With a lane active, or for a word performed regardless, the no-op rule lets the meaning run (R248). -/
theorem laneBody_active {s : State} {k : FKey} {f : Fib} {t : Stitch} {w : LaneWord} {always : Bool}
    (hm : effMask w t ≠ 0 ∨ always = true) (body : LaneCtx → Out) : laneBody w always k f t s body = body (laneCtx k f t w) := by
  simp only [laneBody, laneCtx]
  refine if_neg ?_
  simp only [Bool.and_eq_true, decide_eq_true_eq, Bool.not_eq_true', not_and, Bool.not_eq_false]
  exact fun h0 => hm.resolve_left fun h => h h0

/-- Under its turn, with a lane active, a lane word's meaning runs. -/
theorem laneWord_turn {s : State} {k : FKey} {f : Fib} {t : Stitch} {w : LaneWord} (h : LaneTurn s k f t)
    (always : Bool) (hm : effMask w t ≠ 0 ∨ always = true) (body : LaneCtx → Out) :
    laneWord w always s body = body (laneCtx k f t w) := by
  obtain ⟨r, hr⟩ := stitches_turn h
  simp only [laneWord, asLane, h.cur, h.fib, hr, laneWait_turn h, laneBody_active hm]

/-- The same of a press operation. -/
theorem pressFrame_turn {s : State} {k : FKey} {f : Fib} {t : Stitch} {w : LaneWord} (h : LaneTurn s k f t)
    (always : Bool) (hm : effMask w t ≠ 0 ∨ always = true) (body : LaneCtx → Out) :
    pressFrame w always s body = body (laneCtx k f t w) := by
  obtain ⟨r, hr⟩ := stitches_turn h
  simp only [pressFrame, asLane, h.cur, h.fib, hr, h.order, laneBody_active hm, Bool.false_eq_true, if_false]

/-- With an empty mask in force a word that is not performed regardless only moves its stitch on. -/
theorem laneWord_empty {s : State} {k : FKey} {f : Fib} {t : Stitch} {w : LaneWord} (h : LaneTurn s k f t)
    (hm : effMask w t = 0) (body : LaneCtx → Out) : laneWord w false s body = .next (laneRetire k w s) := by
  obtain ⟨r, hr⟩ := stitches_turn h
  simp only [effMask] at hm
  simp only [laneWord, asLane, h.cur, h.fib, hr, laneWait_turn h, laneBody]
  exact if_pos (by simp [hm])

/-- The checks of a lane word that is legal, with its operands and results in order, let it go on. -/
theorem laneChecked_pass {s : State} {k : FKey} {f : Fib} {t : Stitch} {w : LaneWord} {l : List Regs} {legal jet : Bool}
    (h : LaneTurn s k f t) (hl : legal = true) (hj : jet = true) (hr : regsPass s k f w l = true) (go : State → Out) :
    laneChecked (laneCtx k f t w) w legal jet l s go = go s := by
  subst hl hj
  have hr' : ∀ r ∈ l, r.jetOk = true ∧ r.rangeOk = true ∧ r.fmtOk = true ∧ ∀ e ∈ r.regs,
      available f (s.launch f.dom) e.1 = true ∧ (w.t = true ∨ (match e.2 with | some g => s.vtag k e.1 == g | none => true) = true) := by
    intro r m
    simp only [regsPass, List.all_eq_true, Bool.and_eq_true, Bool.or_eq_true] at hr
    obtain ⟨⟨⟨a, b⟩, c⟩, d⟩ := hr r m
    exact ⟨a, b, c, fun e he => d e he⟩
  have e1 : l.any (fun r => !r.jetOk) = false := by
    simp only [List.any_eq_false, Bool.not_eq_true', Bool.not_eq_false]; exact fun r m => (hr' r m).1
  have e2 : l.any (fun r => !r.rangeOk || r.regs.any fun e => !available f (s.launch f.dom) e.1) = false := by
    simp only [List.any_eq_false, Bool.or_eq_true, Bool.not_eq_true', List.any_eq_true, not_or, not_exists, not_and, Bool.not_eq_false]
    exact fun r m => ⟨(hr' r m).2.1, fun e he => ((hr' r m).2.2.2 e he).1⟩
  have e3 : l.any (fun r => !r.fmtOk) = false := by
    simp only [List.any_eq_false, Bool.not_eq_true', Bool.not_eq_false]; exact fun r m => (hr' r m).2.2.1
  have e4 : (!w.t && l.any (fun r => r.regs.any fun e => match e.2 with | some t => s.vtag k e.1 != t | none => false)) = false := by
    cases hw : w.t
    · simp only [Bool.not_false, Bool.true_and, List.any_eq_false, List.any_eq_true, not_exists, not_and]
      intro r m e he
      have := ((hr' r m).2.2.2 e he).2
      simp only [hw, Bool.false_eq_true, false_or] at this
      cases hg : e.2 <;> simp_all
    · rfl
  simp only [laneChecked, laneCtx, Bool.not_true, Bool.false_eq_true, if_false, Bool.false_or, e1, e2, e3, h.open_, List.any_nil,
    Bool.not_false, Bool.and_true, readRegRows, h.rows, if_true]
  rw [disturbRegs_calm h.calm]
  exact if_neg (Bool.eq_false_iff.1 e4)

/-- A test of every entry of a table holds after an update that keeps it for the changed entry. -/
theorem all_tset {κ α : Type} [DecidableEq κ] (p : κ × α → Bool) (k : κ) (v : α) :
    ∀ (l : List (κ × α)), l.all p = true → (∀ x, tfind l k = some x → p (k, x) = true → p (k, v) = true) → tfind l k ≠ none →
      (tset l k v).all p = true
  | [], _, _, h => absurd rfl h
  | (a, b) :: r, h, hv, hn => by
    simp only [List.all_cons, Bool.and_eq_true] at h
    by_cases ha : a = k
    · subst ha
      simp only [tset, if_true, List.all_cons, Bool.and_eq_true]
      exact ⟨hv b (by simp [tfind]) h.1, h.2⟩
    · simp only [tset, ha, if_false, List.all_cons, Bool.and_eq_true]
      simp only [tfind, ha, if_false] at hv hn
      exact ⟨h.1, all_tset p k v r h.2 hv hn⟩

/-- Raising flags waits for no press operation and issues none. -/
theorem calm_orFlags {s : State} {k : FKey} (h : calmSpool s k = true) (v : W64) : calmSpool (orFlags k v s) k = true := by
  unfold orFlags State.onFib
  split
  · exact h
  · split
    · rename_i f hf
      have hf' : tfind s.fibs k = some f := hf
      exact all_tset _ k _ s.fibs h (fun x hx hp => by rw [hf'] at hx; cases hx; exact hp) (by rw [hf']; simp)
    · exact h

/-- Raising flags changes no core. -/
@[simp] theorem orFlags_core (k : FKey) (v : W64) (s : State) (c : Nat) : (orFlags k v s).core c = s.core c := by
  unfold orFlags State.onFib
  split
  · rfl
  · split <;> rfl

/-- Raising flags takes no request number. -/
@[simp] theorem orFlags_nextId (k : FKey) (v : W64) (s : State) : (orFlags k v s).nextId = s.nextId := by
  unfold orFlags State.onFib
  split
  · rfl
  · split <;> rfl

/-- The effect of a short lane word that raises flags. -/
theorem laneDone_flags {s : State} {k : FKey} {f : Fib} {t : Stitch} {w : LaneWord} (h : LaneTurn s k f t)
    (vals : List (Nat × List W32)) (tags : List (Nat × Nat)) (fl : W64) :
    laneDone (laneCtx k f t w) w vals tags (orFlags k fl s) = .next (laneEffect k w (effMask w t) vals tags fl s) := by
  simp only [laneDone, laneCtx, h.open_, if_true, disturbRegs_calm (calm_orFlags h.calm fl), laneEffect, writeRegRows, orFlags_core, h.rows]

/-- The effect of a short lane word. -/
theorem laneDone_eq {s : State} {k : FKey} {f : Fib} {t : Stitch} {w : LaneWord} (h : LaneTurn s k f t)
    (vals : List (Nat × List W32)) (tags : List (Nat × Nat)) :
    laneDone (laneCtx k f t w) w vals tags s = .next (laneEffect k w (effMask w t) vals tags 0 s) := laneDone_flags h vals tags 0

/-- The effect of a long lane word that raises flags. -/
theorem laneLong_flags {s : State} {k : FKey} {f : Fib} {t : Stitch} {w : LaneWord} (h : LaneTurn s k f t)
    (vals : List (Nat × List W32)) (tags : List (Nat × Nat)) (fl : W64) :
    laneLong (laneCtx k f t w) w vals tags (orFlags k fl s) = .next (longEffect k f t w vals tags fl s) := by
  simp only [laneLong, laneCtx, h.open_, if_true, disturbRegs_calm (calm_orFlags h.calm fl), longEffect, State.fresh, orFlags_nextId]

/-- The effect of a long lane word. -/
theorem laneLong_eq {s : State} {k : FKey} {f : Fib} {t : Stitch} {w : LaneWord} (h : LaneTurn s k f t)
    (vals : List (Nat × List W32)) (tags : List (Nat × Nat)) :
    laneLong (laneCtx k f t w) w vals tags s = .next (longEffect k f t w vals tags 0 s) := laneLong_flags h vals tags 0

/-- With no trap enabled a floating word goes on with its flags raised (R220, R222). -/
theorem floatFlags_off {k : FKey} {f : Fib} {t : Stitch} {w : LaneWord} (h : trapsOff f) (fl : List (List Nat)) (s : State)
    (go : State → Out) : floatFlags (laneCtx k f t w) fl s go
      = go (orFlags k (fl.zipIdx.foldl (fun r e => if (effMask w t).getLsbD e.2 then r ||| jflagBits e.1 else r) 0) s) := by
  have h0 : (f.rmode.extractLsb' 8 5).toNat = 0 := by rw [h]; rfl
  have hn : (fl.zipIdx.findSome? fun e => if (effMask w t).getLsbD e.2 then
      (e.1.zipIdx.findSome? fun g => if g.1 &&& 0 ≠ 0 then some (e.2, g.2, g.1) else none) else none) = none := by simp
  simp only [floatFlags, laneCtx, h0, hn]
  rfl

/-- Touching a cached translation changes no fibre. -/
theorem fibs_foldl {α : Type} (g : State → α → State) (hg : ∀ s a, (g s a).fibs = s.fibs) : ∀ (l : List α) (s : State),
    (l.foldl g s).fibs = s.fibs
  | [], _ => rfl
  | a :: l, s => by rw [List.foldl_cons, fibs_foldl g hg l, hg]

/-- Pages an access uses change no fibre. -/
@[simp] theorem usedPages_fibs (c : Nat) (rs : List LaneReq) (s : State) : (usedPages c rs s).fibs = s.fibs := by
  unfold usedPages
  rw [fibs_foldl]
  · rfl
  · intro s a; rfl

/-- A release's clearing of bits changes no fibre. -/
@[simp] theorem clearSr_fibs (c m : Nat) (s : State) : (clearSr c m s).fibs = s.fibs := rfl

/-- A fibre looked up depends on the fibres alone. -/
theorem fib_congr {s u : State} (h : u.fibs = s.fibs) (k : FKey) : u.fib? k = s.fib? k := by simp [State.fib?, h]

/-- The effect of a lane memory word whose accesses start. -/
theorem startLane_eq {s u : State} {k : FKey} {f : Fib} {t : Stitch} {w : LaneWord} (h : LaneTurn s k f t) (hu : u.fibs = s.fibs)
    (fin : Fin) (regs : List Nat) (kind : AccKind) (strong : Bool) (op : Nat) (ld st : Bool) (acq : Option W64) (sys whole : Bool)
    (l : List Checked) :
    startLane (laneCtx k f t w) w fin regs kind strong op ld st acq sys whole l u
      = .next (laneStarted k f t w fin regs kind strong op ld st acq sys whole l u) := by
  have hc : calmSpool u k = true := by have := h.calm; simpa [calmSpool, hu] using this
  obtain ⟨g, hg, hl⟩ : ∃ g, (laneRetire k w u).fib? k = some g ∧ g.longs = [] := by
    have h0 : u.fib? k = some f := by rw [fib_congr hu, h.fib]
    cases hs : f.stitches <;> cases hk : w.k <;>
      simp [laneRetire, onFib_some h0, hs, hk, endTurn, h.open_]
  simp only [startLane, laneCtx, disturbRegs_calm hc, laneStarted]
  cases ld
  · rfl
  · simp only [if_true, onFib_some hg, markClash, hl, List.map_nil, List.nil_append]

/-- The check of a lane word's accesses lets it go on when nothing of it fails or waits. -/
theorem laneCheck_pass {c : LaneCtx} {w : LaneWord} {sh : Shape} {u : Use} {ld st : Bool} {rs : List LaneReq} {s : State}
    {l : List Checked} (hm : memStall s c.k c.f ld st = none)
    (hc : checkAll s c.k.core c.f.gang w.scr sh u .fibre rs = .ok l)
    (hb : boardHit (if w.scr then s else usedPages c.k.core rs s) l u.writes = false) (go : List Checked → State → Out) :
    laneCheck c w sh u ld st rs s go = go l (if w.scr then s else usedPages c.k.core rs s) := by
  simp only [laneCheck, hm, hc, hb, Bool.false_eq_true, if_false]

/-- A release that waits for nothing and covers no held report lets a lane word go on. -/
theorem laneRelease_pass {c : LaneCtx} {w : LaneWord} {scope : Nat} {s : State} (hr : c.f.reports = [])
    (hw : releaseWaits s c.k.core (.fib c.k) scope (c.f.oneCore s) (if c.f.markL = 0 then s.nextId else c.f.markL) = false)
    (go : State → Out) :
    laneRelease c w scope s go = go (clearSr c.k.core (if c.f.markL = 0 then s.nextId else c.f.markL) s) := by
  simp only [laneRelease, consuming_nil hr, hw, Bool.false_eq_true, if_false]

end Sys2Proof
end

