-- ==== Sys2Proof/Laws/Memory.lean ====
section
/-! SUPPORT. The laws of memory: a read after a write, what a write leaves alone, and that every operation keeps the canonical
form. -/
namespace Sys2Proof

open Sys2Proof.Machine

/-- The canonical form, said of the whole list. -/
theorem wf_iff (m : List Host.Cell) :
    Memory.wf m = true ↔ m.Pairwise (fun x y => x.1 < y.1) ∧ ∀ e ∈ m, e.2 ≠ memDefault := by
  induction m with
  | nil => simp [Memory.wf]
  | cons x r ih =>
    cases r with
    | nil => simp [Memory.wf]
    | cons y r =>
      simp only [Memory.wf, Bool.and_eq_true, decide_eq_true_eq, ih, List.pairwise_cons, List.forall_mem_cons]
      constructor
      · rintro ⟨⟨hx, hl⟩, ⟨hy, hp⟩, hn⟩
        exact ⟨⟨⟨hl, fun z hz => Nat.lt_trans hl (hy z hz)⟩, hy, hp⟩, hx, hn⟩
      · rintro ⟨⟨⟨hl, -⟩, hy, hp⟩, hx, hn⟩
        exact ⟨⟨hx, hl⟩, ⟨hy, hp⟩, hn⟩

/-- Leaving cells out keeps the form. -/
theorem wf_filter {m : List Host.Cell} (h : Memory.wf m = true) (p : Host.Cell → Bool) : Memory.wf (m.filter p) = true := by
  rw [wf_iff] at h ⊢
  exact ⟨h.1.filter p, fun e he => h.2 e (List.mem_of_mem_filter he)⟩

/-- The form of a list is the form of its rest. -/
theorem wf_tail {x : Host.Cell} {r : List Host.Cell} (h : Memory.wf (x :: r) = true) : Memory.wf r = true := by
  rw [wf_iff] at h ⊢
  exact ⟨(List.pairwise_cons.mp h.1).2, fun e he => h.2 e (List.mem_cons_of_mem _ he)⟩

/-- A cell of a memory with a byte written is the new one or an old one elsewhere. -/
theorem mem_write {m : List Host.Cell} {a : Nat} {b : W8} {e : Host.Cell} (h : e ∈ Memory.write m a b) :
    (e = (a, b) ∧ b ≠ memDefault) ∨ e ∈ m := by
  induction m with
  | nil =>
    simp only [Memory.write] at h
    split at h
    · simp at h
    · rename_i hb; exact .inl ⟨by simpa using h, hb⟩
  | cons x r ih =>
    simp only [Memory.write] at h
    split at h
    · split at h
      · exact .inr h
      · rename_i hb
        rcases List.mem_cons.mp h with h | h
        · exact .inl ⟨h, hb⟩
        · exact .inr h
    · split at h
      · split at h
        · exact .inr (List.mem_cons_of_mem _ h)
        · rename_i hb
          rcases List.mem_cons.mp h with h | h
          · exact .inl ⟨h, hb⟩
          · exact .inr (List.mem_cons_of_mem _ h)
      · rcases List.mem_cons.mp h with h | h
        · exact .inr (h ▸ List.mem_cons_self)
        · exact (ih h).imp_right (List.mem_cons_of_mem _)

/-- A write of one byte keeps the canonical form. -/
theorem wf_write {m : List Host.Cell} (h : Memory.wf m = true) (a : Nat) (b : W8) : Memory.wf (Memory.write m a b) = true := by
  induction m with
  | nil =>
    simp only [Memory.write]
    split
    · rfl
    · rename_i hb; simpa [Memory.wf] using hb
  | cons x r ih =>
    have ht := wf_tail h
    rw [wf_iff] at h
    have hx := List.pairwise_cons.mp h.1
    simp only [Memory.write]
    split
    · rename_i hlt
      split
      · exact (wf_iff _).mpr h
      · rename_i hb
        refine (wf_iff _).mpr ⟨List.pairwise_cons.mpr ⟨?_, h.1⟩, List.forall_mem_cons.mpr ⟨hb, h.2⟩⟩
        exact fun y hy => (List.mem_cons.mp hy).elim (fun e => e ▸ hlt) fun e => Nat.lt_trans hlt (hx.1 y e)
    · split
      · rename_i he
        split
        · exact ht
        · rename_i hb
          refine (wf_iff _).mpr ⟨List.pairwise_cons.mpr ⟨fun y hy => ?_, hx.2⟩, List.forall_mem_cons.mpr ⟨hb, ((wf_iff _).mp ht).2⟩⟩
          have := hx.1 y hy
          simpa [he] using this
      · rename_i h1 h2
        have hw := (wf_iff _).mp (ih ht)
        refine (wf_iff _).mpr ⟨List.pairwise_cons.mpr ⟨fun y hy => ?_, hw.1⟩,
          List.forall_mem_cons.mpr ⟨h.2 _ List.mem_cons_self, hw.2⟩⟩
        rcases mem_write hy with ⟨rfl, -⟩ | hy
        · show x.1 < a
          omega
        · exact hx.1 y hy

/-- A write of bytes keeps the canonical form. -/
theorem wf_writeBytes {m : List Host.Cell} (h : Memory.wf m = true) (a : Nat) (l : List W8) :
    Memory.wf (Memory.writeBytes m a l) = true := by
  induction l generalizing m a with
  | nil => exact h
  | cons b r ih => exact ih (wf_write h a b) (a + 1)

/-- Writing a list of cells keeps the canonical form. -/
theorem wf_writeCells {m : List Host.Cell} (h : Memory.wf m = true) (l : List Host.Cell) :
    Memory.wf (l.foldl (fun m e => Memory.write m e.1 e.2) m) = true := by
  induction l generalizing m with
  | nil => exact h
  | cons e r ih => exact ih (wf_write h e.1 e.2)

/-- An address below every listed one reads as an unlisted one. -/
theorem read_below {m : List Host.Cell} {a : Nat} (h : ∀ e ∈ m, a < e.1) : Memory.read m a = memDefault := by
  induction m with
  | nil => rfl
  | cons x r ih =>
    have hx := h x List.mem_cons_self
    simp only [Memory.read]
    rw [if_neg (by omega)]
    exact ih fun e he => h e (List.mem_cons_of_mem _ he)

/-- A read after a write: the byte written, or what was there. -/
theorem read_write {m : List Host.Cell} (h : Memory.wf m = true) (a c : Nat) (b : W8) :
    Memory.read (Memory.write m a b) c = if c = a then b else Memory.read m c := by
  induction m with
  | nil =>
    simp only [Memory.write]
    split
    · rename_i hb; simp [Memory.read, hb]
    · simp [Memory.read, eq_comm]
  | cons x r ih =>
    have ht := wf_tail h
    have hx := List.pairwise_cons.mp ((wf_iff _).mp h).1
    simp only [Memory.write]
    split
    · rename_i hlt
      split
      · rename_i hb
        split
        · rename_i hc
          subst hc hb
          exact read_below fun e he => (List.mem_cons.mp he).elim (fun q => q ▸ hlt) fun q => Nat.lt_trans hlt (hx.1 e q)
        · rfl
      · simp [Memory.read, eq_comm]
    · split
      · rename_i he
        split
        · rename_i hb
          subst hb
          split
          · rename_i hc
            subst hc
            exact read_below fun e q => he ▸ hx.1 e q
          · rename_i hc
            simp only [Memory.read]
            rw [if_neg (by omega)]
        · simp only [Memory.read]
          by_cases hc : c = a
          · simp [hc]
          · rw [if_neg (by omega), if_neg hc, if_neg (by omega)]
      · simp only [Memory.read]
        by_cases hc : x.1 = c
        · rw [if_pos hc, if_pos hc, if_neg (by omega)]
        · rw [if_neg hc, if_neg hc, ih ht]

/-- A read after a write of bytes: a byte written, or what was there. -/
theorem read_writeBytes {m : List Host.Cell} (h : Memory.wf m = true) (a c : Nat) (l : List W8) :
    Memory.read (Memory.writeBytes m a l) c = if a ≤ c ∧ c < a + l.length then l.getD (c - a) 0 else Memory.read m c := by
  induction l generalizing m a with
  | nil => simp only [Memory.writeBytes, List.length_nil]; rw [if_neg (by omega)]
  | cons b r ih =>
    simp only [Memory.writeBytes, ih (wf_write h a b), read_write h, List.length_cons]
    by_cases h1 : c = a
    · subst h1
      rw [if_neg (by omega), if_pos rfl, if_pos (by omega)]
      simp
    · by_cases h2 : a + 1 ≤ c ∧ c < a + 1 + r.length
      · rw [if_pos h2, if_pos (by omega), show c - a = (c - (a + 1)) + 1 by omega]
        simp
      · rw [if_neg h2, if_neg h1, if_neg (by omega)]

/-- `readBytes` answers as many bytes as it is asked for. -/
@[simp] theorem length_readBytes (m : List Host.Cell) (a n : Nat) : (Memory.readBytes m a n).length = n := by
  induction n generalizing a with
  | zero => rfl
  | succ n ih => simp [Memory.readBytes, ih]

/-- `leBytes` answers as many bytes as it is asked for. -/
@[simp] theorem length_leBytes (v n : Nat) : (leBytes v n).length = n := by
  induction n generalizing v with
  | zero => rfl
  | succ n ih => simp [leBytes, ih]

/-- The little-endian value of a value's bytes is the value, in as many bytes as there are (R342). -/
theorem leNat_leBytes (v n : Nat) : leNat (leBytes v n) = v % 256 ^ n := by
  induction n generalizing v with
  | zero => simp [leBytes, leNat, Nat.mod_one]
  | succ n ih =>
    rw [leBytes, leNat, ih, BitVec.toNat_ofNat, show 256 ^ (n + 1) = 256 * 256 ^ n by omega, Nat.mod_mul]

/-! ### The state's memories -/

/-- Memory after reset has the canonical form. -/
theorem memInv_reset : memInv State.reset := ⟨rfl, fun _ h => absurd h (by simp [State.reset])⟩

/-- What keeps the memory and the domains keeps the invariant. -/
theorem memInv_of_eq {s t : State} (h : memInv s) (hm : t.mem = s.mem) (hd : t.doms = s.doms) : memInv t := by
  unfold memInv
  rw [hm, hd]
  exact h

/-- A fold of updates that keep the invariant keeps it. -/
theorem memInv_foldl {α : Type} (g : State → α → State) (hg : ∀ s a, memInv s → memInv (g s a)) :
    ∀ (l : List α) {s : State}, memInv s → memInv (l.foldl g s)
  | [], _, h => h
  | a :: l, s, h => memInv_foldl g hg l (hg s a h)

/-- A row line written has no error of its symbols: memory stands. -/
theorem memInv_rewriteRow {s : State} (h : memInv s) (line : Nat) : memInv (rewriteRow line s) := by
  unfold rewriteRow
  split
  · dsimp only
    split
    · exact h
    · exact h
  · exact h

/-- A home's word written keeps the invariant. -/
theorem memInv_setHomeWord {s : State} (h : memInv s) (line i : Nat) (v : W32) (p : Bool) : memInv (setHomeWord line i v p s) :=
  memInv_rewriteRow (s := { s with mem := _, poison := _ }) ⟨wf_writeBytes h.1 _ _, h.2⟩ line

/-- Who holds words stands in the home's data fields (R105), and the invariant is kept. -/
theorem memInv_setOwners {s : State} (h : memInv s) (line : Nat) (mask : W32) (o : Option Node) : memInv (setOwners line mask o s) := by
  refine memInv_foldl _ (fun s i h => ?_) _ h
  cases o
  · exact h
  · exact ⟨wf_writeBytes h.1 _ _, h.2⟩

/-- Bytes merged at their home keep the invariant (R115). -/
theorem memInv_homeMerge {s : State} (h : memInv s) (line : Nat) (bm : BitVec 128) (data : List W32) :
    memInv (homeMerge line bm data s) := memInv_foldl _ (fun _ _ h => memInv_setHomeWord h _ _ _ _) _ h

/-- Bytes written at their home keep the invariant (R115 HWR). -/
theorem memInv_homeWriteNow {s : State} (h : memInv s) (pa : Nat) (bs : List W8) : memInv (homeWriteNow pa bs s) := by
  have := memInv_foldl (fun s l => rewriteRow l s) (fun s l h => memInv_rewriteRow h l)
    (((List.range bs.length).map fun j => (pa + j) / 128).eraseDups) h
  exact ⟨wf_writeBytes this.1 _ _, this.2⟩

/-- Granules zeroed keep the canonical form (R47). -/
theorem wf_zeroGranules {m : List Host.Cell} (h : Memory.wf m = true) (c : Nat) (gs : List Nat) : Memory.wf (zeroGranules c gs m) = true :=
  wf_filter h _

/-- A cut applied keeps the invariant (R47). -/
theorem memInv_applyCut {s : State} (h : memInv s) (c : Nat) (cut : W32) (g : GKey) : memInv (applyCut c cut g s) :=
  ⟨wf_zeroGranules h.1 _ _, h.2⟩

/-- The image of a checkpoint has the canonical form (R462). -/
theorem wf_domImage {s : State} (h : Memory.wf s.mem = true) (d : Nat) : Memory.wf (domImage s d) = true := by
  unfold domImage
  generalize (s.owners.filter fun e => s.nearOf d (4 * e.1)) = l
  have h' := wf_filter h fun e => s.nearOf d e.1 || s.boltOf d e.1
  generalize (s.mem.filter fun e => s.nearOf d e.1 || s.boltOf d e.1) = m at h'
  induction l generalizing m with
  | nil => exact h'
  | cons e r ih => exact ih _ (wf_writeBytes h' _ _)

/-- A placed program's words keep the canonical form. -/
theorem wf_withFetchWord {s : State} (h : Memory.wf s.withProgram.mem = true) (w : Nat) :
    Memory.wf (Memory.writeBytes s.withProgram.mem 0x1_0000 (leBytes w 12)) = true := wf_writeBytes h _ _

end Sys2Proof
end

