-- ==== Sys2Proof/Laws/PerInstr.lean ====
section
/-! SUPPORT. Encoding and decoding, one lemma for each constructor: the word of a well-formed instruction decodes to it. -/
set_option linter.unusedSimpArgs false

namespace Sys2Proof.Laws.RoundTrip

open Sys2Proof

/-- The instruction's word, if it has one, decodes to it with every operand (R237 to R246, R398 to R401). -/
def Statement (i : Instr) : Prop :=
  i.wf = true → match encode i with
    | .scalar w => decodeScalar w = .ok i
    | .lane w => decodeLane w = .ok i
    | .valet w => decodeValet w = some i
    | .none => True

theorem add (d : BitVec 8) (a : BitVec 8) (b : BitVec 8) : Statement (.add d a b) := fun wf_ => by
  have hm : (BitVec.extractLsb' 26 6 (0x1#6 ++ d ++ a ++ b ++ 0x0#2 : BitVec 32)).toNat = 1 := by
    simp (disch := decide) only [ext_append_hi, Nat.reduceSub]; rfl
  refine decodeScalar_of 1 hm (by decide) ?_ wf_
  unfold scalarRow
  rw [hm]
  simp (disch := decide) only [ext_append_hi, ext_append_lo, ext_append_mid, bit_append_hi, bit_append_lo, Nat.reduceSub]
  simp
theorem sub (d : BitVec 8) (a : BitVec 8) (b : BitVec 8) : Statement (.sub d a b) := fun wf_ => by
  have hm : (BitVec.extractLsb' 26 6 (0x1#6 ++ d ++ a ++ b ++ 0x1#2 : BitVec 32)).toNat = 1 := by
    simp (disch := decide) only [ext_append_hi, Nat.reduceSub]; rfl
  refine decodeScalar_of 1 hm (by decide) ?_ wf_
  unfold scalarRow
  rw [hm]
  simp (disch := decide) only [ext_append_hi, ext_append_lo, ext_append_mid, bit_append_hi, bit_append_lo, Nat.reduceSub]
  simp
theorem and (d : BitVec 8) (a : BitVec 8) (b : BitVec 8) : Statement (.and d a b) := fun wf_ => by
  have hm : (BitVec.extractLsb' 26 6 (0x1#6 ++ d ++ a ++ b ++ 0x2#2 : BitVec 32)).toNat = 1 := by
    simp (disch := decide) only [ext_append_hi, Nat.reduceSub]; rfl
  refine decodeScalar_of 1 hm (by decide) ?_ wf_
  unfold scalarRow
  rw [hm]
  simp (disch := decide) only [ext_append_hi, ext_append_lo, ext_append_mid, bit_append_hi, bit_append_lo, Nat.reduceSub]
  simp
theorem or (d : BitVec 8) (a : BitVec 8) (b : BitVec 8) : Statement (.or d a b) := fun wf_ => by
  have hm : (BitVec.extractLsb' 26 6 (0x1#6 ++ d ++ a ++ b ++ 0x3#2 : BitVec 32)).toNat = 1 := by
    simp (disch := decide) only [ext_append_hi, Nat.reduceSub]; rfl
  refine decodeScalar_of 1 hm (by decide) ?_ wf_
  unfold scalarRow
  rw [hm]
  simp (disch := decide) only [ext_append_hi, ext_append_lo, ext_append_mid, bit_append_hi, bit_append_lo, Nat.reduceSub]
  simp
theorem xor (d : BitVec 8) (a : BitVec 8) (b : BitVec 8) : Statement (.xor d a b) := fun wf_ => by
  have hm : (BitVec.extractLsb' 26 6 (0x2#6 ++ d ++ a ++ b ++ 0x0#2 : BitVec 32)).toNat = 2 := by
    simp (disch := decide) only [ext_append_hi, Nat.reduceSub]; rfl
  refine decodeScalar_of 2 hm (by decide) ?_ wf_
  unfold scalarRow
  rw [hm]
  simp (disch := decide) only [ext_append_hi, ext_append_lo, ext_append_mid, bit_append_hi, bit_append_lo, Nat.reduceSub]
  simp
theorem andn (d : BitVec 8) (a : BitVec 8) (b : BitVec 8) : Statement (.andn d a b) := fun wf_ => by
  have hm : (BitVec.extractLsb' 26 6 (0x2#6 ++ d ++ a ++ b ++ 0x1#2 : BitVec 32)).toNat = 2 := by
    simp (disch := decide) only [ext_append_hi, Nat.reduceSub]; rfl
  refine decodeScalar_of 2 hm (by decide) ?_ wf_
  unfold scalarRow
  rw [hm]
  simp (disch := decide) only [ext_append_hi, ext_append_lo, ext_append_mid, bit_append_hi, bit_append_lo, Nat.reduceSub]
  simp
theorem shl (d : BitVec 8) (a : BitVec 8) (b : BitVec 8) : Statement (.shl d a b) := fun wf_ => by
  have hm : (BitVec.extractLsb' 26 6 (0x2#6 ++ d ++ a ++ b ++ 0x2#2 : BitVec 32)).toNat = 2 := by
    simp (disch := decide) only [ext_append_hi, Nat.reduceSub]; rfl
  refine decodeScalar_of 2 hm (by decide) ?_ wf_
  unfold scalarRow
  rw [hm]
  simp (disch := decide) only [ext_append_hi, ext_append_lo, ext_append_mid, bit_append_hi, bit_append_lo, Nat.reduceSub]
  simp
theorem shr (d : BitVec 8) (a : BitVec 8) (b : BitVec 8) : Statement (.shr d a b) := fun wf_ => by
  have hm : (BitVec.extractLsb' 26 6 (0x2#6 ++ d ++ a ++ b ++ 0x3#2 : BitVec 32)).toNat = 2 := by
    simp (disch := decide) only [ext_append_hi, Nat.reduceSub]; rfl
  refine decodeScalar_of 2 hm (by decide) ?_ wf_
  unfold scalarRow
  rw [hm]
  simp (disch := decide) only [ext_append_hi, ext_append_lo, ext_append_mid, bit_append_hi, bit_append_lo, Nat.reduceSub]
  simp
theorem sar (d : BitVec 8) (a : BitVec 8) (b : BitVec 8) : Statement (.sar d a b) := fun wf_ => by
  have hm : (BitVec.extractLsb' 26 6 (0x3#6 ++ d ++ a ++ b ++ 0x0#2 : BitVec 32)).toNat = 3 := by
    simp (disch := decide) only [ext_append_hi, Nat.reduceSub]; rfl
  refine decodeScalar_of 3 hm (by decide) ?_ wf_
  unfold scalarRow
  rw [hm]
  simp (disch := decide) only [ext_append_hi, ext_append_lo, ext_append_mid, bit_append_hi, bit_append_lo, Nat.reduceSub]
  simp
theorem min (d : BitVec 8) (a : BitVec 8) (b : BitVec 8) : Statement (.min d a b) := fun wf_ => by
  have hm : (BitVec.extractLsb' 26 6 (0x3#6 ++ d ++ a ++ b ++ 0x1#2 : BitVec 32)).toNat = 3 := by
    simp (disch := decide) only [ext_append_hi, Nat.reduceSub]; rfl
  refine decodeScalar_of 3 hm (by decide) ?_ wf_
  unfold scalarRow
  rw [hm]
  simp (disch := decide) only [ext_append_hi, ext_append_lo, ext_append_mid, bit_append_hi, bit_append_lo, Nat.reduceSub]
  simp
theorem max (d : BitVec 8) (a : BitVec 8) (b : BitVec 8) : Statement (.max d a b) := fun wf_ => by
  have hm : (BitVec.extractLsb' 26 6 (0x3#6 ++ d ++ a ++ b ++ 0x2#2 : BitVec 32)).toNat = 3 := by
    simp (disch := decide) only [ext_append_hi, Nat.reduceSub]; rfl
  refine decodeScalar_of 3 hm (by decide) ?_ wf_
  unfold scalarRow
  rw [hm]
  simp (disch := decide) only [ext_append_hi, ext_append_lo, ext_append_mid, bit_append_hi, bit_append_lo, Nat.reduceSub]
  simp
theorem minn (d : BitVec 8) (a : BitVec 8) (b : BitVec 8) : Statement (.minn d a b) := fun wf_ => by
  have hm : (BitVec.extractLsb' 26 6 (0x3#6 ++ d ++ a ++ b ++ 0x3#2 : BitVec 32)).toNat = 3 := by
    simp (disch := decide) only [ext_append_hi, Nat.reduceSub]; rfl
  refine decodeScalar_of 3 hm (by decide) ?_ wf_
  unfold scalarRow
  rw [hm]
  simp (disch := decide) only [ext_append_hi, ext_append_lo, ext_append_mid, bit_append_hi, bit_append_lo, Nat.reduceSub]
  simp
theorem maxn (d : BitVec 8) (a : BitVec 8) (b : BitVec 8) : Statement (.maxn d a b) := fun wf_ => by
  have hm : (BitVec.extractLsb' 26 6 (0x4#6 ++ d ++ a ++ b ++ 0x0#2 : BitVec 32)).toNat = 4 := by
    simp (disch := decide) only [ext_append_hi, Nat.reduceSub]; rfl
  refine decodeScalar_of 4 hm (by decide) ?_ wf_
  unfold scalarRow
  rw [hm]
  simp (disch := decide) only [ext_append_hi, ext_append_lo, ext_append_mid, bit_append_hi, bit_append_lo, Nat.reduceSub]
  simp
theorem slt (d : BitVec 8) (a : BitVec 8) (b : BitVec 8) : Statement (.slt d a b) := fun wf_ => by
  have hm : (BitVec.extractLsb' 26 6 (0x4#6 ++ d ++ a ++ b ++ 0x1#2 : BitVec 32)).toNat = 4 := by
    simp (disch := decide) only [ext_append_hi, Nat.reduceSub]; rfl
  refine decodeScalar_of 4 hm (by decide) ?_ wf_
  unfold scalarRow
  rw [hm]
  simp (disch := decide) only [ext_append_hi, ext_append_lo, ext_append_mid, bit_append_hi, bit_append_lo, Nat.reduceSub]
  simp
theorem sltn (d : BitVec 8) (a : BitVec 8) (b : BitVec 8) : Statement (.sltn d a b) := fun wf_ => by
  have hm : (BitVec.extractLsb' 26 6 (0x4#6 ++ d ++ a ++ b ++ 0x2#2 : BitVec 32)).toNat = 4 := by
    simp (disch := decide) only [ext_append_hi, Nat.reduceSub]; rfl
  refine decodeScalar_of 4 hm (by decide) ?_ wf_
  unfold scalarRow
  rw [hm]
  simp (disch := decide) only [ext_append_hi, ext_append_lo, ext_append_mid, bit_append_hi, bit_append_lo, Nat.reduceSub]
  simp
theorem seq (d : BitVec 8) (a : BitVec 8) (b : BitVec 8) : Statement (.seq d a b) := fun wf_ => by
  have hm : (BitVec.extractLsb' 26 6 (0x4#6 ++ d ++ a ++ b ++ 0x3#2 : BitVec 32)).toNat = 4 := by
    simp (disch := decide) only [ext_append_hi, Nat.reduceSub]; rfl
  refine decodeScalar_of 4 hm (by decide) ?_ wf_
  unfold scalarRow
  rw [hm]
  simp (disch := decide) only [ext_append_hi, ext_append_lo, ext_append_mid, bit_append_hi, bit_append_lo, Nat.reduceSub]
  simp
theorem mul (d : BitVec 8) (a : BitVec 8) (b : BitVec 8) : Statement (.mul d a b) := fun wf_ => by
  have hm : (BitVec.extractLsb' 26 6 (0x5#6 ++ d ++ a ++ b ++ 0x0#2 : BitVec 32)).toNat = 5 := by
    simp (disch := decide) only [ext_append_hi, Nat.reduceSub]; rfl
  refine decodeScalar_of 5 hm (by decide) ?_ wf_
  unfold scalarRow
  rw [hm]
  simp (disch := decide) only [ext_append_hi, ext_append_lo, ext_append_mid, bit_append_hi, bit_append_lo, Nat.reduceSub]
  simp
theorem mulh (d : BitVec 8) (a : BitVec 8) (b : BitVec 8) : Statement (.mulh d a b) := fun wf_ => by
  have hm : (BitVec.extractLsb' 26 6 (0x5#6 ++ d ++ a ++ b ++ 0x1#2 : BitVec 32)).toNat = 5 := by
    simp (disch := decide) only [ext_append_hi, Nat.reduceSub]; rfl
  refine decodeScalar_of 5 hm (by decide) ?_ wf_
  unfold scalarRow
  rw [hm]
  simp (disch := decide) only [ext_append_hi, ext_append_lo, ext_append_mid, bit_append_hi, bit_append_lo, Nat.reduceSub]
  simp
theorem mulhn (d : BitVec 8) (a : BitVec 8) (b : BitVec 8) : Statement (.mulhn d a b) := fun wf_ => by
  have hm : (BitVec.extractLsb' 26 6 (0x5#6 ++ d ++ a ++ b ++ 0x2#2 : BitVec 32)).toNat = 5 := by
    simp (disch := decide) only [ext_append_hi, Nat.reduceSub]; rfl
  refine decodeScalar_of 5 hm (by decide) ?_ wf_
  unfold scalarRow
  rw [hm]
  simp (disch := decide) only [ext_append_hi, ext_append_lo, ext_append_mid, bit_append_hi, bit_append_lo, Nat.reduceSub]
  simp
theorem div (d : BitVec 8) (a : BitVec 8) (b : BitVec 8) : Statement (.div d a b) := fun wf_ => by
  have hm : (BitVec.extractLsb' 26 6 (0x6#6 ++ d ++ a ++ b ++ 0x0#2 : BitVec 32)).toNat = 6 := by
    simp (disch := decide) only [ext_append_hi, Nat.reduceSub]; rfl
  refine decodeScalar_of 6 hm (by decide) ?_ wf_
  unfold scalarRow
  rw [hm]
  simp (disch := decide) only [ext_append_hi, ext_append_lo, ext_append_mid, bit_append_hi, bit_append_lo, Nat.reduceSub]
  simp
theorem divn (d : BitVec 8) (a : BitVec 8) (b : BitVec 8) : Statement (.divn d a b) := fun wf_ => by
  have hm : (BitVec.extractLsb' 26 6 (0x6#6 ++ d ++ a ++ b ++ 0x1#2 : BitVec 32)).toNat = 6 := by
    simp (disch := decide) only [ext_append_hi, Nat.reduceSub]; rfl
  refine decodeScalar_of 6 hm (by decide) ?_ wf_
  unfold scalarRow
  rw [hm]
  simp (disch := decide) only [ext_append_hi, ext_append_lo, ext_append_mid, bit_append_hi, bit_append_lo, Nat.reduceSub]
  simp
theorem rem (d : BitVec 8) (a : BitVec 8) (b : BitVec 8) : Statement (.rem d a b) := fun wf_ => by
  have hm : (BitVec.extractLsb' 26 6 (0x6#6 ++ d ++ a ++ b ++ 0x2#2 : BitVec 32)).toNat = 6 := by
    simp (disch := decide) only [ext_append_hi, Nat.reduceSub]; rfl
  refine decodeScalar_of 6 hm (by decide) ?_ wf_
  unfold scalarRow
  rw [hm]
  simp (disch := decide) only [ext_append_hi, ext_append_lo, ext_append_mid, bit_append_hi, bit_append_lo, Nat.reduceSub]
  simp
theorem remn (d : BitVec 8) (a : BitVec 8) (b : BitVec 8) : Statement (.remn d a b) := fun wf_ => by
  have hm : (BitVec.extractLsb' 26 6 (0x6#6 ++ d ++ a ++ b ++ 0x3#2 : BitVec 32)).toNat = 6 := by
    simp (disch := decide) only [ext_append_hi, Nat.reduceSub]; rfl
  refine decodeScalar_of 6 hm (by decide) ?_ wf_
  unfold scalarRow
  rw [hm]
  simp (disch := decide) only [ext_append_hi, ext_append_lo, ext_append_mid, bit_append_hi, bit_append_lo, Nat.reduceSub]
  simp
theorem popc (d : BitVec 8) (a : BitVec 8) : Statement (.popc d a) := fun wf_ => by
  have hm : (BitVec.extractLsb' 26 6 (0x1C0#12 ++ d ++ a ++ 0x0#4 : BitVec 32)).toNat = 7 := by
    simp (disch := decide) only [ext_append_hi, Nat.reduceSub]; rfl
  refine decodeScalar_of 7 hm (by decide) ?_ wf_
  unfold scalarRow
  rw [hm]
  simp (disch := decide) only [ext_append_hi, ext_append_lo, ext_append_mid, bit_append_hi, bit_append_lo, Nat.reduceSub]
  simp
theorem clz (d : BitVec 8) (a : BitVec 8) : Statement (.clz d a) := fun wf_ => by
  have hm : (BitVec.extractLsb' 26 6 (0x1C1#12 ++ d ++ a ++ 0x0#4 : BitVec 32)).toNat = 7 := by
    simp (disch := decide) only [ext_append_hi, Nat.reduceSub]; rfl
  refine decodeScalar_of 7 hm (by decide) ?_ wf_
  unfold scalarRow
  rw [hm]
  simp (disch := decide) only [ext_append_hi, ext_append_lo, ext_append_mid, bit_append_hi, bit_append_lo, Nat.reduceSub]
  simp
theorem ctz (d : BitVec 8) (a : BitVec 8) : Statement (.ctz d a) := fun wf_ => by
  have hm : (BitVec.extractLsb' 26 6 (0x1C2#12 ++ d ++ a ++ 0x0#4 : BitVec 32)).toNat = 7 := by
    simp (disch := decide) only [ext_append_hi, Nat.reduceSub]; rfl
  refine decodeScalar_of 7 hm (by decide) ?_ wf_
  unfold scalarRow
  rw [hm]
  simp (disch := decide) only [ext_append_hi, ext_append_lo, ext_append_mid, bit_append_hi, bit_append_lo, Nat.reduceSub]
  simp
theorem sext (d : BitVec 8) (a : BitVec 8) (w : BitVec 2) : Statement (.sext d a w) := fun wf_ => by
  have hm : (BitVec.extractLsb' 26 6 (0x1C3#12 ++ d ++ a ++ 0x0#2 ++ w : BitVec 32)).toNat = 7 := by
    simp (disch := decide) only [ext_append_hi, Nat.reduceSub]; rfl
  refine decodeScalar_of 7 hm (by decide) ?_ wf_
  unfold scalarRow
  rw [hm]
  simp (disch := decide) only [ext_append_hi, ext_append_lo, ext_append_mid, bit_append_hi, bit_append_lo, Nat.reduceSub]
  simp
theorem zext (d : BitVec 8) (a : BitVec 8) (w : BitVec 2) : Statement (.zext d a w) := fun wf_ => by
  have hm : (BitVec.extractLsb' 26 6 (0x1C4#12 ++ d ++ a ++ 0x0#2 ++ w : BitVec 32)).toNat = 7 := by
    simp (disch := decide) only [ext_append_hi, Nat.reduceSub]; rfl
  refine decodeScalar_of 7 hm (by decide) ?_ wf_
  unfold scalarRow
  rw [hm]
  simp (disch := decide) only [ext_append_hi, ext_append_lo, ext_append_mid, bit_append_hi, bit_append_lo, Nat.reduceSub]
  simp
theorem addi (d : BitVec 8) (a : BitVec 8) (i : BitVec 10) : Statement (.addi d a i) := fun wf_ => by
  have hm : (BitVec.extractLsb' 26 6 (0x8#6 ++ d ++ a ++ i : BitVec 32)).toNat = 8 := by
    simp (disch := decide) only [ext_append_hi, Nat.reduceSub]; rfl
  refine decodeScalar_of 8 hm (by decide) ?_ wf_
  unfold scalarRow
  rw [hm]
  simp (disch := decide) only [ext_append_hi, ext_append_lo, ext_append_mid, bit_append_hi, bit_append_lo, Nat.reduceSub]
  simp
theorem andi (d : BitVec 8) (a : BitVec 8) (i : BitVec 10) : Statement (.andi d a i) := fun wf_ => by
  have hm : (BitVec.extractLsb' 26 6 (0x9#6 ++ d ++ a ++ i : BitVec 32)).toNat = 9 := by
    simp (disch := decide) only [ext_append_hi, Nat.reduceSub]; rfl
  refine decodeScalar_of 9 hm (by decide) ?_ wf_
  unfold scalarRow
  rw [hm]
  simp (disch := decide) only [ext_append_hi, ext_append_lo, ext_append_mid, bit_append_hi, bit_append_lo, Nat.reduceSub]
  simp
theorem ori (d : BitVec 8) (a : BitVec 8) (i : BitVec 10) : Statement (.ori d a i) := fun wf_ => by
  have hm : (BitVec.extractLsb' 26 6 (0xA#6 ++ d ++ a ++ i : BitVec 32)).toNat = 10 := by
    simp (disch := decide) only [ext_append_hi, Nat.reduceSub]; rfl
  refine decodeScalar_of 10 hm (by decide) ?_ wf_
  unfold scalarRow
  rw [hm]
  simp (disch := decide) only [ext_append_hi, ext_append_lo, ext_append_mid, bit_append_hi, bit_append_lo, Nat.reduceSub]
  simp
theorem xori (d : BitVec 8) (a : BitVec 8) (i : BitVec 10) : Statement (.xori d a i) := fun wf_ => by
  have hm : (BitVec.extractLsb' 26 6 (0xB#6 ++ d ++ a ++ i : BitVec 32)).toNat = 11 := by
    simp (disch := decide) only [ext_append_hi, Nat.reduceSub]; rfl
  refine decodeScalar_of 11 hm (by decide) ?_ wf_
  unfold scalarRow
  rw [hm]
  simp (disch := decide) only [ext_append_hi, ext_append_lo, ext_append_mid, bit_append_hi, bit_append_lo, Nat.reduceSub]
  simp
theorem shli (d : BitVec 8) (a : BitVec 8) (n : BitVec 6) : Statement (.shli d a n) := fun wf_ => by
  have hm : (BitVec.extractLsb' 26 6 (0xC#6 ++ d ++ a ++ 0x0#4 ++ n : BitVec 32)).toNat = 12 := by
    simp (disch := decide) only [ext_append_hi, Nat.reduceSub]; rfl
  refine decodeScalar_of 12 hm (by decide) ?_ wf_
  unfold scalarRow
  rw [hm]
  simp (disch := decide) only [ext_append_hi, ext_append_lo, ext_append_mid, bit_append_hi, bit_append_lo, Nat.reduceSub]
  simp
theorem shri (d : BitVec 8) (a : BitVec 8) (n : BitVec 6) : Statement (.shri d a n) := fun wf_ => by
  have hm : (BitVec.extractLsb' 26 6 (0xC#6 ++ d ++ a ++ 0x4#4 ++ n : BitVec 32)).toNat = 12 := by
    simp (disch := decide) only [ext_append_hi, Nat.reduceSub]; rfl
  refine decodeScalar_of 12 hm (by decide) ?_ wf_
  unfold scalarRow
  rw [hm]
  simp (disch := decide) only [ext_append_hi, ext_append_lo, ext_append_mid, bit_append_hi, bit_append_lo, Nat.reduceSub]
  simp
theorem sari (d : BitVec 8) (a : BitVec 8) (n : BitVec 6) : Statement (.sari d a n) := fun wf_ => by
  have hm : (BitVec.extractLsb' 26 6 (0xC#6 ++ d ++ a ++ 0x8#4 ++ n : BitVec 32)).toNat = 12 := by
    simp (disch := decide) only [ext_append_hi, Nat.reduceSub]; rfl
  refine decodeScalar_of 12 hm (by decide) ?_ wf_
  unfold scalarRow
  rw [hm]
  simp (disch := decide) only [ext_append_hi, ext_append_lo, ext_append_mid, bit_append_hi, bit_append_lo, Nat.reduceSub]
  simp
theorem slti (d : BitVec 8) (a : BitVec 8) (i : BitVec 9) : Statement (.slti d a i) := fun wf_ => by
  have hm : (BitVec.extractLsb' 26 6 (0xD#6 ++ d ++ a ++ 0x0#1 ++ i : BitVec 32)).toNat = 13 := by
    simp (disch := decide) only [ext_append_hi, Nat.reduceSub]; rfl
  refine decodeScalar_of 13 hm (by decide) ?_ wf_
  unfold scalarRow
  rw [hm]
  simp (disch := decide) only [ext_append_hi, ext_append_lo, ext_append_mid, bit_append_hi, bit_append_lo, Nat.reduceSub]
  simp
theorem sltni (d : BitVec 8) (a : BitVec 8) (i : BitVec 9) : Statement (.sltni d a i) := fun wf_ => by
  have hm : (BitVec.extractLsb' 26 6 (0xD#6 ++ d ++ a ++ 0x1#1 ++ i : BitVec 32)).toNat = 13 := by
    simp (disch := decide) only [ext_append_hi, Nat.reduceSub]; rfl
  refine decodeScalar_of 13 hm (by decide) ?_ wf_
  unfold scalarRow
  rw [hm]
  simp (disch := decide) only [ext_append_hi, ext_append_lo, ext_append_mid, bit_append_hi, bit_append_lo, Nat.reduceSub]
  simp
theorem li (d : BitVec 8) (i : BitVec 18) : Statement (.li d i) := fun wf_ => by
  have hm : (BitVec.extractLsb' 26 6 (0xE#6 ++ d ++ i : BitVec 32)).toNat = 14 := by
    simp (disch := decide) only [ext_append_hi, Nat.reduceSub]; rfl
  refine decodeScalar_of 14 hm (by decide) ?_ wf_
  unfold scalarRow
  rw [hm]
  simp (disch := decide) only [ext_append_hi, ext_append_lo, ext_append_mid, bit_append_hi, bit_append_lo, Nat.reduceSub]
  simp
theorem ldlit (d : BitVec 8) (n : BitVec 18) : Statement (.ldlit d n) := fun wf_ => by
  have hm : (BitVec.extractLsb' 26 6 (0xF#6 ++ d ++ n : BitVec 32)).toNat = 15 := by
    simp (disch := decide) only [ext_append_hi, Nat.reduceSub]; rfl
  refine decodeScalar_of 15 hm (by decide) ?_ wf_
  unfold scalarRow
  rw [hm]
  simp (disch := decide) only [ext_append_hi, ext_append_lo, ext_append_mid, bit_append_hi, bit_append_lo, Nat.reduceSub]
  simp
theorem br (a : BitVec 8) (c : BitVec 4) (o : BitVec 14) : Statement (.br a c o) := fun wf_ => by
  have hm : (BitVec.extractLsb' 26 6 (0x10#6 ++ a ++ c ++ o : BitVec 32)).toNat = 16 := by
    simp (disch := decide) only [ext_append_hi, Nat.reduceSub]; rfl
  refine decodeScalar_of 16 hm (by decide) ?_ wf_
  unfold scalarRow
  rw [hm]
  simp (disch := decide) only [ext_append_hi, ext_append_lo, ext_append_mid, bit_append_hi, bit_append_lo, Nat.reduceSub]
  simp
theorem jmp (o : BitVec 26) : Statement (.jmp o) := fun wf_ => by
  have hm : (BitVec.extractLsb' 26 6 (0x11#6 ++ o : BitVec 32)).toNat = 17 := by
    simp (disch := decide) only [ext_append_hi, Nat.reduceSub]; rfl
  refine decodeScalar_of 17 hm (by decide) ?_ wf_
  unfold scalarRow
  rw [hm]
  simp (disch := decide) only [ext_append_hi, ext_append_lo, ext_append_mid, bit_append_hi, bit_append_lo, Nat.reduceSub]
  simp
theorem call (o : BitVec 26) : Statement (.call o) := fun wf_ => by
  have hm : (BitVec.extractLsb' 26 6 (0x12#6 ++ o : BitVec 32)).toNat = 18 := by
    simp (disch := decide) only [ext_append_hi, Nat.reduceSub]; rfl
  refine decodeScalar_of 18 hm (by decide) ?_ wf_
  unfold scalarRow
  rw [hm]
  simp (disch := decide) only [ext_append_hi, ext_append_lo, ext_append_mid, bit_append_hi, bit_append_lo, Nat.reduceSub]
  simp
theorem jr (a : BitVec 8) : Statement (.jr a) := fun wf_ => by
  have hm : (BitVec.extractLsb' 26 6 (0x1300#14 ++ a ++ 0x0#10 : BitVec 32)).toNat = 19 := by
    simp (disch := decide) only [ext_append_hi, Nat.reduceSub]; rfl
  refine decodeScalar_of 19 hm (by decide) ?_ wf_
  unfold scalarRow
  rw [hm]
  simp (disch := decide) only [ext_append_hi, ext_append_lo, ext_append_mid, bit_append_hi, bit_append_lo, Nat.reduceSub]
  simp
theorem callr (a : BitVec 8) : Statement (.callr a) := fun wf_ => by
  have hm : (BitVec.extractLsb' 26 6 (0x1300#14 ++ a ++ 0x1#10 : BitVec 32)).toNat = 19 := by
    simp (disch := decide) only [ext_append_hi, Nat.reduceSub]; rfl
  refine decodeScalar_of 19 hm (by decide) ?_ wf_
  unfold scalarRow
  rw [hm]
  simp (disch := decide) only [ext_append_hi, ext_append_lo, ext_append_mid, bit_append_hi, bit_append_lo, Nat.reduceSub]
  simp
theorem ret : Statement .ret := fun _ => show decodeScalar 0x4C000002#32 = .ok .ret from rfl
theorem lrun (o : BitVec 22) : Statement (.lrun o) := fun wf_ => by
  have hm : (BitVec.extractLsb' 26 6 (0x140#10 ++ o : BitVec 32)).toNat = 20 := by
    simp (disch := decide) only [ext_append_hi, Nat.reduceSub]; rfl
  refine decodeScalar_of 20 hm (by decide) ?_ wf_
  unfold scalarRow
  rw [hm]
  simp (disch := decide) only [ext_append_hi, ext_append_lo, ext_append_mid, bit_append_hi, bit_append_lo, Nat.reduceSub]
  simp
theorem lrunr (a : BitVec 8) : Statement (.lrunr a) := fun wf_ => by
  have hm : (BitVec.extractLsb' 26 6 (0x54000#20 ++ a ++ 0x0#4 : BitVec 32)).toNat = 21 := by
    simp (disch := decide) only [ext_append_hi, Nat.reduceSub]; rfl
  refine decodeScalar_of 21 hm (by decide) ?_ wf_
  unfold scalarRow
  rw [hm]
  simp (disch := decide) only [ext_append_hi, ext_append_lo, ext_append_mid, bit_append_hi, bit_append_lo, Nat.reduceSub]
  simp
theorem swait (n : BitVec 8) (c : BitVec 4) : Statement (.swait n c) := fun wf_ => by
  have hm : (BitVec.extractLsb' 26 6 (0x580#12 ++ n ++ 0x0#8 ++ c : BitVec 32)).toNat = 22 := by
    simp (disch := decide) only [ext_append_hi, Nat.reduceSub]; rfl
  refine decodeScalar_of 22 hm (by decide) ?_ wf_
  unfold scalarRow
  rw [hm]
  simp (disch := decide) only [ext_append_hi, ext_append_lo, ext_append_mid, bit_append_hi, bit_append_lo, Nat.reduceSub]
  simp
theorem yield : Statement .yield := fun _ => show decodeScalar 0x58100000#32 = .ok .yield from rfl
theorem twait (a : BitVec 8) : Statement (.twait a) := fun wf_ => by
  have hm : (BitVec.extractLsb' 26 6 (0x58200#20 ++ a ++ 0x0#4 : BitVec 32)).toNat = 22 := by
    simp (disch := decide) only [ext_append_hi, Nat.reduceSub]; rfl
  refine decodeScalar_of 22 hm (by decide) ?_ wf_
  unfold scalarRow
  rw [hm]
  simp (disch := decide) only [ext_append_hi, ext_append_lo, ext_append_mid, bit_append_hi, bit_append_lo, Nat.reduceSub]
  simp
theorem bar : Statement .bar := fun _ => show decodeScalar 0x5C000000#32 = .ok .bar from rfl
theorem fbar : Statement .fbar := fun _ => show decodeScalar 0x5C100000#32 = .ok .fbar from rfl
theorem cbar (c : BitVec 3) : Statement (.cbar c) := fun wf_ => by
  have hm : (BitVec.extractLsb' 26 6 (0xB840000#29 ++ c : BitVec 32)).toNat = 23 := by
    simp (disch := decide) only [ext_append_hi, Nat.reduceSub]; rfl
  refine decodeScalar_of 23 hm (by decide) ?_ wf_
  unfold scalarRow
  rw [hm]
  simp (disch := decide) only [ext_append_hi, ext_append_lo, ext_append_mid, bit_append_hi, bit_append_lo, Nat.reduceSub]
  simp
theorem gbar : Statement .gbar := fun _ => show decodeScalar 0x5C300000#32 = .ok .gbar from rfl
theorem cjoin (c : BitVec 3) : Statement (.cjoin c) := fun wf_ => by
  have hm : (BitVec.extractLsb' 26 6 (0xB880000#29 ++ c : BitVec 32)).toNat = 23 := by
    simp (disch := decide) only [ext_append_hi, Nat.reduceSub]; rfl
  refine decodeScalar_of 23 hm (by decide) ?_ wf_
  unfold scalarRow
  rw [hm]
  simp (disch := decide) only [ext_append_hi, ext_append_lo, ext_append_mid, bit_append_hi, bit_append_lo, Nat.reduceSub]
  simp
theorem cleave (c : BitVec 3) : Statement (.cleave c) := fun wf_ => by
  have hm : (BitVec.extractLsb' 26 6 (0xB8A0000#29 ++ c : BitVec 32)).toNat = 23 := by
    simp (disch := decide) only [ext_append_hi, Nat.reduceSub]; rfl
  refine decodeScalar_of 23 hm (by decide) ?_ wf_
  unfold scalarRow
  rw [hm]
  simp (disch := decide) only [ext_append_hi, ext_append_lo, ext_append_mid, bit_append_hi, bit_append_lo, Nat.reduceSub]
  simp
theorem sget (d : BitVec 8) (n : BitVec 8) : Statement (.sget d n) := fun wf_ => by
  have hm : (BitVec.extractLsb' 26 6 (0x600#12 ++ d ++ n ++ 0x0#4 : BitVec 32)).toNat = 24 := by
    simp (disch := decide) only [ext_append_hi, Nat.reduceSub]; rfl
  refine decodeScalar_of 24 hm (by decide) ?_ wf_
  unfold scalarRow
  rw [hm]
  simp (disch := decide) only [ext_append_hi, ext_append_lo, ext_append_mid, bit_append_hi, bit_append_lo, Nat.reduceSub]
  simp
theorem sset (n : BitVec 8) (a : BitVec 8) : Statement (.sset n a) := fun wf_ => by
  have hm : (BitVec.extractLsb' 26 6 (0x601#12 ++ n ++ a ++ 0x0#4 : BitVec 32)).toNat = 24 := by
    simp (disch := decide) only [ext_append_hi, Nat.reduceSub]; rfl
  refine decodeScalar_of 24 hm (by decide) ?_ wf_
  unfold scalarRow
  rw [hm]
  simp (disch := decide) only [ext_append_hi, ext_append_lo, ext_append_mid, bit_append_hi, bit_append_lo, Nat.reduceSub]
  simp
theorem xacq : Statement .xacq := fun _ => show decodeScalar 0x60200000#32 = .ok .xacq from rfl
theorem xrel : Statement .xrel := fun _ => show decodeScalar 0x60300000#32 = .ok .xrel from rfl
theorem sld8 (d : BitVec 8) (a : BitVec 8) (p : Bool) (o : BitVec 9) : Statement (.sld8 d a p o) := fun wf_ => by
  have hm : (BitVec.extractLsb' 26 6 (0x19#6 ++ d ++ a ++ bit1 p ++ o : BitVec 32)).toNat = 25 := by
    simp (disch := decide) only [ext_append_hi, Nat.reduceSub]; rfl
  refine decodeScalar_of 25 hm (by decide) ?_ wf_
  unfold scalarRow
  rw [hm]
  simp (disch := decide) only [ext_append_hi, ext_append_lo, ext_append_mid, bit_append_hi, bit_append_lo, Nat.reduceSub]
  simp
theorem sld16 (d : BitVec 8) (a : BitVec 8) (p : Bool) (o : BitVec 9) : Statement (.sld16 d a p o) := fun wf_ => by
  have hm : (BitVec.extractLsb' 26 6 (0x1A#6 ++ d ++ a ++ bit1 p ++ o : BitVec 32)).toNat = 26 := by
    simp (disch := decide) only [ext_append_hi, Nat.reduceSub]; rfl
  refine decodeScalar_of 26 hm (by decide) ?_ wf_
  unfold scalarRow
  rw [hm]
  simp (disch := decide) only [ext_append_hi, ext_append_lo, ext_append_mid, bit_append_hi, bit_append_lo, Nat.reduceSub]
  simp
theorem sld32 (d : BitVec 8) (a : BitVec 8) (p : Bool) (o : BitVec 9) : Statement (.sld32 d a p o) := fun wf_ => by
  have hm : (BitVec.extractLsb' 26 6 (0x1B#6 ++ d ++ a ++ bit1 p ++ o : BitVec 32)).toNat = 27 := by
    simp (disch := decide) only [ext_append_hi, Nat.reduceSub]; rfl
  refine decodeScalar_of 27 hm (by decide) ?_ wf_
  unfold scalarRow
  rw [hm]
  simp (disch := decide) only [ext_append_hi, ext_append_lo, ext_append_mid, bit_append_hi, bit_append_lo, Nat.reduceSub]
  simp
theorem sld64 (d : BitVec 8) (a : BitVec 8) (p : Bool) (o : BitVec 9) : Statement (.sld64 d a p o) := fun wf_ => by
  have hm : (BitVec.extractLsb' 26 6 (0x1C#6 ++ d ++ a ++ bit1 p ++ o : BitVec 32)).toNat = 28 := by
    simp (disch := decide) only [ext_append_hi, Nat.reduceSub]; rfl
  refine decodeScalar_of 28 hm (by decide) ?_ wf_
  unfold scalarRow
  rw [hm]
  simp (disch := decide) only [ext_append_hi, ext_append_lo, ext_append_mid, bit_append_hi, bit_append_lo, Nat.reduceSub]
  simp
theorem sst8 (d : BitVec 8) (a : BitVec 8) (p : Bool) (o : BitVec 9) : Statement (.sst8 d a p o) := fun wf_ => by
  have hm : (BitVec.extractLsb' 26 6 (0x1D#6 ++ d ++ a ++ bit1 p ++ o : BitVec 32)).toNat = 29 := by
    simp (disch := decide) only [ext_append_hi, Nat.reduceSub]; rfl
  refine decodeScalar_of 29 hm (by decide) ?_ wf_
  unfold scalarRow
  rw [hm]
  simp (disch := decide) only [ext_append_hi, ext_append_lo, ext_append_mid, bit_append_hi, bit_append_lo, Nat.reduceSub]
  simp
theorem sst16 (d : BitVec 8) (a : BitVec 8) (p : Bool) (o : BitVec 9) : Statement (.sst16 d a p o) := fun wf_ => by
  have hm : (BitVec.extractLsb' 26 6 (0x1E#6 ++ d ++ a ++ bit1 p ++ o : BitVec 32)).toNat = 30 := by
    simp (disch := decide) only [ext_append_hi, Nat.reduceSub]; rfl
  refine decodeScalar_of 30 hm (by decide) ?_ wf_
  unfold scalarRow
  rw [hm]
  simp (disch := decide) only [ext_append_hi, ext_append_lo, ext_append_mid, bit_append_hi, bit_append_lo, Nat.reduceSub]
  simp
theorem sst32 (d : BitVec 8) (a : BitVec 8) (p : Bool) (o : BitVec 9) : Statement (.sst32 d a p o) := fun wf_ => by
  have hm : (BitVec.extractLsb' 26 6 (0x1F#6 ++ d ++ a ++ bit1 p ++ o : BitVec 32)).toNat = 31 := by
    simp (disch := decide) only [ext_append_hi, Nat.reduceSub]; rfl
  refine decodeScalar_of 31 hm (by decide) ?_ wf_
  unfold scalarRow
  rw [hm]
  simp (disch := decide) only [ext_append_hi, ext_append_lo, ext_append_mid, bit_append_hi, bit_append_lo, Nat.reduceSub]
  simp
theorem sst64 (d : BitVec 8) (a : BitVec 8) (p : Bool) (o : BitVec 9) : Statement (.sst64 d a p o) := fun wf_ => by
  have hm : (BitVec.extractLsb' 26 6 (0x20#6 ++ d ++ a ++ bit1 p ++ o : BitVec 32)).toNat = 32 := by
    simp (disch := decide) only [ext_append_hi, Nat.reduceSub]; rfl
  refine decodeScalar_of 32 hm (by decide) ?_ wf_
  unfold scalarRow
  rw [hm]
  simp (disch := decide) only [ext_append_hi, ext_append_lo, ext_append_mid, bit_append_hi, bit_append_lo, Nat.reduceSub]
  simp
theorem acq (s : BitVec 2) (a : BitVec 8) : Statement (.acq s a) := fun wf_ => by
  have hm : (BitVec.extractLsb' 26 6 (0x84#8 ++ s ++ 0x0#10 ++ a ++ 0x0#4 : BitVec 32)).toNat = 33 := by
    simp (disch := decide) only [ext_append_hi, Nat.reduceSub]; rfl
  refine decodeScalar_of 33 hm (by decide) ?_ wf_
  unfold scalarRow
  rw [hm]
  simp (disch := decide) only [ext_append_hi, ext_append_lo, ext_append_mid, bit_append_hi, bit_append_lo, Nat.reduceSub]
  simp
theorem rel (s : BitVec 2) : Statement (.rel s) := fun wf_ => by
  have hm : (BitVec.extractLsb' 26 6 (0x84#8 ++ s ++ 0x100000#22 : BitVec 32)).toNat = 33 := by
    simp (disch := decide) only [ext_append_hi, Nat.reduceSub]; rfl
  refine decodeScalar_of 33 hm (by decide) ?_ wf_
  unfold scalarRow
  rw [hm]
  simp (disch := decide) only [ext_append_hi, ext_append_lo, ext_append_mid, bit_append_hi, bit_append_lo, Nat.reduceSub]
  simp
theorem fence (s : BitVec 2) (a : BitVec 8) : Statement (.fence s a) := fun wf_ => by
  have hm : (BitVec.extractLsb' 26 6 (0x84#8 ++ s ++ 0x200#10 ++ a ++ 0x0#4 : BitVec 32)).toNat = 33 := by
    simp (disch := decide) only [ext_append_hi, Nat.reduceSub]; rfl
  refine decodeScalar_of 33 hm (by decide) ?_ wf_
  unfold scalarRow
  rw [hm]
  simp (disch := decide) only [ext_append_hi, ext_append_lo, ext_append_mid, bit_append_hi, bit_append_lo, Nat.reduceSub]
  simp
theorem rinse (a : BitVec 8) : Statement (.rinse a) := fun wf_ => by
  have hm : (BitVec.extractLsb' 26 6 (0x84300#20 ++ a ++ 0x0#4 : BitVec 32)).toNat = 33 := by
    simp (disch := decide) only [ext_append_hi, Nat.reduceSub]; rfl
  refine decodeScalar_of 33 hm (by decide) ?_ wf_
  unfold scalarRow
  rw [hm]
  simp (disch := decide) only [ext_append_hi, ext_append_lo, ext_append_mid, bit_append_hi, bit_append_lo, Nat.reduceSub]
  simp
theorem sldStrong (s : BitVec 2) (o : Bool) (d : BitVec 8) (a : BitVec 8) (w : BitVec 2) : Statement (.sldStrong s o d a w) := fun wf_ => by
  have hm : (BitVec.extractLsb' 26 6 (0x85#8 ++ s ++ 0x0#1 ++ bit1 o ++ d ++ a ++ 0x0#2 ++ w : BitVec 32)).toNat = 33 := by
    simp (disch := decide) only [ext_append_hi, Nat.reduceSub]; rfl
  refine decodeScalar_of 33 hm (by decide) ?_ wf_
  unfold scalarRow
  rw [hm]
  simp (disch := decide) only [ext_append_hi, ext_append_lo, ext_append_mid, bit_append_hi, bit_append_lo, Nat.reduceSub]
  simp
theorem sstStrong (s : BitVec 2) (o : Bool) (d : BitVec 8) (a : BitVec 8) (w : BitVec 2) : Statement (.sstStrong s o d a w) := fun wf_ => by
  have hm : (BitVec.extractLsb' 26 6 (0x86#8 ++ s ++ 0x0#1 ++ bit1 o ++ d ++ a ++ 0x0#2 ++ w : BitVec 32)).toNat = 33 := by
    simp (disch := decide) only [ext_append_hi, Nat.reduceSub]; rfl
  refine decodeScalar_of 33 hm (by decide) ?_ wf_
  unfold scalarRow
  rw [hm]
  simp (disch := decide) only [ext_append_hi, ext_append_lo, ext_append_mid, bit_append_hi, bit_append_lo, Nat.reduceSub]
  simp
theorem satom (o : BitVec 2) (s : BitVec 2) (z : Bool) (d : BitVec 8) (a : BitVec 8) (x : BitVec 4) : Statement (.satom o s z d a x) := fun wf_ => by
  have hm : (BitVec.extractLsb' 26 6 (0x44#7 ++ o ++ s ++ bit1 z ++ d ++ a ++ x : BitVec 32)).toNat = 34 := by
    simp (disch := decide) only [ext_append_hi, Nat.reduceSub]; rfl
  refine decodeScalar_of 34 hm (by decide) ?_ wf_
  unfold scalarRow
  rw [hm]
  simp (disch := decide) only [ext_append_hi, ext_append_lo, ext_append_mid, bit_append_hi, bit_append_lo, Nat.reduceSub]
  simp
theorem scas (o : BitVec 2) (s : BitVec 2) (z : Bool) (d : BitVec 8) (a : BitVec 8) : Statement (.scas o s z d a) := fun wf_ => by
  have hm : (BitVec.extractLsb' 26 6 (0x45#7 ++ o ++ s ++ bit1 z ++ d ++ a ++ 0x0#4 : BitVec 32)).toNat = 34 := by
    simp (disch := decide) only [ext_append_hi, Nat.reduceSub]; rfl
  refine decodeScalar_of 34 hm (by decide) ?_ wf_
  unfold scalarRow
  rw [hm]
  simp (disch := decide) only [ext_append_hi, ext_append_lo, ext_append_mid, bit_append_hi, bit_append_lo, Nat.reduceSub]
  simp
theorem chsend (c : BitVec 6) (a : BitVec 8) (p : Bool) : Statement (.chsend c a p) := fun wf_ => by
  have hm : (BitVec.extractLsb' 26 6 (0x8C#8 ++ c ++ 0x0#8 ++ a ++ 0x0#1 ++ bit1 p : BitVec 32)).toNat = 35 := by
    simp (disch := decide) only [ext_append_hi, Nat.reduceSub]; rfl
  refine decodeScalar_of 35 hm (by decide) ?_ wf_
  unfold scalarRow
  rw [hm]
  simp (disch := decide) only [ext_append_hi, ext_append_lo, ext_append_mid, bit_append_hi, bit_append_lo, Nat.reduceSub]
  simp
theorem chrecv (c : BitVec 6) (d : BitVec 8) (a : BitVec 8) (p : Bool) : Statement (.chrecv c d a p) := fun wf_ => by
  have hm : (BitVec.extractLsb' 26 6 (0x8D#8 ++ c ++ d ++ a ++ 0x0#1 ++ bit1 p : BitVec 32)).toNat = 35 := by
    simp (disch := decide) only [ext_append_hi, Nat.reduceSub]; rfl
  refine decodeScalar_of 35 hm (by decide) ?_ wf_
  unfold scalarRow
  rw [hm]
  simp (disch := decide) only [ext_append_hi, ext_append_lo, ext_append_mid, bit_append_hi, bit_append_lo, Nat.reduceSub]
  simp
theorem chpoll (c : BitVec 6) (d : BitVec 8) : Statement (.chpoll c d) := fun wf_ => by
  have hm : (BitVec.extractLsb' 26 6 (0x8E#8 ++ c ++ d ++ 0x0#10 : BitVec 32)).toNat = 35 := by
    simp (disch := decide) only [ext_append_hi, Nat.reduceSub]; rfl
  refine decodeScalar_of 35 hm (by decide) ?_ wf_
  unfold scalarRow
  rw [hm]
  simp (disch := decide) only [ext_append_hi, ext_append_lo, ext_append_mid, bit_append_hi, bit_append_lo, Nat.reduceSub]
  simp
theorem satCopy (a : BitVec 8) : Statement (.satCopy a) := fun wf_ => by
  have hm : (BitVec.extractLsb' 26 6 (0x90000#20 ++ a ++ 0x0#4 : BitVec 32)).toNat = 36 := by
    simp (disch := decide) only [ext_append_hi, Nat.reduceSub]; rfl
  refine decodeScalar_of 36 hm (by decide) ?_ wf_
  unfold scalarRow
  rw [hm]
  simp (disch := decide) only [ext_append_hi, ext_append_lo, ext_append_mid, bit_append_hi, bit_append_lo, Nat.reduceSub]
  simp
theorem satBatch (a : BitVec 8) (n : BitVec 4) : Statement (.satBatch a n) := fun wf_ => by
  have hm : (BitVec.extractLsb' 26 6 (0x90100#20 ++ a ++ n : BitVec 32)).toNat = 36 := by
    simp (disch := decide) only [ext_append_hi, Nat.reduceSub]; rfl
  refine decodeScalar_of 36 hm (by decide) ?_ wf_
  unfold scalarRow
  rw [hm]
  simp (disch := decide) only [ext_append_hi, ext_append_lo, ext_append_mid, bit_append_hi, bit_append_lo, Nat.reduceSub]
  simp
theorem satCancel (a : BitVec 8) : Statement (.satCancel a) := fun wf_ => by
  have hm : (BitVec.extractLsb' 26 6 (0x90200#20 ++ a ++ 0x0#4 : BitVec 32)).toNat = 36 := by
    simp (disch := decide) only [ext_append_hi, Nat.reduceSub]; rfl
  refine decodeScalar_of 36 hm (by decide) ?_ wf_
  unfold scalarRow
  rw [hm]
  simp (disch := decide) only [ext_append_hi, ext_append_lo, ext_append_mid, bit_append_hi, bit_append_lo, Nat.reduceSub]
  simp
theorem bwait (d : BitVec 8) (a : BitVec 8) : Statement (.bwait d a) := fun wf_ => by
  have hm : (BitVec.extractLsb' 26 6 (0x903#12 ++ d ++ a ++ 0x0#4 : BitVec 32)).toNat = 36 := by
    simp (disch := decide) only [ext_append_hi, Nat.reduceSub]; rfl
  refine decodeScalar_of 36 hm (by decide) ?_ wf_
  unfold scalarRow
  rw [hm]
  simp (disch := decide) only [ext_append_hi, ext_append_lo, ext_append_mid, bit_append_hi, bit_append_lo, Nat.reduceSub]
  simp
theorem rowact (a : BitVec 8) : Statement (.rowact a) := fun wf_ => by
  have hm : (BitVec.extractLsb' 26 6 (0x94000#20 ++ a ++ 0x0#4 : BitVec 32)).toNat = 37 := by
    simp (disch := decide) only [ext_append_hi, Nat.reduceSub]; rfl
  refine decodeScalar_of 37 hm (by decide) ?_ wf_
  unfold scalarRow
  rw [hm]
  simp (disch := decide) only [ext_append_hi, ext_append_lo, ext_append_mid, bit_append_hi, bit_append_lo, Nat.reduceSub]
  simp
theorem rowcon (a : BitVec 8) (b : Bool) : Statement (.rowcon a b) := fun wf_ => by
  have hm : (BitVec.extractLsb' 26 6 (0x94100#20 ++ a ++ 0x0#3 ++ bit1 b : BitVec 32)).toNat = 37 := by
    simp (disch := decide) only [ext_append_hi, Nat.reduceSub]; rfl
  refine decodeScalar_of 37 hm (by decide) ?_ wf_
  unfold scalarRow
  rw [hm]
  simp (disch := decide) only [ext_append_hi, ext_append_lo, ext_append_mid, bit_append_hi, bit_append_lo, Nat.reduceSub]
  simp
theorem rowpre (a : BitVec 8) : Statement (.rowpre a) := fun wf_ => by
  have hm : (BitVec.extractLsb' 26 6 (0x94200#20 ++ a ++ 0x0#4 : BitVec 32)).toNat = 37 := by
    simp (disch := decide) only [ext_append_hi, Nat.reduceSub]; rfl
  refine decodeScalar_of 37 hm (by decide) ?_ wf_
  unfold scalarRow
  rw [hm]
  simp (disch := decide) only [ext_append_hi, ext_append_lo, ext_append_mid, bit_append_hi, bit_append_lo, Nat.reduceSub]
  simp
theorem rowwait (a : BitVec 8) (k : BitVec 2) : Statement (.rowwait a k) := fun wf_ => by
  have hm : (BitVec.extractLsb' 26 6 (0x94300#20 ++ a ++ 0x0#2 ++ k : BitVec 32)).toNat = 37 := by
    simp (disch := decide) only [ext_append_hi, Nat.reduceSub]; rfl
  refine decodeScalar_of 37 hm (by decide) ?_ wf_
  unfold scalarRow
  rw [hm]
  simp (disch := decide) only [ext_append_hi, ext_append_lo, ext_append_mid, bit_append_hi, bit_append_lo, Nat.reduceSub]
  simp
theorem rowstat (d : BitVec 8) (a : BitVec 8) (k : BitVec 2) : Statement (.rowstat d a k) := fun wf_ => by
  have hm : (BitVec.extractLsb' 26 6 (0x944#12 ++ d ++ a ++ 0x0#2 ++ k : BitVec 32)).toNat = 37 := by
    simp (disch := decide) only [ext_append_hi, Nat.reduceSub]; rfl
  refine decodeScalar_of 37 hm (by decide) ?_ wf_
  unfold scalarRow
  rw [hm]
  simp (disch := decide) only [ext_append_hi, ext_append_lo, ext_append_mid, bit_append_hi, bit_append_lo, Nat.reduceSub]
  simp
theorem hemset (h : BitVec 5) (a : BitVec 8) (t : BitVec 2) : Statement (.hemset h a t) := fun wf_ => by
  have hm : (BitVec.extractLsb' 26 6 (0x4C00#15 ++ h ++ a ++ 0x0#2 ++ t : BitVec 32)).toNat = 38 := by
    simp (disch := decide) only [ext_append_hi, Nat.reduceSub]; rfl
  refine decodeScalar_of 38 hm (by decide) ?_ wf_
  unfold scalarRow
  rw [hm]
  simp (disch := decide) only [ext_append_hi, ext_append_lo, ext_append_mid, bit_append_hi, bit_append_lo, Nat.reduceSub]
  simp
theorem hemget (d : BitVec 8) (h : BitVec 5) : Statement (.hemget d h) := fun wf_ => by
  have hm : (BitVec.extractLsb' 26 6 (0x981#12 ++ d ++ 0x0#3 ++ h ++ 0x0#4 : BitVec 32)).toNat = 38 := by
    simp (disch := decide) only [ext_append_hi, Nat.reduceSub]; rfl
  refine decodeScalar_of 38 hm (by decide) ?_ wf_
  unfold scalarRow
  rw [hm]
  simp (disch := decide) only [ext_append_hi, ext_append_lo, ext_append_mid, bit_append_hi, bit_append_lo, Nat.reduceSub]
  simp
theorem trap (c : BitVec 8) : Statement (.trap c) := fun wf_ => by
  have hm : (BitVec.extractLsb' 26 6 (0x9C000#20 ++ c ++ 0x0#4 : BitVec 32)).toNat = 39 := by
    simp (disch := decide) only [ext_append_hi, Nat.reduceSub]; rfl
  refine decodeScalar_of 39 hm (by decide) ?_ wf_
  unfold scalarRow
  rw [hm]
  simp (disch := decide) only [ext_append_hi, ext_append_lo, ext_append_mid, bit_append_hi, bit_append_lo, Nat.reduceSub]
  simp
theorem tret : Statement .tret := fun _ => show decodeScalar 0x9C100000#32 = .ok .tret from rfl
theorem brk (c : BitVec 8) : Statement (.brk c) := fun wf_ => by
  have hm : (BitVec.extractLsb' 26 6 (0x9C200#20 ++ c ++ 0x0#4 : BitVec 32)).toNat = 39 := by
    simp (disch := decide) only [ext_append_hi, Nat.reduceSub]; rfl
  refine decodeScalar_of 39 hm (by decide) ?_ wf_
  unfold scalarRow
  rw [hm]
  simp (disch := decide) only [ext_append_hi, ext_append_lo, ext_append_mid, bit_append_hi, bit_append_lo, Nat.reduceSub]
  simp
theorem hidget (d : BitVec 8) (n : BitVec 4) : Statement (.hidget d n) := fun wf_ => by
  have hm : (BitVec.extractLsb' 26 6 (0x9C3#12 ++ d ++ 0x0#8 ++ n : BitVec 32)).toNat = 39 := by
    simp (disch := decide) only [ext_append_hi, Nat.reduceSub]; rfl
  refine decodeScalar_of 39 hm (by decide) ?_ wf_
  unfold scalarRow
  rw [hm]
  simp (disch := decide) only [ext_append_hi, ext_append_lo, ext_append_mid, bit_append_hi, bit_append_lo, Nat.reduceSub]
  simp
theorem hidput (a : BitVec 8) (n : BitVec 4) : Statement (.hidput a n) := fun wf_ => by
  have hm : (BitVec.extractLsb' 26 6 (0x9C400#20 ++ a ++ n : BitVec 32)).toNat = 39 := by
    simp (disch := decide) only [ext_append_hi, Nat.reduceSub]; rfl
  refine decodeScalar_of 39 hm (by decide) ?_ wf_
  unfold scalarRow
  rw [hm]
  simp (disch := decide) only [ext_append_hi, ext_append_lo, ext_append_mid, bit_append_hi, bit_append_lo, Nat.reduceSub]
  simp
theorem exit : Statement .exit := fun _ => show decodeScalar 0x9C500000#32 = .ok .exit from rfl
theorem vadd (w : LaneWord) : Statement (.vadd w) := fun _ => decodeLane_encLane (by decide) rfl
theorem vsub (w : LaneWord) : Statement (.vsub w) := fun _ => decodeLane_encLane (by decide) rfl
theorem vmul (w : LaneWord) : Statement (.vmul w) := fun _ => decodeLane_encLane (by decide) rfl
theorem vmulh (w : LaneWord) : Statement (.vmulh w) := fun _ => decodeLane_encLane (by decide) rfl
theorem vmad (w : LaneWord) : Statement (.vmad w) := fun _ => decodeLane_encLane (by decide) rfl
theorem vdiv (w : LaneWord) : Statement (.vdiv w) := fun _ => decodeLane_encLane (by decide) rfl
theorem vrem (w : LaneWord) : Statement (.vrem w) := fun _ => decodeLane_encLane (by decide) rfl
theorem vand (w : LaneWord) : Statement (.vand w) := fun _ => decodeLane_encLane (by decide) rfl
theorem vor (w : LaneWord) : Statement (.vor w) := fun _ => decodeLane_encLane (by decide) rfl
theorem vxor (w : LaneWord) : Statement (.vxor w) := fun _ => decodeLane_encLane (by decide) rfl
theorem vandn (w : LaneWord) : Statement (.vandn w) := fun _ => decodeLane_encLane (by decide) rfl
theorem vshl (w : LaneWord) : Statement (.vshl w) := fun _ => decodeLane_encLane (by decide) rfl
theorem vshr (w : LaneWord) : Statement (.vshr w) := fun _ => decodeLane_encLane (by decide) rfl
theorem vsar (w : LaneWord) : Statement (.vsar w) := fun _ => decodeLane_encLane (by decide) rfl
theorem vmin (w : LaneWord) : Statement (.vmin w) := fun _ => decodeLane_encLane (by decide) rfl
theorem vmax (w : LaneWord) : Statement (.vmax w) := fun _ => decodeLane_encLane (by decide) rfl
theorem vabs (w : LaneWord) : Statement (.vabs w) := fun _ => decodeLane_encLane (by decide) rfl
theorem vneg (w : LaneWord) : Statement (.vneg w) := fun _ => decodeLane_encLane (by decide) rfl
theorem vbit (w : LaneWord) : Statement (.vbit w) := fun _ => decodeLane_encLane (by decide) rfl
theorem vsel (w : LaneWord) : Statement (.vsel w) := fun _ => decodeLane_encLane (by decide) rfl
theorem vmov (w : LaneWord) : Statement (.vmov w) := fun _ => decodeLane_encLane (by decide) rfl
theorem vcmp (w : LaneWord) : Statement (.vcmp w) := fun _ => decodeLane_encLane (by decide) rfl
theorem vidx (w : LaneWord) : Statement (.vidx w) := fun _ => decodeLane_encLane (by decide) rfl
theorem vshfl (w : LaneWord) : Statement (.vshfl w) := fun _ => decodeLane_encLane (by decide) rfl
theorem vpush (w : LaneWord) : Statement (.vpush w) := fun _ => decodeLane_encLane (by decide) rfl
theorem vswap (w : LaneWord) : Statement (.vswap w) := fun _ => decodeLane_encLane (by decide) rfl
theorem vbcast (w : LaneWord) : Statement (.vbcast w) := fun _ => decodeLane_encLane (by decide) rfl
theorem vred (w : LaneWord) : Statement (.vred w) := fun _ => decodeLane_encLane (by decide) rfl
theorem vscan (w : LaneWord) : Statement (.vscan w) := fun _ => decodeLane_encLane (by decide) rfl
theorem vballot (w : LaneWord) : Statement (.vballot w) := fun _ => decodeLane_encLane (by decide) rfl
theorem vfirst (w : LaneWord) : Statement (.vfirst w) := fun _ => decodeLane_encLane (by decide) rfl
theorem vtos (w : LaneWord) : Statement (.vtos w) := fun _ => decodeLane_encLane (by decide) rfl
theorem vtag (w : LaneWord) : Statement (.vtag w) := fun wf_ => decodeLane_encLane (by decide) (by
  simp only [Instr.wf] at wf_; simp_all [laneRow])
theorem vtagSet (w : LaneWord) : Statement (.vtagSet w) := fun wf_ => decodeLane_encLane (by decide) (by
  simp only [Instr.wf] at wf_; simp_all [laneRow])
theorem fadd (w : LaneWord) : Statement (.fadd w) := fun _ => decodeLane_encLane (by decide) rfl
theorem fsub (w : LaneWord) : Statement (.fsub w) := fun _ => decodeLane_encLane (by decide) rfl
theorem fmul (w : LaneWord) : Statement (.fmul w) := fun _ => decodeLane_encLane (by decide) rfl
theorem ffma (w : LaneWord) : Statement (.ffma w) := fun _ => decodeLane_encLane (by decide) rfl
theorem fmin (w : LaneWord) : Statement (.fmin w) := fun _ => decodeLane_encLane (by decide) rfl
theorem fmax (w : LaneWord) : Statement (.fmax w) := fun _ => decodeLane_encLane (by decide) rfl
theorem fsgn (w : LaneWord) : Statement (.fsgn w) := fun wf_ => decodeLane_encLane (by decide) (by
  simp only [Instr.wf] at wf_; simp_all [laneRow])
theorem fsgnn (w : LaneWord) : Statement (.fsgnn w) := fun wf_ => decodeLane_encLane (by decide) (by
  simp only [Instr.wf] at wf_; simp_all [laneRow])
theorem fsgnx (w : LaneWord) : Statement (.fsgnx w) := fun wf_ => decodeLane_encLane (by decide) (by
  simp only [Instr.wf] at wf_; simp_all [laneRow])
theorem fdiv (w : LaneWord) : Statement (.fdiv w) := fun _ => decodeLane_encLane (by decide) rfl
theorem fsqrt (w : LaneWord) : Statement (.fsqrt w) := fun _ => decodeLane_encLane (by decide) rfl
theorem frcp (w : LaneWord) : Statement (.frcp w) := fun _ => decodeLane_encLane (by decide) rfl
theorem frsq (w : LaneWord) : Statement (.frsq w) := fun _ => decodeLane_encLane (by decide) rfl
theorem fcmp (w : LaneWord) : Statement (.fcmp w) := fun _ => decodeLane_encLane (by decide) rfl
theorem fclass (w : LaneWord) : Statement (.fclass w) := fun _ => decodeLane_encLane (by decide) rfl
theorem frnd (w : LaneWord) : Statement (.frnd w) := fun _ => decodeLane_encLane (by decide) rfl
theorem fexp2 (w : LaneWord) : Statement (.fexp2 w) := fun _ => decodeLane_encLane (by decide) rfl
theorem flog2 (w : LaneWord) : Statement (.flog2 w) := fun _ => decodeLane_encLane (by decide) rfl
theorem fsin (w : LaneWord) : Statement (.fsin w) := fun _ => decodeLane_encLane (by decide) rfl
theorem fcos (w : LaneWord) : Statement (.fcos w) := fun _ => decodeLane_encLane (by decide) rfl
theorem frred (w : LaneWord) : Statement (.frred w) := fun _ => decodeLane_encLane (by decide) rfl
theorem ftanh (w : LaneWord) : Statement (.ftanh w) := fun _ => decodeLane_encLane (by decide) rfl
theorem fscale (w : LaneWord) : Statement (.fscale w) := fun _ => decodeLane_encLane (by decide) rfl
theorem fdot2 (w : LaneWord) : Statement (.fdot2 w) := fun _ => decodeLane_encLane (by decide) rfl
theorem jseed (w : LaneWord) : Statement (.jseed w) := fun _ => decodeLane_encLane (by decide) rfl
theorem jconst (w : LaneWord) : Statement (.jconst w) := fun _ => decodeLane_encLane (by decide) rfl
theorem jget (w : LaneWord) : Statement (.jget w) := fun _ => decodeLane_encLane (by decide) rfl
theorem jput (w : LaneWord) : Statement (.jput w) := fun _ => decodeLane_encLane (by decide) rfl
theorem jderiv (w : LaneWord) : Statement (.jderiv w) := fun _ => decodeLane_encLane (by decide) rfl
theorem jtrunc (w : LaneWord) : Statement (.jtrunc w) := fun _ => decodeLane_encLane (by decide) rfl
theorem fcvt (w : LaneWord) : Statement (.fcvt w) := fun _ => decodeLane_encLane (by decide) rfl
theorem l6pack (w : LaneWord) : Statement (.l6pack w) := fun _ => decodeLane_encLane (by decide) rfl
theorem l6unpack (w : LaneWord) : Statement (.l6unpack w) := fun _ => decodeLane_encLane (by decide) rfl
theorem l6plane (w : LaneWord) : Statement (.l6plane w) := fun wf_ => decodeLane_encLane (by decide) (by
  simp only [Instr.wf] at wf_; simp_all [laneRow])
theorem l6planeCode (w : LaneWord) : Statement (.l6planeCode w) := fun wf_ => decodeLane_encLane (by decide) (by
  simp only [Instr.wf] at wf_; simp_all [laneRow])
theorem vld (w : LaneWord) : Statement (.vld w) := fun _ => decodeLane_encLane (by decide) rfl
theorem vst (w : LaneWord) : Statement (.vst w) := fun _ => decodeLane_encLane (by decide) rfl
theorem vlds (w : LaneWord) : Statement (.vlds w) := fun _ => decodeLane_encLane (by decide) rfl
theorem vsts (w : LaneWord) : Statement (.vsts w) := fun _ => decodeLane_encLane (by decide) rfl
theorem vatom (w : LaneWord) : Statement (.vatom w) := fun _ => decodeLane_encLane (by decide) rfl
theorem vatoms (w : LaneWord) : Statement (.vatoms w) := fun _ => decodeLane_encLane (by decide) rfl
theorem vcas (w : LaneWord) : Statement (.vcas w) := fun _ => decodeLane_encLane (by decide) rfl
theorem vldb (w : LaneWord) : Statement (.vldb w) := fun _ => decodeLane_encLane (by decide) rfl
theorem vstb (w : LaneWord) : Statement (.vstb w) := fun _ => decodeLane_encLane (by decide) rfl
theorem vpf (w : LaneWord) : Statement (.vpf w) := fun _ => decodeLane_encLane (by decide) rfl
theorem mma (w : LaneWord) : Statement (.mma w) := fun _ => decodeLane_encLane (by decide) rfl
theorem mmag (w : LaneWord) : Statement (.mmag w) := fun _ => decodeLane_encLane (by decide) rfl
theorem mzero (w : LaneWord) : Statement (.mzero w) := fun _ => decodeLane_encLane (by decide) rfl
theorem mldacc (w : LaneWord) : Statement (.mldacc w) := fun _ => decodeLane_encLane (by decide) rfl
theorem mdrain (w : LaneWord) : Statement (.mdrain w) := fun _ => decodeLane_encLane (by decide) rfl
theorem mofence (w : LaneWord) : Statement (.mofence w) := fun _ => decodeLane_encLane (by decide) rfl
theorem msave (w : LaneWord) : Statement (.msave w) := fun _ => decodeLane_encLane (by decide) rfl
theorem mresume (w : LaneWord) : Statement (.mresume w) := fun _ => decodeLane_encLane (by decide) rfl
theorem mmodeSet (w : LaneWord) : Statement (.mmodeSet w) := fun wf_ => decodeLane_encLane (by decide) (by
  simp only [Instr.wf] at wf_; simp_all [laneRow])
theorem mmodeRead (w : LaneWord) : Statement (.mmodeRead w) := fun wf_ => decodeLane_encLane (by decide) (by
  simp only [Instr.wf] at wf_; simp_all [laneRow])
theorem hxAcq (s : BitVec 2) (a : BitVec 5) : Statement (.hxAcq s a) := fun wf_ => by
  refine decodeValet_custom (Or.inl (by simp (disch := decide) only [ext_append_hi, ext_append_lo, Nat.reduceSub]; simp)) ?_ wf_
  unfold valetCustom
  rw [if_pos (by simp (disch := decide) only [ext_append_hi, ext_append_lo, Nat.reduceSub]; simp)]
  simp (disch := decide) only [ext_append_hi, ext_append_lo, Nat.reduceSub]; simp
theorem hxRel (s : BitVec 2) : Statement (.hxRel s) := fun wf_ => by
  refine decodeValet_custom (Or.inl (by simp (disch := decide) only [ext_append_hi, ext_append_lo, Nat.reduceSub]; simp)) ?_ wf_
  unfold valetCustom
  rw [if_neg fun h => absurd h.1 (by simp (disch := decide) only [ext_append_hi, ext_append_lo, ext_append_mid, Nat.reduceSub]; simp)]
  rw [if_pos (by simp (disch := decide) only [ext_append_hi, ext_append_lo, Nat.reduceSub]; simp)]
  simp (disch := decide) only [ext_append_hi, ext_append_lo, Nat.reduceSub]; simp
theorem hxFence (s : BitVec 2) (a : BitVec 5) : Statement (.hxFence s a) := fun wf_ => by
  refine decodeValet_custom (Or.inl (by simp (disch := decide) only [ext_append_hi, ext_append_lo, Nat.reduceSub]; simp)) ?_ wf_
  unfold valetCustom
  rw [if_neg fun h => absurd h.1 (by simp (disch := decide) only [ext_append_hi, ext_append_lo, ext_append_mid, Nat.reduceSub]; simp)]
  rw [if_neg fun h => absurd h.1 (by simp (disch := decide) only [ext_append_hi, ext_append_lo, ext_append_mid, Nat.reduceSub]; simp)]
  rw [if_pos (by simp (disch := decide) only [ext_append_hi, ext_append_lo, Nat.reduceSub]; simp)]
  simp (disch := decide) only [ext_append_hi, ext_append_lo, Nat.reduceSub]; simp
theorem hxRinse (a : BitVec 5) : Statement (.hxRinse a) := fun wf_ => by
  refine decodeValet_custom (Or.inl (by simp (disch := decide) only [ext_append_hi, ext_append_lo, Nat.reduceSub]; simp)) ?_ wf_
  unfold valetCustom
  rw [if_neg fun h => absurd h.1 (by simp (disch := decide) only [ext_append_hi, ext_append_lo, ext_append_mid, Nat.reduceSub]; simp)]
  rw [if_neg fun h => absurd h.1 (by simp (disch := decide) only [ext_append_hi, ext_append_lo, ext_append_mid, Nat.reduceSub]; simp)]
  rw [if_neg fun h => absurd h.1 (by simp (disch := decide) only [ext_append_hi, ext_append_lo, ext_append_mid, Nat.reduceSub]; simp)]
  rw [if_pos (by simp (disch := decide) only [ext_append_hi, ext_append_lo, Nat.reduceSub]; simp)]
  simp (disch := decide) only [ext_append_hi, ext_append_lo, Nat.reduceSub]; simp
theorem hxTick (d : BitVec 5) : Statement (.hxTick d) := fun wf_ => by
  refine decodeValet_custom (by simp (disch := decide) only [ext_append_lo, ext_append_mid, Nat.reduceSub]; simp) ?_ wf_
  simp (disch := decide) only [valetCustom, ext_append_hi, ext_append_lo, ext_append_mid, Nat.reduceSub, BitVec.reduceEq,
    BitVec.extractLsb'_eq_self, false_and, and_false, ↓reduceIte, BitVec.ofNat_eq_ofNat]
  simp
theorem hxHsend (b : BitVec 5) (a : BitVec 5) (d : BitVec 5) : Statement (.hxHsend b a d) := fun wf_ => by
  refine decodeValet_custom (by simp (disch := decide) only [ext_append_lo, ext_append_mid, Nat.reduceSub]; simp) ?_ wf_
  simp (disch := decide) only [valetCustom, ext_append_hi, ext_append_lo, ext_append_mid, Nat.reduceSub, BitVec.reduceEq,
    BitVec.extractLsb'_eq_self, false_and, and_false, ↓reduceIte, BitVec.ofNat_eq_ofNat]
  simp
  intro h
  have := congrArg (BitVec.extractLsb' 0 3) h
  rw [ext_append_lo _ _ _ (by decide)] at this
  simp at this
theorem hxHrecv (b : BitVec 5) (a : BitVec 5) (d : BitVec 5) : Statement (.hxHrecv b a d) := fun wf_ => by
  refine decodeValet_custom (by simp (disch := decide) only [ext_append_lo, ext_append_mid, Nat.reduceSub]; simp) ?_ wf_
  simp (disch := decide) only [valetCustom, ext_append_hi, ext_append_lo, ext_append_mid, Nat.reduceSub, BitVec.reduceEq,
    BitVec.extractLsb'_eq_self, false_and, and_false, ↓reduceIte, BitVec.ofNat_eq_ofNat]
  simp
  intro h
  have := congrArg (BitVec.extractLsb' 0 3) h
  rw [ext_append_lo _ _ _ (by decide)] at this
  simp at this
theorem hxPark (a : BitVec 5) (d : BitVec 5) : Statement (.hxPark a d) := fun wf_ => by
  refine decodeValet_custom (by simp (disch := decide) only [ext_append_lo, ext_append_mid, Nat.reduceSub]; simp) ?_ wf_
  simp (disch := decide) only [valetCustom, ext_append_hi, ext_append_lo, ext_append_mid, Nat.reduceSub, BitVec.reduceEq,
    BitVec.extractLsb'_eq_self, false_and, and_false, ↓reduceIte, BitVec.ofNat_eq_ofNat]
  simp
theorem hxUnpark (a : BitVec 5) (d : BitVec 5) : Statement (.hxUnpark a d) := fun wf_ => by
  refine decodeValet_custom (by simp (disch := decide) only [ext_append_lo, ext_append_mid, Nat.reduceSub]; simp) ?_ wf_
  simp (disch := decide) only [valetCustom, ext_append_hi, ext_append_lo, ext_append_mid, Nat.reduceSub, BitVec.reduceEq,
    BitVec.extractLsb'_eq_self, false_and, and_false, ↓reduceIte, BitVec.ofNat_eq_ofNat]
  simp
theorem hxFget (a : BitVec 5) (d : BitVec 5) : Statement (.hxFget a d) := fun wf_ => by
  refine decodeValet_custom (by simp (disch := decide) only [ext_append_lo, ext_append_mid, Nat.reduceSub]; simp) ?_ wf_
  simp (disch := decide) only [valetCustom, ext_append_hi, ext_append_lo, ext_append_mid, Nat.reduceSub, BitVec.reduceEq,
    BitVec.extractLsb'_eq_self, false_and, and_false, ↓reduceIte, BitVec.ofNat_eq_ofNat]
  simp
theorem hxFput (b : BitVec 5) (a : BitVec 5) (d : BitVec 5) : Statement (.hxFput b a d) := fun wf_ => by
  refine decodeValet_custom (by simp (disch := decide) only [ext_append_lo, ext_append_mid, Nat.reduceSub]; simp) ?_ wf_
  simp (disch := decide) only [valetCustom, ext_append_hi, ext_append_lo, ext_append_mid, Nat.reduceSub, BitVec.reduceEq,
    BitVec.extractLsb'_eq_self, false_and, and_false, ↓reduceIte, BitVec.ofNat_eq_ofNat]
  simp
theorem hxFpop (a : BitVec 5) (d : BitVec 5) : Statement (.hxFpop a d) := fun wf_ => by
  refine decodeValet_custom (by simp (disch := decide) only [ext_append_lo, ext_append_mid, Nat.reduceSub]; simp) ?_ wf_
  simp (disch := decide) only [valetCustom, ext_append_hi, ext_append_lo, ext_append_mid, Nat.reduceSub, BitVec.reduceEq,
    BitVec.extractLsb'_eq_self, false_and, and_false, ↓reduceIte, BitVec.ofNat_eq_ofNat]
  simp
theorem hxRgrant (a : BitVec 5) (d : BitVec 5) : Statement (.hxRgrant a d) := fun wf_ => by
  refine decodeValet_custom (by simp (disch := decide) only [ext_append_lo, ext_append_mid, Nat.reduceSub]; simp) ?_ wf_
  simp (disch := decide) only [valetCustom, ext_append_hi, ext_append_lo, ext_append_mid, Nat.reduceSub, BitVec.reduceEq,
    BitVec.extractLsb'_eq_self, false_and, and_false, ↓reduceIte, BitVec.ofNat_eq_ofNat]
  simp
theorem hxRrevoke (a : BitVec 5) (d : BitVec 5) : Statement (.hxRrevoke a d) := fun wf_ => by
  refine decodeValet_custom (by simp (disch := decide) only [ext_append_lo, ext_append_mid, Nat.reduceSub]; simp) ?_ wf_
  simp (disch := decide) only [valetCustom, ext_append_hi, ext_append_lo, ext_append_mid, Nat.reduceSub, BitVec.reduceEq,
    BitVec.extractLsb'_eq_self, false_and, and_false, ↓reduceIte, BitVec.ofNat_eq_ofNat]
  simp
theorem hxFstat (a : BitVec 5) (d : BitVec 5) : Statement (.hxFstat a d) := fun wf_ => by
  refine decodeValet_custom (by simp (disch := decide) only [ext_append_lo, ext_append_mid, Nat.reduceSub]; simp) ?_ wf_
  simp (disch := decide) only [valetCustom, ext_append_hi, ext_append_lo, ext_append_mid, Nat.reduceSub, BitVec.reduceEq,
    BitVec.extractLsb'_eq_self, false_and, and_false, ↓reduceIte, BitVec.ofNat_eq_ofNat]
  simp
theorem hxFenter (a : BitVec 5) (d : BitVec 5) : Statement (.hxFenter a d) := fun wf_ => by
  refine decodeValet_custom (by simp (disch := decide) only [ext_append_lo, ext_append_mid, Nat.reduceSub]; simp) ?_ wf_
  simp (disch := decide) only [valetCustom, ext_append_hi, ext_append_lo, ext_append_mid, Nat.reduceSub, BitVec.reduceEq,
    BitVec.extractLsb'_eq_self, false_and, and_false, ↓reduceIte, BitVec.ofNat_eq_ofNat]
  simp
theorem hxGkill (a : BitVec 5) (d : BitVec 5) : Statement (.hxGkill a d) := fun wf_ => by
  refine decodeValet_custom (by simp (disch := decide) only [ext_append_lo, ext_append_mid, Nat.reduceSub]; simp) ?_ wf_
  simp (disch := decide) only [valetCustom, ext_append_hi, ext_append_lo, ext_append_mid, Nat.reduceSub, BitVec.reduceEq,
    BitVec.extractLsb'_eq_self, false_and, and_false, ↓reduceIte, BitVec.ofNat_eq_ofNat]
  simp
theorem hxGrelaunch (a : BitVec 5) (d : BitVec 5) : Statement (.hxGrelaunch a d) := fun wf_ => by
  refine decodeValet_custom (by simp (disch := decide) only [ext_append_lo, ext_append_mid, Nat.reduceSub]; simp) ?_ wf_
  simp (disch := decide) only [valetCustom, ext_append_hi, ext_append_lo, ext_append_mid, Nat.reduceSub, BitVec.reduceEq,
    BitVec.extractLsb'_eq_self, false_and, and_false, ↓reduceIte, BitVec.ofNat_eq_ofNat]
  simp
theorem valetLoad (f : BitVec 3) (a : BitVec 5) (d : BitVec 5) (i : BitVec 12) : Statement (.valetLoad f a d i) := fun wf_ => by
  simp (disch := decide) only [encode, decodeValet, ext_append_hi, ext_append_lo, bit_append_hi, bit_append_lo, Nat.reduceSub]
  simp [wf_]
theorem valetStore (f : BitVec 3) (a : BitVec 5) (b : BitVec 5) (i : BitVec 12) : Statement (.valetStore f a b i) := fun wf_ => by
  have e : i.extractLsb' 5 7 ++ i.extractLsb' 0 5 = i := by
    ext j hj
    simp only [BitVec.getElem_append, BitVec.getElem_extractLsb']
    split
    · simp [BitVec.getLsbD_eq_getElem hj]
    · rw [show 5 + (j - 5) = j by omega, BitVec.getLsbD_eq_getElem hj]
  simp (disch := decide) only [encode, decodeValet, ext_append_hi, ext_append_lo, bit_append_hi, bit_append_lo, Nat.reduceSub]
  simp [wf_, e]
theorem valetLr (z : Bool) (q : Bool) (l : Bool) (a : BitVec 5) (d : BitVec 5) : Statement (.valetLr z q l a d) := fun wf_ => by
  cases z <;>
    simp (disch := decide) only [encode, decodeValet, ext_append_hi, ext_append_lo, ext_append_low3,
      bit_append_hi, bit_append_lo, Nat.reduceSub] <;>
    simp [wf_]
theorem valetSc (z : Bool) (q : Bool) (l : Bool) (b : BitVec 5) (a : BitVec 5) (d : BitVec 5) : Statement (.valetSc z q l b a d) := fun wf_ => by
  cases z <;>
    simp (disch := decide) only [encode, decodeValet, ext_append_hi, ext_append_lo, ext_append_low3,
      bit_append_hi, bit_append_lo, Nat.reduceSub] <;>
    simp [wf_]
theorem valetAmo (f : BitVec 5) (z : Bool) (q : Bool) (l : Bool) (b : BitVec 5) (a : BitVec 5) (d : BitVec 5) : Statement (.valetAmo f z q l b a d) := fun wf_ => by
  have h2 : f ≠ 2#5 := by rintro rfl; simp [Instr.wf, isAmo] at wf_
  have h3 : f ≠ 3#5 := by rintro rfl; simp [Instr.wf, isAmo] at wf_
  cases z <;>
    simp (disch := decide) only [encode, decodeValet, ext_append_hi, ext_append_lo, ext_append_low3,
      bit_append_hi, bit_append_lo, Nat.reduceSub] <;>
    simp [h2, h3, wf_]
theorem valetFence (m : BitVec 4) (p : BitVec 4) (q : BitVec 4) : Statement (.valetFence m p q) := fun wf_ => by
  simp (disch := decide) only [encode, decodeValet, ext_append_hi, ext_append_lo, bit_append_hi, bit_append_lo, Nat.reduceSub]
  simp [wf_]
theorem valetFenceI : Statement .valetFenceI := fun wf_ => by
  simp (disch := decide) only [encode, decodeValet, ext_append_hi, ext_append_lo, bit_append_hi, bit_append_lo, Nat.reduceSub]
  simp [wf_]
theorem msgReg (m : Msg) : Statement (.msgReg m) := fun _ => trivial
theorem msgGrant (m : Msg) : Statement (.msgGrant m) := fun _ => trivial
theorem msgRevoke (m : Msg) : Statement (.msgRevoke m) := fun _ => trivial
theorem msgRvack (m : Msg) : Statement (.msgRvack m) := fun _ => trivial
theorem msgLd (m : Msg) : Statement (.msgLd m) := fun _ => trivial
theorem msgLdata (m : Msg) : Statement (.msgLdata m) := fun _ => trivial
theorem msgFwd (m : Msg) : Statement (.msgFwd m) := fun _ => trivial
theorem msgFdata (m : Msg) : Statement (.msgFdata m) := fun _ => trivial
theorem msgWb (m : Msg) : Statement (.msgWb m) := fun _ => trivial
theorem msgWback (m : Msg) : Statement (.msgWback m) := fun _ => trivial
theorem msgRecall (m : Msg) : Statement (.msgRecall m) := fun _ => trivial
theorem msgXreg (m : Msg) : Statement (.msgXreg m) := fun _ => trivial
theorem msgPush (m : Msg) : Statement (.msgPush m) := fun _ => trivial
theorem msgHwr (m : Msg) : Statement (.msgHwr m) := fun _ => trivial
theorem msgHwack (m : Msg) : Statement (.msgHwack m) := fun _ => trivial
theorem sliceFill (line : Nat) : Statement (.sliceFill line) := fun _ => trivial
theorem pageWalk (c : Nat) (slot : Nat) : Statement (.pageWalk c slot) := fun _ => trivial
theorem rowPerformance (c : Nat) : Statement (.rowPerformance c) := fun _ => trivial
theorem twaitSlot (c : Nat) (u : Nat) : Statement (.twaitSlot c u) := fun _ => trivial
theorem refreshSlotStart (c : Nat) (b : Nat) : Statement (.refreshSlotStart c b) := fun _ => trivial
theorem refreshSlotEnd (c : Nat) (b : Nat) : Statement (.refreshSlotEnd c b) := fun _ => trivial
theorem controllerPrecharge (c : Nat) (b : Nat) : Statement (.controllerPrecharge c b) := fun _ => trivial
theorem bankIdle (c : Nat) (b : Nat) : Statement (.bankIdle c b) := fun _ => trivial
theorem boltScrub (c : Nat) (q : Nat) : Statement (.boltScrub c q) := fun _ => trivial
theorem placementBoundExpiry (d : Nat) : Statement (.placementBoundExpiry d) := fun _ => trivial
theorem bastingPad (c : Nat) : Statement (.bastingPad c) := fun _ => trivial
theorem pcSample (c : Nat) : Statement (.pcSample c) := fun _ => trivial
theorem tracePeriodicSync (c : Nat) : Statement (.tracePeriodicSync c) := fun _ => trivial
theorem checkpoint (d : Nat) : Statement (.checkpoint d) := fun _ => trivial
theorem refreshBorrowStart (c : Nat) (b : Nat) : Statement (.refreshBorrowStart c b) := fun _ => trivial
theorem grantEndPrecharge (c : Nat) (b : Nat) : Statement (.grantEndPrecharge c b) := fun _ => trivial
theorem grantLive (c : Nat) (g : Nat) : Statement (.grantLive c g) := fun _ => trivial
theorem pressOpStart (c : Nat) (p : Nat) : Statement (.pressOpStart c p) := fun _ => trivial
theorem pressOpComplete (c : Nat) (p : Nat) : Statement (.pressOpComplete c p) := fun _ => trivial
theorem satchelStart (n : Nat) : Statement (.satchelStart n) := fun _ => trivial
theorem satchelLineCopy (n : Nat) : Statement (.satchelLineCopy n) := fun _ => trivial
theorem hamperEnqueue (n : Nat) : Statement (.hamperEnqueue n) := fun _ => trivial
theorem hamperDequeue (n : Nat) : Statement (.hamperDequeue n) := fun _ => trivial
theorem remoteLoadTimeout (k : FKey) : Statement (.remoteLoadTimeout k) := fun _ => trivial
theorem evictionChoice (d : Nat) : Statement (.evictionChoice d) := fun _ => trivial
theorem gangSaveComplete (g : GKey) : Statement (.gangSaveComplete g) := fun _ => trivial
theorem placement (d : Nat) : Statement (.placement d) := fun _ => trivial
theorem hotFlag (c : Nat) : Statement (.hotFlag c) := fun _ => trivial
theorem hotResidencyExpiry (g : GKey) : Statement (.hotResidencyExpiry g) := fun _ => trivial
theorem hotFlagClear (c : Nat) : Statement (.hotFlagClear c) := fun _ => trivial
theorem tinvPage (d : Nat) (v : BitVec 64) : Statement (.tinvPage d v) := fun _ => trivial
theorem tinvLargePage (d : Nat) (v : BitVec 64) : Statement (.tinvLargePage d v) := fun _ => trivial
theorem tinvDomain (d : Nat) (v : BitVec 64) : Statement (.tinvDomain d v) := fun _ => trivial
theorem tinvComplete (d : Nat) : Statement (.tinvComplete d) := fun _ => trivial
theorem granuleRetire (c : Nat) (hi : Bool) (v : BitVec 64) : Statement (.granuleRetire c hi v) := fun _ => trivial
theorem bankMark (c : Nat) (q : Nat) (v : BitVec 64) : Statement (.bankMark c q v) := fun _ => trivial
theorem coreRetire (c : Nat) (v : BitVec 64) : Statement (.coreRetire c v) := fun _ => trivial
theorem forwardEntryEnable (d : Nat) (n : Nat) (v : BitVec 64) : Statement (.forwardEntryEnable d n v) := fun _ => trivial
theorem forwardEntryFree (d : Nat) (n : Nat) (v : BitVec 64) : Statement (.forwardEntryFree d n v) := fun _ => trivial
theorem traceEnable (c : Nat) (v : BitVec 64) : Statement (.traceEnable c v) := fun _ => trivial
theorem bastingReadAdvance (c : Nat) (v : BitVec 64) : Statement (.bastingReadAdvance c v) := fun _ => trivial
theorem bastingLineDrain (c : Nat) : Statement (.bastingLineDrain c) := fun _ => trivial
theorem traceResync (c : Nat) : Statement (.traceResync c) := fun _ => trivial
theorem recordingEnable (d : Nat) (v : BitVec 64) : Statement (.recordingEnable d v) := fun _ => trivial
theorem replayStart (d : Nat) (v : BitVec 64) : Statement (.replayStart d v) := fun _ => trivial
theorem registerWrite (pa : Nat) (n : Nat) (v : BitVec 64) : Statement (.registerWrite pa n v) := fun _ => trivial
theorem attestationRequest (nonce : BitVec 512) : Statement (.attestationRequest nonce) := fun _ => trivial
theorem attestationReport : Statement .attestationReport := fun _ => trivial
theorem doorEnqueue (d : Nat) (n : Nat) (item : BitVec 512) : Statement (.doorEnqueue d n item) := fun _ => trivial
theorem doorDequeue (d : Nat) (n : Nat) : Statement (.doorDequeue d n) := fun _ => trivial
theorem fabricRd (k : Nat) (h : FabHdr) : Statement (.fabricRd k h) := fun _ => trivial
theorem fabricWr (k : Nat) (h : FabHdr) (v : BitVec 1024) : Statement (.fabricWr k h v) := fun _ => trivial
theorem fabricRdCompletion (k : Nat) (h : FabHdr) (v : BitVec 1024) : Statement (.fabricRdCompletion k h v) := fun _ => trivial
theorem fabricWrCompletion (k : Nat) (h : FabHdr) : Statement (.fabricWrCompletion k h) := fun _ => trivial
theorem fabricMsg (k : Nat) (h : FabHdr) (m : Msg) : Statement (.fabricMsg k h m) := fun _ => trivial
theorem linkDown (k : Nat) : Statement (.linkDown k) := fun _ => trivial
theorem linkUp (k : Nat) : Statement (.linkUp k) := fun _ => trivial
theorem agentRetire (p : Nat) (a : Nat) : Statement (.agentRetire p a) := fun _ => trivial
theorem pciePostedWrite (port : Nat) (rid : Nat) (va : BitVec 64) (data : List (BitVec 8)) (ro : Bool) : Statement (.pciePostedWrite port rid va data ro) := fun _ => trivial
theorem pcieMemoryRead (port : Nat) (rid : Nat) (va : BitVec 64) (n : Nat) : Statement (.pcieMemoryRead port rid va n) := fun _ => trivial
theorem clockStep (c : Nat) (mhz : Nat) : Statement (.clockStep c mhz) := fun _ => trivial
theorem clockGate (c : Nat) : Statement (.clockGate c) := fun _ => trivial
theorem moduleReset (b : BootInput) : Statement (.moduleReset b) := fun _ => trivial
theorem domainStart (d : Nat) : Statement (.domainStart d) := fun _ => trivial
theorem longResultWriteback (k : FKey) : Statement (.longResultWriteback k) := fun _ => trivial
theorem scalarDivideComplete (k : FKey) : Statement (.scalarDivideComplete k) := fun _ => trivial
theorem scratchAccessPerformed (n : Nat) : Statement (.scratchAccessPerformed n) := fun _ => trivial
theorem ioApertureCompletion (n : Nat) (v : BitVec 64) : Statement (.ioApertureCompletion n v) := fun _ => trivial
theorem l2TlbHit (c : Nat) (slot : Nat) : Statement (.l2TlbHit c slot) := fun _ => trivial
theorem rowwaitComplete (k : FKey) : Statement (.rowwaitComplete k) := fun _ => trivial
theorem clockUngate (c : Nat) : Statement (.clockUngate c) := fun _ => trivial
theorem fabricReservedFlit (k : Nat) (h : FabHdr) : Statement (.fabricReservedFlit k h) := fun _ => trivial

end Sys2Proof.Laws.RoundTrip
end

