-- ==== Sys2Proof/Laws/Stops.lean ====
section
/-! SUPPORT. What the operations of one fibre leave alone: waiting, tracing, logging and taking a stop. -/
namespace Sys2Proof

open Sys2Proof.Machine

/-- Two states that differ in one fibre only, and in what no word of another can see: memory, registration, messages, gangs,
spools, every cache line and every other fibre are the same. -/
structure Apart (k : FKey) (s t : State) : Prop where
  mem : t.mem = s.mem
  poison : t.poison = s.poison
  owners : t.owners = s.owners
  net : t.net = s.net
  gangs : t.gangs = s.gangs
  spools : t.spools = s.spools
  l1 : ∀ c, (t.core c).l1 = (s.core c).l1
  wb : ∀ c, (t.core c).wb = (s.core c).wb
  fibs : ∀ j, j ≠ k → t.fib? j = s.fib? j

theorem Apart.refl (k : FKey) (s : State) : Apart k s s :=
  ⟨rfl, rfl, rfl, rfl, rfl, rfl, fun _ => rfl, fun _ => rfl, fun _ _ => rfl⟩

theorem Apart.trans {k : FKey} {s t u : State} (h : Apart k s t) (g : Apart k t u) : Apart k s u :=
  ⟨g.mem.trans h.mem, g.poison.trans h.poison, g.owners.trans h.owners, g.net.trans h.net, g.gangs.trans h.gangs,
    g.spools.trans h.spools, fun c => (g.l1 c).trans (h.l1 c), fun c => (g.wb c).trans (h.wb c),
    fun j hj => (g.fibs j hj).trans (h.fibs j hj)⟩

/-- The fibre's own entry changed. -/
theorem apart_setFib (k : FKey) (f : Fib) (s : State) : Apart k s (s.setFib k f) :=
  ⟨rfl, rfl, rfl, rfl, rfl, rfl, fun _ => rfl, fun _ => rfl, fun _ hj => fib_setFib_ne s f hj⟩

theorem apart_onFib (k : FKey) (g : Fib → Fib) (s : State) : Apart k s (s.onFib k g) := by
  unfold State.onFib
  split
  · exact apart_setFib ..
  · exact .refl ..

/-- A domain's registers or log changed. -/
theorem apart_setDom (k : FKey) (d : Nat) (v : Dom) (s : State) : Apart k s (s.setDom d v) :=
  ⟨rfl, rfl, rfl, rfl, rfl, rfl, fun _ => rfl, fun _ => rfl, fun _ _ => rfl⟩

/-- A core changed, but for the lines it holds. -/
theorem apart_onCore (k : FKey) (c : Nat) {g : Core → Core} (h1 : ∀ x, (g x).l1 = x.l1) (h2 : ∀ x, (g x).wb = x.wb) (s : State) :
    Apart k s (s.onCore c g) := by
  refine ⟨rfl, rfl, rfl, rfl, rfl, rfl, fun j => ?_, fun j => ?_, fun _ _ => rfl⟩
  all_goals
    by_cases hj : j = c
    · subst hj; simp [h1, h2]
    · rw [core_onCore_ne s g hj]

/-- The current bytes of memory are those before (R37). -/
theorem Apart.curByte {k : FKey} {s t : State} (h : Apart k s t) (a : Nat) : t.curByte a = s.curByte a := by
  have hl : ∀ c line i, (t.core c).l1word line i = (s.core c).l1word line i := fun c line i => by
    simp only [Core.l1word, Core.l1line, h.l1 c]
  have hw : ∀ c line i, (t.core c).wbWord line i = (s.core c).wbWord line i := fun c line i => by
    simp only [Core.wbWord, h.wb c]
  simp only [State.curByte, State.curWord, State.ownerOf, State.homeWord, hl, h.mem, h.poison, h.owners, h.net, hw]

/-! ### The operations -/

theorem apart_stall (k : FKey) (r : Nat) {s t : State} (h : stall k r s = .next t) : Apart k s t := by
  simp only [stall, Host.Outcome.next.injEq] at h
  exact h ▸ apart_onFib ..

theorem apart_stallLoads {k : FKey} {s t : State} (h : stallLoads k s = .next t) : Apart k s t := by
  simp only [stallLoads, Host.Outcome.next.injEq] at h
  exact h ▸ apart_onFib ..

theorem apart_trace (k : FKey) (p : List W8) (s : State) : Apart k s (trace k p s) := by
  unfold trace
  split
  · exact apart_onCore k _ (by intro _; rfl) (by intro _; rfl) s
  · exact .refl ..

theorem apart_logOrder (k : FKey) (d kd c h n : Nat) (a v : W64) (s : State) : Apart k s (logOrder d kd c h n a v s) := by
  unfold logOrder
  dsimp only
  split
  · exact apart_setDom ..
  · exact .refl ..

theorem apart_useLog (k : FKey) (d : Nat) (r : LogRec) (s : State) : Apart k s (useLog d r s) := apart_setDom ..

theorem apart_pushStop (k : FKey) (r : BitVec 512) (s : State) : Apart k s (pushStop k r s) := by
  unfold pushStop
  split
  · exact apart_onCore k _ (by intro _; rfl) (by intro _; rfl) s
  · exact (apart_onCore k _ (by intro _; rfl) (by intro _; rfl) s).trans (apart_onFib ..)

theorem apart_withdraw (k : FKey) (s : State) : Apart k s (withdraw k s) := by
  have hh : ∀ u : State, Apart k u { u with hamp := u.hamp.filter fun q => q.thr ≠ some (Thread.fib k) } :=
    fun _ => ⟨rfl, rfl, rfl, rfl, rfl, rfl, fun _ => rfl, fun _ => rfl, fun _ _ => rfl⟩
  unfold withdraw
  dsimp only
  have h0 := (apart_onCore k k.core (g := fun c => c.setSub k.sub { c.sub k.sub with xq := (c.sub k.sub).xq.filter (· ≠ k) })
    (by intro _; rfl) (by intro _; rfl) s).trans (hh _)
  split
  · split
    · exact h0.trans (apart_onCore k _ (by intro _; rfl) (by intro _; rfl) _)
    · exact h0
  · exact h0

/-- Taking a stop touches the stopped fibre, its core's record queue and turn, and its domain's log; no byte of memory, no other
fibre and no cache line (R408). -/
theorem apart_takeStop (k : FKey) (c : Nat) (i : StopInfo) (pc : W64) (s : State) : Apart k s (takeStop k c i pc s) := by
  unfold takeStop
  split
  · exact .refl ..
  · refine .trans ?_ (apart_pushStop ..)
    have h : ∀ (f : Fib) (g : Core → Core) (p : List W8) (d kd co h n : Nat) (a v : W64), (∀ x, (g x).l1 = x.l1) → (∀ x, (g x).wb = x.wb) →
        Apart k s (logOrder d kd co h n a v (trace k p (((withdraw k s).setFib k f).onCore k.core g))) :=
      fun f g p d kd co h n a v h1 h2 => ((((apart_withdraw k s).trans (apart_setFib ..)).trans (apart_onCore k _ h1 h2 _)).trans
        (apart_trace ..)).trans (apart_logOrder ..)
    split
    · exact (h _ _ _ _ _ _ _ _ _ _ (by intro _; rfl) (by intro _; rfl)).trans (apart_useLog ..)
    · exact h _ _ _ _ _ _ _ _ _ _ (by intro _; rfl) (by intro _; rfl)

/-- A report delivered is a stop of its fibre (R411). -/
theorem apart_deliver {k : FKey} {r : Report} {s t : State} (h : deliver k r s = .next t) : Apart k s t := by
  unfold deliver at h
  split at h
  · cases h
  · simp only [Host.Outcome.next.injEq] at h
    exact h ▸ (apart_setFib ..).trans (apart_takeStop ..)

/-- The frame of a scalar word: if its meaning, once it may run, stays apart, so does the word, whatever it waits for (R263, R161). -/
theorem apart_scalarWord {reads writes : List Nat} {s t : State} {body : FKey → Fib → Out} {k : FKey} (hk : s.cur = .scalar k)
    (hb : ∀ f t, s.fib? k = some f → body k f = .next t → Apart k s t) (h : scalarWord reads writes s body = .next t) : Apart k s t := by
  simp only [scalarWord, asScalar, hk] at h
  split at h
  · rename_i f hf
    split at h
    · split at h
      · exact apart_stallLoads h
      · exact apart_stall k _ h
    · split at h
      · exact apart_stall k _ h
      · unfold consuming at h
        split at h
        · exact apart_deliver h
        · exact hb f t hf h
  · cases h

end Sys2Proof
end

