-- ==== Sys2Proof/Tests/Slice0.lean ====
section
/-! SUPPORT. Tests: terms the well-formedness check refuses, words written out bit by bit from the encodings, single steps on small
states, and for each statement a state and operands that meet its hypotheses. -/
namespace Sys2Proof.Tests

set_option Elab.async false

open Sys2Proof Sys2Proof.Machine

/-! ### Small states -/

/-- The handle of the placed program's fibre. -/
abbrev K : FKey := ⟨0, 0, 0, 0⟩
/-- The placed program's fibre at its start, changed by g. -/
def F (g : Fib → Fib) : Fib := g (freshFib placedLaunch 0 0 0 0)
/-- The module with that fibre, its scalar stream holding the turn. -/
def S (g : Fib → Fib) : State := { State.reset.withProgram.setFib K (F g) with cur := .scalar K }
/-- The same with registers set. -/
def R (l : List (Nat × W64)) (f : Fib) : Fib := l.foldl (fun f e => f.setSreg e.1 e.2) f

theorem fibS (g : Fib → Fib) : (S g).fib? K = some (F g) := fib_setFib_self (State.reset.withProgram) K (F g)

/-- A fibre with nothing outstanding may run any scalar word. -/
theorem turn (g : Fib → Fib) (r w : List Nat) (hd : (F g).div = none) (hs : (F g).stitches = []) (hr : (F g).reports = []) :
    ScalarTurn (S g) K (F g) r w := by
  have hn : ∀ p l, laneNames (S g) K (F g) p l = false := fun p l => by simp [laneNames, hs]
  refine ⟨rfl, fibS g, ?_, hn _ _, by rw [hr]; rfl⟩
  simp only [interlock, hd, hn, loadPending, statPending]
  rfl

/-- A test of accesses that passes them, what it passes meeting p. -/
def okRes (x : AccRes) (p : List Checked → Bool) : Bool := match x with | .ok l => p l | _ => false
theorem ok_of {x : AccRes} {p : List Checked → Bool} (h : okRes x p = true) : ∃ l, x = .ok l ∧ p l = true := by
  cases x with
  | ok l => exact ⟨l, rfl, h⟩
  | miss _ => cases h
  | fault _ _ _ _ => cases h
theorem ok_of' {x : AccRes} {s : State} {b : Bool} (h : okRes x (fun l => !boardHit s l b) = true) : ∃ l, x = .ok l ∧ boardHit s l b = false := by
  obtain ⟨l, h1, h2⟩ := ok_of h
  exact ⟨l, h1, by simpa using h2⟩

/-! ### Witnesses: the scalar stream -/

theorem witness_ScalarRegisterFile : (F id).regs.length = 192 ∧ 191 < 192 ∧ 0 < 192 := by decide +kernel

theorem witness_ScalarArithmetic :
    ScalarTurn (S id) K (F id) [(191 : BitVec 8).toNat, (0 : BitVec 8).toNat] [(191 : BitVec 8).toNat]
    ∧ ScalarTurn (S id) K (F id) [(0 : BitVec 8).toNat] [(0 : BitVec 8).toNat] ∧ (2 : BitVec 2).toNat ≤ 2
    ∧ ScalarTurn (S id) K (F id) [] [(191 : BitVec 8).toNat]
    ∧ (S fun f => { f with div := some (191, 5) }).fib? K = some (F fun f => { f with div := some (191, 5) })
    ∧ (F fun f => { f with div := some (191, 5) }).div = some ((191 : BitVec 8).toNat, 5) :=
  ⟨turn id _ _ rfl rfl rfl, turn id _ _ rfl rfl rfl, by decide +kernel, turn id _ _ rfl rfl rfl, fibS _, rfl⟩

theorem witness_ControlTransfer :
    ScalarTurn (S id) K (F id) (if (5 : BitVec 4).toNat < 6 then [(191 : BitVec 8).toNat] else [1, 2, 3]) []
    ∧ ScalarTurn (S id) K (F id) (if (8 : BitVec 4).toNat < 6 then [(0 : BitVec 8).toNat] else [1, 2, 3]) [] ∧ (8 : BitVec 4).toNat ≤ 8
    ∧ ScalarTurn (S id) K (F id) [] [5]
    ∧ ScalarTurn (S (R [(7, 0x1_0004)])) K (F (R [(7, 0x1_0004)])) [(7 : BitVec 8).toNat] [5]
    ∧ ((F (R [(7, 0x1_0004)])).sreg 7).toNat % 4 = 0 ∧ ((F (R [(7, 0x1_0003)])).sreg 7).toNat % 4 ≠ 0
    ∧ ScalarTurn (S (R [(7, 0x1_0003)])) K (F (R [(7, 0x1_0003)])) [(7 : BitVec 8).toNat] []
    ∧ ScalarTurn (S (R [(5, 0x1_0000)])) K (F (R [(5, 0x1_0000)])) [5] [] :=
  ⟨turn id _ _ rfl rfl rfl, turn id _ _ rfl rfl rfl, by decide +kernel, turn id _ _ rfl rfl rfl, turn _ _ _ rfl rfl rfl, by decide +kernel, by decide +kernel,
    turn _ _ _ rfl rfl rfl, turn _ _ _ rfl rfl rfl⟩

/-- Stitches that have issued all their words. -/
def full (n : Nat) (f : Fib) : Fib := { f with stitches := List.replicate n { pc := 0, mask := 1, snap := f.regs, n := 24 } }

theorem witness_LaneEnqueueAndWaits :
    (∃ o : BitVec 22, Instr.lrun 0x3F_FFFF = .lrun o ∧ [1, 2, 3] = [1, 2, 3] ∧ (0x3F_FFFF : W64) = o.setWidth 64)
    ∧ ScalarTurn (S (full 15)) K (F (full 15)) [1, 2, 3] [] ∧ (F (full 15)).stitches.length < 16
    ∧ ScalarTurn (S (full 16)) K (F (full 16)) [1, 2, 3] [] ∧ 16 ≤ (F (full 16)).stitches.length
    ∧ ScalarTurn (S id) K (F id) [(9 : BitVec 8).toNat, 1, 2, 3] []
    ∧ ScalarTurn (S id) K (F id) [] [] ∧ (5 : BitVec 4).toNat ≤ 5 ∧ (F id).lq = 0 ∧ (F id).counter 3 ≤ (0 : BitVec 8).toNat
    ∧ ((F id).reports.all fun r => !covers 3 r) = true ∧ (F id).prq = []
    ∧ ScalarTurn (S fun f => { f with ldq := [(1, false)] }) K (F fun f => { f with ldq := [(1, false)] }) [] []
    ∧ (0 : BitVec 8).toNat < (F fun f => { f with ldq := [(1, false)] }).counter (1 : BitVec 4).toNat :=
  ⟨⟨0x3F_FFFF, rfl, rfl, rfl⟩, ⟨rfl, rfl, by decide +kernel, by decide +kernel, rfl⟩, by decide +kernel, ⟨rfl, rfl, by decide +kernel, by decide +kernel, rfl⟩, by decide +kernel,
    turn id _ _ rfl rfl rfl, turn id _ _ rfl rfl rfl, by decide +kernel, by decide +kernel, by decide +kernel, rfl, rfl, turn _ _ _ rfl rfl rfl, by decide +kernel⟩

theorem witness_SpecialRegisters :
    ScalarTurn (S id) K (F id) [] [(191 : BitVec 8).toNat] ∧ (F id).lq = 0 ∧ (F id).longs = []
    ∧ (S id).replaying (F id).dom = false ∧ ((S id).dom (F id).dom).rpctl.getLsbD 31 = false
    ∧ ScalarTurn (S (R [(7, 24)])) K (F (R [(7, 24)])) [(7 : BitVec 8).toNat] [] ∧ ((F (R [(7, 24)])).sreg 7).toNat % 12 = 0
    ∧ ScalarTurn (S (R [(7, 23)])) K (F (R [(7, 23)])) [(7 : BitVec 8).toNat] [] ∧ ((F (R [(7, 23)])).sreg 7).toNat % 12 ≠ 0
    ∧ (F fun f => { f with hkind := 1 }).hkind ≠ 0 ∧ (F id).hkind = 0
    ∧ ScalarTurn (S fun f => { f with hkind := 1 }) K (F fun f => { f with hkind := 1 }) [(7 : BitVec 8).toNat] [] :=
  ⟨turn id _ _ rfl rfl rfl, rfl, rfl, by decide +kernel, by decide +kernel, turn _ _ _ rfl rfl rfl, by decide +kernel, turn _ _ _ rfl rfl rfl, by decide +kernel,
    by decide +kernel, rfl, turn _ _ _ rfl rfl rfl⟩

/-- A module whose launch gives a pool of two extension blocks to each sub-core, of which one is free. -/
def pooled (e : Bool) : State :=
  let s := S fun f => { f with ext := e }
  let s := s.setDom 0 { s.dom 0 with launch := some { placedLaunch with fibw := 0x0001_0800 } }
  s.onCore 0 fun c => { c with xfree := [(0, 1)] }

theorem witness_ExtensionAndHemRegisters :
    ScalarTurn (pooled false) K (F fun f => { f with ext := false }) [] [] ∧ (F id).hkind ≠ 2 ∧ (F id).hkind ≠ 3 ∧ (F id).lq = 0
    ∧ ((pooled false).launch 0).xp ≠ 0 ∧ poolFree (pooled false) K ≠ 0 ∧ (((pooled false).core 0).sub 0).xq = []
    ∧ ScalarTurn (pooled true) K (F fun f => { f with ext := true }) [] [] ∧ (F fun f => { f with ext := true }).ext = true
    ∧ (F id).ld = 0 ∧ (F id).pr = 0
    ∧ ScalarTurn (S id) K (F id) [(191 : BitVec 8).toNat] [] ∧ ScalarTurn (S id) K (F id) [] [(191 : BitVec 8).toNat] :=
  ⟨⟨rfl, rfl, rfl, rfl, rfl⟩, by decide +kernel, by decide +kernel, rfl, by decide +kernel, by decide +kernel, by decide +kernel, ⟨rfl, rfl, rfl, rfl, rfl⟩, rfl, rfl, rfl,
    turn id _ _ rfl rfl rfl, turn id _ _ rfl rfl rfl⟩

/-- A second fibre of the same block, which waits as w says. -/
def two (w : Wait) (g : Fib → Fib) : State := (S g).setFib ⟨0, 0, 0, 1⟩ { freshFib placedLaunch 0 0 0 1 with wait := w }
/-- A fibre that is a member of crew 3 with the second one. -/
def crewed (w : Wait) : State := let s := two w id; s.setBlock 0 0 { s.block 0 0 with crews := [(3, [0, 1])] }

theorem witness_BarriersAndCrews :
    ScalarTurn (two .bar id) K (F id) [] [] ∧ (F id).hkind ≠ 2 ∧ (F id).hkind ≠ 3 ∧ (F id).st = .running ∧ (F id).wait ≠ .bar
    ∧ (F id).lq = 0 ∧ (F id).longs = [] ∧ (F id).ld = 0 ∧ (F id).reports = [] ∧ ((two .bar id).fibs.map (·.1)).Nodup
    ∧ releaseWaits (two .bar id) K.core (.fib K) 0 ((F id).oneCore (two .bar id)) (if (F id).phase = 0 then (two .bar id).nextId else (F id).mark) = false
    ∧ (∀ e ∈ barrierSet (two .bar id) (F id) .bar, e.1 ≠ K → e.2.wait = .bar ∧ e.2.st ≠ .saving ∧ e.2.st ≠ .saved ∧ e.2.st ≠ .restoring ∧ e.2.st ≠ .frozen ∧ e.2.st ≠ .parked)
    ∧ (∃ e ∈ barrierSet (two .none id) (F id) .bar, e.1 ≠ K ∧ e.2.wait ≠ .bar)
    ∧ releaseWaits (two .gbar id) K.core (.fib K) 1 ((F id).oneCore (two .gbar id)) (two .gbar id).nextId = false
    ∧ ScalarTurn (crewed (.cbar 3)) K (F id) [] [] ∧ (F id).fid ∈ tget ((crewed (.cbar 3)).block (F id).dom (F id).bid).crews (3 : BitVec 3).toNat []
    ∧ ScalarTurn (S id) K (F id) [] [] ∧ (F id).fid ∉ tget ((S id).block (F id).dom (F id).bid).crews (7 : BitVec 3).toNat []
    ∧ (F id).fid ∉ tget ((S id).block (F id).dom (F id).bid).late (7 : BitVec 3).toNat []
    ∧ (F id).fid ∉ tget ((crewed (.cbar 3)).block 0 0).crews (4 : BitVec 3).toNat [] ∧ ((crewed (.cbar 3)).fibs.map (·.1)).Nodup :=
  ⟨⟨rfl, rfl, rfl, rfl, rfl⟩, by decide, by decide, rfl, by decide, rfl, rfl, rfl, rfl, by decide +kernel, by decide +kernel, by decide +kernel,
    by decide +kernel, by decide +kernel, ⟨rfl, rfl, rfl, rfl, rfl⟩, by decide +kernel, turn id _ _ rfl rfl rfl, by decide +kernel,
    by decide +kernel, by decide +kernel, by decide +kernel⟩

theorem witness_TakingAStop :
    (S (R [(7, 5)])).fib? K = some (F (R [(7, 5)])) ∧ (S (R [(7, 5)])).replaying (F (R [(7, 5)])).dom = false ∧ (F id).hkind = 0
    ∧ (S fun f => { f with hkind := 2 }).fib? K = some (F fun f => { f with hkind := 2 }) ∧ (F fun f => { f with hkind := 2 }).hkind ≠ 0
    ∧ ((S id).core K.core).recs.length < 64 :=
  ⟨fibS _, by decide +kernel, rfl, fibS _, by decide, by decide +kernel⟩

/-- A fibre in a handler of a kind, its status and EPCS in order. -/
def handling (n : Nat) (f : Fib) : Fib := { f with hkind := n, hslots := f.hslots.set 3 (BitVec.ofNat 64 n), epcs := 0x1_0004, epcl := 0x1_0008 }

theorem witness_TrapBreakAndReturn :
    ScalarTurn (S id) K (F id) [] [] ∧ (F id).lq = 0 ∧ (F id).hkind = 0
    ∧ ScalarTurn (S (full 1)) K (F (full 1)) [] [] ∧ (F (full 1)).lq ≠ 0
    ∧ (∀ n ∈ [1, 2, 3], (F (handling n)).hkind = n ∧ (F (handling n)).reports = [] ∧ (∀ c ∈ [0, 1, 2, 3, 4, 5], (F (handling n)).counter c = 0)
      ∧ (F (handling n)).hslots.getD 3 0 = BitVec.ofNat 64 (F (handling n)).hkind ∧ (F (handling n)).epcs.toNat % 4 = 0
      ∧ (F (handling n)).epcl.toNat % 4 = 0 ∧ (F (handling n)).wake.toNat < 7 * 2 ^ 60 ∧ (F (handling n)).regs.length = 192)
    ∧ (∀ n, ScalarTurn (S (handling n)) K (F (handling n)) [] [])
    ∧ (F fun f => { handling 1 f with hslots := f.hslots }).hslots.getD 3 0 ≠ BitVec.ofNat 64 1 :=
  ⟨turn id _ _ rfl rfl rfl, rfl, rfl, ⟨rfl, rfl, by decide +kernel, by decide +kernel, rfl⟩, by decide, by decide +kernel, fun _ => turn _ _ _ rfl rfl rfl,
    by decide +kernel⟩

theorem witness_HandlerWordsAndExit :
    ScalarTurn (S (handling 2)) K (F (handling 2)) [] [] ∧ (F (handling 2)).hkind = 2 ∧ (F (handling 3)).hkind = 3
    ∧ ScalarTurn (S (handling 1)) K (F (handling 1)) [] [(191 : BitVec 8).toNat] ∧ (F (handling 1)).hkind ≠ 0
    ∧ ScalarTurn (S id) K (F id) [(191 : BitVec 8).toNat] [] ∧ ScalarTurn (S id) K (F id) [] []
    ∧ (F id).hkind = 0 ∧ (F id).reports = [] ∧ (∀ c ∈ [0, 1, 2, 3, 4, 5], (F id).counter c = 0) :=
  ⟨turn _ _ _ rfl rfl rfl, rfl, rfl, turn _ _ _ rfl rfl rfl, by decide, turn id _ _ rfl rfl rfl, turn id _ _ rfl rfl rfl, rfl, rfl,
    by decide +kernel⟩

/-- S[7] = an address of the program's page, S[8] a value, S[9] another. -/
def addr (f : Fib) : Fib := R [(7, 0x1_0000), (8, 5), (9, 6)] f
/-- A fibre whose S[7] addresses its scratchpad. -/
def scr (f : Fib) : Fib := R [(7, 0x40), (8, 5), (9, 6)] f

theorem witness_ScalarAccessIssue :
    (∀ r w, ScalarTurn (S addr) K (F addr) r w) ∧ memStall (S addr) K (F addr) false false = none ∧ memStall (S addr) K (F addr) false true = none
    ∧ (F addr).lq = 0 ∧ (F addr).reports = [] ∧ (F addr).phase = 0
    ∧ (∃ l, checkAll (S addr) 0 (F addr).gang false .plain .load .fibre (scalarReq ((F addr).sreg 7 + BitVec.ofInt 64 255) 1 [] []) = .ok l
        ∧ boardHit (S addr) l false = false)
    ∧ (∃ l, checkAll (S addr) 0 (F addr).gang false .plain .load .fibre
        (scalarReq ((F addr).pc - BitVec.ofNat 64 ((F addr).pc.toNat % 8) + BitVec.ofInt 64 (8 * (1 : BitVec 18).toInt)) 8 [] []) = .ok l ∧ boardHit (S addr) l false = false)
    ∧ (∃ l, checkAll (S scr) 0 (F scr).gang true .plain .load .fibre (scalarReq ((F scr).sreg 7) 8 [] []) = .ok l ∧ boardHit (S scr) l false = false)
    ∧ (∃ l, checkAll (S addr) 0 (F addr).gang false .strong .load .fibre (scalarReq ((F addr).sreg 7) 8 [] []) = .ok l ∧ boardHit (S addr) l false = false)
    ∧ (∃ l, checkAll (S addr) 0 (F addr).gang false .plain .store .fibre (scalarReq ((F addr).sreg 7) 8 (leBytes 5 8) []) = .ok l
        ∧ boardHit (S addr) l true = false)
    ∧ (∃ l, checkAll (S addr) 0 (F addr).gang false .strong .store .fibre (scalarReq ((F addr).sreg 7) 8 (leBytes 5 8) []) = .ok l
        ∧ boardHit (S addr) l true = false)
    ∧ (∃ l, checkAll (S addr) 0 (F addr).gang false .strong .atomic .fibre (scalarReq ((F addr).sreg 7) 4 (leBytes 6 4) (leBytes 5 4)) = .ok l
        ∧ boardHit (S addr) l true = false)
    ∧ releaseWaits (S addr) 0 (.fib K) 3 ((F addr).oneCore (S addr)) (S addr).nextId = false
    ∧ loadsOut (S addr) 0 (.fib K) = false ∧ acqPending (S addr) 0 (.fib K) = false :=
  ⟨fun r w => turn addr r w rfl rfl rfl, by decide +kernel, by decide +kernel, rfl, rfl, rfl, ok_of' (by decide +kernel), ok_of' (by decide +kernel),
    ok_of' (by decide +kernel), ok_of' (by decide +kernel), ok_of' (by decide +kernel), ok_of' (by decide +kernel), ok_of' (by decide +kernel),
    by decide +kernel, by decide +kernel, by decide +kernel⟩

/-! ### Witnesses: memory, channels, satchels, rows -/

/-- The program's first line in the L1 of core 0, its words Registered to it. -/
def cached (g : Fib → Fib) : State :=
  let s := S g
  { s.onCore 0 fun c => { c with l1 := [⟨512, 0, List.replicate 32 { st := .registered, val := 0x1234_5678 }⟩] } with
    owners := (List.range 32).map fun i => (512 * 32 + i, Node.core 0) }

/-- The same line, every word Valid by one fill. -/
def filled : State := (S addr).onCore 0 fun c => { c with l1 := [⟨512, 0, List.replicate 32 { st := .valid, val := 7, fill := 3 }⟩] }

theorem witness_ScalarCacheHits :
    ScalarTurn (cached addr) K (F addr) [(7 : BitVec 8).toNat] [(191 : BitVec 8).toNat]
    ∧ ScalarTurn (cached addr) K (F addr) [(7 : BitVec 8).toNat, (8 : BitVec 8).toNat] []
    ∧ ((cached addr).core 0).loads = [] ∧ ((cached addr).core 0).stores = [] ∧ ((cached addr).core 0).insts = []
    ∧ checkVa (cached addr) 0 .load .fibre ((F addr).sreg 7 + BitVec.ofInt 64 (120 : BitVec 9).toInt) = .ok .near 0x1_0078 0
    ∧ checkVa (cached addr) 0 .store .fibre ((F addr).sreg 7 + BitVec.ofInt 64 (120 : BitVec 9).toInt) = .ok .near 0x1_0078 0
    ∧ ((F addr).sreg 7 + BitVec.ofInt 64 (120 : BitVec 9).toInt).toNat % 8 = 0
    ∧ (∀ j ∈ List.range 8, (((cached addr).core 0).l1word (0x1_0078 / 128) ((0x1_0078 + j) / 4 % 32)).st = .registered
      ∧ (((cached addr).core 0).l1word (0x1_0078 / 128) ((0x1_0078 + j) / 4 % 32)).poison = false
      ∧ (cached addr).ownerOf (0x1_0078 / 128) ((0x1_0078 + j) / 4 % 32) = some (.core 0))
    ∧ memStall (cached addr) K (F addr) false true = none ∧ (F addr).unwaited = []
    ∧ (∀ j ∈ List.range 8, ((filled.core 0).l1word (0x1_0078 / 128) ((0x1_0078 + j) / 4 % 32)).st = .valid
      ∧ ((filled.core 0).l1word (0x1_0078 / 128) ((0x1_0078 + j) / 4 % 32)).fill = 3) :=
  ⟨⟨rfl, rfl, rfl, rfl, rfl⟩, ⟨rfl, rfl, rfl, rfl, rfl⟩, rfl, rfl, rfl, by decide +kernel, by decide +kernel, by decide +kernel, by decide +kernel,
    by decide +kernel, rfl, by decide +kernel⟩

/-- The gang's channel 3 bound to a near hamper at 0x1_8000, and the fibre at a phase of a channel word. -/
def channelled (g : Fib → Fib) : State :=
  let s := S g
  { s with gangs := s.gangs.map fun x => { x with chans := [⟨3, false, 0x1_8000, 4, 0x1_9000, [(1, 1)], false⟩] } }

theorem witness_ChannelAndSatchelWords_channel :
    (∀ r w, ScalarTurn (channelled addr) K (F addr) r w) ∧ (F addr).phase = 0
    ∧ (∃ ch, chanOf (channelled addr) (F addr) (3 : BitVec 6).toNat = some ch) ∧ chanOf (channelled addr) (F addr) (62 : BitVec 6).toNat = none
    ∧ ((F addr).sreg 7).toNat % 64 = 0
    ∧ (∃ l, checkAll (channelled addr) 0 (F addr).gang false .plain .load .fibre (scalarReq ((F addr).sreg 7) 64 [] []) = .ok l
        ∧ boardHit (channelled addr) l false = false)
    ∧ (∃ l, checkAll (channelled addr) 0 (F addr).gang false .plain .store .fibre (scalarReq ((F addr).sreg 7) 64 [] []) = .ok l
        ∧ boardHit (channelled addr) l true = false)
    ∧ memStall (channelled addr) K (F addr) false false = none ∧ memStall (channelled addr) K (F addr) false true = none
    ∧ releaseWaits (channelled addr) 0 (.fib K) 2 ((F addr).oneCore (channelled addr)) (channelled addr).nextId = false
    ∧ (F fun f => { addr f with phase := 3 }).phase = 3
    ∧ (let g := fun f => { addr f with phase := 2, mark := 4 }
       let s := (channelled g).onCore 0 fun c => { c with insts := [{ id := 4, thr := .fib K, pc := 0, fin := .hold, left := 0 }] }
       ScalarTurn s K (F g) [7] [] ∧ ∃ i, (s.core 0).insts.find? (fun i => i.id = (F g).mark) = some i ∧ i.left = 0)
    ∧ (let g := fun f => { addr f with phase := 7, keep := [0x1_0000, 0, 0] }
       let s := (S g).setBlock 0 0 { (S g).block 0 0 with mail := [5] }
       ScalarTurn s K (F g) [7, 8] [] ∧ (s.block (F g).dom (F g).bid).mail = 5 :: [] ∧ (s.block (F g).dom (F g).bid).mailOvf = false)
    ∧ (let g := fun f => { addr f with phase := 7, keep := [0x1_0000, 5, 0] }
       let s := (S g).setBlock 0 0 { (S g).block 0 0 with mail := [5] }
       (F g).keep = [(F g).sreg 7, (F g).sreg 8, 0] ∧ (F g).reports = [] ∧ (s.core 0).loads = [] ∧ (s.core 0).stores = [] ∧ (s.core 0).insts = []
       ∧ (∃ l, checkAll s 0 (F g).gang false .plain .store .fibre (recvReq ((F g).sreg 7) 0) = .ok l ∧ boardHit s l true = false)
       ∧ (recvParts s K (F g) 5).isSome = true)
    ∧ scalarLoadOut (channelled addr) K = false ∧ readsOut (channelled addr) 0 (.fib K) = false ∧ acqPending (channelled addr) 0 (.fib K) = false
    ∧ (channelled addr).quiet (0x1_8000 / 128) = true ∧ (channelled addr).replaying 0 = false
    ∧ ((channelled addr).dom 0).rpctl.getLsbD 31 = false :=
  ⟨fun _ _ => ⟨rfl, rfl, rfl, rfl, rfl⟩, rfl, ⟨_, rfl⟩, by decide +kernel, by decide +kernel, ok_of' (by decide +kernel), ok_of' (by decide +kernel),
    by decide +kernel, by decide +kernel, by decide +kernel, rfl, ⟨⟨rfl, rfl, rfl, rfl, rfl⟩, _, rfl, rfl⟩, ⟨⟨rfl, rfl, rfl, rfl, rfl⟩, by decide +kernel, by decide +kernel⟩,
    ⟨rfl, rfl, rfl, rfl, rfl, ok_of' (by decide +kernel), by decide +kernel⟩, by decide +kernel, by decide +kernel, by decide +kernel,
    by decide +kernel, by decide +kernel, by decide +kernel⟩

/-- Bytes of one descriptor: 64 bytes of scratchpad at 0 to 64, countdown word at 128. -/
def descr : List (Nat × Nat × W8) := ((leBytes 0 8 ++ leBytes 64 8 ++ leBytes 64 4 ++ leBytes 0x300 4 ++ leBytes 128 4 ++ leBytes 0 4).zipIdx).map
  fun e => (scalarLane, e.2, e.1)
/-- A sat.copy whose descriptor has come. -/
def fetched (f : Fib) : Fib := { scr f with phase := 2, mark := 4 }
def fetchedS : State := (S fetched).onCore 0 fun c => { c with insts := [{ id := 4, thr := .fib K, pc := 0, fin := .hold, left := 0, got := descr }] }

theorem witness_ChannelAndSatchelWords_satchel :
    ScalarTurn (S scr) K (F scr) [7] [] ∧ (F scr).phase = 0 ∧ (((F scr).sreg 7).extractLsb' 0 32).toNat % 32 = 0
    ∧ (((F (R [(7, 0x41)])).sreg 7).extractLsb' 0 32).toNat % 32 ≠ 0 ∧ memStall (S scr) K (F scr) false false = none
    ∧ (∃ l, checkAll (S scr) 0 (F scr).gang true .plain .load .fibre (scalarReq 0x40 (32 * 16) [] []) = .ok l ∧ boardHit (S scr) l false = false)
    ∧ ScalarTurn fetchedS K (F fetched) [7] [] ∧ (∃ p, (fetchedS.core 0).insts.find? (fun i => i.id = (F fetched).mark) = some p ∧ p.left = 0)
    ∧ (match satRun fetchedS 0 (satSteps fetchedS (F fetched) 0x40 (satDesc (gotBytes descr scalarLane 32))) (F fetched).keep [] with
        | .ok _ => true | _ => false) = true
    ∧ (F fetched).sac + 1 ≤ 63 ∧ boardRoom fetchedS (boardNeeds fetchedS (F fetched).gang (satDesc (gotBytes descr scalarLane 32))) = true
    ∧ (match satRun fetchedS 0 (satSteps fetchedS (F fetched) 0x40 (satDesc (List.replicate 32 0))) (F fetched).keep [] with
        | .fault .illegal _ _ => true | _ => false) = true
    ∧ (((S scr).core 0).boltErr = []) ∧ (scratchAt (S scr) (F scr).gang (((F scr).sreg 7).extractLsb' 0 32) 4).isSome = true
    ∧ loadsOut (S scr) 0 (.fib K) = false ∧ acqPending (S scr) 0 (.fib K) = false ∧ ((S scr).core 0).stores = [] ∧ ((S scr).core 0).board = [] :=
  ⟨turn scr _ _ rfl rfl rfl, rfl, by decide +kernel, by decide +kernel, by decide +kernel, ok_of' (by decide +kernel), ⟨rfl, rfl, rfl, rfl, rfl⟩, ⟨_, rfl, rfl⟩,
    by decide +kernel, by decide +kernel, by decide +kernel, by decide +kernel, rfl, by decide +kernel, by decide +kernel, by decide +kernel, rfl, rfl⟩

/-- Core 0 with a live grant of bank 5 to the block, the bank as given, in tick t; S[7] names row 3 of bank 5. -/
def granted (t : Nat) (x : Bank) (g : Fib → Fib) : State :=
  let s := S fun f => R [(7, 3 * 128 + 5)] (g f)
  let r : RowGrant := { live := true, dom := 0, gid := 0, bid := 0, mask := BitVec.allOnes 128, lo := 0, hi := 16383, share := 16 }
  { s.onCore 0 fun c => { c with grants := [(0, r)], banks := [(5, x)] } with tick := t }
/-- A row instruction of a kind due in tick t. -/
def withOp (kind t : Nat) (s : State) : State := s.onCore 0 fun c => { c with rowOps := [{ id := 9, k := K, kind := kind, h := 389, latch := 0, d := 7, t := t }] }

theorem witness_RowWords :
    ScalarTurn (granted 1000 {} id) K (F (R [(7, 389)])) [7] [] ∧ (F (R [(7, 389)])).phase ≠ 1 ∧ (granted 1000 {} id).replaying 0 = false
    ∧ (F (R [(7, 389)])).rwq.length < 63 ∧ (F (R [(7, 389)])).st = .running
    ∧ rowwaitDone (granted 1000 {} id) K (F (R [(7, 389)])) (0 : BitVec 2).toNat ((F (R [(7, 389)])).sreg 7) = true
    ∧ (∃ n g, ((granted 1000 {} id).core 0).liveGrant 0 0 = some (n, g))
    ∧ (rowCheck ((granted 1000 {} id).core 0) 0 0 0 389 1000).toBool = true
    ∧ (rowCheck ((granted 1000 { st := .opened, orow := 3, ta := some 982 } id).core 0) 0 0 1 389 1000).toBool = true
    ∧ (rowCheck ((granted 1000 { st := .opened, orow := 3, ta := some 983 } id).core 0) 0 0 1 389 1000).toBool = false
    ∧ (rowCheck ((granted 1000 { st := .opened, orow := 3, ta := some 960, tc := some 998 } id).core 0) 0 0 2 389 1000).toBool = true
    ∧ (rowCheck ((granted 1000 { st := .opened, orow := 3, ta := some 961 } id).core 0) 0 0 2 389 1000).toBool = false
    ∧ (∀ kind ∈ [0, 1, 2, 3], ((rowDue (withOp kind 1000 (granted 1000 {} id)) 0).map (·.kind)) = some kind)
    ∧ (granted 1000 {} id).fib? K = some (F (R [(7, 389)])) :=
  ⟨⟨rfl, rfl, rfl, rfl, rfl⟩, by decide, by decide +kernel, by decide +kernel, rfl, by decide +kernel, ⟨_, _, rfl⟩, by decide +kernel, by decide +kernel,
    by decide +kernel, by decide +kernel, by decide +kernel, by decide +kernel, rfl⟩

/-! ### Witnesses: further clauses of the scalar stream -/

/-- A report of an older scalar load, which a wait on LD covers. -/
def reported (f : Fib) : Fib := { f with reports := [{ cause := 11, inst := 1, ctr := 1, lane := 0xFF, addr := 0x1_0000, aux := 0, info := 0 }] }

theorem witness_LaneEnqueueAndWaits_more :
    ScalarTurn (S reported) K (F reported) [] [] ∧ (F reported).lq = 0 ∧ (∃ r ∈ (F reported).reports, covers (1 : BitVec 4).toNat r = true)
    ∧ scalarLoadOut (S reported) K = false ∧ (F reported).counter 1 ≤ (0 : BitVec 8).toNat
    ∧ (F (full 1)).lq ≠ 0 ∧ ScalarTurn (S (full 1)) K (F (full 1)) [] []
    ∧ ScalarTurn (S fun f => { f with stc := 1 }) K (F fun f => { f with stc := 1 }) [] []
    ∧ (0 : BitVec 8).toNat < (F fun f => { f with stc := 1 }).counter (2 : BitVec 4).toNat := by
  refine ⟨⟨rfl, fibS _, by decide +kernel, by decide +kernel, by decide +kernel⟩, rfl, ⟨_, List.mem_singleton.2 rfl, by decide +kernel⟩, by decide +kernel, by decide +kernel,
    by decide +kernel, ⟨rfl, fibS _, by decide +kernel, by decide +kernel, rfl⟩, turn _ _ _ rfl rfl rfl, by decide +kernel⟩

theorem witness_SpecialRegisters_more :
    (F id).longs.all (·.mem) = true ∧ (F id).lq = 0 ∧ ((0x09 : BitVec 8), (F id).jflags) ∈ [((0x09 : BitVec 8), (F id).jflags)] := by decide +kernel

theorem witness_ExtensionAndHemRegisters_more :
    ScalarTurn (pooled false) K (F fun f => { f with ext := false }) [] [] ∧ ((S id).launch 0).xp = 0 ∧ (F (full 1)).lq ≠ 0
    ∧ (let s := (pooled false).onCore 0 fun c => { c with xfree := [(0, 0)] }
       ScalarTurn s K (F fun f => { f with ext := false }) [] [] ∧ poolFree s K = 0 ∧ (s.launch 0).xp ≠ 0)
    ∧ (2 : BitVec 2).toNat ≤ 2 :=
  ⟨⟨rfl, rfl, rfl, rfl, rfl⟩, by decide +kernel, by decide +kernel, ⟨⟨rfl, rfl, rfl, rfl, rfl⟩, by decide +kernel, by decide +kernel⟩, by decide⟩

theorem witness_BarriersAndCrews_more :
    readsOut (two .bar id) 0 (.fib K) = false ∧ (∀ e ∈ barrierSet (two .bar id) (F id) .bar, e.2.reports = []) := by decide +kernel

/-- A second fibre of the gang that restores still. -/
def restoring (g : Fib → Fib) : State := (S g).setFib ⟨0, 0, 0, 1⟩ { freshFib placedLaunch 0 0 0 1 with st := .restoring, hkind := 3 }

theorem witness_TrapBreakAndReturn_more :
    (∀ n ∈ [1, 2, 3], scalarLoadOut (S (handling n)) K = false) ∧ (S (handling 3)).fibsOfGang (F (handling 3)).gang = [(K, F (handling 3))]
    ∧ (F (handling 3)).wake.toNat / 2 ^ 60 ≠ 6 ∧ ScalarTurn (restoring (handling 3)) K (F (handling 3)) [] []
    ∧ (∃ e ∈ (restoring (handling 3)).fibsOfGang (F (handling 3)).gang, e.1 ≠ K ∧ e.2.st ≠ .exited ∧ (e.2.st ≠ .restoring ∨ e.2.hkind ≠ 0)) :=
  ⟨by decide +kernel, by rfl, by decide +kernel, ⟨rfl, rfl, rfl, rfl, rfl⟩, by decide +kernel⟩

theorem witness_HandlerWordsAndExit_more : scalarLoadOut (S id) K = false ∧ (F (handling 1)).hkind ≠ 0 := by decide +kernel

theorem witness_ScalarAccessIssue_more :
    readsOut (S addr) 0 (.fib K) = false ∧ scalarLoadOut (S addr) K = false
    ∧ (∃ x : BitVec 4, Instr.satom 3 3 true 8 7 8 = .satom 3 3 true 8 7 x ∧ 8 = x.toNat ∧ x.toNat ≤ 8) := ⟨by decide +kernel, by decide +kernel, 8, rfl, rfl, by decide⟩

/-- Copies of the fibre whose countdown word is the one in S[7]. -/
def copying (out : List (Nat × Nat)) : State :=
  { S scr with copies := [{ id := 4, k := K, core := 0, src := 0, dst := 64, len := 64, cons := none, sscr := true, dscr := true, cdw := 0x40, mark := 4, out := out }] }

theorem witness_ChannelAndSatchelWords_more :
    ScalarTurn (copying []) K (F scr) [7] [] ∧ ScalarTurn (copying [(1, 4)]) K (F scr) [7] []
    ∧ (∀ y ∈ (copying []).copies, (y.k = K ∧ y.cdw = ((F scr).sreg 7).toNat % 2 ^ 32) ∧ y.dead = false ∧ y.out = [])
    ∧ (∃ y ∈ (copying [(1, 4)]).copies, (y.k = K ∧ y.cdw = ((F scr).sreg 7).toNat % 2 ^ 32) ∧ (y.dead = true ∨ y.out ≠ []))
    ∧ ((copying [(1, 4)]).copies.map (·.id)).Nodup ∧ readsOut (S scr) 0 (.fib K) = false
    ∧ scratchAt (S scr) (F scr).gang 0xFFFF_FFFC 4 = none
    ∧ ¬((F fun f => { fetched f with sac := 63 }).sac + 1 ≤ 63) :=
  ⟨⟨rfl, rfl, rfl, rfl, rfl⟩, ⟨rfl, rfl, rfl, rfl, rfl⟩, by decide +kernel, by decide +kernel, by decide +kernel, by decide +kernel, by decide +kernel,
    by decide +kernel⟩

theorem witness_RowWords_more :
    (∃ e, rowCheck ((granted 1000 {} id).core 0) 0 0 1 389 1000 = .error e) ∧ (F (R [(7, 389)])).phase = 0
    ∧ ((rowDue (withOp 0 1000 (granted 1000 {} id)) 0).map (·.k)) = some K :=
  ⟨⟨.rowEarly, by decide +kernel⟩, rfl, by decide +kernel⟩

/-! ### Witnesses: lane words -/

/-- A stitch at the program's first word with every lane active, or none. -/
def st (m : Mask) : Stitch := { pc := 0x1_0000, mask := m, snap := regsInit }
/-- The fibre at that stitch. -/
def LF (m : Mask) (g : Fib → Fib) : Fib := F fun f => g { f with stitches := [st m] }
/-- The module with that fibre holding its lane pipe. -/
def LS (m : Mask) (g : Fib → Fib) : State := { S (fun f => g { f with stitches := [st m] }) with cur := .lane K }
/-- A lane word of registers v8, v16, v24 that ignores tags. -/
def wd (fmt : BitVec 4) (fn md : BitVec 6) (imm : BitVec 32) : LaneWord := ⟨0, false, false, false, true, 8, 16, 24, 0, fmt, fn, md, imm⟩

theorem laneTurn (m : Mask) : LaneTurn (LS m id) K (LF m id) (st m) := ⟨rfl, rfl, rfl, rfl, rfl, by rfl, rfl⟩

def order (n : Nat) (f : Fib) : Fib := { f with jord := n }
theorem witness_LaneMaskAndResults :
    LaneTurn (LS 0 id) K (LF 0 id) (st 0) ∧ effMask (wd 0 0 0 0) (st 0) = 0 ∧ (LS 0 id).fib? K = some (LF 0 id)
    ∧ (([(8, List.replicate 96 (1 : W32)), (127, List.replicate 96 2)] : List (Nat × List W32)).map (·.1)).Nodup
    ∧ (([(8, 0), (127, 14)] : List (Nat × Nat)).map (·.1)).Nodup
    ∧ (∀ e ∈ ([(8, List.replicate 96 (1 : W32)), (127, List.replicate 96 2)] : List (Nat × List W32)),
        e.2.length = 96 ∧ ((LS 0 id).vreg K e.1).length = 96) :=
  ⟨laneTurn 0, by decide, rfl, by decide, by decide, by decide +kernel⟩

theorem witness_LaneIntegerWords :
    LaneTurn (LS maskFull id) K (LF maskFull id) (st maskFull)
    ∧ ∀ fmt ∈ [(0 : BitVec 4), 5, 11, 12], ∀ md ∈ [(0 : BitVec 6), 12], let w := wd fmt 0 md 0
      effMask w (st maskFull) ≠ 0 ∧ isInt w.fmt.toNat = true ∧ w.mdIn 12 = true ∧ w.bOk = true ∧ w.vc = 0
      ∧ regsPass (LS maskFull id) K (LF maskFull id) w ([single w.fmt.toNat w.vd.toNat none, single w.fmt.toNat w.va.toNat (some w.fmt.toNat)]
        ++ regsB w w.fmt.toNat (some w.fmt.toNat) ++ [single w.fmt.toNat w.vc.toNat (some w.fmt.toNat)]) = true :=
  ⟨laneTurn _, by decide +kernel⟩

theorem witness_LaneBitAndCompareWords :
    LaneTurn (LS maskFull id) K (LF maskFull id) (st maskFull)
    ∧ (∀ fmt ∈ [(0 : BitVec 4), 12], let w := wd fmt 0 0 0
      effMask w (st maskFull) ≠ 0 ∧ w.fmt.toNat ≤ 12 ∧ w.mdIn 8 = true ∧ w.bOk = true ∧ w.vc = 0 ∧ w.S = false
      ∧ regsPass (LS maskFull id) K (LF maskFull id) w ([single w.fmt.toNat w.vd.toNat none, single w.fmt.toNat w.va.toNat none]
        ++ regsB w w.fmt.toNat none ++ [single w.fmt.toNat w.vb.toNat none, single w.fmt.toNat w.vc.toNat none]) = true)
    ∧ (let w : LaneWord := { wd 7 1 0 5 with vb := 0 }
       w.imm1 = true ∧ w.fmt.toNat = 7 ∧ w.bOk = true ∧ regsPass (LS maskFull id) K (LF maskFull id) w
         ([single 7 w.vd.toNat none, single 7 w.va.toNat none] ++ regsB w 7 none) = true)
    ∧ (let w : LaneWord := { wd 0 0 8 0 with va := 0 }
       w.S = true ∧ w.mdIn 8 = true ∧ w.bOk = true ∧ regsPass (LS maskFull id) K (LF maskFull id) w [single 0 w.vd.toNat none] = true)
    ∧ (∀ fn ∈ [(0 : BitVec 6), 3], let w : LaneWord := { wd 0 fn 0 0 with vb := 0 }
       isInt w.fmt.toNat = true ∧ w.mdIn 4 = true ∧ w.vb = 0 ∧ w.sat = false
         ∧ regsPass (LS maskFull id) K (LF maskFull id) w [single 0 w.vd.toNat none, single 0 w.va.toNat (some 0)] = true)
    ∧ (let w : LaneWord := { wd 1 1 0 0xFFFF_FFFF with va := 0, vb := 0 }
       w.fmt.toNat ≤ 1 ∧ w.fn.toNat ≤ 1 ∧ regsPass (LS maskFull id) K (LF maskFull id) w [single w.fmt.toNat w.vd.toNat none] = true)
    ∧ (∀ fn ∈ [(0 : BitVec 6), 40, 44], let w := wd 0 fn 0 0
       w.fn.toNat / 8 ≤ 5 ∧ w.fn.getLsbD 1 = false ∧ w.mdIn 8 = true ∧ w.bOk = true ∧ 1 ≤ w.vd.toNat ∧ w.vd.toNat ≤ 189
         ∧ (elems (LS maskFull id) K 0 w.va.toNat).length = 96
         ∧ (operandB (LS maskFull id) (laneCtx K (LF maskFull id) (st maskFull) w) w 0).length = 96
         ∧ regsPass (LS maskFull id) K (LF maskFull id) w ([single 0 w.vd.toNat none, single 0 w.va.toNat (some 0)] ++ regsB w 0 (some 0)) = true) :=
  ⟨laneTurn _, by decide +kernel, by decide +kernel, by decide +kernel, by decide +kernel, by decide +kernel, by decide +kernel⟩

theorem witness_CrossLaneWords :
    LaneTurn (LS maskFull id) K (LF maskFull id) (st maskFull)
    ∧ (let w := wd 0 0 0 0
       w.fmt.toNat ≤ 12 ∧ w.vc = 0 ∧ w.mdIn 8 = true ∧ regsPass (LS maskFull id) K (LF maskFull id) w ([single 0 w.vd.toNat none, single 0 w.va.toNat none]
         ++ [indexRegs (LS maskFull id) K w.vb.toNat]) = true)
    ∧ (∀ e ∈ [(1, 0), (95, 1), (127, 4)], let w : LaneWord := { wd 6 (BitVec.ofNat 6 e.2) 0 (BitVec.ofNat 32 e.1) with vb := 0 }
       w.imm.toNat ≤ 127 ∧ 1 ≤ w.imm.toNat ∧ isFloat w.fmt.toNat = true
         ∧ regsPass (LS maskFull id) K (LF maskFull id) w [single 6 w.vd.toNat none, single 6 w.va.toNat none] = true)
    ∧ (∀ n ∈ [0, 5], let w : LaneWord := { wd 0 (BitVec.ofNat 6 n) 0 0 with vb := 0 }
       w.vd.toNat < 192 ∧ w.fn.toNat ≤ 5 ∧ w.mdIn 4 = true ∧ w.mdIn 0 = true ∧ isInt w.fmt.toNat = true
         ∧ (elems (LS maskFull id) K 0 w.va.toNat).length = 96
         ∧ regsPass (LS maskFull id) K (LF maskFull id) w [single 0 w.vd.toNat none, single 0 w.va.toNat (some 0)] = true)
    ∧ (let w : LaneWord := { wd 12 1 0 63 with vb := 0 }
       w.imm.toNat ≤ (if is64 w.fmt.toNat then 63 else 31) ∧ regsPass (LS maskFull id) K (LF maskFull id) w [single 12 w.va.toNat none] = true)
    ∧ (let w : LaneWord := { wd 0 1 0 15 with va := 0, vb := 0, vd := 31 }
       w.imm.toNat < 16 ∧ regsPass (LS maskFull id) K (LF maskFull id) w [single 0 w.vd.toNat none] = true)
    ∧ (let w : LaneWord := { wd 0 13 0 0 with vb := 0 }
       w.fn.toNat < 16 ∧ w.fn.toNat % 8 ≤ 5 ∧ w.mdIn 0 = true) :=
  ⟨laneTurn _, by decide +kernel, by decide +kernel, by decide +kernel, by decide +kernel, by decide +kernel, by decide +kernel⟩

/-! ### Witnesses: floating words -/

theorem witness_FloatRounding :
    (∀ fmt ∈ [6, 7, 8, 9], let F := fpFmt fmt
      1 < 2 ^ F.width ∧ (1 / 2 ^ (F.p - 1) % 2 ^ F.ew ≠ 2 ^ F.ew - 1)
      ∧ (let x := (2 ^ F.ew - 1) * 2 ^ (F.p - 1); x < 2 ^ F.width ∧ x / 2 ^ (F.p - 1) % 2 ^ F.ew = 2 ^ F.ew - 1 ∧ x % 2 ^ (F.p - 1) = 0)
      ∧ (let x := (2 ^ F.ew - 1) * 2 ^ (F.p - 1) + 1; x < 2 ^ F.width ∧ x / 2 ^ (F.p - 1) % 2 ^ F.ew = 2 ^ F.ew - 1 ∧ x % 2 ^ (F.p - 1) ≠ 0))
    ∧ (unpackF (fpFmt 6) 0x7F80_0001).isNan = true := by decide +kernel

theorem witness_LaneFloatWords :
    LaneTurn (LS maskFull id) K (LF maskFull id) (st maskFull) ∧ trapsOff (LF maskFull id)
    ∧ (∀ fmt ∈ [(6 : BitVec 4), 7, 8, 9], let w := wd fmt 0 3 0
      effMask w (st maskFull) ≠ 0 ∧ isFloat w.fmt.toNat = true ∧ w.mdIn 11 = true ∧ w.mdIn 3 = true ∧ w.bOk = true ∧ immFits w w.fmt.toNat = true
      ∧ regsPass (LS maskFull id) K (LF maskFull id) w ([group w.fmt.toNat ((LF maskFull id).jord % 8) w.vd.toNat false,
        group w.fmt.toNat 0 w.va.toNat true, group w.fmt.toNat 0 w.vb.toNat true, group w.fmt.toNat 0 w.vc.toNat true,
        single w.fmt.toNat w.vb.toNat (some w.fmt.toNat)]) = true)
    ∧ (let w : LaneWord := { wd 6 0 0 0 with vb := 0 }
       w.vb = 0 ∧ w.S = false ∧ w.mdIn 0 = true)
    ∧ (let g : Fib → Fib := fun f => { f with rmode := 0x1000, vregs := [(16, List.replicate 96 0x7F80_0001)] }
       let w := wd 6 0 0 0
       let f := LF maskFull g
       let bs := seriesB (LS maskFull g) (laneCtx K f (st maskFull) w) w 6 0 true false
       let rs := eachLane (laneCtx K f (st maskFull) w) 6 fun L j => seriesAdd (fpFmt 6) (rndOf w.md.toNat f.rmode) false
         (vals (fpFmt 6) (subSeries 6 (groupElems (LS maskFull g) K 6 0 w.va.toNat) L j)) (vals (fpFmt 6) (subSeries 6 bs L j)) 1
       ((rs.getD 0 []).getD 0 (0, 0)).2 &&& (f.rmode.extractLsb' 8 5).toNat ≠ 0 ∧ (effMask w (st maskFull)).getLsbD 0 = true) :=
  ⟨laneTurn _, by unfold trapsOff; decide +kernel, by decide +kernel, by decide +kernel, by decide +kernel⟩

theorem witness_LaneFloatScaleAndCompare :
    LaneTurn (LS maskFull id) K (LF maskFull id) (st maskFull) ∧ trapsOff (LF maskFull id)
    ∧ (let w := wd 6 0 11 0
       w.mdIn 11 = true ∧ w.bOk = true)
    ∧ (let w := wd 6 0 3 0
       immFits w 6 = true ∧ w.imm1 = false ∧ regsPass (LS maskFull id) K (LF maskFull id) w [group 6 0 w.vd.toNat false, group 6 0 w.va.toNat true,
         single 0 w.vb.toNat (some 0)] = true)
    ∧ (let w : LaneWord := { wd 7 0 3 0 with vb := 0, vc := 10 }
       w.vd.toNat + groupSize 0 * (if is64 7 then 2 else 1) ≤ w.vc.toNat ∧ w.mdIn 3 = true
         ∧ regsPass (LS maskFull id) K (LF maskFull id) w [group 7 0 w.vd.toNat false, group 7 0 w.va.toNat true, single 0 w.vc.toNat none] = true)
    ∧ (let w : LaneWord := { wd 8 0 3 0 with vc := 28 }
       regsPass (LS maskFull id) K (LF maskFull id) w [group 6 0 w.vd.toNat false, group 8 0 w.va.toNat true, group 8 0 w.vb.toNat true,
         group 6 0 w.vc.toNat true] = true)
    ∧ (∀ fn ∈ [(0 : BitVec 6), 4, 41], let w : LaneWord := { wd 6 fn 0 0 with vb := if fn = 41 then 0 else 24 }
       w.fn.getLsbD 1 = false ∧ w.mdIn 11 = true ∧ w.bOk = true ∧ immFits w 6 = true ∧ 1 ≤ w.vd.toNat ∧ w.vd.toNat ≤ 189
         ∧ regsPass (LS maskFull id) K (LF maskFull id) w [single 6 w.vd.toNat none, single 6 w.va.toNat (some 6), single 6 w.vb.toNat (some 6),
           single 0 w.vd.toNat none] = true) :=
  ⟨laneTurn _, by unfold trapsOff; decide +kernel, by decide +kernel, by decide +kernel, by decide +kernel, by decide +kernel, by decide +kernel⟩




theorem witness_JetWords :
    LaneTurn (LS maskFull (order 3)) K (LF maskFull (order 3)) (st maskFull) ∧ trapsOff (LF maskFull (order 3))
    ∧ (LF maskFull (order 3)).jord % 8 ≠ 0
    ∧ (∀ n ∈ [0, 3], let w : LaneWord := { wd 6 0 0 (BitVec.ofNat 32 n) with vb := 0 }
       w.mdIn 0 = true ∧ w.mdIn 3 = true ∧ w.imm.toNat ≤ (LF maskFull (order 3)).jord % 8
         ∧ regsPass (LS maskFull (order 3)) K (LF maskFull (order 3)) w [group 6 3 w.vd.toNat false, group 6 3 w.va.toNat true,
           single 6 w.vd.toNat none, single 6 w.va.toNat (some 6), oneOfGroup 6 3 w.va.toNat w.imm.toNat true,
           oneOfGroup 6 3 w.vd.toNat w.imm.toNat false] = true)
    ∧ (let w := wd 6 1 0 0
       w.mdIn 8 = true ∧ regsPass (LS maskFull (order 3)) K (LF maskFull (order 3)) w [group 6 3 w.vd.toNat false, single 6 w.va.toNat (some 6),
         single 6 w.vb.toNat (some 6)] = true) :=
  ⟨⟨rfl, rfl, rfl, rfl, rfl, by rfl, rfl⟩, by unfold trapsOff; decide +kernel, by decide +kernel, by decide +kernel, by decide +kernel⟩

theorem witness_ConversionAndBlockWords :
    LaneTurn (LS maskFull id) K (LF maskFull id) (st maskFull) ∧ LaneTurn (LS maskFull (order 3)) K (LF maskFull (order 3)) (st maskFull)
    ∧ trapsOff (LF maskFull id) ∧ trapsOff (LF maskFull (order 3))
    ∧ (∀ e ∈ [(6, 0, 0), (8, 6, 1), (0, 4, 0), (7, 12, 0), (5, 0, 3)],
       let w : LaneWord := { wd (BitVec.ofNat 4 e.1) (BitVec.ofNat 6 e.2.1) 0 (BitVec.ofNat 32 e.2.2) with vb := 0 }
       let src := w.fmt.toNat; let dst := w.fn.toNat
       cvtFmt src = true ∧ cvtFmt dst = true ∧ dst < 16 ∧ w.mdIn (if isFloat dst then 3 else 7) = true
         ∧ (if subCount dst < subCount src then w.imm.toNat < subCount src / subCount dst else w.imm = 0)
         ∧ regsPass (LS maskFull id) K (LF maskFull id) w (single dst w.vd.toNat none :: (List.range
           (if subCount src < subCount dst then subCount dst / subCount src else 1)).map fun q =>
             single src (w.va.toNat + (if is64 src then 2 else 1) * q) (some src)) = true)
    ∧ (let w : LaneWord := { wd 6 7 0 0 with vb := 0 }
       isFloat 6 = true ∧ isFloat 7 = true ∧ subCount 6 = subCount 7
         ∧ regsPass (LS maskFull (order 3)) K (LF maskFull (order 3)) w [group 7 3 w.vd.toNat false, group 6 3 w.va.toNat true] = true)
    ∧ (let w : LaneWord := { wd 6 1 0 63 with vb := 0 }
       w.imm.toNat < 64 ∧ regsPass (LS maskFull id) K (LF maskFull id) w [blockGroup w.vd.toNat false, single 6 w.va.toNat (some 6)] = true)
    ∧ (let w : LaneWord := { wd 8 0 3 62 with vb := 0 }
       w.imm.toNat < 63 ∧ w.mdIn 3 = true ∧ regsPass (LS maskFull id) K (LF maskFull id) w [single 8 w.vd.toNat none, blockGroup w.va.toNat true] = true)
    ∧ (let w : LaneWord := { wd 10 0 0 6 with vb := 0 }
       2 ≤ w.imm.toNat ∧ w.imm.toNat ≤ 6 ∧ regsPass (LS maskFull id) K (LF maskFull id) w [blockGroup w.vd.toNat false, blockGroup w.va.toNat true,
         single 0 w.vd.toNat none] = true) :=
  ⟨laneTurn _, ⟨rfl, rfl, rfl, rfl, rfl, by rfl, rfl⟩, by unfold trapsOff; decide +kernel, by unfold trapsOff; decide +kernel, by decide +kernel,
    by decide +kernel, by decide +kernel, by decide +kernel, by decide +kernel⟩

theorem witness_ConversionAndBlockWords_more :
    (∀ e ∈ [(6, 7), (0, 6), (6, 0)], let w : LaneWord := { wd (BitVec.ofNat 4 e.1) (BitVec.ofNat 6 e.2) 0 0 with vb := 0 }
       let src := w.fmt.toNat; let dst := w.fn.toNat
       ((isFloat src = true ∨ isFloat dst = true) ∧ subCount src = subCount dst ∨ isFloat src = true ∧ isFloat dst = false ∧ subCount dst ≤ subCount src)
       ∧ regsPass (LS maskFull (order 3)) K (LF maskFull (order 3)) w ((if isFloat dst then group dst 3 w.vd.toNat false else single dst w.vd.toNat none)
         :: (if isFloat src = false then [single src w.va.toNat (some src)]
             else if isFloat dst then [group src 3 w.va.toNat true] else [oneOfGroup src 3 w.va.toNat 0 true])) = true)
    ∧ (LF maskFull (order 3)).jord % 8 ≠ 0 ∧ cvtFmt 0 = true ∧ isFloat 0 = false
    ∧ (let w : LaneWord := { wd 9 0 3 1 with vb := 0 }
       w.imm.toNat < 63 ∧ w.mdIn 3 = true ∧ regsPass (LS maskFull id) K (LF maskFull id) w [single 9 w.vd.toNat none, blockGroup w.va.toNat true] = true) :=
  ⟨by decide +kernel, by decide +kernel, by decide +kernel, by decide +kernel, by decide +kernel⟩

/-! ### Witnesses: lane memory -/

/-- The first and the last lane. -/
def ends : Mask := BitVec.ofNat 96 (2 ^ 95 + 1)
/-- A lane access in rows of the program's page. -/
def mw (fmt fn vc : Nat) : LaneWord :=
  { wd (BitVec.ofNat 4 fmt) (BitVec.ofNat 6 fn) 8 0x1_0000 with va := 0, vc := BitVec.ofNat 8 vc }
/-- Its accesses. -/
def rq (w : LaneWord) (n : Nat) (data cmp : Nat → List W8) : List LaneReq :=
  laneReqs (laneCtx K (LF ends id) (st ends) w) n (laneAddr (LS ends id) (laneCtx K (LF ends id) (st ends) w) w n) data cmp

theorem witness_LaneAddressesAndValues :
    (∀ m ∈ [0, 1, 2, 3], memMode (mw 6 (16 * m) 0) = m) ∧ (0 < 96 ∧ 95 < 96 ∧ ends.getLsbD 0 = true ∧ ends.getLsbD 95 = true)
    ∧ (∀ L ∈ [0, 95], gotBytes ((leBytes 0xFEDC_BA98 4).zipIdx.map fun e => (L, e.2, e.1)) L 4 = leBytes 0xFEDC_BA98 4
      ∧ gotBytes ((leBytes 0xFEDC_BA98 8).zipIdx.map fun e => (L, e.2, e.1)) L 8 = leBytes 0xFEDC_BA98 8
      ∧ gotBytes [(L, 0, 0x80)] L 1 = [0x80] ∧ gotBytes ((leBytes 0x8000 2).zipIdx.map fun e => (L, e.2, e.1)) L 2 = leBytes 0x8000 2
      ∧ gotBytes (((List.range 6).flatMap fun w => leBytes (3 * w) 8).zipIdx.map fun e => (L, e.2, e.1)) L 48
        = (List.range 6).flatMap fun w => leBytes (BitVec.ofNat 64 (3 * w)).toNat 8)
    ∧ (LaneTurn (LS ends id) K (LF ends id) (st ends) ∧ (let w : LaneWord := { mw 6 0x30 0 with vd := 0 }
       effMask w (st ends) ≠ 0 ∧ w.fmt.toNat ≤ 12 ∧ (w.mdIn 0x28 = true ∧ addrOk w = true ∧ widthOk w = true)
       ∧ w.vc = 0 ∧ w.vd = 0 ∧ regsPass (LS ends id) K (LF ends id) w (addrRegs w) = true
       ∧ (∀ L, L < 96 → (checkVa (LS ends id) K.core .load .fibre
          (laneAddr (LS ends id) (laneCtx K (LF ends id) (st ends) w) w (memWidth w) L)) matches .ok _ _ _))) :=
  ⟨by decide +kernel, by decide +kernel, by decide +kernel, laneTurn _, by decide +kernel⟩

theorem witness_LaneLoadsStart :
    LaneTurn (LS ends id) K (LF ends id) (st ends)
    ∧ (∀ fmt ∈ [0, 6, 9, 11, 12], let w := mw fmt 0x30 0
       effMask w (st ends) ≠ 0 ∧ fmt ≤ 12 ∧ fmt ≠ 10 ∧ w.mdIn 0x28 = true ∧ addrOk w = true ∧ widthOk w = true
       ∧ regsPass (LS ends id) K (LF ends id) w (single fmt w.vd.toNat none :: addrRegs w) = true
       ∧ memStall (LS ends id) K (LF ends id) true false = none
       ∧ okRes (checkAll (LS ends id) 0 (LF ends id).gang w.scr .plain .load .fibre (rq w (memWidth w) (fun _ => []) fun _ => []))
         (fun l => !boardHit (usedPages 0 (rq w (memWidth w) (fun _ => []) fun _ => []) (LS ends id)) l false) = true)
    ∧ (∀ e ∈ [(0, 0), (1, 3)], let w := mw 6 0x30 (64 * e.1 + 16 * e.2)
       e.1 ≤ 1 ∧ e.2 ≤ 3 ∧ w.vc.toNat = 64 * e.1 + 16 * e.2
       ∧ okRes (checkAll (LS ends id) 0 (LF ends id).gang w.scr .strong .load .fibre (rq w 4 (fun _ => []) fun _ => []))
         (fun l => !boardHit (usedPages 0 (rq w 4 (fun _ => []) fun _ => []) (LS ends id)) l false) = true)
    ∧ (∀ n ∈ [2, 6], let w := mw 10 0x30 n
       w.fmt = 10 ∧ w.mdIn 0x28 = true ∧ addrOk w = true ∧ w.fn.toNat % 4 = 0 ∧ 2 ≤ w.vc.toNat ∧ w.vc.toNat ≤ 6
       ∧ regsPass (LS ends id) K (LF ends id) w (blockGroup w.vd.toNat false :: addrRegs w) = true
       ∧ okRes (checkAll (LS ends id) 0 (LF ends id).gang w.scr .block .load .fibre (rq w 48 (fun _ => []) fun _ => []))
         (fun l => !boardHit (usedPages 0 (rq w 48 (fun _ => []) fun _ => []) (LS ends id)) l false) = true) :=
  ⟨laneTurn _, by decide +kernel, by decide +kernel, by decide +kernel⟩

/-- Hem register 2 of the fibre's block stops elements that are not 0. -/
def hemmed : State :=
  let s := LS ends id
  s.setBlock 0 0 { s.block 0 0 with hems := [(2, { act := 2, lo := 0, hi := 0 })] }

theorem witness_LaneStoresStart :
    LaneTurn (LS ends id) K (LF ends id) (st ends) ∧ (LF ends id).reports = []
    ∧ (∀ fmt ∈ [0, 6, 9, 11, 12], let w := mw fmt 0x30 0
       let rs := rq w (memWidth w) (fun L => leBytes ((elems (LS ends id) K fmt w.vd.toNat).getD L 0) (memWidth w)) fun _ => []
       effMask w (st ends) ≠ 0 ∧ fmt ≤ 12 ∧ fmt ≠ 10 ∧ addrOk w = true ∧ widthOk w = true ∧ w.hem = false ∧ w.mdIn 0x38 = true
       ∧ regsPass (LS ends id) K (LF ends id) w (single fmt w.vd.toNat none :: addrRegs w) = true ∧ w.vc = 0
       ∧ memStall (LS ends id) K (LF ends id) false true = none
       ∧ okRes (checkAll (LS ends id) 0 (LF ends id).gang w.scr .plain .store .fibre rs)
         (fun l => !boardHit (usedPages 0 rs (LS ends id)) l true) = true)
    ∧ (∀ e ∈ [(0, 0), (1, 3)], let w := mw 6 0x30 (128 * e.1 + 16 * e.2)
       let rs := rq w 4 (fun L => leBytes ((elems (LS ends id) K 6 w.vd.toNat).getD L 0) 4) fun _ => []
       w.mdIn 0x28 = true ∧ w.vc.toNat = 128 * e.1 + 16 * e.2
       ∧ releaseWaits (usedPages 0 rs (LS ends id)) 0 (.fib K) e.2 ((LF ends id).oneCore (LS ends id)) (LS ends id).nextId = false
       ∧ okRes (checkAll (LS ends id) 0 (LF ends id).gang w.scr .strong .store .fibre rs)
         (fun l => !boardHit (usedPages 0 rs (LS ends id)) l true) = true)
    ∧ (let w := mw 10 0x30 0
       let rs := rq w 48 (fun L => ((List.range 12).map fun r => readV (LS ends id) K (w.vd.toNat + r)).flatMap
         fun r => leBytes (r.getD L 0).toNat 4) fun _ => []
       w.fmt = 10 ∧ w.mdIn 0x28 = true ∧ addrOk w = true ∧ w.fn.toNat % 4 = 0 ∧ w.vc = 0
       ∧ regsPass (LS ends id) K (LF ends id) w (blockGroup w.vd.toNat false :: addrRegs w) = true
       ∧ okRes (checkAll (LS ends id) 0 (LF ends id).gang w.scr .block .store .fibre rs)
         (fun l => !boardHit (usedPages 0 rs (LS ends id)) l true) = true) :=
  ⟨laneTurn _, rfl, by decide +kernel, by decide +kernel, by decide +kernel⟩

/-- A store through hem register 31, which stops the elements of v8 in the first lane. -/
theorem witness_LaneStoresStart_hem :
    let g := fun f : Fib => { f with vregs := [(8, List.replicate 96 5)] }
    let s := (LS ends g).setBlock 0 0 { (LS ends g).block 0 0 with hems := [(31, { act := 2, lo := 0, hi := 1 })] }
    let w : LaneWord := { mw 0 0x30 31 with md := 0x18 }
    s.cur = .lane K ∧ scalarAcq s K = false ∧ w.hem = true ∧ w.mdIn 0x38 = true ∧ w.vc.toNat < 32 ∧ hemFmt w.fmt.toNat = true
    ∧ (hemOf s (LF ends g).dom (LF ends g).bid (w.vc.toNat % 32)).act = 2 ∧ (effMask w (st ends)).getLsbD 0 = true
    ∧ (hemCheck 0 (hemOf s (LF ends g).dom (LF ends g).bid (w.vc.toNat % 32)) ((elems s K 0 w.vd.toNat).getD 0 0)).1 = false := by
  decide +kernel

theorem witness_LaneAtomicsStart :
    LaneTurn (LS ends id) K (LF ends id) (st ends) ∧ (LF ends id).markL = 0 ∧ (LF ends id).reports = []
    ∧ (∀ e ∈ [(0, 0, 0, 0), (12, 3, 3, 8), (1, 2, 1, 8)],
       let w := mw e.1 0x30 (64 * e.2.1 + 16 * e.2.2.1 + e.2.2.2)
       let s := LS ends id
       let n := if is64 w.fmt.toNat then 8 else 4
       let q := if is64 w.fmt.toNat then 2 else 1
       let ready := fun rs => okRes (checkAll s 0 (LF ends id).gang w.scr .strong .atomic .fibre rs)
           (fun l => !boardHit (usedPages 0 rs s) l true) = true
         ∧ releaseWaits (usedPages 0 rs s) 0 (.fib K) e.2.2.1 ((LF ends id).oneCore (usedPages 0 rs s)) (usedPages 0 rs s).nextId = false
       (w.fmt.toNat ≤ 1 ∨ w.fmt.toNat = 11 ∨ w.fmt.toNat = 12) ∧ w.mdIn 0x28 = true ∧ effMask w (st ends) ≠ 0
       ∧ memStall s K (LF ends id) true true = none ∧ addrOk w = true ∧ w.fn.toNat % 4 = 0
       ∧ regsPass s K (LF ends id) w (single w.fmt.toNat w.vd.toNat none :: addrRegs w) = true
       ∧ ready (rq w n (elemBytes s K w.fmt.toNat w.vd.toNat n) fun _ => [])
       ∧ (let w := { w with fn := 0 }
         w.va = 0 ∧ w.fn = 0 ∧ regsPass s K (LF ends id) w [single w.fmt.toNat w.vd.toNat none] = true
         ∧ ready (laneReqs (laneCtx K (LF ends id) (st ends) w) n (fun _ => w.imm.signExtend 64) (elemBytes s K w.fmt.toNat w.vd.toNat n) fun _ => []))
       ∧ w.vd.toNat % (2 * q) = 0
       ∧ regsPass s K (LF ends id) w (single w.fmt.toNat w.vd.toNat none :: single w.fmt.toNat (w.vd.toNat + q) none :: addrRegs w) = true
       ∧ ready (rq w n (elemBytes s K w.fmt.toNat (w.vd.toNat + q) n) (elemBytes s K w.fmt.toNat w.vd.toNat n))) :=
  ⟨laneTurn _, rfl, rfl, by decide +kernel⟩

/-! ### Witnesses: press words -/

/-- A stitch whose S[24] is v, the fibre at it and the module. -/
def stv (v : W64) : Stitch := { st ends with snap := regsInit.set 24 v }
def LFv (v : W64) (g : Fib → Fib) : Fib := F fun f => g { f with stitches := [stv v] }
def LSv (v : W64) (g : Fib → Fib) : State := { S (fun f => g { f with stitches := [stv v] }) with cur := .lane K }
/-- A product word into tile 0 from v0 and scratch rows at S[24], or from a latch. -/
def pw (fmt fn md vb vc : Nat) : LaneWord :=
  { wd (BitVec.ofNat 4 fmt) (BitVec.ofNat 6 fn) (BitVec.ofNat 6 md) 0 with vd := 0, va := 0, vb := BitVec.ofNat 8 vb, vc := BitVec.ofNat 8 vc }
/-- Tiles 0 and 1 hold format t. -/
def tagged (t : Nat) (s : State) : State := setAtag K 0 2 t s

theorem witness_PressWordsQueue_mma :
    (∀ v ∈ [(0 : Nat), 1, 0xFFFF_FFE0], LaneTurn (tagged 6 (LSv (BitVec.ofNat 64 v) id)) K (LFv (BitVec.ofNat 64 v) id) (stv (BitVec.ofNat 64 v)))
    ∧ pressRoom (tagged 6 (LSv 0 id)) K (LFv 0 id) ∧ (LFv 0 id).jord % 8 = 0 ∧ (LFv 0 (order 1)).jord % 8 = 1
    ∧ (∀ e ∈ [(8, 2, 24, 0), (9, 0, 0, 0), (10, 1, 0, 24)], let w := pw e.1 e.2.1 (if e.2.1 = 2 then 8 else 0) e.2.2.1 e.2.2.2
       let s := tagged 6 (LSv 0 id)
       productOk w = true ∧ effMask w (stv 0) ≠ 0 ∧ w.fn.toNat % 4 ≠ 3 ∧ (w.S = true ↔ w.fn.toNat % 4 = 2) ∧ (w.S = true ∨ w.vb = 0)
       ∧ w.fn.getLsbD 3 = false ∧ regsPass s K (LFv 0 id) w (tileRegs (s.launch 0) 0 1 :: (productA w false ++ scaleRegs w)) = true
       ∧ tagBad s K 0 1 6 = false)
    ∧ (let w := pw 4 6 12 24 0
       let s := tagged 0 (LSv 0 id)
       productOk w = true ∧ w.fn.toNat % 4 = 2 ∧ w.S = true ∧ tagBad s K 0 1 0 = false
       ∧ regsPass s K (LFv 0 id) w (tileRegs (s.launch 0) 0 1 :: (productA w false ++ scaleRegs w)) = true
       ∧ (scratchLines s (LFv 0 id).gang 0 3072 scalarLane).isOk = true)
    ∧ (let w := pw 8 10 8 24 0
       let s := tagged 6 (LSv 0 (order 1))
       productOk w = true ∧ w.fn.getLsbD 3 = true ∧ w.fmt.toNat = 8 ∧ (scratchLines s (LFv 0 (order 1)).gang 0 6144 scalarLane).isOk = true
       ∧ regsPass s K (LFv 0 (order 1)) w (tileRegs (s.launch 0) 0 2 :: (productA w true ++ scaleRegs w)) = true ∧ tagBad s K 0 2 6 = false)
    ∧ ((1 : W64).setWidth 32 : W32).toNat % 32 ≠ 0 ∧ ((0xFFFF_FFE0 : W64).setWidth 32 : W32).toNat % 32 = 0
    ∧ (scratchLines (tagged 6 (LSv 0xFFFF_FFE0 id)) (LFv 0xFFFF_FFE0 id).gang 0xFFFF_FFE0 3072 scalarLane).isOk = false := by
  refine ⟨?_, by unfold pressRoom; decide +kernel, rfl, rfl, by decide +kernel, by decide +kernel, by decide +kernel, by decide +kernel, by decide +kernel,
    by decide +kernel⟩
  intro v _
  exact ⟨rfl, rfl, rfl, rfl, rfl, rfl, rfl⟩

theorem witness_PressWordsQueue_mmag :
    LaneTurn (tagged 6 (LSv 0 id)) K (LFv 0 id) (stv 0) ∧ LaneTurn (tagged 6 (LSv 1 id)) K (LFv 1 id) (stv 1)
    ∧ (let w : LaneWord := { pw 9 0 8 24 0 with va := 8 }
       let c := laneCtx K (LFv 0 id) (stv 0) w
       let s := tagged 6 (LSv 0 id)
       productOk w = true ∧ w.fn.toNat % 4 < 2 ∧ w.fn.toNat < 8 ∧ w.S = true ∧ (w.t = true ∨ s.vtag K w.va.toNat ≤ 1)
       ∧ regsPass s K (LFv 0 id) w (tileRegs (s.launch 0) 0 1 :: single 0 w.va.toNat none :: scaleRegs w) = true ∧ tagBad s K 0 1 6 = false
       ∧ (gatherRows s c w).isOk = true
       ∧ (gatherRows (tagged 6 (LSv 1 id)) (laneCtx K (LFv 1 id) (stv 1) w) w).isOk = false) := by
  refine ⟨⟨rfl, rfl, rfl, rfl, rfl, rfl, rfl⟩, ⟨rfl, rfl, rfl, rfl, rfl, rfl, rfl⟩, by decide +kernel⟩

theorem witness_PressWordsQueue_tiles :
    LaneTurn (tagged 6 (LSv 0 id)) K (LFv 0 id) (stv 0) ∧ LaneTurn (tagged 6 (LSv 0 (order 1))) K (LFv 0 (order 1)) (stv 0)
    ∧ (∀ e ∈ [(0, 0, 1), (6, 1, 2)], let w : LaneWord := wd (BitVec.ofNat 4 e.1) 0 0 0
       let f := LFv 0 (order e.2.1)
       let s := tagged e.1 (LSv 0 (order e.2.1))
       e.2.2 = (if w.fmt = 6 ∧ f.jord % 8 = 1 then 2 else 1) ∧ pressRoom s K f
       ∧ (let w : LaneWord := { w with vd := BitVec.ofNat 8 (2 - e.2.2), va := 0, vb := 0 }
         effMask w (stv 0) ≠ 0 ∧ regsPass s K f w [tileRegs (s.launch f.dom) w.vd.toNat e.2.2] = true)
       ∧ (let w : LaneWord := { w with vd := 0, va := 8, vb := 0, imm := 8 + 64 * 40 }
         let regs := (List.range (e.2.2 * (extent w).1)).map fun i => (w.va.toNat + i, some (if e.2.2 = 2 && i % 2 = 1 then 14 else w.fmt.toNat))
         (extent w).2.2 = true ∧ regsPass s K f w [tileRegs (s.launch f.dom) w.vd.toNat e.2.2,
           { regs := regs, jetOk := e.2.2 = 1 || w.va.toNat % 2 = 0 }] = true)
       ∧ (let w : LaneWord := { w with vd := 8, va := 0, vb := 0, vc := 31, md := 0x10, imm := 8 + 64 * 40 }
         let regs : List (Nat × Option Nat) := (List.range (e.2.2 * (extent w).1)).map fun i => (w.vd.toNat + i, none)
         (extent w).2.2 = true ∧ w.mdIn 0x10 = true ∧ w.hem = true ∧ regsPass s K f w [tileRegs (s.launch f.dom) w.va.toNat e.2.2,
           { regs := regs, jetOk := e.2.2 = 1 || w.vd.toNat % 2 = 0 }] = true
         ∧ tagBad s K w.va.toNat e.2.2 w.fmt.toNat = false ∧ tagBad (tagged 13 s) K w.va.toNat e.2.2 w.fmt.toNat = true)) := by
  unfold pressRoom
  exact ⟨⟨rfl, rfl, rfl, rfl, rfl, rfl, rfl⟩, ⟨rfl, rfl, rfl, rfl, rfl, rfl, rfl⟩, by decide +kernel⟩

theorem witness_PressModesAndImages :
    LaneTurn (LSv 0 id) K (LFv 0 id) (stv 0) ∧ (LFv 0 id).markL = 0 ∧ gate (LFv 0 id) = none
    ∧ (∀ i ∈ [0, 3], let w : LaneWord := { pw 0 0 0 0 0 with imm := BitVec.ofNat 32 i }
       w.vd = 0 ∧ w.va = 0 ∧ w.vb = 0 ∧ w.vc = 0 ∧ w.fmt = 0 ∧ w.fn = 0 ∧ w.md = 0 ∧ w.imm.toNat < 4)
    ∧ pressRoom (LSv 0 id) K (LFv 0 id) ∧ (191 : BitVec 8).toNat < 192
    ∧ (let w : LaneWord := { pw 0 0 8 24 0 with vd := 1, imm := 0x1_0000 }
       let c := laneCtx K (LFv 0 id) (stv 0) w
       let rs : List LaneReq := (List.range 145).map fun i => { lane := scalarLane, addr := c.sreg w.vb.toNat + w.imm.signExtend 64 + BitVec.ofNat 64 (128 * i), n := 128 }
       effMask w (stv 0) ≠ 0 ∧ imageOk w = true ∧ regsPass (LSv 0 id) K (LFv 0 id) w [tileRegs ((LSv 0 id).launch (LFv 0 id).dom) w.vd.toNat 1] = true
       ∧ acqPending (LSv 0 id) 0 (.fib K) = false ∧ (c.sreg w.vb.toNat + w.imm.signExtend 64).toNat % 128 = 0
       ∧ pressRoom (usedPages 0 rs (LSv 0 id)) K (LFv 0 id)
       ∧ okRes (checkAll (LSv 0 id) 0 (LFv 0 id).gang false .plain .store .fibre rs) (fun _ => true) = true
       ∧ okRes (checkAll (LSv 0 id) 0 (LFv 0 id).gang false .plain .load .fibre rs) (fun _ => true) = true)
    ∧ (LaneTurn (LSv 1 id) K (LFv 1 id) (stv 1) ∧ ((1 : W64) + (0x1_0000 : BitVec 32).signExtend 64).toNat % 128 ≠ 0) := by
  unfold pressRoom
  exact ⟨⟨rfl, rfl, rfl, rfl, rfl, rfl, rfl⟩, rfl, rfl, by decide +kernel, by decide +kernel, by decide, by decide +kernel, ⟨rfl, rfl, rfl, rfl, rfl, rfl, rfl⟩,
    by decide⟩

/-- mresume with the header of its image come: one that keeps its rules, and one that breaks them. -/
theorem witness_PressModesAndImages_header :
    (∀ b ∈ [0, 1], let g := fun f : Fib => { f with markL := 4 }
      let h := leBytes (if b = 0 then 1 else 7) 4 ++ List.replicate 12 (0 : W8) ++ leBytes 0x30_0060 8 ++ List.replicate 104 (0 : W8)
      let i : PendInst := { id := 4, thr := .fib K, pc := 0, fin := .hold, left := 0, got := h.zipIdx.map fun e => (scalarLane, e.2, e.1) }
      let s := (LSv 0 g).onCore 0 fun c => { c with insts := [i] }
      let rs : List LaneReq := (List.range 145).map fun i => { lane := scalarLane, addr := 0x1_0000 + BitVec.ofNat 64 (128 * i), n := 128 }
      let s1 := usedPages 0 rs s
      (LFv 0 g).markL ≠ 0 ∧ (s1.core 0).insts.find? (fun i => i.id = (LFv 0 g).markL) = some i ∧ i.left = 0
      ∧ acqPending s 0 (.fib K) = false ∧ pressRoom s1 K (LFv 0 g)
      ∧ okRes (checkAll s 0 (LFv 0 g).gang false .plain .load .fibre rs) (fun _ => true) = true
      ∧ headerOk (gotBytes i.got scalarLane 128) = decide (b = 0)) := by
  unfold pressRoom
  decide +kernel

theorem witness_IntegerProduct : ([255, 0] : List (BitVec 8)).length = ([255, 128] : List (BitVec 8)).length := rfl

/-- Press 0 of core 0 with one operation, and the fibre that issued it. -/
def opn (op : Nat) (started : Bool) (w : LaneWord) : PressOp :=
  { id := 5, k := K, op := op, w := w, pc := 0x1_0000, mask := ends, started := started,
    snapV := if op = 0x93 then (List.range 8).map fun i => (8 + i, (S id).vreg K (8 + i)) else [] }
def pressing (o : PressOp) : State :=
  ((S id).onCore 0 fun c => { c with press := [(0, [o])] }).setSpool K { (S id).spool K with tiles := [(0, { rows := [(0, List.replicate 48 3)] })] }

theorem quietCores (o : PressOp) : ∀ x, ((pressing o).core x).boltErr = [] ∧ ((pressing o).core x).board = []
    ∧ (∀ l, (tget ((pressing o).core x).latches l {}).poison = false) := by
  intro x
  have h : (pressing o).cores = [(0, { (S id).core 0 with press := [(0, [o])] })] := rfl
  unfold State.core
  rw [h]
  by_cases hx : 0 = x
  · subst hx; exact ⟨rfl, rfl, fun _ => rfl⟩
  · simp [tget, hx]

theorem witness_PressOperations :
    (let o := opn 0x92 false (pw 0 0 0 0 0)
     tget ((pressing o).core 0).press 0 [] = o :: [] ∧ o.k.core = 0 ∧ o.k.sub / 4 = 0 ∧ o.started = false ∧ o.tainted = false ∧ o.afterRow = [] ∧ o.latches = []
       ∧ ∀ x, ((pressing o).core x).boltErr = [] ∧ ((pressing o).core x).board = [])
    ∧ (∀ op w, PressTurn (pressing (opn op true w)) 0 0 (opn op true w) (F id))
    ∧ (∀ op ∈ [0x92, 0x93, 0x94, 0x98], (opn op true (pw 0 0 0 0 0)).op = op ∧ (opn op true (pw 0 0 0 0 0)).pair = false
       ∧ (opn op true (pw 0 0 0 0 0)).hem.act = 0)
    ∧ (let o := opn 0x93 true { pw 0 0 0 0 0 with va := 8, imm := 8 + 64 * 40 }
       (∀ e ∈ o.snapV, e.2 = (pressing o).vreg o.k e.1 ∧ e.2.length = 96) ∧ (o.snapV.map (·.1)).Nodup
       ∧ (∀ i, i < (extent o.w).1 → o.w.va.toNat + i ∈ o.snapV.map (·.1)))
    ∧ (∀ r, (((tget ((pressing (opn 0x93 true (pw 0 0 0 0 0))).spool K).tiles 0 ({} : Tile)).row r).length = 48))
    ∧ (tget ((pressing (opn 0x94 true (pw 0 0 0 0 0))).spool K).tiles 0 ({} : Tile)).mis = none := by
  refine ⟨⟨rfl, rfl, rfl, rfl, rfl, rfl, rfl, fun x => ⟨(quietCores _ x).1, (quietCores _ x).2.1⟩⟩,
    fun _ _ => ⟨rfl, rfl, rfl, rfl, rfl, rfl⟩, by decide +kernel, by decide +kernel, ?_, by decide +kernel⟩
  intro r
  by_cases h : (0 : Nat) = r <;> simp [pressing, State.spool, State.setSpool, Tile.row, tget, h]

/-- An i8 product of v0 to v15 by latch 0. -/
def product : PressOp := { opn 0x90 true (pw 4 0 0 0 0) with snapV := (List.range 16).map fun i => (i, (S id).vreg K i) }

theorem witness_PressOperations_product :
    PressTurn (pressing product) 0 0 product (F id) ∧ (product.w.fmt = 4 ∨ product.w.fmt = 5) ∧ product.w.fn.toNat % 4 < 2
    ∧ product.w.fn.getLsbD 3 = false ∧ product.w.S = false ∧ product.mode % 2 = 0 ∧ product.lines = [] ∧ product.latchWas = []
    ∧ (∀ e ∈ product.snapV, e.2 = (pressing product).vreg product.k e.1 ∧ e.2.length = 96) ∧ (product.snapV.map (·.1)).Nodup
    ∧ (∀ i, i < 16 → product.w.va.toNat + i ∈ product.snapV.map (·.1))
    ∧ (∀ r, (((tget ((pressing product).spool K).tiles 0 ({} : Tile)).row r).length = 48))
    ∧ (tget ((pressing product).core 0).latches 0 {}).data = [] := by
  refine ⟨⟨rfl, rfl, rfl, rfl, rfl, rfl⟩, by decide +kernel, by decide +kernel, by decide +kernel, by decide +kernel, rfl, rfl, rfl, by decide +kernel,
    by decide +kernel, by decide +kernel, ?_, rfl⟩
  intro r
  by_cases h : (0 : Nat) = r <;> simp [pressing, State.spool, State.setSpool, Tile.row, tget, h]

/-! ### Witnesses: valet words -/

/-- The module with hart h of core 0 holding the turn. -/
def H (h : Nat) (g : Hart → Hart) : State :=
  let s : State := State.reset.withProgram
  { s.setHart 0 h (g (s.hart 0 h)) with cur := .hart 0 h }
/-- Registers of a hart. -/
def X (l : List (Nat × W64)) (t : Hart) : Hart := l.foldl (fun t e => t.setReg e.1 e.2) t
/-- A check of a hart's access that passes, what it passes meeting p. -/
def okH (x : HRes) (p : List Checked → Bool) : Bool := match x with | .ok l => p l | _ => false
theorem ok_ofH {x : HRes} {p : List Checked → Bool} (h : okH x p = true) : ∃ l, x = .ok l ∧ p l = true := by
  cases x with
  | ok l => exact ⟨l, rfl, h⟩
  | miss _ => cases h
  | exc _ _ => cases h

theorem witness_ValetOrderingAndBolt :
    (∀ h g, HartTurn (H h g) 0 h) ∧ (∀ a ∈ ((H 0 id).core 0).stores, a.thr ≠ .hart 0 0)
    ∧ (∀ sc ∈ [0, 1, 2, 3], releaseWaits (H 0 id) 0 (.hart 0 0) sc true (hartMark (H 0 id) 0 0) = false)
    ∧ (0 < 192 ∧ ((H 0 id).hart 0 0).phase = 0 ∧ ((H 0 id).core 0).boltErr = [] ∧ ((H 0 id).core 0).relics = []
      ∧ ((H 0 id).core 0).full = false ∧ Memory.wf (H 0 id).mem = true)
    ∧ (∀ e ∈ [(0x7FFFFF, 0), (0x7FFFF8, 3), (0x7F0004, 6)],
       let hs := (H 0 (X [(7, BitVec.ofNat 64 (boltBase 0 + e.1))])).hart 0 0
       let pa := (hs.reg 7 + (0 : BitVec 12).signExtend 64).toNat
       boltBase 0 ≤ pa ∧ pa + 2 ^ (e.2 % 4) ≤ boltBase 0 + 0x80_0000 ∧ pa % 2 ^ (e.2 % 4) = 0
       ∧ windowGood (H 0 id) 0 pa = true ∧ windowHidden (H 0 id) 0 pa = false) :=
  ⟨fun _ _ => ⟨rfl⟩, by decide +kernel, by decide +kernel, by decide +kernel, by decide +kernel⟩

/-- A store of hart 0 that a release has to wait for. -/
theorem witness_ValetOrderingAndBolt_waits :
    let s := (H 0 id).onCore 0 fun c => { c with stores := [{ id := 0, inst := 0, thr := .hart 0 0, kind := .store, space := .near, line := 512, parts := [], strong := true }] }
    s.cur = .hart 0 0 ∧ ∀ sc ∈ [2, 3], releaseWaits s 0 (.hart 0 0) sc true (hartMark s 0 0) = true := by decide +kernel

theorem witness_ValetMemoryAndHampers :
    (∀ h g, HartTurn (H h g) 0 h)
    ∧ (((H 0 fun t => { t with phase := 3, mark := 9 }).hart 0 0).phase = 3 ∧ ∀ x ∈ ((H 0 fun t => { t with phase := 3, mark := 9 }).core 0).insts, x.id ≠ 9)
    ∧ ((H 0 id).hart 0 0).phase = 0 ∧ ((H 0 id).core 0).full = false
    ∧ (∀ h ∈ [0, 1], let s := H h (X [(7, 0x1_0000), (8, 5)])
       okH (hartCheck s 0 h .load false false ((s.hart 0 h).reg 7 + (8 : BitVec 12).signExtend 64) 8 [] []) (fun l => !inWindow l) = true
       ∧ okH (hartCheck s 0 h .store false false ((s.hart 0 h).reg 7 + (8 : BitVec 12).signExtend 64) 8 (leBytes ((s.hart 0 h).reg 8).toNat 8) [])
         (fun l => !inWindow l) = true
       ∧ (∀ z ∈ [4, 8], okH (hartCheck s 0 h .store true true ((s.hart 0 h).reg 7) z (leBytes 0 z) []) (fun l => l.length = 1 && !inWindow l) = true
         ∧ okH (hartCheck s 0 h .store true false ((s.hart 0 h).reg 7) z (leBytes ((s.hart 0 h).reg 8).toNat z) []) (fun l => l.length = 1 && !inWindow l) = true)
       ∧ releaseWaits s 0 (.hart 0 h) 2 true s.nextId = false ∧ (s.core 0).stores = [])
    ∧ (let s := H 0 (fun t => { X [(7, 0x1_0000), (8, 5)] t with resv := some (0x1_0000, 8) })
       let t := s.onCore 0 fun c => { c with l1 := [⟨512, 0, List.replicate 32 { st := .registered, val := 0 }⟩] }
       (s.hart 0 0).resv = some (0x1_0000, 8) ∧ (t.core 0).owns 512 3 = true ∧ (s.core 0).owns 512 3 = false)
    ∧ (let s := H 0 (X [(7, 0x1_0020), (8, 0x1_0000)])
       ((s.hart 0 0).reg 7).toNat % 64 ≠ 0 ∧ hartDesc s 0 0 ((s.hart 0 0).reg 8) = .broken)
    ∧ ((H 0 fun t => { t with phase := 9 }).hart 0 0).phase = 9 := by
  refine ⟨fun _ _ => ⟨rfl⟩, ?_⟩
  decide +kernel

/-- The state with page tables that map the program's page, at 0x2_0000. -/
def mapped (s : State) : State :=
  let w := fun (m : List Host.Cell) (a v : Nat) => Memory.writeBytes m a (leBytes v 8)
  { s.setDom 0 { s.dom 0 with dptb := 0x2_0001 } with mem := w (w (w s.mem 0x2_0000 0x3_0001) 0x3_0000 0x4_0001) 0x4_0008 0x1_C01F }
/-- A hamper descriptor at 0x1_8000, its 16 slots at 0x1_9000, with n items. -/
def hamper (n : Nat) (g : Hart → Hart) : State :=
  let s := mapped (H 0 (fun t => g (X [(7, 0x1_0000), (8, 0x1_8000)] t)))
  { s with mem := Memory.writeBytes (Memory.writeBytes s.mem 0x1_8008 (leBytes n 8)) 0x1_8010 (leBytes 0x1_9000 8 ++ leBytes 4 4) }

theorem witness_ValetMemoryAndHampers_items :
    (∀ n ∈ [0, 1], let s := hamper n id
       s.cur = .hart 0 0 ∧ (s.hart 0 0).phase = 0 ∧ ((s.hart 0 0).reg 7).toNat % 64 = 0 ∧ (s.core 0).full = false
       ∧ (match hartDesc s 0 0 ((s.hart 0 0).reg 8) with
         | .ok ch ring => match storePages (hartDom s 0) (ringBy 0) ring s with
           | .inr (u, _) => u.hampCount ch.desc = n && u.hamp = [] && !releaseWaits u 0 (.hart 0 0) (if ch.pool then 3 else 2) true u.nextId
             && (hampTakes { id := u.nextId, enq := false, desc := ch.desc, cap := ch.cap, ring := ch.ring, pages := ch.pages, thr := some (.hart 0 0) } u).isNone
           | .inl _ => false
         | _ => false) = true
       ∧ okH (hartCheck s 0 0 .load false false ((s.hart 0 0).reg 7) 64 [] []) (fun _ => true) = true
       ∧ okH (hartCheck s 0 0 .store false false ((s.hart 0 0).reg 7) 64 [] []) (fun _ => true) = true)
    ∧ (let s := (hamper 0 fun t => { t with phase := 3, mark := 9 }).onCore 0 fun c =>
         { c with insts := [{ id := 9, thr := .hart 0 0, pc := 0, fin := .hold, left := 0 }] }
       (s.hart 0 0).phase = 3 ∧ ((s.core 0).insts.find? fun i => i.id = (s.hart 0 0).mark).isSome = true
       ∧ (let s1 := s.onCore 0 fun co => { co with insts := [] }
          (s1.core 0).full = false
          ∧ (match hartDesc s1 0 0 ((s.hart 0 0).reg 8) with
            | .ok _ ring => (storePages (hartDom s1 0) (ringBy 0) ring s1).isRight
            | _ => false) = true
          ∧ okH (hartCheck s1 0 0 .load false false ((s.hart 0 0).reg 7) 64 [] []) (fun _ => true) = true)) := by
  decide +kernel

/-- Accesses that the check of a hart refuses: hart 0 past every address, hart 1 where no page table maps. -/
theorem witness_ValetMemoryAndHampers_stops :
    (let s := H 0 (X [(7, 0x10_0000_0000_0000), (8, 5)])
     s.cur = .hart 0 0 ∧ (s.hart 0 0).phase = 0
     ∧ (∀ k ∈ [Use.load, .store], hartCheck s 0 0 k false false ((s.hart 0 0).reg 7 + (0 : BitVec 12).signExtend 64) 8 [] [] matches .exc _ _)
     ∧ ((s.hart 0 0).reg 7).toNat % 64 = 0)
    ∧ (let s := (H 0 (X [(7, 0x1_0000)])).onCore 0 fun c => { c with stores := [{ id := 0, inst := 0, thr := .hart 0 0, kind := .store, space := .near, line := 512, parts := [], strong := false }] }
       s.cur = .hart 0 0 ∧ (s.core 0).full = false ∧ (∃ x ∈ (s.core 0).stores, x.thr = .hart 0 0)
       ∧ okH (hartCheck s 0 0 .store true false ((s.hart 0 0).reg 7) 8 (leBytes 0 8) []) (fun l => l.length = 1 && !inWindow l) = true) := by
  decide +kernel

theorem witness_CustomOneNeedsMachineMode :
    (H 1 id).cur = .hart 0 1 ∧ (1 : Nat) ≠ 0 ∧ (H 0 fun t => { t with mode := 0 }).cur = .hart 0 0 ∧ ((H 0 fun t => { t with mode := 0 }).hart 0 0).mode ≠ 3
    ∧ Instr.hxPark 7 5 ∈ [Instr.hxPark 7 5, .hxUnpark 7 5, .hxFget 7 5, .hxFpop 7 5, .hxRgrant 7 5, .hxRrevoke 7 5, .hxFstat 7 5, .hxFenter 7 5,
      .hxGkill 7 5, .hxGrelaunch 7 5] := by decide +kernel

/-- Hart 0 with S-like registers set and the program's fibre in a state. -/
def HF (l : List (Nat × W64)) (g : Fib → Fib) : State :=
  { (State.reset.withProgram.setFib K (F g)).setHart 0 0 (X l (State.reset.withProgram.hart 0 0)) with cur := .hart 0 0 }

theorem zeroH (l : List (Nat × W64)) (g : Fib → Fib) (h : ((HF l g).hart 0 0).mode = 3) : HartZero (HF l g) 0 := ⟨rfl, h⟩

theorem witness_FibreControlWords :
    HartZero (HF [(7, 0x100)] id) 0 ∧ handleBits ((HF [(7, 0x100)] id).hart 0 0 |>.reg 7) false = false
    ∧ HartZero (HF [(7, 0xFF)] id) 0 ∧ handleBits ((HF [(7, 0xFF)] id).hart 0 0 |>.reg 7) false = true ∧ (HF [(7, 0xFF)] id).fib? (keyOfHandle 0 0xFF) = none
    ∧ HartZero (HF [(7, 0)] id) 0 ∧ handleBits ((HF [(7, 0)] id).hart 0 0 |>.reg 7) false = true
    ∧ (∀ g, (HF [(7, 0)] g).fib? (keyOfHandle 0 0) = some (F g)) :=
  ⟨⟨rfl, rfl⟩, by decide +kernel, ⟨rfl, rfl⟩, by decide +kernel, by decide +kernel, ⟨rfl, rfl⟩, by decide +kernel,
    fun g => fib_setFib_self State.reset.withProgram K (F g)⟩

theorem witness_FibreRegistersAndGrants :
    (∀ g x, handleBits (BitVec.ofNat 64 (65536 * (x % 65536))) true = true → HartZero (HF [(7, BitVec.ofNat 64 (65536 * (x % 65536)))] g) 0)
    ∧ (∀ x ∈ [191, 0x7FFF, 0x8000 + 128 * 255 + 95, 0x8060], handleBits (BitVec.ofNat 64 (65536 * x)) true = true
       ∧ (selOf x).isSome = decide (x ≠ 0x7FFF ∧ x ≠ 0x8060))
    ∧ (F fun f => { f with st := .parked }).st = .parked ∧ (F id).st ≠ .parked
    ∧ writePending (HF [] fun f => { f with st := .parked }) K (F fun f => { f with st := .parked }) (.sreg 191) = false
    ∧ available (F id) ((HF [] id).launch (F id).dom) 31 = true
    ∧ ((HF [] id).core 0).recs = [] ∧ ((HF [] id).core 0).boltErr = [] ∧ ((HF [] id).core 0).full = false
    ∧ (let s := HF [(7, 0x10_0000_0000_0000), (8, 0x1_0008)] id
       (s.hart 0 0).mode = 3 ∧ 2 ^ 52 ≤ ((s.hart 0 0).reg 7).toNat ∧ ((s.hart 0 0).reg 8).toNat % 64 ≠ 0)
    ∧ (∀ p ∈ [5, 6], let s := { (HF [(7, 8)] id).setHart 0 0 { (HF [(7, 8)] id).hart 0 0 with phase := p } with cur := .hart 0 0 }
       (s.hart 0 0).mode = 3 ∧ (s.hart 0 0).phase = p)
    ∧ (let s := (HF [(7, 0x1_0000)] id).onCore 0 fun c => { c with recs := [5] }
       s.cur = .hart 0 0 ∧ (s.hart 0 0).mode = 3 ∧ (s.core 0).recs = 5 :: []
       ∧ okH (hartCheck s 0 0 .store false false 0x1_0000 64 (bytesOf512 5) []) (fun l => !inWindow l) = true)
    ∧ (let s := HF [(7, 0x1_0010)] id; (s.hart 0 0).mode = 3 ∧ (s.hart 0 0).phase = 0 ∧ ((s.hart 0 0).reg 7).toNat % 32 ≠ 0)
    ∧ (let s := HF [(7, 0x1_0020)] id; (s.hart 0 0).mode = 3 ∧ ((s.hart 0 0).reg 7).toNat % 32 = 0 ∧ okH (hartCheck s 0 0 .load false false ((s.hart 0 0).reg 7) 32 [] []) (fun _ => true) = true)
    ∧ (∀ m ∈ [0, 1], let d := leBytes m 16 ++ leBytes 0 2 ++ leBytes 16383 2 ++ leBytes 16 1 ++ leBytes 0 3 ++ leBytes 0 8
       let p : PendInst := { id := 9, thr := .hart 0 0, pc := 0, fin := .hold, left := 0, got := d.zipIdx.map fun e => (scalarLane, e.2, e.1) }
       let s := ((HF [(7, 0x1_0020)] id).setHart 0 0 { (HF [(7, 0x1_0020)] id).hart 0 0 with phase := 3, mark := 9 }).onCore 0 fun c => { c with insts := [p] }
       s.cur = .hart 0 0 ∧ (s.hart 0 0).mode = 3 ∧ (s.hart 0 0).phase = 3 ∧ (s.core 0).insts.find? (fun i => i.id = (s.hart 0 0).mark) = some p ∧ p.left = 0
       ∧ grantRefusal (s.onCore 0 fun co => { co with insts := [] }) 0 (hartDom s 0) (grantDesc (gotBytes p.got scalarLane 32)) = if m = 0 then some 2 else none) := by
  refine ⟨fun _ _ _ => ⟨rfl, rfl⟩, ?_⟩
  decide +kernel

theorem witness_GangWords :
    HartZero (HF [(7, 0x1_0000)] id) 0 ∧ 2 ^ 16 ≤ ((HF [(7, 0x1_0000)] id).hart 0 0 |>.reg 7).toNat
    ∧ HartZero (HF [(7, 0xFFFF)] id) 0 ∧ ((HF [(7, 0xFFFF)] id).hart 0 0 |>.reg 7).toNat < 2 ^ 16 ∧ namedGang (HF [(7, 0xFFFF)] id) 0 0xFFFF = none
    ∧ HartZero (HF [(7, 0)] id) 0 ∧ (namedGang (HF [(7, 0)] id) 0 0).isSome = true ∧ (∀ g ∈ (HF [(7, 0)] id).gangs, g.st ≠ .exited ∧ g.st ≠ .killed)
    ∧ (let s := HF [(7, 0)] id
       let t : State := { s with gangs := s.gangs.map fun (g : Gang) => { g with st := .killed } }
       t.cur = Actor.hart 0 0 ∧ (t.hart 0 0).mode = 3 ∧ (∃ g ∈ t.gangs, g.st = .killed) ∧ (∀ e ∈ t.dies, ∀ r ∈ e.2.queue, r.2.1 ≠ ⟨0, 0⟩)) := by
  refine ⟨⟨rfl, rfl⟩, ?_, ⟨rfl, rfl⟩, ?_, ?_, ⟨rfl, rfl⟩, ?_⟩ <;> decide +kernel

/-! ### Witnesses: messages -/

/-- The module with the program's line held by its home, words of it owned, and one message in flight. -/
def M (m : Msg) (own : List (Nat × Node)) : State :=
  let s : State := (S id).onCore 0 fun c => { c with slice := [512] }
  { s with cur := .hw, net := [m], owners := own }
/-- A message about the first word and the last of that line. -/
def mg (kind : MsgKind) (src dst : Node) : Msg :=
  { msg0 kind src dst 512 with mask := 0x8000_0001, bmask := 0xF, data := List.replicate 32 7, tag := 9 }
def both (n : Node) : List (Nat × Node) := [(32 * 512, n), (32 * 512 + 31, n)]

theorem plainM (m : Msg) (own : List (Nat × Node)) (d : Nat) : ((M m own).dom d).rpctl.getLsbD 31 = false ∧ (M m own).replaying d = false := by
  have h : (M m own).doms = (S id).doms := rfl
  unfold State.replaying State.dom
  rw [h]
  have h2 : (S id).doms = [(0, (S id).dom 0)] := rfl
  rw [h2]
  by_cases hd : 0 = d
  · subst hd; exact ⟨by decide +kernel, by decide +kernel⟩
  · simp only [tget, if_neg hd]; exact ⟨by decide, by decide⟩

theorem busyM (m : Msg) (own : List (Nat × Node)) (l : Nat) : (M m own).busyWords l = 0 := rfl

theorem homeTurn (m : Msg) (own : List (Nat × Node)) (h : m.line = 512) (hs : ∀ p a, m.src ≠ .agent p a) : HomeTurn (M m own) m :=
  ⟨by rw [h]; rfl, rfl, by rw [busyM]; simp, hs, plainM m own⟩

theorem witness_HomeServesRequests :
    (∀ kind, HomeTurn (M (mg kind (.core 0) (.home 0)) []) (mg kind (.core 0) (.home 0)))
    ∧ Memory.wf (M (mg .reg (.core 0) (.home 0)) []).mem = true
    ∧ (∀ i, i < 32 → (M (mg .reg (.core 0) (.home 0)) []).ownerOf 512 i = none)
    ∧ (∀ kind, HomeTurn (M (mg kind (.core 0) (.home 0)) (both (.core 1))) (mg kind (.core 0) (.home 0)))
    ∧ (mg .reg (.core 0) (.home 0)).mask ≠ 0 ∧ Node.core 1 ≠ (mg .reg (.core 0) (.home 0)).src
    ∧ (∀ i, i < 32 → (mg .reg (.core 0) (.home 0)).mask.getLsbD i = true → (M (mg .reg (.core 0) (.home 0)) (both (.core 1))).ownerOf 512 i = some (.core 1))
    ∧ (∀ p q, (mg .hwr (.core 0) (.home 0)).src ≠ .route p q) ∧ (mg .wb (.core 1) (.home 0)).flag = false
    ∧ HomeTurn (M (mg .wb (.core 1) (.home 0)) (both (.core 1))) (mg .wb (.core 1) (.home 0)) := by
  refine ⟨fun _ => homeTurn _ _ rfl (by intro p a h; cases h), by decide +kernel, by decide +kernel, fun _ => homeTurn _ _ rfl (by intro p a h; cases h),
    by decide, by decide, by decide +kernel, (by intro p q h; cases h), rfl, homeTurn _ _ rfl (by intro p a h; cases h)⟩

/-- A home that waits for one owner's words, or for two owners. -/
def waiting (m : Msg) (w : List (Node × W32)) : State :=
  { M m (both (.core 1)) with acts := [{ id := 9, msg := mg .reg (.core 0) (.home 0), wait := w, verdict := 2 }] }

theorem regWords : ∀ (sr : Bool) (i : Nat), i < 32 → (((List.replicate 32 ({ st := .registered, val := 7, sr := sr } : L1Word)).getD i {}).st = .registered
    ∧ ((List.replicate 32 ({ st := .registered, val := 7, sr := sr } : L1Word)).getD i {}).sr = sr) := by
  intro sr
  cases sr <;> decide

theorem witness_AnswersOfOwnersAndHomes :
    (let m := mg .rvack (.core 1) (.home 0)
     (∀ w, ∃ a, (waiting m w).acts.find? (fun x => x.id = m.tag) = some a ∧ a.wait = w ∧ a.msg.kind = .reg ∧ a.msg.line = m.line ∧ a.msg.mask = m.mask)
     ∧ (waiting m []).homeQ = [] ∧ (waiting m []).lineHeld m.line = true ∧ Memory.wf (waiting m []).mem = true
     ∧ (∀ d, ((waiting m []).dom d).rpctl.getLsbD 31 = false ∧ (waiting m []).replaying d = false) ∧ m.mask ≠ 0
     ∧ (∀ i, i < 32 → m.mask.getLsbD i = true → (waiting m []).ownerOf m.line i = some m.src)
     ∧ ([(Node.core 1, (1 : W32)), (.core 2, 1)].filter (·.1 ≠ m.src)) ≠ [])
    ∧ ({ mg .wb (.core 1) (.home 0) with flag := true } : Msg).flag = true
    ∧ (∀ kind sr, let m := mg kind (.home 0) (.core 0)
       let l : L1Line := ⟨512, 0, List.replicate 32 { st := .registered, val := 7, sr := sr }⟩
       let s := (M m (both (.core 0))).onCore 0 fun c => { c with l1 := [l] }
       m.dst = .core 0 ∧ (s.core 0).gated = false ∧ (s.core 0).l1line m.line = some l ∧ l.words.length = 32
       ∧ (∀ i, i < 32 → m.mask.getLsbD i = true → (l.words.getD i {}).st = .registered)
       ∧ (∀ i, i < 32 → m.mask.getLsbD i = true → (l.words.getD i {}).sr = sr)) := by
  refine ⟨⟨fun w => ⟨_, rfl, rfl, rfl, rfl, rfl⟩, rfl, rfl, by decide +kernel, fun d => plainM (mg .rvack (.core 1) (.home 0)) (both (.core 1)) d, by decide, by decide +kernel, by decide +kernel⟩, rfl, ?_⟩
  intro kind sr
  exact ⟨rfl, rfl, rfl, rfl, fun i h _ => (regWords sr i h).1, fun i h _ => (regWords sr i h).2⟩

theorem witness_RequesterReceives :
    let acc : Acc := { id := 9, inst := 0, thr := .fib K, kind := .store, space := .near, line := 512, parts := [], strong := false }
    let l : L1Line := ⟨512, 0, List.replicate 32 {}⟩
    (∀ kind, let m := mg kind (.home 0) (.core 0)
      let s := (M m []).onCore 0 fun c => { c with stores := [acc], loads := [{ acc with kind := .load }], l1 := [l] }
      m.dst = .core 0 ∧ (s.core 0).gated = false ∧ (s.core 0).stores.find? (fun x => x.id = m.tag) = some acc
      ∧ ((s.core 0).loads.find? (fun x => x.id = m.tag)).isSome = true ∧ (s.core 0).cret.getLsbD 0 = false
      ∧ (s.core 0).l1line m.line = some l ∧ l.words.length = 32)
    ∧ (∀ a ∈ ((M (mg .hwack (.home 0) (.core 0)) []).core 0).stores, a.id ≠ (mg .hwack (.home 0) (.core 0)).tag) :=
  ⟨fun kind => ⟨rfl, rfl, rfl, rfl, by cases kind <;> decide +kernel, rfl, rfl⟩, by decide +kernel⟩

/-- A device's write of a line that a grant of its core pins. -/
def pinnedWrite : Msg := mg .hwr (.route 0 0) (.home 0)
def pinned : State := (M pinnedWrite []).onCore 0 fun c =>
  { c with grants := [(0, { live := true, dom := 0, gid := 0, bid := 0, mask := 1 <<< 21, lo := 0, hi := 0, share := 16 })] }

theorem witness_HomeServesRequests_more :
    (∀ kind, heldBy (M (mg kind (.core 0) (.home 0)) []) 512 (mg kind (.core 0) (.home 0)).mask none)
    ∧ (M (mg .hwr (.core 0) (.home 0)) []).refusedHwr (mg .hwr (.core 0) (.home 0)) = false
    ∧ HomeTurn pinned pinnedWrite ∧ pinned.refusedHwr pinnedWrite = true ∧ Memory.wf pinned.mem = true :=
  ⟨fun _ _ _ _ => .inl rfl, by decide +kernel, ⟨rfl, rfl, by decide +kernel, (by intro p a h; cases h), plainM pinnedWrite []⟩, by decide +kernel, by decide +kernel⟩

/-- A core whose 16 ways of a line's set hold lines that must stay, each with a registered word that a store has asked for. -/
def crowded (kind : MsgKind) : State :=
  let lines := (List.range 16).map fun i => 512 + 128 * (i + 1)
  (M (mg kind (.home 0) (.core 0)) []).onCore 0 fun c =>
    { c with l1 := lines.map fun l => ⟨l, 0, { st := .registered, val := 0 } :: List.replicate 31 {}⟩
             stores := lines.map fun l => { id := l, inst := 0, thr := .fib K, kind := .store, space := .near, line := l, strong := false, sent := true
                                            parts := [{ lane := scalarLane, off := 0, n := 4, pa := 128 * l, va := 0, data := [0, 0, 0, 0] }] } }

theorem witness_RequesterReceives_waits :
    (∀ kind ∈ [MsgKind.grant, .push], (mg kind (.home 0) (.core 0)).dst = .core 0 ∧ ((crowded kind).core 0).gated = false
      ∧ ((crowded kind).core 0).room 512 = false)
    ∧ (((M (mg .grant (.home 0) (.core 0)) []).core 0).room 512 = true)
    ∧ (∀ a ∈ ((M (mg .grant (.home 0) (.core 0)) []).core 0).stores ++ ((M (mg .ldata (.home 0) (.core 0)) []).core 0).loads, a.id ≠ 9)
    ∧ (({ id := 9, inst := 0, thr := .fib K, kind := .load, space := .near, line := 512, parts := [], strong := false, stale := true } : Acc).stale = true) := by
  decide +kernel

/-! ### Witnesses: events of the stack, of translation, of engines and cores -/

/-- Core 0 with one bank listed, at a tick. -/
def B (b t : Nat) (x : Bank) : State :=
  { (S id).onCore 0 fun c => { c with banks := [(b, x)] } with cur := .hw, tick := t }
/-- Core 0's clock has come to its scrubber's next row. -/
def scrubbing : State := { (S id).onCore 0 fun c => { c with clk := 1024 } with cur := .hw }
/-- The program's fibre waits in twait for tick 5. -/
def twaiting : State := { S fun f => { f with stall := 18, keep := [5] } with cur := .hw, tick := 5 }

theorem witness_CalendarAndClocks :
    (tfind ((B 127 (36 * 127 - 0) {}).core 0).banks 127).isSome = true ∧ sigma 127 (36 * 127) = 0 ∧ sigma 127 (36 * 127 + 419) < 420
    ∧ ((B 127 (36 * 127) {}).core 0 |>.bank 127 (36 * 127)).st ≠ .refresh
    ∧ (∀ e ∈ [(0, 300), (0, 419), (1, 336)], ((B e.1 e.2 { st := .refresh }).core 0 |>.bank e.1 e.2).st = .refresh
       ∧ 300 ≤ sigma e.1 e.2 ∧ sigma e.1 e.2 < 420)
    ∧ (((B 0 420 { st := .refresh }).core 0).bank 0 420).st = .refresh ∧ 420 ≤ sigma 0 420
    ∧ (((B 0 4662 { st := .opened }).core 0).bank 0 4662).st = .opened ∧ sigma 0 4662 = 4662 ∧ ((B 0 4662 { st := .opened }).core 0).rowOps = []
    ∧ ({ st := .precharging, tp := some 500 } : Bank).tp.getD 0 + 18 ≤ 518
    ∧ (tfind ((B 0 518 { st := .precharging, tp := some 500 }).core 0).banks 0) = some { st := .precharging, tp := some 500 }
    ∧ (let x : Bank := { st := .opened, ta := some 500, tc := some 538 }
       tfind ((B 0 540 x).core 0).banks 0 = some x ∧ ((B 0 540 x).core 0).grants = [] ∧ x.ta.getD 0 + 40 ≤ 540)
    ∧ (∀ q ∈ [0, 3], (scrubDue (scrubbing.core 0) q).isSome = true) ∧ (scrubbing.core 0).boltErr = []
    ∧ slotDue twaiting 0 0 = some 5 ∧ (twaiting.fibs.map (·.1)).Nodup
    ∧ ((S id).core 0).bast.ctl.getLsbD 1 = false ∧ ((S id).core 0).slotOpen = false ∧ ((S id).core 0).gated = false
    ∧ coreIdle twaiting 0 = true ∧ (twaiting.core 0).gated = false
    ∧ (((S id).onCore 0 fun c => { c with gated := true }).core 0).gated = true := by
  decide +kernel

/-- A line that a request waits for, its set of the slice full or not. -/
def filling (l : List Nat) : State :=
  { (S id).onCore 0 fun c => { c with slice := l } with cur := .hw, tick := 420, fills := [512] }
/-- A pending grant of bank 127, rows 0 to 16383, in slot 7, for which hart 0 waits or not. -/
def granting (p : Nat) : State :=
  let g : RowGrant := { live := false, dom := 0, gid := 0, bid := 0, mask := 1 <<< 127, lo := 0, hi := 16383, share := 16 }
  let s := (S id).onCore 0 fun c => { c with grants := [(7, g)] }
  { s.setHart 0 0 { s.hart 0 0 with phase := p, mark := 7 } with cur := .hw }
/-- A miss of core 0 on a page, with page tables that map the program's page only. -/
def missing (vpn : Nat) (l2 : List Tlb) : State :=
  let s := mapped (S id)
  let s := s.onCore 0 fun c => { c with tlb := [], slots := [{ vpn := vpn, wr := true }] }
  { s.setDie 0 { s.die 0 with l2 := l2 } with cur := .hw }

theorem emptyWalk (s : State) (die d : Nat) (va : W64) (h : (s.die die).walk = []) : walkCached s die d va = walk s d va := by
  simp only [walkCached, h, tfind]
  split <;> rfl

theorem witness_SlicesAndTranslation_walks :
    walkCached (missing 2 []) 0 0 ((BitVec.ofNat 39 2).signExtend 64 <<< 16) = .fault 8 3 0x4_0010
    ∧ walkCached (missing 1 []) 0 0 ((BitVec.ofNat 39 1).signExtend 64 <<< 16) = .leaf 0x1_C01F 0x4_0008 false := by
  rw [emptyWalk _ _ _ _ rfl, emptyWalk _ _ _ _ rfl]
  decide +kernel

theorem witness_SlicesAndTranslation :
    homeOf 512 = .home 0 ∧ (filling []).fills.contains 512 = true
    ∧ ordinaryMay ((filling []).core 0) ((rowOf (512 * 128)).1 % 128) (filling []).tick = true ∧ ordinaryFull ((filling []).core 0) (filling []).tick = false
    ∧ ((filling []).core 0).rowErr = [] ∧ ((filling []).fillsOf 512).head? = some 512
    ∧ ((filling []).core 0).slice.length < 16
    ∧ (let l := (List.range 16).map fun i => 8192 * (i / 4 + 1) + 2048 * (i % 4) + (512 ^^^ (i / 4 + 1))
       16 ≤ (((filling l).core 0).slice.filter fun x => sliceSet x = sliceSet 512).length ∧ (filling l).acts = [] ∧ (filling l).owners = []
       ∧ (let s : State := { filling l with owners := l.map fun x => (32 * x, Node.core 1) }
          let set := (s.core 0).slice.filter fun x => sliceSet x = sliceSet 512
          (s.fillsOf 512).head? = some 512 ∧ (set.reverse.find? fun x => !(s.owners.any fun e => e.1 / 32 = x)) = none
          ∧ (set.reverse.find? fun _ => true).isSome = true))
    ∧ (∀ p ∈ [0, 5], (tfind ((granting p).core 0).grants 7).isSome = true ∧ ((granting p).hart 0 0).phase = p ∧ ((granting p).hart 0 0).mark = 7
       ∧ (∀ g ∈ ((granting p).core 0).grants, g.2.live = false ∧ writesPending 0 g.2 (granting p) = false ∧ grantLines 0 g.2 (granting p) = []
         ∧ ∀ b, b < 128 → g.2.mask.getLsbD b = true → (((granting p).core 0).bank b 0).st = .idle ∨ (((granting p).core 0).bank b 0).st = .refresh))
    ∧ (∀ v ∈ [1, 2], let s := missing v []
       let u := takeWalker 0 s
       (openSlot s 0 0).isSome = true ∧ s.domOfCore 0 = some 0 ∧ l2Hit s 0 { vpn := v, wr := true } = none ∧ (s.die 0).walkers.length ≤ 32
       ∧ (u.die 0).walkers.contains v = true ∧ (fetchHome (walkLines u 0 ((BitVec.ofNat 39 v).signExtend 64 <<< 16)) u).isNone = true)
    ∧ (let s := (missing 1 []).onCore 0 fun c => { c with slots := [{ vpn := 1, wr := true }, { vpn := 2, wr := true }] }
       openSlot s 0 1 = some { vpn := 2, wr := true } ∧ ((takeWalker 0 s).die 0).walkers.contains 2 = false)
    ∧ (let s : State := { missing 2 [] with owners := [(0x2_0000 / 4, .agent 1 0)] }
       let u := takeWalker 0 s
       (u.die 0).walkers.contains 2 = true ∧ (fetchHome (walkLines u 0 ((BitVec.ofNat 39 2).signExtend 64 <<< 16)) u).isSome = true)
    ∧ walkCores (missing 2 []) 0 2 = [0]
    ∧ Memory.wf (missing 1 []).mem = true
    ∧ pteTouched 0x1_001F true ≠ 0x1_001F ∧ pteTouched 0x1_C01F true = 0x1_C01F
    ∧ (homeTakes [0x4_0008 / 128] (missing 1 [])).isNone = true
    ∧ (homeTakes [0x4_0008 / 128] { missing 1 [] with owners := [(0x4_0008 / 4, .core 1)] }).isSome = true
    ∧ (let t : Tlb := ⟨1, false, 0x1_C01F⟩; openSlot (missing 1 [t]) 0 0 = some { vpn := 1, wr := true } ∧ l2Hit (missing 1 [t]) 0 { vpn := 1, wr := true } = some t)
    ∧ ((missing 1 []).dom 0).tinv = 0
    ∧ (let s := (missing 1 []).setDom 0 { (missing 1 []).dom 0 with tinv := 1 }
       (s.dom 0).tinv.getLsbD 0 = true ∧ tinvOpen s 0 (s.dom 0).tinv (s.dom 0).tinvMark = false) := by
  decide +kernel

/-- A descriptor of the program's fibre, from its page or from scratch, a line of it left to copy. -/
def copyOf (sscr started : Bool) : Copy :=
  { id := 4, k := K, core := 0, src := if sscr then 0 else 0x1_0000, dst := 0x1_0080, len := 64, cons := none, sscr := sscr, dscr := false, cdw := 0x20,
    spages := [(1, 1, 0)], dpages := [(1, 1, 0)], mark := 3, started := started }
def satchel (y : Copy) : State := { S id with cur := .hw, copies := [y] }

theorem satchelErr (y : Copy) : ∀ c, ((satchel y).core c).boltErr = [] := by
  intro c
  have h : (satchel y).cores = [(0, (S id).core 0)] := rfl
  unfold State.core
  rw [h]
  by_cases hc : 0 = c
  · subst hc; rfl
  · simp only [tget, if_neg hc]

theorem witness_SatchelAndHamperEvents :
    (∀ a b, (satchel (copyOf a b)).copies.find? (fun x => x.id = 4) = some (copyOf a b))
    ∧ (copyOf true false).started = false ∧ (copyOf true false).dead = false
    ∧ (∀ a ∈ ((satchel (copyOf true false)).core 0).loads ++ ((satchel (copyOf true false)).core 0).stores, a.prefetch = true)
    ∧ (∀ a, (satchel (copyOf a true)).fib? K = some (F id) ∧ (copyOf a true).started = true ∧ (copyOf a true).dead = false ∧ (copyOf a true).nsent ≠ (copyOf a true).len
       ∧ ∀ c, ((satchel (copyOf a true)).core c).boltErr = [])
    ∧ (let y := copyOf false true
       let pas := sourcePas y 64
       y.sscr = false ∧ sourceReady (satchel y) pas = true ∧ (fetchHome ((pas.map (· / 128)).eraseDups) (satchel y)).isNone = true
         ∧ sourcePoison (satchel y) pas = none) := by
  exact ⟨fun a b => rfl, rfl, rfl, by decide +kernel, fun a => ⟨fib_setFib_self State.reset.withProgram K (F id), rfl, rfl, by cases a <;> decide, satchelErr _⟩,
    by decide +kernel⟩

/-- Copies that meet an uncorrectable row, a line with a message in flight, words that an owner holds, or a poisoned word. -/
theorem witness_SatchelAndHamperEvents_stops :
    (let x := boltRowOf (boltBase 0 + 20 * 65536)
     let s := (satchel (copyOf true true)).onCore 0 fun c => { c with boltErr := [(x.2.1, x.2.2, [(0, 1), (1, 1), (2, 1), (3, 1)])] }
     (scratchRead (F id).gang 0 64 s).2.2.isSome = true)
    ∧ (let y := copyOf false true
       let pas := sourcePas y 64
       sourceReady { satchel y with net := [mg .ld (.core 0) (.home 0)] } pas = false
       ∧ (let s : State := { satchel y with owners := [(32 * 512, .agent 1 0)] }
          sourceReady s pas = true ∧ (fetchHome ((pas.map (· / 128)).eraseDups) s).isSome = true)
       ∧ (let s : State := { satchel y with poison := [32 * 512] }
          sourceReady s pas = true ∧ (fetchHome ((pas.map (· / 128)).eraseDups) s).isNone = true ∧ sourcePoison s pas = some 0x1_0000)) := by
  decide +kernel

/-- A hamper at 0x1_8000 with n items, and one request to it of the program's fibre, which waits in chsend or chrecv. -/
def asking (n : Nat) (enq : Bool) : State :=
  let s := S fun f => { f with phase := if enq then 3 else 7, wait := .chan 5, keep := [0x1_0000, 0, 0, 5] }
  { s with cur := .hw
           mem := Memory.writeBytes s.mem 0x1_8008 (leBytes n 8)
           hamp := [{ id := 4, enq := enq, desc := 0x1_8000, cap := 4, ring := 0x1_9000, pages := [(1, 1)], thr := some (.fib K) }] }

theorem witness_SatchelAndHamperEvents_hamper :
    (∀ e ∈ [(0, true), (15, true), (16, true), (0, false), (1, false), (16, false)], ∀ q ∈ (asking e.1 e.2).hamp,
      ((asking e.1 e.2).hamp.find? fun x => x.id = q.id ∧ x.enq = e.2) = some q ∧ (fetchHome [q.desc / 128] (asking e.1 e.2)).isNone = true
      ∧ (asking e.1 e.2).hampReady q = (e.1 != if e.2 then 16 else 0) ∧ hampReach (asking e.1 e.2) q = true ∧ q.door = none ∧ q.ptrCore = none
      ∧ (hampTakes q (asking e.1 e.2)).isNone = true
      ∧ (e.2 = true → (match (doEnqueue q (asking e.1 e.2)).fib? K with | some f => f.phase = 3 | none => false) = true)
      ∧ (e.2 = false → (match (doDequeue q (asking e.1 e.2)).2.fib? K with | some f => f.wait = .chan 5 | none => false) = true
        ∧ (q.takes (doDequeue q (asking e.1 e.2)).1 (asking e.1 e.2)).isSome = true)) := by
  decide +kernel

/-- Hampers that wait for words of their lines, for a chrecv whose page is gone, or for a door's load. -/
theorem witness_SatchelAndHamperEvents_waits :
    (∀ enq ∈ [true, false], ∀ q ∈ (asking 1 enq).hamp, let s : State := { asking 1 enq with owners := [(q.desc / 4, .core 1)] }
      s.hampReady q = true ∧ hampReach s q = true ∧ (hampTakes q s).isSome = true ∧ (fetchHome [q.desc / 128] s).isNone = true)
    ∧ (∀ q ∈ (asking 1 false).hamp, let s := (asking 1 false).onCore 0 fun c => { c with tlb := [] }
      s.hampReady q = true ∧ hampReach s q = true ∧ (hampTakes q s).isNone = true ∧ (q.takes (doDequeue q s).1 s).isNone = true)
    ∧ (∀ n ∈ [0, 1], ∀ q ∈ (asking n false).hamp, let r : HampReq := { q with thr := none, door := some 7 }
      let s : State := { asking n false with hamp := [r] }
      (s.hamp.find? fun x => x.id = r.id ∧ !x.enq) = some r ∧ (fetchHome [r.desc / 128] s).isNone = true ∧ s.hampCount r.desc = n
      ∧ (n ≠ 0 → s.hampReady r = true ∧ hampReach s r = true ∧ (hampTakes r s).isNone = true)) := by
  decide +kernel

theorem witness_CoreAndRegisterEvents_results :
    (let l : LongRes := { id := 4, pc := 0x1_0000, mask := ends, vals := [(8, List.replicate 96 5)], tags := [(8, 0)], la := some 0, at_ := 0 }
     let s := S fun f => { f with longs := [l] }
     ∃ f, s.fib? K = some f ∧ f.longs.find? (fun l => !l.mem) = some l ∧ l.clash = [])
    ∧ (∀ kind ∈ [AccKind.load, .store, .atomic], let p : Part := { lane := scalarLane, off := 0, n := 32, pa := boltBase 0 + 0x40_0000, va := 0, data := leBytes 7 32, cmp := leBytes 0 32 }
       let a : Acc := { id := 4, inst := 3, thr := .fib K, kind := kind, space := .scratch 0, line := p.pa / 128, parts := [p] }
       let s := (S id).onCore 0 fun c => if kind = .load then { c with loads := [a] } else { c with stores := [a] }
       s.accOf a.id = some (0, a) ∧ (s.core 0).inTurn a = true ∧ p.pa % 32 + p.n ≤ 32 ∧ p.data.length = p.n ∧ 0 < p.n) :=
  ⟨⟨_, fibS _, rfl, rfl⟩, by decide +kernel⟩

/-! ### Witnesses: registers, distributor, trace, fabric, hosts -/

/-- Every core of a state with one core listed. -/
theorem eachCore (s : State) (p : Core → Prop) (h : s.cores.length = 1) (h0 : ∀ e ∈ s.cores, p e.2) (hd : p {}) : ∀ c, p (s.core c) := by
  intro c
  unfold State.core
  match hs : s.cores, h with
  | [(a, x)], _ =>
    simp only [tget]
    split
    · exact h0 (a, x) (by rw [hs]; exact List.mem_singleton.mpr rfl)
    · exact hd

theorem witness_CoreAndRegisterEvents :
    (∀ g, g < 128 → ((S id).core 0).good.getLsbD g = true) ∧ 2 < onesBelow 0x8_0000_0003 36 ∧ onesBelow 0x8_0000_0001 36 ≤ 2
    ∧ (let s := (S id).onCore 0 fun c => { c with owner := none, tlb := [] }
       (3 : W64).getLsbD 0 = true ∧ (s.core 0).cret.getLsbD 0 = false ∧ (s.core 0).owner = none ∧ (s.core 0).grants = [] ∧ (s.core 0).l1 = [] ∧ (s.core 0).wb = [])
    ∧ (let s := (S id).setDom 0 { (S id).dom 0 with fws := [(15, 0x1_0000)], fwn := [(15, 0x1_0000 + 384 * 128)] }
       (tget (s.dom 0).fwl 15 0).getLsbD 63 = false ∧ forwardRefused (s.dom 0) 15 (fwLen 0x8000_0000_0000_0080) = false
       ∧ forwardRefused (s.dom 0) 15 (fwLen 0x8000_0000_0000_0000) = true)
    ∧ regPlace (regBase + 0x7_0600) = .dom 7 0x600 ∧ regPlace (regBase + 0x1FF_0000) = .core 255 0 ∧ regPlace (regBase + 0x8_0000) = .none := by
  decide +kernel

theorem walkFrom_same (s : State) (va vb : W64) (h : ∀ l, l < 4 → walkIndex va l = walkIndex vb l) :
    ∀ (fuel table level : Nat), level + fuel ≤ 4 → walkFrom s va table level fuel = walkFrom s vb table level fuel
  | 0, _, _, _ => rfl
  | fuel + 1, table, level, hl => by
    simp only [walkFrom, h level (by omega), fun t => walkFrom_same s va vb h fuel t (level + 1) (by omega)]

theorem distXlate_page (s : State) (d : Nat) (va vb e : W64) (pa : Nat) (u : Use) (h : ∀ l, l < 4 → walkIndex va l = walkIndex vb l)
    (hc : canonical va = true) (hw : walk s d vb = .leaf e pa false) (hg : leafGrants 256 e (pteFrame e + va.toNat % 2 ^ 16) u .fibre = true) :
    distXlate s d va u .fibre = some (pteFrame e + va.toNat % 2 ^ 16) := by
  have : walk s d va = .leaf e pa false := by
    rw [← hw]
    simp only [walk]
    rw [walkFrom_same s va vb h 3 _ 1 (by omega)]
  simp only [distXlate, hc, this, Bool.not_true, Bool.false_eq_true, if_false, hg, if_true]

theorem distRead_of (s : State) (d : Nat) (va : W64) (f : Nat → Nat) (l : List Nat)
    (h : ∀ j ∈ l, distXlate s d (va + BitVec.ofNat 64 j) .load .fibre = some (f j)) :
    ((l.map fun j => va + BitVec.ofNat 64 j).foldr (fun a r => match r, distXlate s d a .load .fibre with
      | some l, some pa => some (s.curByte pa :: l)
      | _, _ => none) (some [])) = some (l.map fun j => s.curByte (f j)) := by
  induction l with
  | nil => rfl
  | cons a l ih =>
    simp only [List.map_cons, List.foldr_cons]
    rw [ih fun j hj => h j (List.mem_cons_of_mem _ hj), h a List.mem_cons_self]

/-- A run of bytes within the program's page, read through the tables. -/
theorem distRead_program (s : State) (va e : W64) (pa n : Nat) (hw : walk s 0 0x1_0000 = .leaf e pa false)
    (h : ∀ j, j < n → (∀ l, l < 4 → walkIndex (va + BitVec.ofNat 64 j) l = walkIndex 0x1_0000 l) ∧ canonical (va + BitVec.ofNat 64 j) = true
      ∧ leafGrants 256 e (pteFrame e + (va + BitVec.ofNat 64 j).toNat % 2 ^ 16) .load .fibre = true) :
    distRead s 0 va n = some ((List.range n).map fun j => s.curByte (pteFrame e + (va + BitVec.ofNat 64 j).toNat % 2 ^ 16)) := by
  refine distRead_of s 0 va (fun j => pteFrame e + (va + BitVec.ofNat 64 j).toNat % 2 ^ 16) (List.range n) fun j hj => ?_
  obtain ⟨h1, h2, h3⟩ := h j (List.mem_range.mp hj)
  exact distXlate_page s 0 _ _ e pa .load h1 h2 hw h3
/-- The bytes of a launch record of version ver, and of its kernel header. -/
def recordBytes (ver : Nat) : List W8 :=
  leBytes ver 4 ++ leBytes 0x0040_0810 4 ++ leBytes 0x1_0000 8 ++ leBytes 0x1_0008 8 ++ List.replicate 32 0 ++ leBytes 0x800 4 ++ leBytes 0 4
    ++ leBytes 1 4 ++ leBytes 1000 4 ++ leBytes 0x1_2000 8 ++ List.replicate 48 0
def headerBytes : List W8 :=
  leBytes 1 4 ++ leBytes 0 4 ++ leBytes 4 4 ++ leBytes 0 4 ++ List.replicate 16 0 ++ leBytes 0x1_0008 8 ++ List.replicate 280 0
/-- That record at 0x1_1000 and the header at 0x1_2000, in the program's page. -/
def record (ver : Nat) : State :=
  let s := mapped State.reset.withProgram
  { s.setDom 0 { s.dom 0 with recAddr := 0x1_1000 } with cfgOk := true, gangs := [], mem := Memory.writeBytes (Memory.writeBytes s.mem 0x1_1000 (recordBytes ver)) 0x1_2000 headerBytes }

theorem walked (ver : Nat) (h : ver = 1 ∨ ver = 2) : walk (record ver) 0 0x1_0000 = .leaf 0x1_C01F 0x4_0008 false := by
  rcases h with rfl | rfl <;> decide +kernel
theorem readRecord (ver : Nat) (h : ver = 1 ∨ ver = 2) : distRead (record ver) 0 0x1_1000 128 = some (recordBytes ver) := by
  rw [distRead_program (record ver) _ _ _ 128 (walked ver h) (by decide +kernel)]
  rcases h with rfl | rfl <;> decide +kernel
theorem readHeader : distRead (record 1) 0 0x1_2000 320 = some headerBytes := by
  rw [distRead_program (record 1) _ _ _ 320 (walked 1 (.inl rfl)) (by decide +kernel)]
  decide +kernel

/-- A gang that waits for a place of its die, in a free module or in one whose cores are out of service. -/
def unplaced (taken : Bool) : State :=
  let s : State := { State.reset.withProgram with gangs := [{ dom := 0, gid := 0 }], fibs := [], cores := (List.range 32).map fun c => (c, { inService := !taken }) }
  s.setDie 0 { s.die 0 with queue := [(4, ⟨0, 0⟩, 0)] }
def placing (t : Nat) : State :=
  let s : State := { State.reset.withProgram with gangs := [{ dom := 0, gid := 0, st := .placing }, { dom := 0, gid := 1 }], fibs := [], tick := t }
  s.setDie 0 { s.die 0 with queue := [(2, ⟨0, 1⟩, 0)], placing := some (4, ⟨0, 0⟩, [0], 0) }

theorem readNothing (s : State) (d : Nat) (va : W64) (h : distXlate s d (va + BitVec.ofNat 64 0) .load .fibre = none) : distRead s d va 128 = none := by
  unfold distRead
  rw [show List.range 128 = 0 :: List.range' 1 127 from by decide +kernel]
  simp only [List.map_cons, List.foldr_cons]
  rw [h]
  split
  · rename_i h1 h2; cases h2
  · rfl

theorem witness_PlacementAndEviction :
    (∀ v ∈ [1, 2], (record v).cfgOk = true ∧ ((record v).dom 0).dies ≠ 0 ∧ ((record v).dom 0).dstart.extractLsb' 0 2 = 0)
    ∧ (let s := (record 1).setDom 0 { (record 1).dom 0 with recAddr := 0x2_0000 }
       distRead s 0 (s.dom 0).recAddr 128 = none ∧ s.cfgOk = true ∧ (s.dom 0).dies ≠ 0)
    ∧ distRead (record 2) 0 0x1_1000 128 = some (recordBytes 2) ∧ launchFault (recordBytes 2) = some (1, 0)
    ∧ distRead (record 1) 0 0x1_1000 128 = some (recordBytes 1) ∧ launchFault (recordBytes 1) = none
    ∧ (launchOf (recordBytes 1)).khdr = 0x1_2000 ∧ distRead (record 1) 0 0x1_2000 320 = some headerBytes
    ∧ headerFault (launchOf (recordBytes 1)) headerBytes = none ∧ pinFault (record 1) 0 (pinRanges headerBytes) [] = none
    ∧ (∀ b, ((unplaced b).die 0).placing = none ∧ nextRequest ((unplaced b).die 0) = some (4, ⟨0, 0⟩, 0) ∧ ((unplaced b).gang? ⟨0, 0⟩).isSome = true
       ∧ (unplaced b).replaying 0 = false ∧ ∀ g ∈ (unplaced b).gangs, (findPlace (unplaced b) g true).isSome = !b ∧ (findPlace (unplaced b) g false).isSome = !b)
    ∧ ((placing 0).die 0).placing = some (4, ⟨0, 0⟩, [0], 0) ∧ ((placing 0).gang? ⟨0, 0⟩).isSome = true
    ∧ boundExpires (placing 4800) 0 = true ∧ ((rollback 0 (placing 4800)).gang? ⟨0, 0⟩).isSome = true := by
  refine ⟨by decide +kernel, ⟨readNothing _ _ _ (by decide +kernel), by decide +kernel⟩, readRecord 2 (.inr rfl), by decide +kernel, readRecord 1 (.inl rfl), by decide +kernel, by decide +kernel,
    readHeader, by decide +kernel, by decide +kernel, ?_⟩
  decide +kernel

/-- The program's fibre waits on a remote load; a gang with nothing running; a gang whose fibre has saved. -/
def remoteWait : State :=
  let a : Acc := { id := 4, inst := 3, thr := .fib K, kind := .load, space := .pool, line := 2 ^ 44 / 128,
                   parts := [{ lane := scalarLane, off := 0, n := 8, pa := 2 ^ 44, va := 0x1_0000 }] }
  { (S fun f => { f with stall := 3 }).onCore 0 fun c => { c with loads := [a] } with cur := .hw, tick := 2401 }
def idleGang : State :=
  let s := mapped (S fun f => { f with st := .blocked })
  let s := s.setDom 0 { s.dom 0 with launch := some { placedLaunch with savea := 0x1_0000 } }
  let s := (List.range 8).foldl (fun (s : State) i => { s with mem := Memory.writeBytes s.mem (0x4_0008 + 8 * i) (leBytes (0x1_C01F + 65536 * i) 8) }) s
  { s.setDie 0 { s.die 0 with queue := [(4, ⟨0, 1⟩, 0)] } with cur := .hw, tick := 1200000 }
def savedGang : State :=
  let s := S fun f => { f with st := .saved }
  { s with cur := .hw, gangs := s.gangs.map fun (g : Gang) => { g with st := .saving } }

theorem witness_PlacementAndEviction_evict :
    (let s := remoteWait
     ((fibLoads s K).head?.map fun a => (a.remote, a.tick, a.parts.length)) = some (true, 0, 1) ∧ 2400 < s.tick
     ∧ (∀ f ∈ s.fibs, f.2.st = .running ∧ f.2.stall = 3 ∧ atBlockingPoint s K { f.2 with ldq := [] } = true))
    ∧ (let s := idleGang
       let cands := s.gangs.filter fun g => g.dom = 0 && mayEvict s g
       s.replaying 0 = false ∧ cands ≠ [] ∧ ∀ x ∈ cands, imageFault s x = none)
    ∧ (∀ r ∈ savedGang.gangs, r.st = .saving ∧ r.thermalFrom = none ∧ (∀ e ∈ savedGang.fibsOfGang r.key, e.2.st = .saved ∨ e.2.st = .exited)
       ∧ r.cores ≠ [] ∧ ∀ c ∈ r.cores, releaseWaits savedGang c (.hart c 0) 2 true savedGang.nextId = false)
    ∧ savedGang.copies = [] ∧ savedGang.gangs ≠ []
    ∧ (let s : State := { (S id).onCore 0 fun c => { c with hot := true } with tick := 2400000 }
       ∀ r ∈ s.gangs, r.st = .running ∧ (∃ c ∈ r.cores, (s.core c).hot = true) ∧ r.commit + 2400000 ≤ s.tick) := by
  decide +kernel

theorem calmHome (s : State) (l : List Nat) (h : s.owners = []) : fetchHome l s = none := by simp [fetchHome, State.agentHolds, h]
theorem heldFirst (s : State) (a b : List Nat) (h : a.any s.agentHolds = true) : (fetchHome (a ++ b) s).isSome = true := by
  simp only [fetchHome, List.any_append, h, Bool.true_or, if_true, Option.isSome_some]

/-- A state whose launch record an agent holds a word of. -/
def lent : State := { record 1 with owners := [(0x1_1000 / 4, .agent 1 0)] }
theorem recordHome (v : Nat) (l : List Nat) : fetchHome l (record v) = none := calmHome _ l (by unfold record; rfl)
theorem lentLines : (distLines lent 0 (lent.dom 0).recAddr 128).any lent.agentHolds = true := by decide +kernel

/-- What the distributor reads is at its home, or an agent holds a word of it. -/
theorem witness_PlacementAndEviction_homes :
    (∀ v l, fetchHome l (record v) = none) ∧ (∀ l, (fetchHome (distLines lent 0 (lent.dom 0).recAddr 128 ++ l) lent).isSome = true) :=
  ⟨recordHome, fun l => heldFirst lent _ l lentLines⟩

theorem witness_PlacementAndEviction_channels :
    (bindChans 0 (unplaced false)).isRight = true
    ∧ (let s := mapped (unplaced false)
       let s : State := { s.setDom 0 { s.dom 0 with launch := some { placedLaunch with chtab := 0x10_0000 } } with owners := [(0x2_0000 / 4, .agent 1 0)] }
       (bindChans 0 s).isLeft = true) := by decide +kernel

theorem witness_PlacementAndEviction_images :
    (∀ g ∈ idleGang.gangs, (imagesReady g idleGang).isNone = true ∧ (imagesReady g { idleGang with owners := [(32 * 512, .agent 1 0)] }).isSome = true)
    ∧ (∀ g ∈ idleGang.gangs, (saveScratch g idleGang).isRight = true ∧ (saveScratch g { idleGang with owners := [(32 * 512, .core 1)] }).isLeft = true) := by
  decide +kernel

/-- A remote wait at a consuming word, with or without a report held, and a candidate whose images cannot be stored, its cores told. -/
theorem witness_PlacementAndEviction_reports :
    (let s := remoteWait.onFib K fun f => { f with waits := true }
     (∀ f ∈ s.fibs, f.2.waits = true ∧ f.2.reports = [] ∧ atBlockingPoint s K { f.2 with ldq := [], reports := [] } = true)
     ∧ s.fibs ≠ [] ∧ (((fibLoads s K).head?).map fun a => a.space) = some .pool)
    ∧ (let s := remoteWait.onFib K fun f => { f with waits := true, reports := [{ inst := 3, ctr := 0, dst := 0, cause := 11, addr := 0, lane := 0, aux := 0, info := 0, srcl := 0 }] }
       ∀ f ∈ s.fibs, (oldestReport f.2 (fun _ => true)).isSome = true ∧ atBlockingPoint s K { f.2 with ldq := [], reports := [] } = true)
    ∧ (let s : State := { S (fun f => { f with st := .blocked }) with tick := 1200000 }
       let s := s.setDie 0 { s.die 0 with queue := [(4, ⟨0, 1⟩, 0)] }
       let t : State := { s with gangs := s.gangs ++ [{ dom := 0, gid := 7, st := .running }] }
       (∀ g ∈ s.gangs, mayEvict s g = true ∧ (imageFault s g).isSome = true) ∧ s.gangs ≠ [] ∧ t.gangs.length = 2)
    ∧ savedGang.replaying 0 = false := by
  decide +kernel

/-! ### Witnesses: trace, replay, fabric, hosts, attestation -/

/-- Core 0 with its basting unit, at a tick. -/
def basting (t : Nat) (b : Bast) : State := { (S id).onCore 0 fun c => { c with bast := b, clk := 5000 } with cur := .hw, tick := t }
/-- Domain 0 with recorder registers. -/
def recording (t : Nat) (g : Dom → Dom) : State := { (S id).setDom 0 (g ((S id).dom 0)) with cur := .hw, tick := t }

theorem witness_TraceAndReplayEvents :
    (∀ n ∈ [0x000A_0002, 0x0A14_0002], let v := BitVec.ofNat 64 n; 10 ≤ (v.extractLsb' 16 5).toNat ∧ (v.extractLsb' 16 5).toNat ≤ 20 ∧ (v.extractLsb' 24 4).toNat ≤ 10)
    ∧ ((basting 0 {}).core 0).bast.ctl.getLsbD 1 = false ∧ ((basting 0 { ctl := 0xA_0002 }).core 0).bast.ctl.getLsbD 1 = true
    ∧ (let s := basting 0 { base := 0x3_0010, buf := List.replicate 128 5 }
       let b := (s.core 0).bast
       let pa := (b.base.extractLsb' 16 36).toNat * 65536 + b.wr % b.size
       128 ≤ b.buf.length ∧ b.wr + 128 ≤ b.rd + b.size ∧ s.quiet (pa / 128) = true ∧ (fetchHome [pa / 128] s).isNone = true)
    ∧ padDue (basting 1200 { buf := [5] }) ((basting 1200 { buf := [5] }).core 0).bast = true
    ∧ sampleDue ((basting 0 { ctl := 0xA_0001, nextSample := 1024 }).core 0) = true
    ∧ periodicDue (basting 1024 { ctl := 0xA_0002, syncAt := some 0 }) 0 = true
    ∧ (let q := bastFlush 0 ({ lost := 3 } : Bast); q.lost ≠ 0 ∧ q.buf.length + 64 ≤ 65536)
    ∧ (∀ n ∈ [0x8001_0001, 0x800F_03E8], let v := BitVec.ofNat 64 n; 1 ≤ (v.extractLsb' 0 10).toNat ∧ (v.extractLsb' 0 10).toNat ≤ 1000 ∧ (v.extractLsb' 16 4).toNat ≠ 0)
    ∧ (let s := recording 0 fun d => { d with rpbase := 0x1000_0000_001E }
       rpState (s.dom 0) ≠ 2 ∧ inPool (((s.dom 0).rpbase.extractLsb' 30 22).toNat * 2 ^ 30) = true ∧ (s.dom 0).rpctl.getLsbD 31 = false)
    ∧ (let s := recording 1200000 fun d => { d with rpctl := 0x8001_0001, rpstat := 1 }
       (s.dom 0).rpctl.getLsbD 31 = true ∧ rpState (s.dom 0) = 1 ∧ (s.dom 0).lastCkpt + ((s.dom 0).rpctl.extractLsb' 0 10).toNat * 1200000 ≤ s.tick
       ∧ (s.fibsOfDom 0).all (captured s) = true)
    ∧ (let r : CheckpointRec := { seq := 1, mem := [], gangs := (S id).gangs, fibs := [], spools := [], blocks := [], cuts := [] }
       let s := recording 0 fun d => { d with checkpoints := [r] }
       (s.dom 0).rpctl.getLsbD 31 = false ∧ (s.dom 0).checkpoints.find? (fun x => x.seq = ((0x1_0000_0000 : W64).extractLsb' 32 32).toNat) = some r
       ∧ (∀ g ∈ r.gangs, ∀ c ∈ g.cores, (s.core c).inService = true)
       ∧ (s.dom 0).checkpoints.find? (fun x => x.seq = ((0x2_0000_0000 : W64).extractLsb' 32 32).toNat) = none) := by
  decide +kernel

/-- A link that is up, an access of core 0 that left on it, and a door bound to a hamper at 0x1_8000. -/
def linked (a : List Acc) : State :=
  let s := mapped ((S id).onCore 0 fun c => { c with loads := a.filter (·.kind = .load), stores := a.filter (·.kind ≠ .load) })
  let s := s.setDom 0 { s.dom 0 with doors := [(63, 0x8000_0000_0001_8000)] }
  { s with cur := .hw, linksUp := 0x8000_0000, linkTags := a.map fun x => ⟨31, 7, x.id, 0⟩, mem := Memory.writeBytes s.mem 0x1_8010 (leBytes 0x1_9000 8 ++ leBytes 4 4) }
/-- A flit's header: kind, LEN, tag 7, address. -/
def flit (kind len pa : Nat) : FabHdr := ⟨BitVec.ofNat 64 (len * 2 ^ 20 + kind * 4096 + 7), BitVec.ofNat 64 pa⟩
def ioAcc (kind : AccKind) : Acc :=
  { id := 4, inst := 3, thr := .fib K, kind := kind, space := .io, line := 0, parts := [{ lane := scalarLane, off := 0, n := 8, pa := regBase + 0x600, va := 0x1_0000 }] }

theorem witness_FabricEvents :
    (linked []).linksUp.getLsbD 31 = true ∧ (flit 5 0 0).reserved = true ∧ (flit 4 0 (2 ^ 52)).reserved = true
    ∧ (∀ e ∈ [(0, 31, 0x1_0000), (1, 0, 0x1_007C)], let h := flit e.1 e.2.1 e.2.2
       h.kind = e.1 ∧ h.reserved = false ∧ h.len ≤ 31 ∧ h.pa % 128 + 4 * (h.len + 1) ≤ 128)
    ∧ (∀ e ∈ [(AccKind.load, 2), (.store, 3)], let s := linked [ioAcc e.1]; let h := flit e.2 0 0
       h.reserved = false ∧ h.kind = e.2 ∧ (s.tagHolder 31 h.tag).isSome = true ∧ (s.tagHolder 31 h.tag).map (·.id) = some 4 ∧ s.accOf 4 = some (0, ioAcc e.1))
    ∧ (∀ k ∈ [MsgKind.reg, .ld, .hwr], let h := flit 4 (msgNumber k) 0x1_0000
       h.reserved = false ∧ h.kind = 4 ∧ h.len = msgNumber k ∧ nearPopulated (128 * (h.pa / 128)) = true)
    ∧ (match doorChan 0 63 (linked []) with | .inr (_, some _) => true | _ => false) = true
    ∧ 31 < 32 ∧ (linked []).linkTags = [] ∧ (linked []).linksUp.getLsbD 0 = false ∧ (linked []).acts = [] ∧ (linked []).ext = [] := by
  decide +kernel

theorem witness_FabricEvents_agent : ∀ c, ((linked []).core c).loads = [] ∧ ((linked []).core c).stores = [] :=
  eachCore (linked []) (fun c => c.loads = [] ∧ c.stores = []) (by decide +kernel) (by decide +kernel) ⟨rfl, rfl⟩

/-- PCI Express port 3 bound to domain 0. -/
def hosted : State := { mapped (S id) with cur := .hw, ports := [(3, 0)] }
/-- Whether an inbound range passes. -/
def passes (x : Except (Nat × W64 × W64) (List (W64 × Nat × Nat))) : Bool := match x with | .ok _ => true | .error _ => false

theorem witness_HostAccessEvents :
    tfind hosted.ports 3 = some 0 ∧ List.replicate 512 (5 : W8) ≠ [] ∧ (List.replicate 512 (5 : W8)).length ≤ 512
    ∧ passes (inbound hosted 0 .store 0x1_0000 512) = true ∧ passes (inbound hosted 0 .load 0x1_0000 4096) = true ∧ passes (inbound hosted 0 .load 0x2_0000 4096) = false
    ∧ (let s := { hosted with mem := Memory.writeBytes hosted.mem 0x4_0008 (leBytes 0x1_C02F 8) }
       tfind s.ports 3 = some 0 ∧ passes (inbound s 0 .store 0x1_0000 512) = false)
    ∧ (∀ k ∈ [AccKind.load, .store], let s := linked [ioAcc k]; let a := ioAcc k
       s.accOf a.id = some (0, a) ∧ a.space = .io ∧ a.sent = false ∧ (s.core 0).inTurn a = true ∧ fabricAperture (regBase + 0x600) = false ∧ regBase ≤ regBase + 0x600)
    ∧ (let a := { ioAcc .load with parts := [{ lane := scalarLane, off := 0, n := 8, pa := 0x9_0000_0000_3F00, va := 0 }] }
       let s := linked [a]
       s.accOf a.id = some (0, a) ∧ (s.core 0).inTurn a = true ∧ fabricAperture 0x9_0000_0000_3F00 = false ∧ 0x9_0000_0000_3F00 < regBase
       ∧ (doorOf 0x9_0000_0000_3F00).isSome = true) := by
  decide +kernel

theorem witness_AttestationAndReset :
    ({ S id with attest := [5, 6] } : State).attest = 5 :: [6]
    ∧ (let b : BootInput := { stages := List.replicate 8 5, stagesOk := true, configOk := true, configDigest := 7, pkg := 3, domains := [], ports := [], doors := [], powerLimit := 0, selfTest := [] }
       (b.stagesOk && b.configOk) = true ∧ 7 < b.stages.length ∧ 7 < 8) := by
  decide +kernel

/-- A link's headers and doors at the other clauses: a write that leaves its line, answers under a tag, doors with no hamper or one lent out. -/
theorem witness_FabricEvents_more :
    (∀ e ∈ [(0, 32, 0x1_0000), (1, 1, 0x1_007C), (1, 31, 0x1_0004)], let h := flit e.1 e.2.1 e.2.2
       h.kind = e.1 ∧ h.reserved = false ∧ (31 < h.len ∨ 128 < h.pa % 128 + h.bytes))
    ∧ (∀ k ∈ [MsgKind.rvack, .wb, .fdata], let s := linked [ioAcc .load]; let h := flit 4 (msgNumber k) 0x1_0000
       h.reserved = false ∧ h.kind = 4 ∧ h.len = msgNumber k ∧ nearPopulated (128 * (h.pa / 128)) = true ∧ (s.tagHolder 31 h.tag).isSome = true
       ∧ s.linksUp.getLsbD 31 = true)
    ∧ (match doorChan 0 62 (linked []) with | .inr (_, none) => true | _ => false) = true
    ∧ (match doorChan 0 63 { linked [] with owners := [(0x1_8000 / 4, .agent 1 0)] } with | .inl _ => true | _ => false) = true
    ∧ (∀ k ∈ [AccKind.load, .store], let s := linked [ioAcc k]
       s.linkTags ≠ [] ∧ (∀ t ∈ s.linkTags, s.accOf t.id = some (0, ioAcc k)) ∧ (ioAcc k).prefetch = false ∧ (ioAcc k).parts ≠ []
       ∧ (ioAcc k).thr = .fib K ∧ (s.fib? K).isSome = true) := by
  decide +kernel

/-- What a port's access translates by is at home, an agent holds it, or a core holds the entry that takes its A and D bits. -/
theorem witness_HostAccessEvents_tables :
    (∀ e ∈ [(Use.store, 512), (.load, 4096)], let vas := (pageChunks 0x1_0000 e.2).map (·.1)
       let lines := (vas.flatMap (walkLines hosted 0)).eraseDups
       (fetchHome lines hosted).isNone = true ∧ (touchPages 0 e.1 .host vas hosted).isRight = true
       ∧ (fetchHome lines { hosted with owners := [(0x4_0008 / 4, .agent 1 0)] }).isSome = true
       ∧ (let s : State := { hosted with mem := Memory.writeBytes hosted.mem 0x4_0008 (leBytes 0x1_001F 8), owners := [(0x4_0008 / 4, .core 1)] }
          passes (inbound s 0 e.1 0x1_0000 e.2) = true ∧ (touchPages 0 e.1 .host vas s).isLeft = true)) := by
  decide +kernel

/-! ### Witnesses: encodings, steps and the machine -/

theorem witness_StepRunsDecoded_scalar :
    let s := (State.reset.withFetchWord 32 0b000001_00000111_00001000_00001001_00)
    let s0 := { s with agenda := [] }
    due s = none ∧ s.agenda = [.scalar 0 0] ∧ (s.core 0).gated = false ∧ ((s.core 0).sub 0).slotF = [] ∧ scalarOrder s0 0 0 = [K]
    ∧ (∀ e ∈ s.fibs, e.1 = K ∧ e.2.yielded = false ∧ s.replaying e.2.dom = false ∧ e.2.st ≠ .saving ∧ e.2.div = none ∧ rowOpen s0 K e.2 = false
      ∧ redirect s e.2.dom e.2.pc = e.2.pc ∧ e.2.pc = 0x1_0000) ∧ s.fibs ≠ []
    ∧ (match fetchVa { s0 with cur := .scalar K } 0 .fibre 0x1_0000 4 with
      | .bytes b s1 => decodeScalar (BitVec.ofNat 32 (leNat b)) == .ok (.add 7 8 9) && (match exec (.add 7 8 9) (s1.onFib K Fib.fetched) with
        | .next t => (match waitEnded K s0 (.next t) with | .next _ => true | _ => false)
        | _ => false)
      | _ => false) = true := by
  decide +kernel

theorem witness_StepRunsDecoded_lane :
    let w := 0b00000001_0000_1_0_1_0_00000010_00000011_00000100_00000101_0010_000110_000111_00000000000000000000000000001001
    let s := State.reset.withFetchWord 96 w
    let s := s.onCore 0 fun c => c.setSub 0 { c.sub 0 with holder := some K }
    due s = none ∧ s.agenda = [.lane 0 0] ∧ (s.core 0).gated = false ∧ ((s.core 0).sub 0).holder = some K
    ∧ (s.fib? K).map (fun f => (f.ready, s.holds f, s.replaying f.dom, f.stitches.map (fun x => (x.pc, x.n)))) = some (true, false, false, [(0x1_0000, 0)])
    ∧ redirect s 0 0x1_0000 = 0x1_0000
    ∧ (match fetchVa { s with agenda := [], cur := .lane K } 0 .fibre 0x1_0000 12 with
      | .bytes b s1 => decodeLane (BitVec.ofNat 96 (leNat b)) == .ok (.vadd ⟨0, true, false, true, false, 2, 3, 4, 5, 2, 6, 7, 9⟩)
        && (match exec (.vadd ⟨0, true, false, true, false, 2, 3, 4, 5, 2, 6, 7, 9⟩) s1 with | .next _ => true | _ => false)
      | _ => false) = true := by
  decide +kernel

/-- The module with hart h of core 0 at the program's page, where 4 bytes stand, its turn next. -/
def fetching (h w : Nat) : State :=
  let s := State.reset.withFetchWord 32 0
  { s.setHart 0 h { Hart.init with pc := 0x1_0000 } with agenda := [.hart 0 h], mem := Memory.writeBytes s.mem 0x1_0000 (leBytes w 4) }
/-- What a fetch of 2 bytes, of 4 where those are of a long word, meets. -/
def fetchGives (h w : Nat) (long short : W32 → State → Bool) : Bool :=
  match hartFetch 0 h 0x1_0000 2 { fetching h w with agenda := [], cur := .hart 0 h } with
  | .bytes b s1 =>
    if leNat b % 4 = 3 then match hartFetch 0 h 0x1_0000 4 s1 with
      | .bytes b4 s2 => long (BitVec.ofNat 32 (leNat b4)) (s2.setHart 0 h { s2.hart 0 h with len := 4 })
      | _ => false
    else match rvExpand (BitVec.ofNat 16 (leNat b)) with
      | some x => short x (s1.setHart 0 h { s1.hart 0 h with len := 2 })
      | none => false
  | _ => false
/-- A word of the custom or memory opcodes, and one of the base architecture, go on. -/
def goes (h : Nat) (w : W32) (s : State) : Bool :=
  match decodeValet w with
  | some i => (match exec i s with | .next _ => true | _ => false)
  | none => (match rvBase 0 h w s with | .next _ => true | _ => false)

/-- ld x5, 4(x7), addi x5, x7, 1, c.ld x8, 0(x9) and c.addi x5, 1, on either hart. -/
theorem witness_StepRunsDecoded_harts :
    (∀ h ∈ [0, 1], ∀ w ∈ [0b000000000100_00111_011_00101_0000011, 0b000000000001_00111_000_00101_0010011, 0b011_000_001_00_000_00, 0b000_0_00101_00001_01],
      let s := fetching h w
      due s = none ∧ s.agenda = [.hart 0 h] ∧ (s.hart 0 h).pc = 0x1_0000 ∧ (s.hart 0 h).run = true ∧ (s.core 0).inService = true ∧ (s.core 0).gated = false
      ∧ (s.domOfCore 0).isSome = true ∧ takesIrq { s with agenda := [], cur := .hart 0 h } 0 h = false ∧ fetchGives h w (goes h) (goes h) = true)
    ∧ fetchGives 1 0b000000000100_00111_011_00101_0000011 (fun w _ => decodeValet w == some (.valetLoad 3 7 5 4)) (fun _ _ => false) = true
    ∧ fetchGives 0 0b000000000001_00111_000_00101_0010011 (fun w _ => (decodeValet w).isNone) (fun _ _ => false) = true
    ∧ fetchGives 1 0b011_000_001_00_000_00 (fun _ _ => false) (fun w _ => decodeValet w == some (.valetLoad 3 9 8 0)) = true
    ∧ fetchGives 0 0b000_0_00101_00001_01 (fun _ _ => false) (fun w _ => (decodeValet w).isNone) = true := by
  decide +kernel

/-- A line of the instruction cache, read by hart 0 at its last 4 bytes. -/
theorem witness_StepRunsDecoded_line :
    let x : ICLine := { line := 512, region := 0, data := leBytes (0b0000001_00000_00111_000_00000_0001011 * 2 ^ 992) 128, pinned := false }
    let s := (State.reset.withFetchWord 32 0).onCore 0 fun c => { c with icache := [x] }
    0 < 4 ∧ 0x1_007C % 128 + 4 ≤ 128 ∧ (nearPopulated 0x1_007C || inPool 0x1_007C) = true ∧ (nearPopulated (0x1_007C + 4 - 1) || inPool (0x1_007C + 4 - 1)) = true
    ∧ (s.core 0).icache.find? (·.line = 0x1_007C / 128) = some x
    ∧ decodeValet (BitVec.ofNat 32 (leNat ((List.range 4).map fun j => x.data.getD (0x1_007C % 128 + j) 0))) = some (.hxAcq 1 7) := by
  decide +kernel

theorem witness_StepRunsDecoded_event : due (B 0 420 { st := .refresh }) = some (.refreshSlotEnd 0 0) := by decide +kernel

theorem witness_ReservedWords :
    (∀ m ∈ [0x28, 0x3B, 0x3C, 0x3E, 0, 0x3F], ((BitVec.ofNat 32 (m * 2 ^ 26)).extractLsb' 26 6).toNat = m)
    ∧ (∀ m ∈ [0xA0, 0xEF], ((BitVec.ofNat 96 (m * 2 ^ 88)).extractLsb' 88 8).toNat = m)
    ∧ decodeScalar 0b000001_00000111_00001000_00001001_00#32 = .ok (.add 7 8 9)
    ∧ decodeLane 0b00000001_0000_1_0_1_0_00000010_00000011_00000100_00000101_0010_000110_000111_00000000000000000000000000001001#96
      = .ok (.vadd ⟨0, true, false, true, false, 2, 3, 4, 5, 2, 6, 7, 9⟩) := by
  decide +kernel

theorem witness_ScalarWordsRoundTrip :
    (Instr.add 7 191 0).wf = true ∧ encode (.add 7 191 0) = .scalar 0b000001_00000111_10111111_00000000_00#32 := by
  decide +kernel

theorem witness_LaneWordsRoundTrip :
    (Instr.vadd ⟨15, true, true, true, true, 255, 255, 255, 255, 2, 0, 0x27, 0⟩).wf = true
    ∧ encode (.vadd ⟨0, true, false, true, false, 2, 3, 4, 5, 2, 6, 7, 9⟩)
      = .lane 0b00000001_0000_1_0_1_0_00000010_00000011_00000100_00000101_0010_000110_000111_00000000000000000000000000001001#96 := by
  decide +kernel

theorem witness_ValetWordsRoundTrip :
    (Instr.hxAcq 3 31).wf = true ∧ encode (.hxAcq 1 7) = .valet 0b0000001_00000_00111_000_00000_0001011#32 := by
  decide +kernel

/-- Operations and their results that the lists of the statement hold. -/
theorem witness_AtomicOperations :
    ((0, (3 : BitVec 32) + 4) ∈ [(0, (3 : BitVec 32) + 4), (8, 4)])
    ∧ ((9, if (3 : BitVec 64) = 3 then (4 : BitVec 64) else 3) ∈ [(8, 4), (9, if (3 : BitVec 64) = 3 then (4 : BitVec 64) else 3)]) := by
  decide +kernel

theorem witness_MemoryCanonicalKept :
    let s := State.reset.withFetchWord 32 0b000001_00000111_00001000_00001001_00
    memInv s ∧ (step s matches .next _) := by
  unfold memInv
  decide +kernel

theorem witness_WordsGoOn :
    encode (.add 7 8 9) = .scalar 0b000001_00000111_00001000_00001001_00#32 ∧ (S id).cur = .scalar K ∧ (S id).fib? K = some (F id)
    ∧ encode (.vadd ⟨0, true, false, true, false, 2, 3, 4, 5, 2, 6, 7, 9⟩)
      = .lane 0b00000001_0000_1_0_1_0_00000010_00000011_00000100_00000101_0010_000110_000111_00000000000000000000000000001001#96
    ∧ (LS maskFull id).cur = .lane K ∧ (LS maskFull id).fib? K = some (LF maskFull id) ∧ (LF maskFull id).stitches = st maskFull :: []
    ∧ encode (.hxAcq 1 7) = .valet 0b0000001_00000_00111_000_00000_0001011#32 ∧ (H 1 id).cur = .hart 0 1 :=
  ⟨by decide +kernel, rfl, fibS id, by decide +kernel, rfl, rfl, rfl, by decide +kernel, rfl⟩

theorem witness_RegisterWordFrame :
    scalarWrites (.add 7 8 9) = some [7] ∧ (S id).cur = .scalar K ∧ (S id).fib? K = some (F id)
    ∧ ∃ t g, exec (.add 7 8 9) (S id) = .next t ∧ t.fib? K = some g := by
  refine ⟨rfl, rfl, fibS id, ?_⟩
  have h : (match exec (.add 7 8 9) (S id) with | .next t => (t.fib? K).isSome | _ => false) = true := by decide +kernel
  split at h
  · rename_i t ht
    obtain ⟨g, hg⟩ := Option.isSome_iff_exists.mp h
    exact ⟨t, g, ht, hg⟩
  · cases h

/-! ### Ill-formed terms are refused (R237 to R242, R246) -/

theorem smoke_register : (Instr.add 192 0 0).wf = false ∧ (Instr.add 0 192 0).wf = false ∧ (Instr.add 0 0 192).wf = false := by decide
theorem smoke_extend_width : (Instr.sext 7 8 3).wf = false ∧ (Instr.zext 7 8 3).wf = false := by decide
theorem smoke_branch : (Instr.br 8 9 1).wf = false ∧ (Instr.br 1 6 1).wf = false ∧ (Instr.br 192 0 1).wf = false := by decide
theorem smoke_counter : (Instr.swait 0 6).wf = false := by decide
theorem smoke_special : (Instr.sget 7 7).wf = false ∧ (Instr.sset 0 7).wf = false ∧ (Instr.sset 25 7).wf = false := by decide
theorem smoke_atomic : (Instr.satom 0 0 true 7 8 9).wf = false ∧ (Instr.scas 0 0 true 7 8).wf = false := by decide
theorem smoke_rowwait : (Instr.rowwait 7 3).wf = false := by decide
theorem smoke_hemset : (Instr.hemset 0 7 3).wf = false := by decide
theorem smoke_lane_rows : (Instr.vtag (wd 0 1 0 0)).wf = false ∧ (Instr.vtagSet (wd 0 0 0 0)).wf = false ∧ (Instr.fsgn (wd 6 2 0 0)).wf = false
    ∧ (Instr.l6plane (wd 10 1 0 0)).wf = false ∧ (Instr.mmodeSet (wd 0 1 0 0)).wf = false ∧ (Instr.mmodeRead (wd 0 0 0 0)).wf = false := by decide
theorem smoke_valet : (Instr.valetLoad 7 0 0 0).wf = false ∧ (Instr.valetStore 4 0 0 0).wf = false ∧ (Instr.valetAmo 2 true false false 0 0 0).wf = false := by
  decide

/-! ### Words written out from the encodings (R237 to R242, R246, R398) -/

theorem decode_shift_imm : decodeScalar 0b001100_00000111_00001000_1000_111111#32 = .ok (.sari 7 8 63) := by decide +kernel
theorem decode_literal : decodeScalar 0b001111_00000111_111111111111111111#32 = .ok (.ldlit 7 0x3FFFF) := by decide +kernel
theorem decode_lane_enqueue : decodeScalar 0b010101_00000000000000_00001000_0000#32 = .ok (.lrunr 8) := by decide +kernel
theorem decode_wait : decodeScalar 0b010110_000000_00000011_00000000_0101#32 = .ok (.swait 3 5) := by decide +kernel
theorem decode_barrier : decodeScalar 0b010111_00001000000000000000000_111#32 = .ok (.cbar 7) := by decide +kernel
theorem decode_fence : decodeScalar 0b100001_00_11_1000000000_00001000_0000#32 = .ok (.fence 3 8) := by decide +kernel
theorem decode_atomic : decodeScalar 0b100010_0_11_10_1_00000111_00001000_1000#32 = .ok (.satom 3 2 true 7 8 8) := by decide +kernel
theorem decode_channel : decodeScalar 0b100011_01_111111_00000111_00001000_0_1#32 = .ok (.chrecv 63 7 8 true) := by decide +kernel
theorem decode_countdown : decodeScalar 0b100100_000011_00000111_00001000_0000#32 = .ok (.bwait 7 8) := by decide +kernel
theorem decode_row : decodeScalar 0b100101_000011_00000000_00001000_00_10#32 = .ok (.rowwait 8 2) := by decide +kernel
theorem decode_hem : decodeScalar 0b100110_000000_000_11111_00001000_00_10#32 = .ok (.hemset 31 8 2) := by decide +kernel
theorem decode_handler : decodeScalar 0b100111_000100_00000000_00001000_1111#32 = .ok (.hidput 8 15) := by decide +kernel
/-- A lane word of OP and FN: LA 3, K, VD 2, VA 3, VB 4, VC 5, FMT 6, IMM 9. -/
theorem decode_lane_rows :
    decodeLane 0b00100000_0011_1_0_0_0_00000010_00000011_00000100_00000101_0110_000001_000000_00000000000000000000000000001001#96
      = .ok (.vshfl ⟨3, true, false, false, false, 2, 3, 4, 5, 6, 1, 0, 9⟩)
    ∧ decodeLane 0b00110011_0011_1_0_0_0_00000010_00000011_00000100_00000101_0110_000001_000000_00000000000000000000000000001001#96
      = .ok (.ffma ⟨3, true, false, false, false, 2, 3, 4, 5, 6, 1, 0, 9⟩)
    ∧ decodeLane 0b01100100_0011_1_0_0_0_00000010_00000011_00000100_00000101_0110_000001_000000_00000000000000000000000000001001#96
      = .ok (.jderiv ⟨3, true, false, false, false, 2, 3, 4, 5, 6, 1, 0, 9⟩)
    ∧ decodeLane 0b01101001_0011_1_0_0_0_00000010_00000011_00000100_00000101_0110_000001_000000_00000000000000000000000000001001#96
      = .ok (.l6pack ⟨3, true, false, false, false, 2, 3, 4, 5, 6, 1, 0, 9⟩)
    ∧ decodeLane 0b01110111_0011_1_0_0_0_00000010_00000011_00000100_00000101_0110_000001_000000_00000000000000000000000000001001#96
      = .ok (.vldb ⟨3, true, false, false, false, 2, 3, 4, 5, 6, 1, 0, 9⟩)
    ∧ decodeLane 0b10010000_0011_1_0_0_0_00000010_00000011_00000100_00000101_0110_000001_000000_00000000000000000000000000001001#96
      = .ok (.mma ⟨3, true, false, false, false, 2, 3, 4, 5, 6, 1, 0, 9⟩)
    ∧ decodeLane 0b00101001_0011_1_0_0_0_00000010_00000011_00000100_00000101_0110_000001_000000_00000000000000000000000000001001#96
      = .ok (.vtagSet ⟨3, true, false, false, false, 2, 3, 4, 5, 6, 1, 0, 9⟩) := by
  decide +kernel
theorem decode_valet_atomic : decodeValet 0b00001_1_0_00101_00111_011_01001_0101111#32 = some (.valetAmo 1 true true false 5 7 9) := by decide +kernel
theorem decode_lane_undefined : decodeLane (BitVec.ofNat 96 (0x18 * 2 ^ 88)) = .illegal ∧ decodeLane (BitVec.ofNat 96 (0xF0 * 2 ^ 88)) = .illegal := by
  decide +kernel

/-! ### Single steps -/

/-- What a field of the fibre is after an instruction. -/
def after {α : Type} (o : Host.Outcome State Fault Refusal) (g : Fib → α) : Option α := match o with | .next t => (t.fib? K).map g | _ => none

/-- R264: addition wraps modulo 2^64. -/
theorem test_add_wraps : after (exec (.add 7 8 9) (S (R [(8, 0xFFFF_FFFF_FFFF_FFFF), (9, 2)]))) (·.sreg 7) = some 1 := by decide +kernel
/-- R262: s0 takes no write. -/
theorem test_add_s0 : after (exec (.add 0 8 8) (S (R [(8, 5)]))) (fun f => (f.sreg 0, f.pc)) = some (0, 0x1_0004) := by decide +kernel
/-- R265: mulh takes the high half of the signed product; (−2) × 3 has high half −1. -/
theorem test_mulh_signed : after (exec (.mulh 7 8 9) (S (R [(8, 0xFFFF_FFFF_FFFF_FFFE), (9, 3)]))) (·.sreg 7) = some 0xFFFF_FFFF_FFFF_FFFF := by decide +kernel
/-- R267: sext.8 of 0x80 is −128. -/
theorem test_sext_byte : after (exec (.sext 7 8 0) (S (R [(8, 0x1280)]))) (·.sreg 7) = some 0xFFFF_FFFF_FFFF_FF80 := by decide +kernel
/-- R273: a taken branch goes to its own address and four times the offset. -/
theorem test_branch_back : after (exec (.br 0 0 0x3FFE) (S id)) (·.pc) = some 0xFFF8 := by decide +kernel
/-- R274: call keeps the return address in s5. -/
theorem test_call_link : after (exec (.call 16) (S id)) (fun f => (f.sreg 5, f.pc)) = some (0x1_0004, 0x1_0040) := by decide +kernel
/-- R284: sset of a register that reads back. -/
theorem test_sset_jord : after (exec (.sset 8 7) (S (R [(7, 3)]))) (·.jord) = some 3 := by decide +kernel
/-- R393: a trap with no handler set freezes the fibre. -/
theorem test_trap_freezes : after (exec (.trap 7) (S id)) (·.st) = some FSt.frozen := by decide +kernel
/-- R247: a lane word with no active lane writes nothing, though its fields are not legal. -/
theorem test_lane_masked : after (exec (.vadd ⟨0, true, false, false, false, 8, 9, 10, 255, 15, 63, 0, 1⟩) (LS 0 id)) (fun f => (f.vregs, f.stitches))
    = some ((F id).vregs, []) := by decide +kernel
/-- R264, R212: a lane addition writes the active lanes only, with its format's tag. -/
theorem test_vadd_lanes : (match exec (.vadd { wd 0 0 0 0 with vd := 8, va := 16, vb := 16 }) (LS 1 fun f => { f with vregs := [(16, List.replicate 96 5)] }) with
    | .next t => some ((t.vreg K 8).getD 0 0, (t.vreg K 8).getD 1 0, t.vtag K 8) | _ => none) = some (10, 0, 0) := by decide +kernel
/-- R398: a word of custom-1 outside M-mode takes the illegal-instruction exception. -/
theorem test_custom_user : (match exec (.hxFstat 7 9) (H 0 fun t => { t with mode := 0 }) with | .next t => some (t.hart 0 0).mode | _ => none) = some 3 := by
  decide +kernel
/-- R54: α⁸ = α⁴ + α³ + α² + 1, and the codeword of a row vanishes at α⁰ to α³, coefficient 35 − j first. -/
theorem test_rs_codeword : gfAlpha 8 = 0x1D ∧ ∀ i ∈ [0, 1, 2, 3],
    (codeword ((List.range 32).map fun j => BitVec.ofNat 8 (7 * j + 1))).foldl (fun r x => gfMul r (gfAlpha i) ^^^ x) 0 = 0 := by decide +kernel
/-- R56: two errors are corrected with no bank marked, one more beside two marked banks, and four errors are beyond the code. -/
theorem test_rs_corrects : rsDecode [] (syndromes [(0, 0x5A), (35, 1)]) = some [(0, 0x5A), (35, 1)]
    ∧ rsDecode [3, 9] (syndromes [(3, 2), (9, 4), (20, 8)]) = some [(3, 2), (9, 4), (20, 8)]
    ∧ rsDecode [] (syndromes [(0, 1), (1, 1), (2, 1), (3, 1)]) = none := by decide +kernel
/-- Hart 1 with its floating unit on and 1.5 and −2.25 in f2 and f3. -/
def floating : State := H 1 fun t => { t with csr := tset t.csr 0x300 0x6000, f := (t.f.set 2 0x3FF8_0000_0000_0000).set 3 0xC002_0000_0000_0000 }
/-- R397: fmul.d f1, f2, f3 gives −3.375. -/
theorem test_hart_fmul : (match rvBase 0 1 0b0001001_00011_00010_000_00001_1010011 floating with
    | .next t => some ((t.hart 0 1).f.getD 1 0) | _ => none) = some 0xC00B_0000_0000_0000 := by decide +kernel

end Sys2Proof.Tests
end

section
/-! SUPPORT. What the operations of scalar arithmetic compute, over the integers, the naturals and the positions of bits. -/
namespace Sys2Proof

open Sys2Proof.Machine

/-! ### Sums, products and shifts (R264, R265) -/

theorem add_eq_ofInt_toInt {w : Nat} (a b : BitVec w) : a + b = BitVec.ofInt w (a.toInt + b.toInt) := by
  rw [BitVec.ofInt_add, BitVec.ofInt_toInt, BitVec.ofInt_toInt]

theorem sub_eq_ofInt_toInt {w : Nat} (a b : BitVec w) : a - b = BitVec.ofInt w (a.toInt - b.toInt) := by
  rw [Int.sub_eq_add_neg, BitVec.ofInt_add, BitVec.ofInt_neg, BitVec.ofInt_toInt, BitVec.ofInt_toInt, BitVec.sub_eq_add_neg]

theorem mul_eq_ofInt_toInt {w : Nat} (a b : BitVec w) : a * b = BitVec.ofInt w (a.toInt * b.toInt) := by
  rw [BitVec.ofInt_mul, BitVec.ofInt_toInt, BitVec.ofInt_toInt]

/-- Of naturals the quotient of integers is that of naturals. -/
theorem mulHigh_natCast (x y : Nat) : mulHigh x y = BitVec.ofNat 64 (x * y / 2 ^ 64) := by
  rw [← BitVec.ofInt_natCast]
  push_cast
  rfl

theorem shiftLeft_eq_ofNat {w : Nat} (a : BitVec w) (n : Nat) : a <<< n = BitVec.ofNat w (a.toNat * 2 ^ n) :=
  BitVec.eq_of_toNat_eq (by rw [BitVec.toNat_shiftLeft, BitVec.toNat_ofNat, Nat.shiftLeft_eq])

theorem ushiftRight_eq_ofNat {w : Nat} (a : BitVec w) (n : Nat) : a >>> n = BitVec.ofNat w (a.toNat / 2 ^ n) := by
  rw [← Nat.shiftRight_eq_div_pow, ← BitVec.toNat_ushiftRight, BitVec.ofNat_toNat, BitVec.setWidth_eq]

theorem sshiftRight_eq_ofInt {w : Nat} (a : BitVec w) (n : Nat) : a.sshiftRight n = BitVec.ofInt w (a.toInt / 2 ^ n) := by
  rw [BitVec.sshiftRight, Int.shiftRight_eq_div_pow]
  norm_cast

/-! ### Comparisons (R264, R270) -/

/-- A choice made where x is at most y is the other one exactly where y is below x (R264, min and minn). -/
theorem ite_decide_le {α β : Type} [LinearOrder α] (x y : α) (p q : β) :
    (if decide (x ≤ y) = true then p else q) = if y < x then q else p := by
  by_cases h : y < x
  · rw [if_pos h, if_neg (by simpa using h)]
  · rw [if_neg h, if_pos (by simpa using h)]

/-- Words that their readings do not order are one word, so a tie may name either (R264, max and maxn). -/
theorem ite_decide_le_of_injective {α β : Type} [LinearOrder α] {r : β → α} (hr : r.Injective) (a b : β) :
    (if decide (r a ≤ r b) = true then b else a) = if r a < r b then b else a := by
  simp only [decide_eq_true_eq]
  rcases lt_trichotomy (r a) (r b) with h | h | h
  · rw [if_pos h.le, if_pos h]
  · rw [hr h, ite_self, ite_self]
  · rw [if_neg h.not_ge, if_neg h.not_gt]

theorem toInt_injective {w : Nat} : (BitVec.toInt : BitVec w → Int).Injective := fun _ _ => BitVec.eq_of_toInt_eq

theorem bool64_decide (p : Prop) [Decidable p] : bool64 (decide p) = if p then 1 else 0 := by
  simp only [bool64, decide_eq_true_eq]

/-! ### Widths (R267, R268) -/

/-- Nine bits read without a sign keep their value in 64. -/
theorem ult_setWidth (a : W64) (x : BitVec 9) : a.ult (x.setWidth 64) = decide (a.toNat < x.toNat) := by
  rw [BitVec.ult_eq_decide, BitVec.toNat_setWidth_of_le (by decide)]

theorem slt_signExtend (a : W64) (x : BitVec 9) : a.slt (x.signExtend 64) = decide (a.toInt < x.toInt) := by
  rw [BitVec.slt_eq_decide, BitVec.toInt_signExtend_of_le (by decide)]

/-- A sum with an immediate is the sum of integers. -/
theorem add_signExtend {w n : Nat} (a : BitVec w) (x : BitVec n) : a + x.signExtend w = BitVec.ofInt w (a.toInt + x.toInt) := by
  rw [BitVec.ofInt_add, BitVec.ofInt_toInt]
  rfl

theorem extWidth_le (w : BitVec 2) : extWidth w ≤ 64 :=
  Nat.mul_le_mul_left 8 (Nat.pow_le_pow_right (by decide) (Nat.le_of_lt_succ w.isLt))

/-- The low n bits with their sign: the value modulo 2ⁿ nearest to 0. -/
theorem signExtend_setWidth (a : W64) {n : Nat} (h : n ≤ 64) :
    (a.setWidth n).signExtend 64 = BitVec.ofInt 64 (a.toInt.bmod (2 ^ n)) := by
  rw [← BitVec.signExtend_eq_setWidth_of_le a h, BitVec.signExtend, BitVec.toInt_signExtend, Nat.min_eq_left h]

/-- The low n bits without a sign: the value modulo 2ⁿ. -/
theorem setWidth_setWidth_eq_ofNat (a : W64) (n : Nat) : (a.setWidth n).setWidth 64 = BitVec.ofNat 64 (a.toNat % 2 ^ n) := by
  rw [← BitVec.ofNat_toNat, BitVec.toNat_setWidth]

/-! ### Counts of bits (R267) -/

theorem popCount_eq_length_filter (v : W64) (n : Nat) : popCount v n = ((List.range n).filter fun j => v.getLsbD j).length := by
  induction n with
  | zero => rfl
  | succ n ih =>
    rw [popCount, ih, List.range_succ, List.filter_append, List.length_append, Nat.add_comm, List.filter_singleton]
    cases v.getLsbD n <;> rfl

theorem leadZeros_zero (n : Nat) : leadZeros 0 n = n := by
  induction n with
  | zero => rfl
  | succ n ih => rw [leadZeros, ih, if_neg (by simp), Nat.add_comm]

/-- Of a word that is not 0 and fits in n bits, the zeros above its highest 1 bit. -/
theorem leadZeros_eq_sub_log2 {v : W64} (hv : v.toNat ≠ 0) {n : Nat} (h : v.toNat < 2 ^ n) :
    leadZeros v n = n - 1 - v.toNat.log2 := by
  induction n with
  | zero => omega
  | succ n ih =>
    rw [leadZeros]
    by_cases hn : 2 ^ n ≤ v.toNat
    · have hlog : v.toNat.log2 = n := (Nat.log2_eq_iff hv).2 ⟨hn, h⟩
      have hbit : v.getLsbD n = true := by rw [BitVec.getLsbD, ← hlog, Nat.testBit_log2 hv]
      rw [if_pos hbit, hlog]
      omega
    · have hlog : v.toNat.log2 < n := (Nat.log2_lt hv).2 (Nat.lt_of_not_le hn)
      have hbit : ¬ v.getLsbD n = true := by
        rw [BitVec.getLsbD, Nat.testBit_lt_two_pow (Nat.lt_of_not_le hn)]; exact Bool.false_ne_true
      rw [if_neg hbit, ih (Nat.lt_of_not_le hn)]
      omega

/-- The leading zeros of a word. -/
theorem ofNat_leadZeros (v : W64) :
    BitVec.ofNat 64 (leadZeros v 64) = if v = 0 then 64 else BitVec.ofNat 64 (63 - v.toNat.log2) := by
  by_cases hv : v = 0
  · rw [if_pos hv, hv, leadZeros_zero]; rfl
  · have hn : v.toNat ≠ 0 := fun h => hv (BitVec.eq_of_toNat_eq h)
    rw [if_neg hv, leadZeros_eq_sub_log2 hn v.isLt]

/-- The zeros from bit 64 − n up are the position of the first 1 bit from there. -/
theorem trailZeros_eq_findIdx (v : W64) {n : Nat} (h : n ≤ 64) :
    trailZeros v n = (List.range n).findIdx fun j => v.getLsbD (64 - n + j) := by
  induction n with
  | zero => rfl
  | succ n ih =>
    have hshift : ((fun j => v.getLsbD (64 - (n + 1) + j)) ∘ Nat.succ) = fun j => v.getLsbD (64 - n + j) := by
      funext j
      have : 64 - (n + 1) + j.succ = 64 - n + j := by omega
      simp only [Function.comp_apply, this]
    have hbit : 63 - n = 64 - (n + 1) + 0 := by omega
    rw [trailZeros, ih (by omega), List.range_succ_eq_map, List.findIdx_cons, List.findIdx_map, hshift, hbit]
    cases v.getLsbD (64 - (n + 1) + 0)
    · exact Nat.add_comm ..
    · rfl

/-- The trailing zeros of a word are the position of its first 1 bit. -/
theorem ofNat_trailZeros (v : W64) :
    BitVec.ofNat 64 (trailZeros v 64) = BitVec.ofNat 64 ((List.range 64).findIdx fun j => v.getLsbD j) := by
  simp only [trailZeros_eq_findIdx v le_rfl, Nat.sub_self, Nat.zero_add]

/-! ### Quotients and remainders (R266) -/

/-- The signed quotient and what it leaves, over the integers; the quotient that overflows is taken modulo 2⁶⁴. -/
theorem divSigned_eq (a b : W64) :
    divSigned a b = if b = 0 then (BitVec.allOnes 64, a)
      else (BitVec.ofInt 64 (a.toInt.tdiv b.toInt), BitVec.ofInt 64 (a.toInt - a.toInt.tdiv b.toInt * b.toInt)) := by
  unfold divSigned
  split
  · rfl
  · split
    next h =>
      obtain ⟨ha, hb⟩ : a = BitVec.intMin 64 ∧ b = BitVec.allOnes 64 := by simpa using h
      subst ha hb; rfl
    · rw [Int.tmod_def, Int.mul_comm]

theorem divSigned_fst (a b : W64) :
    (divSigned a b).1 = if b = 0 then BitVec.allOnes 64 else BitVec.ofInt 64 (a.toInt.tdiv b.toInt) := by
  rw [divSigned_eq, apply_ite Prod.fst]

theorem divSigned_snd (a b : W64) :
    (divSigned a b).2 = if b = 0 then a else BitVec.ofInt 64 (a.toInt - a.toInt.tdiv b.toInt * b.toInt) := by
  rw [divSigned_eq, apply_ite Prod.snd]

theorem divUnsigned_fst (a b : W64) :
    (divUnsigned a b).1 = if b = 0 then BitVec.allOnes 64 else BitVec.ofNat 64 (a.toNat / b.toNat) := by
  rw [divUnsigned, apply_ite Prod.fst]

theorem divUnsigned_snd (a b : W64) :
    (divUnsigned a b).2 = if b = 0 then a else BitVec.ofNat 64 (a.toNat % b.toNat) := by
  rw [divUnsigned, apply_ite Prod.snd]

end Sys2Proof
end

section
/-! SUPPORT. Scalar words that complete under their turn: arithmetic writes its result, and a division leaves its
result pending until its completion. -/
namespace Sys2Proof

open Sys2Proof.Machine

/-- A two-operand word whose operation has this value writes it. -/
theorem exec_of_alu2 {i : Instr} {d a b : BitVec 8} {op : W64 → W64 → W64} {s : State} {k : FKey} {f : Fib} {v : W64}
    (hi : exec i s = alu2 d a b op s) (hv : op (f.sreg a.toNat) (f.sreg b.toNat) = v)
    (h : ScalarTurn s k f [a.toNat, b.toNat] [d.toNat]) :
    exec i s = .next (s.setFib k (f.after (f.wr d v) (f.pc + 4))) := by
  rw [hi, alu2_turn h, hv]

/-- A one-operand word whose operation has this value writes it. -/
theorem exec_of_alu1 {i : Instr} {d a : BitVec 8} {op : W64 → W64} {s : State} {k : FKey} {f : Fib} {v : W64}
    (hi : exec i s = alu1 d a op s) (hv : op (f.sreg a.toNat) = v) (h : ScalarTurn s k f [a.toNat] [d.toNat]) :
    exec i s = .next (s.setFib k (f.after (f.wr d v) (f.pc + 4))) := by
  rw [hi, alu1_turn h, hv]

/-- A division retires with its result pending (R263). -/
theorem exec_of_divWord {i : Instr} {d a b : BitVec 8} {op : W64 → W64 → W64} {s : State} {k : FKey} {f : Fib} {v : W64}
    (hi : exec i s = divWord d a b op s) (hv : op (f.sreg a.toNat) (f.sreg b.toNat) = v)
    (h : ScalarTurn s k f [a.toNat, b.toNat] [d.toNat]) :
    exec i s = .next (s.setFib k { f.after f.regs (f.pc + 4) with div := some (d.toNat, v) }) := by
  rw [hi, divWord, scalarWord_turn h, onFib_some h.fib, hv]
  rfl

/-- li writes its immediate with its sign (R271). -/
theorem exec_li {d : BitVec 8} {s : State} {k : FKey} {f : Fib} (h : ScalarTurn s k f [] [d.toNat]) (x : BitVec 18) :
    exec (.li d x) s = .next (s.setFib k (f.after (f.wr d (BitVec.ofInt 64 x.toInt)) (f.pc + 4))) := by
  have hi : exec (.li d x) s = execLi d x s := rfl
  rw [hi, execLi, scalarWord_turn h, doneSreg_some h.fib]
  rfl

/-- A fibre with a register written holds the file that `wr` gives. -/
theorem setSreg_eq_wr (f : Fib) (d : BitVec 8) (v : W64) : f.setSreg d.toNat v = { f with regs := f.wr d v } := by
  by_cases h : d = 0
  · subst h; rfl
  · have h' : d.toNat ≠ 0 := fun hd => h (BitVec.eq_of_toNat_eq hd)
    rw [Fib.setSreg, if_neg h', Fib.wr, if_neg h]

/-- While a division is pending no scalar word of the fibre issues (R263). -/
theorem interlock_of_div {s : State} {k : FKey} {f : Fib} {e : Nat × W64} (h : f.div = some e) (regs : List Nat) :
    interlock s k f regs = some 17 := by
  rw [interlock, h, Option.isSome_some, if_pos rfl]

/-- SCALAR_DIVIDE_COMPLETE writes what is pending (R263). -/
theorem exec_scalarDivideComplete {s : State} {k : FKey} {f : Fib} {d : BitVec 8} {v : W64} (hf : s.fib? k = some f)
    (hd : f.div = some (d.toNat, v)) :
    exec (.scalarDivideComplete k) s = .next (s.setFib k { f with regs := f.wr d v, div := none }) := by
  have hi : exec (.scalarDivideComplete k) s = execScalarDivideComplete k s := rfl
  simp only [hi, execScalarDivideComplete, hf, hd, setSreg_eq_wr]

end Sys2Proof
end

section
/-! PROOFS. Scalar arithmetic (R264 to R271). -/
namespace Sys2Proof

open Sys2Proof.Machine

/-- Settles O2: each word's operation has the value of its rule, and under its turn a word writes the value of its operation. -/
theorem scalarArithmetic : Obligations.ScalarArithmetic := by
  unfold Obligations.ScalarArithmetic
  simp only [List.forall_mem_cons, List.not_mem_nil, false_implies, implies_true, and_true]
  refine ⟨⟨?add, ?sub, ?and, ?or, ?xor, ?andn, ?shl, ?shr, ?sar, ?min, ?max, ?minn, ?maxn, ?slt, ?sltn, ?seq,
      ?mul, ?mulh, ?mulhn⟩,
    ⟨⟨?popc, ?clz, ?ctz⟩, ?extend, ⟨?addi, ?andi, ?ori, ?xori⟩, ⟨?shli, ?shri, ?sari⟩, ?compare, ?li⟩,
    ⟨?div, ?divn, ?rem, ?remn⟩, ?complete⟩
  case add => exact fun _ _ _ _ _ _ => exec_of_alu2 (op := fun a b => a + b) rfl (add_eq_ofInt_toInt ..)
  case sub => exact fun _ _ _ _ _ _ => exec_of_alu2 (op := fun a b => a - b) rfl (sub_eq_ofInt_toInt ..)
  case and => exact fun _ _ _ _ _ _ => exec_of_alu2 (op := fun a b => a &&& b) rfl rfl
  case or => exact fun _ _ _ _ _ _ => exec_of_alu2 (op := fun a b => a ||| b) rfl rfl
  case xor => exact fun _ _ _ _ _ _ => exec_of_alu2 (op := fun a b => a ^^^ b) rfl rfl
  case andn => exact fun _ _ _ _ _ _ => exec_of_alu2 (op := fun a b => a &&& ~~~b) rfl rfl
  case shl => exact fun _ _ _ _ _ _ => exec_of_alu2 (op := fun a b => a <<< (b.toNat % 64)) rfl (shiftLeft_eq_ofNat ..)
  case shr => exact fun _ _ _ _ _ _ => exec_of_alu2 (op := fun a b => a >>> (b.toNat % 64)) rfl (ushiftRight_eq_ofNat ..)
  case sar => exact fun _ _ _ _ _ _ => exec_of_alu2 (op := fun a b => a.sshiftRight (b.toNat % 64)) rfl (sshiftRight_eq_ofInt ..)
  case min => exact fun _ _ _ _ _ _ => exec_of_alu2 (op := fun a b => if a.sle b then a else b) rfl (ite_decide_le ..)
  case max =>
    exact fun _ _ _ _ _ _ => exec_of_alu2 (op := fun a b => if a.sle b then b else a) rfl
      (ite_decide_le_of_injective toInt_injective ..)
  case minn => exact fun _ _ _ _ _ _ => exec_of_alu2 (op := fun a b => if a.ule b then a else b) rfl (ite_decide_le ..)
  case maxn =>
    exact fun _ _ _ _ _ _ => exec_of_alu2 (op := fun a b => if a.ule b then b else a) rfl
      (ite_decide_le_of_injective BitVec.toNat_injective ..)
  case slt => exact fun _ _ _ _ _ _ => exec_of_alu2 (op := fun a b => bool64 (a.slt b)) rfl (bool64_decide _)
  case sltn => exact fun _ _ _ _ _ _ => exec_of_alu2 (op := fun a b => bool64 (a.ult b)) rfl (bool64_decide _)
  case seq => exact fun _ _ _ _ _ _ => exec_of_alu2 (op := fun a b => bool64 (a == b)) rfl (bool64_decide _)
  case mul => exact fun _ _ _ _ _ _ => exec_of_alu2 (op := fun a b => a * b) rfl (mul_eq_ofInt_toInt ..)
  case mulh => exact fun _ _ _ _ _ _ => exec_of_alu2 (op := fun a b => mulHigh a.toInt b.toInt) rfl rfl
  case mulhn => exact fun _ _ _ _ _ _ => exec_of_alu2 (op := fun a b => mulHigh a.toNat b.toNat) rfl (mulHigh_natCast ..)
  case popc =>
    exact fun _ _ _ _ _ => exec_of_alu1 (op := fun a => BitVec.ofNat 64 (popCount a 64)) rfl
      (congrArg _ (popCount_eq_length_filter ..))
  case clz => exact fun _ _ _ _ _ => exec_of_alu1 (op := fun a => BitVec.ofNat 64 (leadZeros a 64)) rfl (ofNat_leadZeros _)
  case ctz => exact fun _ _ _ _ _ => exec_of_alu1 (op := fun a => BitVec.ofNat 64 (trailZeros a 64)) rfl (ofNat_trailZeros _)
  case extend =>
    exact fun _ _ w _ _ _ h _ =>
      ⟨exec_of_alu1 (op := fun a => (a.setWidth (extWidth w)).signExtend 64) rfl (signExtend_setWidth _ (extWidth_le w)) h,
        exec_of_alu1 (op := fun a => (a.setWidth (extWidth w)).setWidth 64) rfl (setWidth_setWidth_eq_ofNat ..) h⟩
  case addi => exact fun _ _ x _ _ _ => exec_of_alu1 (op := fun a => a + x.signExtend 64) rfl (add_signExtend ..)
  case andi => exact fun _ _ x _ _ _ => exec_of_alu1 (op := fun a => a &&& x.signExtend 64) rfl rfl
  case ori => exact fun _ _ x _ _ _ => exec_of_alu1 (op := fun a => a ||| x.signExtend 64) rfl rfl
  case xori => exact fun _ _ x _ _ _ => exec_of_alu1 (op := fun a => a ^^^ x.signExtend 64) rfl rfl
  case shli => exact fun _ _ n _ _ _ => exec_of_alu1 (op := fun a => a <<< n.toNat) rfl (shiftLeft_eq_ofNat ..)
  case shri => exact fun _ _ n _ _ _ => exec_of_alu1 (op := fun a => a >>> n.toNat) rfl (ushiftRight_eq_ofNat ..)
  case sari => exact fun _ _ n _ _ _ => exec_of_alu1 (op := fun a => a.sshiftRight n.toNat) rfl (sshiftRight_eq_ofInt ..)
  case compare =>
    exact fun _ _ x _ _ _ h =>
      ⟨exec_of_alu1 (op := fun a => bool64 (a.slt (x.signExtend 64))) rfl (by rw [slt_signExtend, bool64_decide]) h,
        exec_of_alu1 (op := fun a => bool64 (a.ult (x.setWidth 64))) rfl (by rw [ult_setWidth, bool64_decide]) h⟩
  case li => exact fun _ x _ _ _ h => exec_li h x
  case div => exact fun _ _ _ _ _ _ => exec_of_divWord (op := fun a b => (divSigned a b).1) rfl (divSigned_fst ..)
  case divn => exact fun _ _ _ _ _ _ => exec_of_divWord (op := fun a b => (divUnsigned a b).1) rfl (divUnsigned_fst ..)
  case rem => exact fun _ _ _ _ _ _ => exec_of_divWord (op := fun a b => (divSigned a b).2) rfl (divSigned_snd ..)
  case remn => exact fun _ _ _ _ _ _ => exec_of_divWord (op := fun a b => (divUnsigned a b).2) rfl (divUnsigned_snd ..)
  case complete => exact fun _ _ _ _ _ hf hd => ⟨interlock_of_div hd, exec_scalarDivideComplete hf hd⟩

end Sys2Proof
end

section
/-! SUPPORT. Scalar words that transfer control, under their turn (R273 to R276). -/
namespace Sys2Proof

open Sys2Proof.Machine

/-- A word offset is four times its value with its sign (R237). -/
theorem wordOffset_eq_ofInt {n : Nat} (o : BitVec n) : wordOffset o = BitVec.ofInt 64 (4 * o.toInt) := by
  rw [wordOffset, BitVec.shiftLeft_eq_mul_twoPow, Int.mul_comm, BitVec.ofInt_mul]
  rfl

/-- A transfer leaves the fibre as `jumped`. -/
theorem jump_eq_jumped (f : Fib) (pc : W64) : f.jump pc = f.jumped f.regs pc := rfl

/-- A call's transfer leaves the address of the next word in s5. -/
theorem setSreg_five_jump (f : Fib) (v pc : W64) : (f.setSreg 5 v).jump pc = f.jumped (f.regs.set 5 v) pc := rfl

/-- A transfer with no other effect. -/
theorem doneJump_some {s : State} {k : FKey} {f : Fib} (h : s.fib? k = some f) (pc : W64) :
    doneJump k pc s = .next (s.setFib k (f.jumped f.regs pc)) := by
  rw [doneJump, onFib_some h, jump_eq_jumped]

/-- The two low bits of a word are its remainder by 4. -/
theorem extractLsb'_two_eq_zero (v : W64) : v.extractLsb' 0 2 = 0 ↔ v.toNat % 4 = 0 := by
  rw [← BitVec.toNat_inj, BitVec.extractLsb'_toNat, Nat.shiftRight_zero]
  rfl

/-- A transfer to a register's value: to a multiple of 4 with its packet and, for callr, its link; elsewhere ALIGN (R275). -/
theorem jumpTo_some {s : State} {k : FKey} {f : Fib} (h : s.fib? k = some f) (v : W64) (link : Bool) :
    jumpTo k f v link s = if v.toNat % 4 = 0 then
        .next ((trace k ([0x40, BitVec.ofNat 8 (handleOf k)] ++ leBytes v.toNat 8) s).setFib k
          (f.jumped (if link then f.regs.set 5 (f.pc + 4) else f.regs) v))
      else .next (takeStop k 7 { addr := v } f.pc s) := by
  unfold jumpTo
  by_cases hv : v.toNat % 4 = 0
  · rw [if_pos hv, if_neg (not_not.2 ((extractLsb'_two_eq_zero v).2 hv))]
    have ht := (fib_trace k k ([b8 0x40, b8 (handleOf k)] ++ leBytes v.toNat 8) s).trans h
    cases link <;> exact congrArg _ (onFib_some ht _)
  · rw [if_neg hv, if_pos (fun h0 => hv ((extractLsb'_two_eq_zero v).1 h0)), trapScalar, h]
    rfl

theorem exec_jmp {s : State} {k : FKey} {f : Fib} (h : ScalarTurn s k f [] []) (o : BitVec 26) :
    exec (.jmp o) s = .next (s.setFib k (f.jumped f.regs (f.pc + BitVec.ofInt 64 (4 * o.toInt)))) := by
  have hi : exec (.jmp o) s = execJmp o s := rfl
  rw [hi, execJmp, scalarWord_turn h, doneJump_some h.fib, wordOffset_eq_ofInt]

theorem exec_call {s : State} {k : FKey} {f : Fib} (h : ScalarTurn s k f [] [5]) (o : BitVec 26) :
    exec (.call o) s = .next (s.setFib k (f.jumped (f.regs.set 5 (f.pc + 4)) (f.pc + BitVec.ofInt 64 (4 * o.toInt)))) := by
  have hi : exec (.call o) s = execCall o s := rfl
  rw [hi, execCall, scalarWord_turn h, onFib_some h.fib, setSreg_five_jump, wordOffset_eq_ofInt]

theorem exec_jr {s : State} {k : FKey} {f : Fib} {a : BitVec 8} (h : ScalarTurn s k f [a.toNat] []) :
    exec (.jr a) s = jumpTo k f (f.sreg a.toNat) false s :=
  scalarWord_turn h fun k f => jumpTo k f (f.sreg a.toNat) false s

theorem exec_callr {s : State} {k : FKey} {f : Fib} {a : BitVec 8} (h : ScalarTurn s k f [a.toNat] [5]) :
    exec (.callr a) s = jumpTo k f (f.sreg a.toNat) true s :=
  scalarWord_turn h fun k f => jumpTo k f (f.sreg a.toNat) true s

theorem exec_ret {s : State} {k : FKey} {f : Fib} (h : ScalarTurn s k f [5] []) :
    exec .ret s = jumpTo k f (f.sreg 5) false s :=
  scalarWord_turn h fun k f => jumpTo k f (f.sreg 5) false s

/-- The conditions of br by their code (R240), over the integer in S[a] and the mask. -/
def brHolds (c : Nat) (v : Int) (m : Mask) : Bool :=
  match c with
  | 0 => v = 0 | 1 => v ≠ 0 | 2 => v < 0 | 3 => 0 ≤ v | 4 => 0 < v | 5 => v ≤ 0
  | 6 => m ≠ 0 | 7 => m = 0 | _ => m = BitVec.allOnes 96

theorem beq_zero_eq_decide_toInt (v : W64) : (v == 0) = decide (v.toInt = 0) :=
  decide_eq_decide.2 BitVec.toInt_inj.symm

/-- The condition that br tests is the one its code names. -/
theorem brTaken_eq_brHolds (c : BitVec 4) (v : W64) (m : Mask) : brTaken c v m = brHolds c.toNat v.toInt m := by
  unfold brTaken
  match c.toNat with
  | 0 => exact beq_zero_eq_decide_toInt v
  | 1 => exact (congrArg _ (beq_zero_eq_decide_toInt v)).trans decide_not.symm
  | 2 | 3 | 4 | 5 => rfl
  | 6 => exact decide_not.symm
  | 7 => rfl
  | _ + 8 => rfl

/-- br leaves its packet, and goes to its target or on, as its condition says (R273, R456). -/
theorem exec_br {a : BitVec 8} {c : BitVec 4} {s : State} {k : FKey} {f : Fib}
    (h : ScalarTurn s k f (if c.toNat < 6 then [a.toNat] else [1, 2, 3]) []) (o : BitVec 14) {taken : Bool}
    (ht : brHolds c.toNat (f.sreg a.toNat).toInt f.mask = taken) :
    exec (.br a c o) s = .next ((trace k [if taken then 0x31 else 0x30, BitVec.ofNat 8 (handleOf k)] s).setFib k
      (if taken then f.jumped f.regs (f.pc + BitVec.ofInt 64 (4 * o.toInt)) else f.after f.regs (f.pc + 4))) := by
  have hi : exec (.br a c o) s = execBr a c o s := rfl
  have hf (p : List W8) : (trace k p s).fib? k = some f := (fib_trace k k p s).trans h.fib
  rw [hi, execBr, scalarWord_turn h, brTaken_eq_brHolds, ht]
  cases taken
  · exact done_some (hf _)
  · exact (doneJump_some (hf _) _).trans (by rw [wordOffset_eq_ofInt]; rfl)

end Sys2Proof
end

section
/-! PROOFS. Control transfer (R273 to R275). -/
namespace Sys2Proof

open Sys2Proof.Machine

/-- Settles O3: a branch by the condition of its code, a jump by its offset, a register jump by whether its target is aligned. -/
theorem controlTransfer : Obligations.ControlTransfer := by
  unfold Obligations.ControlTransfer
  refine ⟨⟨?br, ?jmp, ?call⟩, fun a s k f => ⟨?jr, ?callr, ?ret⟩⟩
  case br => exact fun _ _ o _ _ _ h _ => exec_br h o rfl
  case jmp => exact fun o _ _ _ h => exec_jmp h o
  case call => exact fun o _ _ _ h => exec_call h o
  case jr => exact fun h => (exec_jr h).trans (jumpTo_some h.fib _ false)
  case callr => exact fun h => (exec_callr h).trans (jumpTo_some h.fib _ true)
  case ret => exact fun h => (exec_ret h).trans (jumpTo_some h.fib _ false)

end Sys2Proof
end

section
/-! SUPPORT. The operations of a home, the ends of grants and the end of a gang touch no fibre and no block. -/
namespace Sys2Proof

open Sys2Proof.Machine

/-- The resident fibres and the blocks they belong to. -/
def Machine.State.residents (s : State) : List (FKey × Fib) × List ((Nat × Nat) × Block) := (s.fibs, s.blocks)

/-- What a fold of updates leaves alone is what each of them leaves alone. -/
theorem residents_foldl {α : Type} {g : State → α → State} (hg : ∀ s a, (g s a).residents = s.residents) (l : List α) (s : State) :
    (l.foldl g s).residents = s.residents := by
  induction l generalizing s with
  | nil => rfl
  | cons a l ih => exact (ih _).trans (hg s a)

/-! ### The home (R111, R115) -/

@[simp] theorem residents_send (m : Msg) (s : State) : (send m s).residents = s.residents := rfl

@[simp] theorem residents_rewriteRow (line : Nat) (s : State) : (rewriteRow line s).residents = s.residents := by
  unfold rewriteRow
  split
  · dsimp only; split <;> rfl
  · rfl

@[simp] theorem residents_setHomeWord (line i : Nat) (v : W32) (p : Bool) (s : State) :
    (setHomeWord line i v p s).residents = s.residents := residents_rewriteRow line _

@[simp] theorem residents_setOwners (line : Nat) (mask : W32) (o : Option Node) (s : State) :
    (setOwners line mask o s).residents = s.residents :=
  residents_foldl (fun _ _ => by cases o <;> rfl) _ s

@[simp] theorem residents_homeMerge (line : Nat) (bm : BitVec 128) (data : List W32) (s : State) :
    (homeMerge line bm data s).residents = s.residents :=
  residents_foldl (fun _ _ => residents_setHomeWord ..) _ s

@[simp] theorem residents_logOrder (d kd c h n : Nat) (a v : W64) (s : State) :
    (logOrder d kd c h n a v s).residents = s.residents := by
  unfold logOrder; dsimp only; split <;> rfl

@[simp] theorem residents_useHome (d : Nat) (m : Msg) (s : State) : (useHome d m s).residents = s.residents := by
  unfold useHome
  split
  · split <;> rfl
  · rfl

@[simp] theorem residents_logHome (m : Msg) (s : State) : (logHome m s).residents = s.residents := by
  unfold logHome
  split
  · rfl
  · split
    · split <;> simp
    · split
      · split
        · rfl
        · simp only [apply_ite State.residents, residents_foldl fun _ _ => residents_logOrder .., residents_logOrder, ite_self]
      · rfl
      · rfl
      · simp

@[simp] theorem residents_homeEvent (m : Msg) (verdict : Nat) (raced : W32) (s : State) :
    (homeEvent m verdict raced s).residents = s.residents := by
  have hs := residents_logHome m s
  unfold homeEvent
  dsimp only
  split
  · exact (residents_setOwners ..).trans hs
  · exact (residents_setOwners ..).trans hs
  · exact (residents_homeMerge ..).trans hs
  · exact hs
  · exact hs

@[simp] theorem residents_askOwners (m : Msg) (l : List (Node × W32)) (s : State) : (askOwners m l s).residents = s.residents :=
  residents_foldl (fun _ _ => residents_send ..) l _

@[simp] theorem residents_serveHome (m : Msg) (s : State) : (serveHome m s).residents = s.residents := by
  unfold serveHome
  dsimp only
  split
  · split <;> simp
  · split <;> simp
  · split
    · simp
    · split <;> simp
  · split
    · simp
    · split <;> simp
    · simp
  · rw [residents_send, residents_foldl fun _ _ => residents_setOwners .., residents_foldl fun _ _ => residents_setHomeWord ..]
  · rfl

@[simp] theorem residents_pumpHome (q : List Msg) (line : Nat) (blocked : W32) (s : State) :
    (pumpHome q line blocked s).residents = s.residents := by
  induction q generalizing blocked s with
  | nil => rfl
  | cons m r ih =>
    have hserve : (serveHome m { s with homeQ := s.homeQ.erase m }).residents = s.residents := residents_serveHome ..
    simp only [pumpHome, apply_ite State.residents, ih, hserve, ite_self]

@[simp] theorem residents_touchSlice (line : Nat) (s : State) : (touchSlice line s).residents = s.residents := by
  unfold touchSlice; split <;> rfl

@[simp] theorem residents_runHome (line : Nat) (s : State) : (runHome line s).residents = s.residents := by
  unfold runHome
  dsimp only
  split
  · simp
  · have hs := residents_foldl (g := fun (s : State) m => serveHome m { s with homeQ := s.homeQ.erase m })
      (fun _ _ => residents_serveHome ..) (s.homeQ.filter fun m => m.line = line && s.refusedHwr m) s
    split
    · exact hs
    · exact hs

/-! ### The ends of grants and of a gang (R88, R210) -/

@[simp] theorem residents_endGrantsOf (p : RowGrant → Bool) (c : Nat) (s : State) : (endGrantsOf p c s).residents = s.residents := by
  refine residents_foldl (fun s e => ?_) _ s
  exact (residents_foldl (fun _ _ => residents_runHome ..) _ _).trans rfl

@[simp] theorem residents_endIdleGrants (c : Nat) (f : Fib) (s : State) : (endIdleGrants c f s).residents = s.residents := by
  unfold endIdleGrants; split <;> simp

@[simp] theorem residents_clearForwards (d : Nat) (s : State) : (clearForwards d s).residents = s.residents := by
  unfold clearForwards; dsimp only; split <;> rfl

@[simp] theorem residents_gangExit (g : GKey) (s : State) : (gangExit g s).residents = s.residents := by
  unfold gangExit
  split
  · rfl
  · split
    · rfl
    · rw [residents_clearForwards, residents_foldl (g := fun s c => releaseCut c s) fun _ _ => rfl]
      rfl

end Sys2Proof
end

section
/-! SUPPORT. A fibre that has exited (R507): its entry, its crews and its in-service slots, and that barriers it lets complete
keep them so. -/
namespace Sys2Proof

open Sys2Proof.Machine

/-! ### Tables -/

/-- An entry of a table after an update is the new one or an old one. -/
theorem mem_tset {κ α : Type} [DecidableEq κ] {t : List (κ × α)} {k : κ} {v : α} {e : κ × α} (h : e ∈ tset t k v) :
    e = (k, v) ∨ e ∈ t := by
  induction t with
  | nil => exact .inl (List.mem_singleton.1 h)
  | cons x r ih =>
    obtain ⟨k', v'⟩ := x
    unfold tset at h
    split at h
    · exact (List.mem_cons.1 h).imp_right (List.mem_cons_of_mem _)
    · rcases List.mem_cons.1 h with rfl | h
      · exact .inr List.mem_cons_self
      · exact (ih h).imp_right (List.mem_cons_of_mem _)

/-- What a table answers is an entry of it or the default. -/
theorem tget_mem_or_eq {κ α : Type} [DecidableEq κ] (t : List (κ × α)) (k : κ) (d : α) : (k, tget t k d) ∈ t ∨ tget t k d = d := by
  induction t with
  | nil => exact .inr rfl
  | cons x r ih =>
    obtain ⟨k', v'⟩ := x
    unfold tget
    split
    · rename_i hk
      exact .inl (hk ▸ List.mem_cons_self)
    · exact ih.imp_left (List.mem_cons_of_mem _)

/-- Fibre number n stands in no list of members of a table. -/
def InNone (n : Nat) (t : List (Nat × List Nat)) : Prop := ∀ e ∈ t, n ∉ e.2

theorem InNone.tget {n : Nat} {t : List (Nat × List Nat)} (h : InNone n t) (c : Nat) : n ∉ tget t c [] := by
  rcases tget_mem_or_eq t c [] with hm | he
  · exact h _ hm
  · simp [he]

theorem InNone.tset {n : Nat} {t : List (Nat × List Nat)} (h : InNone n t) (c : Nat) {l : List Nat} (hl : n ∉ l) :
    InNone n (tset t c l) := fun e he => by
  rcases mem_tset he with rfl | he
  · exact hl
  · exact h e he

theorem InNone.tdel {n : Nat} {t : List (Nat × List Nat)} (h : InNone n t) (c : Nat) : InNone n (tdel t c) :=
  fun e he => h e (List.mem_of_mem_filter he)

theorem inNone_map_filter (n : Nat) (t : List (Nat × List Nat)) : InNone n (t.map fun e => (e.1, e.2.filter (· ≠ n))) := by
  intro e he
  obtain ⟨x, -, rfl⟩ := List.mem_map.1 he
  simp

/-! ### The state after an exit -/

/-- Fibre k, whose identity in its block is that of f, has exited: it holds no extension block, is a member of no crew, joins none
later, and has no item in service. -/
structure HasExited (k : FKey) (f : Fib) (s : State) : Prop where
  fib : ∃ g, s.fib? k = some g ∧ g.st = .exited ∧ g.ext = false
  crews : InNone f.fid (s.block f.dom f.bid).crews
  late : InNone f.fid (s.block f.dom f.bid).late
  insv : ∀ e ∈ (s.block f.dom f.bid).insv, e.1 ≠ f.fid

theorem HasExited.of_residents {k : FKey} {f : Fib} {s t : State} (h : HasExited k f s) (e : t.residents = s.residents) :
    HasExited k f t := by
  obtain ⟨hf, hb⟩ := Prod.mk.inj e
  have hblock : t.block f.dom f.bid = s.block f.dom f.bid := by rw [State.block, hb, State.block]
  obtain ⟨fib, crews, late, insv⟩ := h
  exact ⟨fib_congr hf k ▸ fib, hblock ▸ crews, hblock ▸ late, hblock ▸ insv⟩

theorem HasExited.foldl {α : Type} {k : FKey} {f : Fib} {g : State → α → State} (hg : ∀ s a, HasExited k f s → HasExited k f (g s a))
    (l : List α) {s : State} (h : HasExited k f s) : HasExited k f (l.foldl g s) := by
  induction l generalizing s with
  | nil => exact h
  | cons a l ih => exact ih (hg s a h)

/-- An update of any fibre that revives none and gives out no extension block. -/
theorem HasExited.onFib {k j : FKey} {f : Fib} {g : Fib → Fib} {s : State} (h : HasExited k f s)
    (hst : ∀ x, x.st = .exited → (g x).st = .exited) (hext : ∀ x, (g x).ext = x.ext) : HasExited k f (s.onFib j g) := by
  obtain ⟨⟨x, hx, hxst, hxext⟩, crews, late, insv⟩ := h
  have hblock : (s.onFib j g).block f.dom f.bid = s.block f.dom f.bid := by rw [State.block, onFib_blocks, State.block]
  refine ⟨?_, hblock ▸ crews, hblock ▸ late, hblock ▸ insv⟩
  by_cases hj : k = j
  · subst hj
    exact ⟨g x, by rw [onFib_some hx, fib_setFib_self], hst x hxst, (hext x).trans hxext⟩
  · exact ⟨x, ((apart_onFib j g s).fibs k hj).trans hx, hxst, hxext⟩

/-- A departure from a barrier revives no fibre. -/
theorem HasExited.depart {k j : FKey} {f : Fib} {s : State} (h : HasExited k f s) (mark : Nat) (rinses : Bool) :
    HasExited k f (depart j mark rinses s) := by
  unfold Machine.depart
  dsimp only
  refine HasExited.onFib ?_ (fun x hx => ?_) fun _ => rfl
  · split <;> exact h.of_residents rfl
  · simp [hx]

/-- Those who join a crew late are others. -/
theorem HasExited.joinLate {k : FKey} {f : Fib} {s : State} (h : HasExited k f s) (c : Nat) :
    HasExited k f (joinLate f.dom f.bid c s) := by
  unfold Machine.joinLate
  dsimp only
  split
  · exact h
  · obtain ⟨fib, crews, late, insv⟩ := h
    have hmem : f.fid ∉ tget (s.block f.dom f.bid).crews c [] ++ tget (s.block f.dom f.bid).late c [] :=
      List.not_mem_append (crews.tget c) (late.tget c)
    exact ⟨fib, by simpa using crews.tset c hmem, by simpa using late.tdel c, by simpa using insv⟩

/-- A barrier that completes, or waits on, leaves an exited fibre so (R201). -/
theorem HasExited.tryBarrier {k : FKey} {f : Fib} {s : State} (h : HasExited k f s) (w : Wait) : HasExited k f (tryBarrier f w s) := by
  unfold Machine.tryBarrier
  dsimp only
  split
  · have hd (l : List (FKey × Fib)) (r : Bool) : HasExited k f (l.foldl (fun s e => Machine.depart e.1 e.2.mark r s) s) :=
      h.foldl (fun _ _ h => h.depart ..) l
    split
    · exact (hd ..).joinLate _
    · exact hd ..
  · exact h

theorem HasExited.barriersAfterExit {k : FKey} {f : Fib} {s : State} (h : HasExited k f s) :
    HasExited k f (barriersAfterExit f s) :=
  HasExited.foldl (fun s w h => by split; exacts [h, h.tryBarrier w]) _ h

end Sys2Proof
end

section
/-! SUPPORT. Scalar words of handlers, and the words a handler forbids, under their turn (R283, R287, R395, R507). -/
namespace Sys2Proof

open Sys2Proof.Machine

/-- A scalar word of a resident fibre that traps stops it at the word. -/
theorem trapScalar_some {s : State} {k : FKey} {f : Fib} (h : s.fib? k = some f) (c : Cause) (i : StopInfo) :
    trapScalar k c i s = .next (takeStop k c.code i f.pc s) := by
  rw [trapScalar, h]

/-- A word that a save or restore handler forbids stops there with ILLEGAL (R283, R287). -/
theorem exec_of_handlerForbids {i : Instr} {s : State} {k : FKey} {f : Fib} {body : FKey → Fib → Out}
    (hi : exec i s = scalarWord [] [] s fun k f => if f.hkind = 2 || f.hkind = 3 then trapScalar k .illegal {} s else body k f)
    (h : ScalarTurn s k f [] []) (hk : f.hkind = 2 ∨ f.hkind = 3) : exec i s = .next (takeStop k 1 {} f.pc s) := by
  rw [hi, scalarWord_turn h, if_pos (by simpa using hk)]
  exact trapScalar_some h.fib ..

/-- cbar looks at the handler before the frame of a scalar word (R283). -/
theorem exec_cbar_inHandler {c : BitVec 3} {s : State} {k : FKey} {f : Fib} (h : ScalarTurn s k f [] [])
    (hk : f.hkind = 2 ∨ f.hkind = 3) : exec (.cbar c) s = .next (takeStop k 1 {} f.pc s) := by
  have hi : exec (.cbar c) s = execCbar c s := rfl
  simp only [hi, execCbar, asScalar, h.cur, h.fib]
  rw [if_pos (by simpa using hk)]
  exact trapScalar_some h.fib ..

theorem exec_hidget {r : BitVec 8} {n : BitVec 4} {s : State} {k : FKey} {f : Fib} (h : ScalarTurn s k f [] [r.toNat]) :
    exec (.hidget r n) s = .next (if f.hkind = 0 then takeStop k 26 {} f.pc s
      else s.setFib k (f.after (f.wr r (f.hslots.getD n.toNat 0)) (f.pc + 4))) := by
  have hi : exec (.hidget r n) s = execHidget r n s := rfl
  rw [hi, execHidget, scalarWord_turn h, trapScalar_some h.fib, doneSreg_some h.fib]
  split <;> rfl

theorem exec_hidput {r : BitVec 8} {n : BitVec 4} {s : State} {k : FKey} {f : Fib} (h : ScalarTurn s k f [r.toNat] []) :
    exec (.hidput r n) s = .next (if f.hkind = 0 then takeStop k 26 {} f.pc s
      else s.setFib k { f.after f.regs (f.pc + 4) with hslots := f.hslots.set n.toNat (f.sreg r.toNat) }) := by
  have hi : exec (.hidput r n) s = execHidput r n s := rfl
  rw [hi, execHidput, scalarWord_turn h, trapScalar_some h.fib, onFib_some h.fib]
  split <;> rfl

/-! ### exit (R507) -/

/-- In a handler exit stops with ILLEGAL. -/
theorem exec_exit_inHandler {s : State} {k : FKey} {f : Fib} (h : ScalarTurn s k f [] []) (hk : f.hkind ≠ 0) :
    exec .exit s = .next (takeStop k 1 {} f.pc s) := by
  have hi : exec .exit s = execExit s := rfl
  rw [hi, execExit, scalarWord_turn h, if_pos hk]
  exact trapScalar_some h.fib ..

/-- With every counter at 0 and no scalar load outstanding, the wait of tret and exit is over (R159, R161). -/
theorem lastWait_pass {k : FKey} {f : Fib} {s : State} {go : Out} (hc : ∀ c, c ≤ 5 → f.counter c = 0) (hl : scalarLoadOut s k = false) :
    lastWait k f s go = go := by
  have hld : f.ld = 0 := hc 1 (by omega)
  have hcount : countersWait f = none := by
    rw [countersWait, Option.map_eq_none_iff, List.find?_eq_none]
    intro c hm
    have hle : c ≤ 5 := by simp at hm; omega
    simp [hc c hle]
  simp [lastWait, hl, hld, hcount]

/-- The extension block given back leaves the fibre with none (R199). -/
theorem fib_returnExt {s : State} {k : FKey} {f : Fib} (h : s.fib? k = some f) :
    ∃ g, (returnExt k f s).fib? k = some g ∧ g.ext = false := by
  unfold returnExt
  split
  · have hp : (setPoolFree k (poolFree s k + 1) s).fib? k = some f := h
    exact ⟨_, by rw [onFib_some hp, fib_setFib_self], rfl⟩
  · rename_i hext
    exact ⟨f, h, by simpa using hext⟩

/-- A fibre taken out of its block's tables, and marked as exited, has exited. -/
theorem hasExited_of_leave {s : State} {k : FKey} {f g : Fib} {bl : Block} {x : Fib → Fib} (hg : s.fib? k = some g)
    (hst : (x g).st = .exited) (hext : (x g).ext = false) (hc : InNone f.fid bl.crews) (hl : InNone f.fid bl.late)
    (hi : ∀ e ∈ bl.insv, e.1 ≠ f.fid) : HasExited k f ((s.setBlock f.dom f.bid bl).onFib k x) := by
  have hb : (s.setBlock f.dom f.bid bl).fib? k = some g := hg
  rw [onFib_some hb]
  exact ⟨⟨x g, fib_setFib_self .., hst, hext⟩, by simpa using hc, by simpa using hl, by simpa using hi⟩

/-- With nothing to wait for, exit outside a handler ends its fibre. -/
theorem exec_exit {s : State} {k : FKey} {f : Fib} (h : ScalarTurn s k f [] []) (hk : f.hkind = 0) (hr : f.reports = [])
    (hc : ∀ c, c ≤ 5 → f.counter c = 0) (hl : scalarLoadOut s k = false) : ∃ t, exec .exit s = .next t ∧ HasExited k f t := by
  have hi : exec .exit s = execExit s := rfl
  rw [hi, execExit, scalarWord_turn h, if_neg (not_not.2 hk), consuming_nil hr, lastWait_pass hc hl]
  refine ⟨_, rfl, HasExited.of_residents ?_ ((residents_gangExit ..).trans (residents_endIdleGrants ..))⟩
  have hf : ((trace k [b8 0x62, b8 (handleOf k)] s).onCore k.core fun co =>
      { co with rowOps := co.rowOps.filter (·.k ≠ k) }).fib? k = some f := (fib_trace ..).trans h.fib
  obtain ⟨g, hg, hext⟩ := fib_returnExt hf
  exact (hasExited_of_leave hg rfl hext (inNone_map_filter _ _) (inNone_map_filter _ _) (by simp)).barriersAfterExit

end Sys2Proof
end

section
/-! PROOFS. Handler slots, words a handler forbids, and exit (R283, R287, R395, R507). -/
namespace Sys2Proof

open Sys2Proof.Machine

/-- Settles O10: the forbidden words and the slots stop by the kind of the handler; after an exit the barriers, grants and gang that
it lets end keep the fibre exited and out of its block's tables. -/
theorem handlerWordsAndExit : Obligations.HandlerWordsAndExit := by
  unfold Obligations.HandlerWordsAndExit
  refine ⟨fun c s k f h hk => ?forbids, fun r n s k f => ⟨exec_hidget, exec_hidput⟩, fun s k f h => ⟨exec_exit_inHandler h, ?exit⟩⟩
  case forbids =>
    simp only [List.forall_mem_cons, List.not_mem_nil, false_implies, implies_true, and_true]
    exact ⟨exec_of_handlerForbids rfl h hk, exec_of_handlerForbids rfl h hk, exec_of_handlerForbids rfl h hk, exec_cbar_inHandler h hk,
      exec_of_handlerForbids rfl h hk, exec_of_handlerForbids rfl h hk, exec_of_handlerForbids rfl h hk⟩
  case exit =>
    intro hk hr hc hl
    obtain ⟨t, ht, ⟨g, hg, hst, hext⟩, hcrews, -, hinsv⟩ := exec_exit h hk hr hc hl
    exact ⟨t, g, ht, hg, hst, hext, hcrews.tget, hinsv⟩

end Sys2Proof
end
